-- ==== Sys2Proof/Word.lean ====
section
/-! DEFINITION. The word types of the DX48 (R5, R6, R15): 64-bit register words, bytes, and the plainest arithmetic on them. -/

namespace Sys2Proof

/-- A 64-bit architectural word (R15). -/
abbrev Word := BitVec 64

/-- A byte of memory (R6). -/
abbrev Byte := BitVec 8

/-- The number of a general register, x0 to x15 (R15, R48). -/
abbrev Reg := Fin 16

end Sys2Proof
end

