-- ==== Sys2Proof/Config.lean ====
section
/-! DEFINITION. What the specification leaves to the implementation or does not state: free values, with no body, so that nothing can be proved of them but what holds for every value. -/

namespace Sys2Proof.Config

/-- R33, R9: the cycles that step number n of the model takes. The model has no cycle times, so the value is free (log entry 5). -/
opaque stepCycles : Nat → Nat

/-- The value, not stated by the specification, number n that a step takes (log entry 6). -/
opaque freeWord : Nat → Word

end Sys2Proof.Config
end

