-- ==== Sys2Proof/Syntax.lean ====
section
/-! DEFINITION. The instructions of the DX48 as data (R46 to R68) and, after them, the commands of its units (R70, R73) and the happenings of its units: one constructor per row of the opcode table. -/

namespace Sys2Proof

/-- A source register with its last-use bit (R12, R20, R48). -/
structure Src where
  r : Reg
  last : Bool
  deriving DecidableEq, Repr

/-- The scalar floating-point formats (R52). -/
inductive Fmt where
  | fp64 | fp32 | fp16 | bf16
  deriving DecidableEq, Repr

/-- The rounding field of a floating-point instruction (R52); `dyn` is the value 7, PCS.RM. -/
inductive Rnd where
  | rne | rz | rdn | rup | sr | dyn
  deriving DecidableEq, Repr

/-- The type codes of fcvt (R57). -/
inductive CvtTy where
  | d | s | h | bf | l | lu | w | wu
  deriving DecidableEq, Repr

/-- The predicates of fcmp (R56, R110). -/
inductive FPred where
  | eq | lt | le | un
  deriving DecidableEq, Repr

/-- The special functions of sfn (R58). -/
inductive SfnFn where
  | exp | exp2 | log | log2 | rcp | rsqrt | sin | cos | tanh | sigmoid | erf | atan
  deriving DecidableEq, Repr

/-- The scopes (R51, R191). -/
inductive Scope where
  | core | shed | dev | sys
  deriving DecidableEq, Repr

/-- The memory qualifiers of format M (R50). -/
inductive Qual where
  | plain | fresh | stream | near
  deriving DecidableEq, Repr

/-- The comparison of a waita (R59, R242), and of a run's wait condition (R155). -/
inductive WCmp where
  | eq | ne | lt | ge
  deriving DecidableEq, Repr

/-- The ordering suffix of an atomic (R60). -/
inductive AOrd where
  | relaxed | acq | rel | ar
  deriving DecidableEq, Repr

/-- The kind of a fence (R200). -/
inductive FenceKind where
  | full | acq | rel
  deriving DecidableEq, Repr

/-- The mode of a phaser registration (R63, R210). -/
inductive PhMode where
  | sig | wait | both
  deriving DecidableEq, Repr

/-- The reduction of a phsigv (R63, R215). -/
inductive PhRed where
  | min | max | sum
  deriving DecidableEq, Repr

/-- The ports of tcwh (R64). -/
inductive Port where
  | mat | copy | load | store | patt | wq
  deriving DecidableEq, Repr

/-- The compressed widths of rscz and rsxz (R66, R148): 8, 10 or 12 bits. -/
inductive CzW where
  | w8 | w10 | w12
  deriving DecidableEq, Repr

/-- The access sizes of mld and mst (R396). -/
inductive MSize where
  | b | h | w | d
  deriving DecidableEq, Repr

/-- A request of the host at the CXL.mem or PCIe port (R384): its function, 0 the management driver's and p + 1 that of partition p
(R387, log entry 56), the device, the device-local address, and the bytes of a write or the length of a read; or, of the management
driver, that a 2 MiB granule is exposed or no longer so. -/
inductive HostOp where
  | write (fn dev addr : Nat) (bytes : List Byte)
  | read (fn dev addr len : Nat)
  | expose (fn dev granule : Nat) (on : Bool)
  deriving DecidableEq, Repr

/-- A stream of the mirror of a device to the buddy that the controller names, as of boundary g (R391, log entry 60). -/
structure StreamOp where
  dev : Nat
  buddy : Nat
  g : Nat
  deriving DecidableEq, Repr

/-- The reply actions of a service core (R43, R362). -/
inductive Reply where
  | resume
  | resumeAt (target : BitVec 52)
  | killThread
  | killGroup
  | killRun
  deriving DecidableEq, Repr

/-- The instructions, commands and happenings of the DX48: one constructor per row of the opcode table.
The first 209 are encoded in instruction words (R53 to R68); the commands and happenings that follow carry the
keys (plain numbers) of the machine objects they concern. -/
inductive Instr where
  -- 0x01 Integer ALU (R54, R79)
  | add (w : Bool) (rd : Reg) (ra rb : Src)
  | sub (w : Bool) (rd : Reg) (ra rb : Src)
  | mul (w : Bool) (rd : Reg) (ra rb : Src)
  | mulh (rd : Reg) (ra rb : Src)
  | mulhu (rd : Reg) (ra rb : Src)
  | div (w : Bool) (rd : Reg) (ra rb : Src)
  | divu (w : Bool) (rd : Reg) (ra rb : Src)
  | rem (w : Bool) (rd : Reg) (ra rb : Src)
  | remu (w : Bool) (rd : Reg) (ra rb : Src)
  | and (rd : Reg) (ra rb : Src)
  | or (rd : Reg) (ra rb : Src)
  | xor (rd : Reg) (ra rb : Src)
  | andn (rd : Reg) (ra rb : Src)
  | orn (rd : Reg) (ra rb : Src)
  | shl (w : Bool) (rd : Reg) (ra rb : Src)
  | shr (w : Bool) (rd : Reg) (ra rb : Src)
  | sra (w : Bool) (rd : Reg) (ra rb : Src)
  | rotl (w : Bool) (rd : Reg) (ra rb : Src)
  | rotr (w : Bool) (rd : Reg) (ra rb : Src)
  | min (rd : Reg) (ra rb : Src)
  | max (rd : Reg) (ra rb : Src)
  | minu (rd : Reg) (ra rb : Src)
  | maxu (rd : Reg) (ra rb : Src)
  | slt (rd : Reg) (ra rb : Src)
  | sltu (rd : Reg) (ra rb : Src)
  | seq (rd : Reg) (ra rb : Src)
  | sel (rd : Reg) (ra rb : Src)
  -- 0x02 Integer unary (R55, R82)
  | clz (w : Bool) (rd : Reg) (ra : Src)
  | ctz (w : Bool) (rd : Reg) (ra : Src)
  | popc (w : Bool) (rd : Reg) (ra : Src)
  | sextB (rd : Reg) (ra : Src)
  | sextH (rd : Reg) (ra : Src)
  | sextW (rd : Reg) (ra : Src)
  | zextB (rd : Reg) (ra : Src)
  | zextH (rd : Reg) (ra : Src)
  | zextW (rd : Reg) (ra : Src)
  -- immediates (R83, R84)
  | addi (rd : Reg) (ra : Src) (imm : BitVec 16)
  | andi (rd : Reg) (ra : Src) (imm : BitVec 16)
  | ori (rd : Reg) (ra : Src) (imm : BitVec 16)
  | xori (rd : Reg) (ra : Src) (imm : BitVec 16)
  | shli (w : Bool) (rd : Reg) (ra : Src) (amt : BitVec 6)
  | shri (w : Bool) (rd : Reg) (ra : Src) (amt : BitVec 6)
  | srai (w : Bool) (rd : Reg) (ra : Src) (amt : BitVec 6)
  | slti (rd : Reg) (ra : Src) (imm : BitVec 16)
  | sltiu (rd : Reg) (ra : Src) (imm : BitVec 16)
  | bfx (rd : Reg) (ra : Src) (pos lenM1 : BitVec 6)
  | bfi (rd : Reg) (ra : Src) (pos lenM1 : BitVec 6)
  -- floating point (R56, R57, R58)
  | fadd (rnd : Rnd) (f : Fmt) (rd : Reg) (ra rb : Src)
  | fsub (rnd : Rnd) (f : Fmt) (rd : Reg) (ra rb : Src)
  | fmul (rnd : Rnd) (f : Fmt) (rd : Reg) (ra rb : Src)
  | fdiv (rnd : Rnd) (f : Fmt) (rd : Reg) (ra rb : Src)
  | fmin (rnd : Rnd) (f : Fmt) (rd : Reg) (ra rb : Src)
  | fmax (rnd : Rnd) (f : Fmt) (rd : Reg) (ra rb : Src)
  | fma (rnd : Rnd) (f : Fmt) (rd : Reg) (ra rb : Src)
  | fms (rnd : Rnd) (f : Fmt) (rd : Reg) (ra rb : Src)
  | fsqrt (rnd : Rnd) (f : Fmt) (rd : Reg) (ra : Src)
  | fneg (f : Fmt) (rd : Reg) (ra : Src)
  | fabs (f : Fmt) (rd : Reg) (ra : Src)
  | fclass (f : Fmt) (rd : Reg) (ra : Src)
  | fround (rnd : Rnd) (f : Fmt) (rd : Reg) (ra : Src)
  | fcvt (rnd : Rnd) (dst src : CvtTy) (rd : Reg) (ra : Src)
  | fcmp (f : Fmt) (p : FPred) (rd : Reg) (ra rb : Src)
  | sfn (fn : SfnFn) (rd : Reg) (ra : Src)
  -- address, tag and constants (R86 to R88)
  | adda (rd : Reg) (ra rb : Src)
  | addai (rd : Reg) (ra : Src) (imm : BitVec 16)
  | tagset (rd : Reg) (ra : Src) (blog : BitVec 4) (fmt : BitVec 6)
  | tagget (rd : Reg) (ra : Src)
  | tagclr (rd : Reg) (ra : Src)
  | ldk (rd : Reg) (imm : BitVec 16) (idx : BitVec 2)
  | ink (rd : Reg) (imm : BitVec 16) (idx : BitVec 2)
  -- loads, stores, prefetch (R90)
  | ldB (q : Qual) (rd : Reg) (ra : Src) (off : BitVec 12)
  | ldH (q : Qual) (rd : Reg) (ra : Src) (off : BitVec 12)
  | ldW (q : Qual) (rd : Reg) (ra : Src) (off : BitVec 12)
  | ldD (q : Qual) (rd : Reg) (ra : Src) (off : BitVec 12)
  | ldBS (q : Qual) (rd : Reg) (ra : Src) (off : BitVec 12)
  | ldHS (q : Qual) (rd : Reg) (ra : Src) (off : BitVec 12)
  | ldWS (q : Qual) (rd : Reg) (ra : Src) (off : BitVec 12)
  | stB (q : Qual) (rd : Src) (ra : Src) (off : BitVec 12)
  | stH (q : Qual) (rd : Src) (ra : Src) (off : BitVec 12)
  | stW (q : Qual) (rd : Src) (ra : Src) (off : BitVec 12)
  | stD (q : Qual) (rd : Src) (ra : Src) (off : BitVec 12)
  | pf (q : Qual) (ra : Src) (off : BitVec 12)
  -- memory levels (R59)
  | waita (w all : Bool) (c : WCmp) (rd : Reg) (ra rb : Src)
  | wakea (ra : Src)
  | wakeaAll (ra : Src)
  | home (rd : Reg) (ra : Src)
  | l1inv (ra : Src)
  -- atomics (R60); `d` is the width bit, 1 for .d
  | aadd (ret d : Bool) (sc : Scope) (o : AOrd) (rd : Reg) (ra rb : Src)
  | aand (ret d : Bool) (sc : Scope) (o : AOrd) (rd : Reg) (ra rb : Src)
  | aor (ret d : Bool) (sc : Scope) (o : AOrd) (rd : Reg) (ra rb : Src)
  | axor (ret d : Bool) (sc : Scope) (o : AOrd) (rd : Reg) (ra rb : Src)
  | amin (ret d : Bool) (sc : Scope) (o : AOrd) (rd : Reg) (ra rb : Src)
  | amax (ret d : Bool) (sc : Scope) (o : AOrd) (rd : Reg) (ra rb : Src)
  | aminu (ret d : Bool) (sc : Scope) (o : AOrd) (rd : Reg) (ra rb : Src)
  | amaxu (ret d : Bool) (sc : Scope) (o : AOrd) (rd : Reg) (ra rb : Src)
  | aswp (ret d : Bool) (sc : Scope) (o : AOrd) (rd : Reg) (ra rb : Src)
  | adecp (ret d : Bool) (sc : Scope) (o : AOrd) (rd : Reg) (ra : Src)
  | afadd (ret d : Bool) (sc : Scope) (o : AOrd) (rd : Reg) (ra rb : Src)
  | acas (d : Bool) (sc : Scope) (o : AOrd) (rd : Reg) (ra rb : Src)
  -- control flow (R61, R98, R99)
  | beq (ra rb : Src) (off : BitVec 12)
  | bne (ra rb : Src) (off : BitVec 12)
  | blt (ra rb : Src) (off : BitVec 12)
  | bge (ra rb : Src) (off : BitVec 12)
  | bltu (ra rb : Src) (off : BitVec 12)
  | bgeu (ra rb : Src) (off : BitVec 12)
  | bz (ra : Src) (off : BitVec 17)
  | bnz (ra : Src) (off : BitVec 17)
  | bltz (ra : Src) (off : BitVec 17)
  | bgez (ra : Src) (off : BitVec 17)
  | jal (rd : Reg) (off : BitVec 21)
  | jalr (rd : Reg) (ra : Src) (imm : BitVec 16)
  -- threads (R53, R62)
  | spawn (rd : Reg) (ra : Src) (n : BitVec 3)
  | post (rd : Reg) (ra : Src)
  | launch (rd : Reg) (ra : Src)
  | migr (ra : Src)
  | coord (rd : Reg)
  | exit
  | yield
  | oflush
  | beat
  | safept (n : BitVec 16)
  -- synchronisation (R53, R63)
  | fence (k : FenceKind) (sc : Scope)
  | ldacq (w : Bool) (sc : Scope) (rd : Reg) (ra : Src) (off : BitVec 12)
  | strel (w : Bool) (sc : Scope) (rd : Src) (ra : Src) (off : BitVec 12)
  | phreg (m : PhMode) (ph : BitVec 6) (rd : Reg)
  | phdrop (ph : BitVec 6)
  | phsig (ph : BitVec 6)
  | phsigv (k : PhRed) (ph : BitVec 6) (ra : Src)
  | phwait (ph : BitVec 6) (rd : Reg)
  | phnext (ph : BitVec 6) (rd : Reg)
  | phexpect (ph : BitVec 6) (ra : Src)
  | phread (ph : BitVec 6) (rd : Reg)
  | fget (rd : Reg) (ra : Src)
  | ffill (ra rb : Src)
  | fclr (ra : Src)
  | pause
  -- engines (R64)
  | tcwl (ra rb : Src)
  | tcwh (p : Port) (rd : Reg) (ra rb : Src)
  | jpoll (rd : Reg) (ra : Src)
  | jwait (ra : Src)
  | vbusy (rd : Reg)
  | vfence
  | ftile (rd : Reg) (ra : Src)
  | vop (ra rb : Src)
  | rdef (q : BitVec 5) (rd : Reg) (ra : Src)
  | rwaitf (q : BitVec 5) (rd : Reg) (ra : Src)
  | rwaite (q : BitVec 5) (rd : Reg) (ra : Src)
  | radvh (q : BitVec 5) (ra : Src)
  | radvt (q : BitVec 5) (ra : Src)
  | rstat (q : BitVec 5) (rd : Reg)
  -- events, regions, random bits, queues (R65)
  | ktree (k : BitVec 4) (ra : Src)
  | kset (k : BitVec 4) (ra rb : Src)
  | kseti (k : BitVec 4) (ra rb : Src)
  | kget (k : BitVec 4) (rd : Reg) (ra : Src)
  | ktot (k : BitVec 4) (rd : Reg)
  | evnext (k : BitVec 4) (rd : Reg)
  | evdisp (k : BitVec 4)
  | clkget (k : BitVec 4) (rd : Reg)
  | bsend (k : BitVec 4) (rd : Reg) (ra rb : Src)
  | bmsg (k : BitVec 4) (rd : Reg) (ra : Src)
  | ckpt (k : BitVec 4) (rd : Reg)
  | rollb (k : BitVec 4) (rd : Reg)
  | mark (k : BitVec 4) (ra rb : Src)
  | unmark (k : BitVec 4) (ra rb : Src)
  | fossil (k : BitVec 4) (ra : Src)
  | dgst (k : BitVec 4) (rd : Reg)
  | rgnsave (k : BitVec 4) (ra : Src)
  | rgnload (k : BitVec 4) (ra : Src)
  | rngb (rd : Reg) (ra rb : Src)
  | rbern (rd : Reg) (ra rb : Src)
  | thash (rd : Reg) (ra rb : Src)
  | pqpush (k : BitVec 4) (rd : Reg) (ra rb : Src)
  | pqpop (k : BitVec 4) (rd : Reg) (ra : Src)
  | pqmin (k : BitVec 4) (rd : Reg)
  | pqlen (k : BitVec 4) (rd : Reg)
  -- real sets (R66)
  | rsadd (z : BitVec 3) (rd : Reg) (ra rb : Src)
  | rssub (z : BitVec 3) (rd : Reg) (ra rb : Src)
  | rsmul (z : BitVec 3) (rd : Reg) (ra rb : Src)
  | rsdiv (z : BitVec 3) (rd : Reg) (ra rb : Src)
  | rsor (z : BitVec 3) (rd : Reg) (ra rb : Src)
  | rsand (z : BitVec 3) (rd : Reg) (ra rb : Src)
  | rslt (z : BitVec 3) (rd : Reg) (ra rb : Src)
  | rsfi (z : BitVec 3) (rd : Reg) (ra rb : Src)
  | rsneg (z : BitVec 3) (rd : Reg) (ra : Src)
  | rsinv (z : BitVec 3) (rd : Reg) (ra : Src)
  | rssq (z : BitVec 3) (rd : Reg) (ra : Src)
  | rslo (z : BitVec 3) (rd : Reg) (ra : Src)
  | rshi (z : BitVec 3) (rd : Reg) (ra : Src)
  | rsconn (z : BitVec 3) (rd : Reg) (ra : Src)
  | rsf (z : BitVec 3) (rd : Reg) (ra : Src)
  | rsring (z : BitVec 3) (rd : Reg) (ra : Src)
  | rscz (w : CzW) (z : BitVec 3) (rd : Reg) (ra : Src)
  | rsxz (w : CzW) (z : BitVec 3) (rd : Reg) (ra : Src)
  -- the loft (R53)
  | ploft (rd : Reg) (ra : Src)
  | pevict (rd : Reg) (ra : Src)
  -- the maintenance form (R396)
  | mld (sz : MSize) (rd : Reg) (ra rb : Src) (off : BitVec 8)
  | mst (sz : MSize) (rd : Reg) (ra rb : Src) (off : BitVec 8)
  -- system (R53, R67, R68)
  | sys (n : BitVec 16)
  | brk (n : BitVec 16)
  | crr (cr : BitVec 12) (rd : Reg)
  | crw (cr : BitVec 12) (ra : Src)
  | crs (cr : BitVec 12) (rd : Reg) (ra : Src)
  | crc (cr : BitVec 12) (rd : Reg) (ra : Src)
  | eret
  | tlbinv (ra rb : Src)
  | frep (ra rb : Src)
  | hvc (ra : Src)
  | idle
  | kill (ra : Src)
  -- tile commands (R70): `j` is the key of the job that carries the command words
  | mmul (j : Nat)
  | mmulg (j : Nat)
  | accz (j : Nat)
  | accld (j : Nat)
  | accst (j : Nat)
  | spmm (j : Nat)
  | spcol (j : Nat)
  | copy (j : Nat)
  | gath (j : Nat)
  | scat (j : Nat)
  | cvtb (j : Nat)
  | subscription (j : Nat)
  | subTile (j : Nat)
  | drain (j : Nat)
  | drainTile (j : Nat)
  | pfill (j : Nat)
  | wqdef (j : Nat)
  | jobCompletion (j : Nat)
  -- vector commands (R73): `v` is the key of the queued vector command
  | vadd (v : Nat)
  | vsub (v : Nat)
  | vmul (v : Nat)
  | vfma (v : Nat)
  | vmin (v : Nat)
  | vmax (v : Nat)
  | vabs (v : Nat)
  | vcvt (v : Nat)
  | vsfn (v : Nat)
  | vcmp (v : Nat)
  | vsel (v : Nat)
  | vcopy (v : Nat)
  | vsum (v : Nat)
  | vscan (v : Nat)
  | vmaxi (v : Nat)
  | vgath (v : Nat)
  | vscat (v : Nat)
  | vscad (v : Nat)
  | vbern (v : Nat)
  | vrs (v : Nat)
  -- happenings: `t` a thread, `f` a posted fault message, `c` a physical core, `r` a run, `l` a logical shed, `h` a physical shed
  | registerFill (t : Nat)
  | faultBufferEntry (f : Nat)
  | faultRetry (f : Nat)
  | faultReply (f : Nat) (a : Reply)
  | fbstatWrite (sv : Nat) (v : Word)
  | utvecWrite (t : Nat) (v : Word)
  | preemptRequest (r : Nat)
  | preemptCancel (r : Nat)
  | restore (r : Nat)
  | deschedule (l : Nat)
  | timeSlice (l : Nat)
  | watchdog (r h : Nat)
  | threadAged (t : Nat)
  | pauseEnd (t : Nat)
  | activeMessageArrival (c i : Nat)
  | contextFreeNotice (c e : Nat)
  | slotHoldExpiry (c sl : Nat)
  | messageRetry (c i : Nat)
  | migrationArrival (t : Nat)
  | dispatch (p : Nat)
  | conditionWake (r : Nat)
  | conditionRecheck (r : Nat)
  | launchDoorbell (p hdr : Nat)
  | runDone (r : Nat)
  | waitaWake (t : Nat)
  | loftInvalidation (h line : Nat)
  | patternCompile (h : Nat)
  | sfnResult (t : Nat)
  | realSetResult (t : Nat)
  | tableBuild (t : Nat)
  | boundaryMessageArrival (m : Nat)
  | antiMessageArrival (m : Nat)
  | arrivalAcknowledgement (m : Nat)
  | pageMigration (m : Nat)
  | redirectNotice (h m : Nat)
  | hostAccess (op : HostOp)
  | featureAccept (dev : Nat) (w : BitVec 128)
  | flitRetry (dev port : Nat)
  | reroute (dev port : Nat)
  | deviceReset (dev : Nat)
  | shedReset (h : Nat)
  | maintenanceState (shed : Bool) (n : Nat) (enter : Bool)
  | thermalLimit (h : Nat) (withhold : Bool)
  | criticalLimit (dev : Nat)
  | mirrorStream (op : StreamOp)
  | safeTierCheckpoint (p : Nat)
  | rewind (r g : Nat)
  | deviceFailureDetection (dev : Nat)
  | illegal (w : BitVec 32)
  | vectorCommandCompletion (v : Nat)
  | accessPerformed (t i : Nat)
  deriving DecidableEq, Repr

end Sys2Proof
end

