-- ==== Sys2Proof/WellFormed.lean ====
section
/-! DEFINITION. Which terms of Instr stand for an instruction word: the limits of R50, R53 to R68 that the types of Syntax.lean leave open. -/

namespace Sys2Proof

/-- The control-register numbers of the list of R67 below the service-only range. -/
def crListed : List Nat :=
  [0x000, 0x001, 0x002, 0x003, 0x004, 0x005, 0x010, 0x011, 0x020, 0x021, 0x022, 0x023, 0x030, 0x031, 0x040, 0x0F0]

/-- A control-register number an instruction word may hold: listed, or service-only (R67). -/
def crNumberOk (cr : BitVec 12) : Bool :=
  decide (0x800 ≤ cr.toNat) || crListed.contains cr.toNat

/-- The integer types of fcvt (R57). -/
def CvtTy.isInt : CvtTy → Bool
  | .l | .lu | .w | .wu => true
  | .d | .s | .h | .bf => false

/-- The .n form of an atomic writes no register: its rd must be x0 (R60, R207). -/
def atomicRdOk (ret : Bool) (rd : Reg) : Bool := ret || rd == 0

/-- A word-form shift immediate uses imm[4:0] (R85). -/
def shiftAmtOk (w : Bool) (amt : BitVec 6) : Bool := !w || decide (amt.toNat < 32)

/-- pos + len ≤ 64 (R84, R85). -/
def fieldOk (pos lenM1 : BitVec 6) : Bool := decide (pos.toNat + lenM1.toNat + 1 ≤ 64)

/-- R50: the qualifiers a store accepts. -/
def Qual.storeOk : Qual → Bool
  | .fresh => false
  | .plain | .stream | .near => true

/-- R50: the qualifiers pf accepts. -/
def Qual.pfOk : Qual → Bool
  | .plain | .stream => true
  | .fresh | .near => false

/-- The limits of R50 and R53 to R68 on an instruction's operands, one match over the constructors that have one;
every other term is well-formed by its type. -/
def Instr.wellFormed : Instr → Bool
  | .shli w _ _ amt | .shri w _ _ amt | .srai w _ _ amt => shiftAmtOk w amt
  | .bfx _ _ pos lenM1 | .bfi _ _ pos lenM1 => fieldOk pos lenM1
  | .fcvt _ dst src _ _ => dst != src && !(dst.isInt && src.isInt)
  | .stB q _ _ _ | .stH q _ _ _ | .stW q _ _ _ | .stD q _ _ _ => q.storeOk
  | .pf q _ _ => q.pfOk
  | .aadd ret _ _ _ rd _ _ | .aand ret _ _ _ rd _ _ | .aor ret _ _ _ rd _ _ | .axor ret _ _ _ rd _ _
  | .amin ret _ _ _ rd _ _ | .amax ret _ _ _ rd _ _ | .aminu ret _ _ _ rd _ _ | .amaxu ret _ _ _ rd _ _
  | .aswp ret _ _ _ rd _ _ | .afadd ret _ _ _ rd _ _ => atomicRdOk ret rd
  | .adecp ret _ _ _ rd _ => atomicRdOk ret rd
  | .spawn _ _ n => n != 7
  | .crr cr _ | .crw cr _ | .crs cr _ _ | .crc cr _ _ => crNumberOk cr
  | _ => true

end Sys2Proof
end

