-- ==== Sys2Proof/Decode.lean ====
section
/-! DEFINITION. From instruction words to Instr (R46 to R68, R74) and back: the decoder, total on every word and rejecting by name, and the encoder written from the same maps. -/

namespace Sys2Proof

/-- Why a word is no instruction (R74). -/
inductive Reject where
  | allZeros            -- 0x0000_0000
  | allOnes             -- 0xFFFF_FFFF
  | unassignedOpcode    -- R53
  | unassignedFunction  -- a fn, sub or cond value without a row
  | reservedField       -- R49: a field that must be zero is not
  | limit               -- a limit that R50 or R53 to R68 marks ILLEGAL
  | notAWord            -- fewer than four bytes, or a number above 32 bits
  deriving DecidableEq, Repr

/-! ### Codes of the small fields -/

def Fmt.code : Fmt → Nat
  | .fp64 => 0 | .fp32 => 1 | .fp16 => 2 | .bf16 => 3

def Fmt.ofCode (n : Nat) : Fmt :=
  match n with
  | 0 => .fp64 | 1 => .fp32 | 2 => .fp16 | _ => .bf16

def Rnd.code : Rnd → Nat
  | .rne => 0 | .rz => 1 | .rdn => 2 | .rup => 3 | .sr => 4 | .dyn => 7

def Rnd.ofCode (n : Nat) : Option Rnd :=
  match n with
  | 0 => some .rne | 1 => some .rz | 2 => some .rdn | 3 => some .rup | 4 => some .sr | 7 => some .dyn
  | _ => none

def CvtTy.code : CvtTy → Nat
  | .d => 0 | .s => 1 | .h => 2 | .bf => 3 | .l => 4 | .lu => 5 | .w => 6 | .wu => 7

def CvtTy.ofCode (n : Nat) : Option CvtTy :=
  match n with
  | 0 => some .d | 1 => some .s | 2 => some .h | 3 => some .bf | 4 => some .l | 5 => some .lu | 6 => some .w | 7 => some .wu
  | _ => none

def FPred.code : FPred → Nat
  | .eq => 0 | .lt => 1 | .le => 2 | .un => 3

def FPred.ofCode (n : Nat) : Option FPred :=
  match n with
  | 0 => some .eq | 1 => some .lt | 2 => some .le | 3 => some .un
  | _ => none

def SfnFn.code : SfnFn → Nat
  | .exp => 0 | .exp2 => 1 | .log => 2 | .log2 => 3 | .rcp => 4 | .rsqrt => 5 | .sin => 6 | .cos => 7
  | .tanh => 8 | .sigmoid => 9 | .erf => 10 | .atan => 11

def SfnFn.ofCode (n : Nat) : Option SfnFn :=
  match n with
  | 0 => some .exp | 1 => some .exp2 | 2 => some .log | 3 => some .log2 | 4 => some .rcp | 5 => some .rsqrt
  | 6 => some .sin | 7 => some .cos | 8 => some .tanh | 9 => some .sigmoid | 10 => some .erf | 11 => some .atan
  | _ => none

def Scope.code : Scope → Nat
  | .core => 0 | .shed => 1 | .dev => 2 | .sys => 3

def Scope.ofCode (n : Nat) : Scope :=
  match n with
  | 0 => .core | 1 => .shed | 2 => .dev | _ => .sys

def Qual.code : Qual → Nat
  | .plain => 0 | .fresh => 1 | .stream => 2 | .near => 3

def Qual.ofCode (n : Nat) : Option Qual :=
  match n with
  | 0 => some .plain | 1 => some .fresh | 2 => some .stream | 3 => some .near
  | _ => none

def WCmp.code : WCmp → Nat
  | .eq => 0 | .ne => 1 | .lt => 2 | .ge => 3

def WCmp.ofCode (n : Nat) : WCmp :=
  match n with
  | 0 => .eq | 1 => .ne | 2 => .lt | _ => .ge

def AOrd.code : AOrd → Nat
  | .relaxed => 0 | .acq => 1 | .rel => 2 | .ar => 3

def AOrd.ofCode (n : Nat) : Option AOrd :=
  match n with
  | 0 => some .relaxed | 1 => some .acq | 2 => some .rel | 3 => some .ar
  | _ => none

def FenceKind.code : FenceKind → Nat
  | .full => 0 | .acq => 1 | .rel => 2

def FenceKind.ofCode (n : Nat) : Option FenceKind :=
  match n with
  | 0 => some .full | 1 => some .acq | 2 => some .rel
  | _ => none

def PhMode.code : PhMode → Nat
  | .sig => 0 | .wait => 1 | .both => 2

def PhMode.ofCode (n : Nat) : Option PhMode :=
  match n with
  | 0 => some .sig | 1 => some .wait | 2 => some .both
  | _ => none

def PhRed.code : PhRed → Nat
  | .min => 0 | .max => 1 | .sum => 2

def PhRed.ofCode (n : Nat) : Option PhRed :=
  match n with
  | 0 => some .min | 1 => some .max | 2 => some .sum
  | _ => none

def Port.code : Port → Nat
  | .mat => 0 | .copy => 1 | .load => 2 | .store => 3 | .patt => 4 | .wq => 5

def Port.ofCode (n : Nat) : Option Port :=
  match n with
  | 0 => some .mat | 1 => some .copy | 2 => some .load | 3 => some .store | 4 => some .patt | 5 => some .wq
  | _ => none

def CzW.code : CzW → Nat
  | .w8 => 0 | .w10 => 1 | .w12 => 2

def CzW.ofCode (n : Nat) : Option CzW :=
  match n with
  | 0 => some .w8 | 1 => some .w10 | 2 => some .w12
  | _ => none

def MSize.code : MSize → Nat
  | .b => 0 | .h => 1 | .w => 2 | .d => 3

def MSize.ofCode (n : Nat) : MSize :=
  match n with
  | 0 => .b | 1 => .h | 2 => .w | _ => .d

/-! ### Formats (R47) -/

/-- A register field that a form does not use (R49). -/
def Src.none : Src := ⟨0, false⟩

def Src.isNone (s : Src) : Bool := s.r == 0 && !s.last

def mkReg (n : Nat) : Reg := Fin.ofNat 16 n

def mkSrc (r l : Nat) : Src := ⟨mkReg r, l % 2 == 1⟩

def Bool.num (b : Bool) : Nat := if b then 1 else 0

def encR (op fn : Nat) (rd : Reg) (ra rb : Src) : Nat :=
  op + rd.val * 2 ^ 7 + ra.r.val * 2 ^ 11 + Bool.num ra.last * 2 ^ 15 + rb.r.val * 2 ^ 16 + Bool.num rb.last * 2 ^ 20 + fn * 2 ^ 21

def encI (op : Nat) (rd : Reg) (ra : Src) (imm : Nat) : Nat :=
  op + rd.val * 2 ^ 7 + ra.r.val * 2 ^ 11 + Bool.num ra.last * 2 ^ 15 + imm * 2 ^ 16

def encM (op : Nat) (rd ra : Src) (q off : Nat) : Nat :=
  op + rd.r.val * 2 ^ 7 + ra.r.val * 2 ^ 11 + Bool.num ra.last * 2 ^ 15 + q * 2 ^ 16 + Bool.num rd.last * 2 ^ 19 + off * 2 ^ 20

def encB (op cond : Nat) (ra rb : Src) (off : Nat) : Nat :=
  op + ra.r.val * 2 ^ 7 + Bool.num ra.last * 2 ^ 11 + rb.r.val * 2 ^ 12 + Bool.num rb.last * 2 ^ 16 + cond * 2 ^ 17 + off * 2 ^ 20

def encZ (op cond : Nat) (ra : Src) (off : Nat) : Nat :=
  op + ra.r.val * 2 ^ 7 + Bool.num ra.last * 2 ^ 11 + cond * 2 ^ 12 + off * 2 ^ 15

def encJ (op : Nat) (rd : Reg) (off : Nat) : Nat :=
  op + rd.val * 2 ^ 7 + off * 2 ^ 11

def encK (op : Nat) (rd : Reg) (idx imm : Nat) : Nat :=
  op + rd.val * 2 ^ 7 + idx * 2 ^ 11 + imm * 2 ^ 16

def encC (op fn8 sub3 : Nat) (rd : Reg) (ra rb : Src) : Nat :=
  op + rd.val * 2 ^ 7 + ra.r.val * 2 ^ 11 + Bool.num ra.last * 2 ^ 15 + rb.r.val * 2 ^ 16 + Bool.num rb.last * 2 ^ 20 + sub3 * 2 ^ 21
    + fn8 * 2 ^ 24

def encS (op sub5 imm : Nat) (rd : Reg) : Nat :=
  op + rd.val * 2 ^ 7 + sub5 * 2 ^ 11 + imm * 2 ^ 16

def opOf (w : Nat) : Nat := w % 128

/-- The fields of one format, read from a word. -/
structure Fields where
  rd : Reg
  ra : Src
  rb : Src
  fn : Nat
  sub : Nat
  deriving DecidableEq, Repr

def decR (w : Nat) : Fields :=
  { rd := mkReg (w / 2 ^ 7 % 16), ra := mkSrc (w / 2 ^ 11 % 16) (w / 2 ^ 15 % 2), rb := mkSrc (w / 2 ^ 16 % 16) (w / 2 ^ 20 % 2),
    fn := w / 2 ^ 21, sub := 0 }

def decI (w : Nat) : Fields :=
  { rd := mkReg (w / 2 ^ 7 % 16), ra := mkSrc (w / 2 ^ 11 % 16) (w / 2 ^ 15 % 2), rb := Src.none, fn := w / 2 ^ 16, sub := 0 }

/-- Format M: `rb` holds the rd field with its ld bit, `sub` the bits 18:16, `fn` the offset. -/
def decM (w : Nat) : Fields :=
  { rd := mkReg (w / 2 ^ 7 % 16), ra := mkSrc (w / 2 ^ 11 % 16) (w / 2 ^ 15 % 2),
    rb := mkSrc (w / 2 ^ 7 % 16) (w / 2 ^ 19 % 2), fn := w / 2 ^ 20, sub := w / 2 ^ 16 % 8 }

def decB (w : Nat) : Fields :=
  { rd := 0, ra := mkSrc (w / 2 ^ 7 % 16) (w / 2 ^ 11 % 2), rb := mkSrc (w / 2 ^ 12 % 16) (w / 2 ^ 16 % 2),
    fn := w / 2 ^ 20, sub := w / 2 ^ 17 % 8 }

def decZ (w : Nat) : Fields :=
  { rd := 0, ra := mkSrc (w / 2 ^ 7 % 16) (w / 2 ^ 11 % 2), rb := Src.none, fn := w / 2 ^ 15, sub := w / 2 ^ 12 % 8 }

def decJ (w : Nat) : Fields :=
  { rd := mkReg (w / 2 ^ 7 % 16), ra := Src.none, rb := Src.none, fn := w / 2 ^ 11, sub := 0 }

/-- Format K: `sub` holds bits 15:11, of which 15:13 are res0. -/
def decK (w : Nat) : Fields :=
  { rd := mkReg (w / 2 ^ 7 % 16), ra := Src.none, rb := Src.none, fn := w / 2 ^ 16, sub := w / 2 ^ 11 % 32 }

def decC (w : Nat) : Fields :=
  { rd := mkReg (w / 2 ^ 7 % 16), ra := mkSrc (w / 2 ^ 11 % 16) (w / 2 ^ 15 % 2), rb := mkSrc (w / 2 ^ 16 % 16) (w / 2 ^ 20 % 2),
    fn := w / 2 ^ 24, sub := w / 2 ^ 21 % 8 }

/-- Format S: the same cut as K. -/
def decS (w : Nat) : Fields :=
  { rd := mkReg (w / 2 ^ 7 % 16), ra := Src.none, rb := Src.none, fn := w / 2 ^ 16, sub := w / 2 ^ 11 % 32 }

/-! ### Sub-maps -/

abbrev Dec := Except Reject Instr

def badFn : Dec := .error .unassignedFunction
def badRes : Dec := .error .reservedField
def badLimit : Dec := .error .limit

/-- Answer `i` if its limits hold (R50 to R68). -/
def checked (i : Instr) : Dec := if i.wellFormed then .ok i else badLimit

/-- R49: answer `d` if the unused fields are zero. -/
def need (ok : Bool) (d : Dec) : Dec := if ok then d else badRes

/-- R49: a form whose W bit, when not allowed, must be zero. -/
def noW (w : Bool) (i : Instr) : Dec := if w then badLimit else .ok i

/-- R54. -/
def decAlu (f : Fields) : Dec :=
  let w := f.fn / 1024 % 2 == 1
  if f.fn / 32 % 32 != 0 then badRes
  else match f.fn % 32 with
  | 0 => .ok (.add w f.rd f.ra f.rb)
  | 1 => .ok (.sub w f.rd f.ra f.rb)
  | 2 => .ok (.mul w f.rd f.ra f.rb)
  | 3 => noW w (.mulh f.rd f.ra f.rb)
  | 4 => noW w (.mulhu f.rd f.ra f.rb)
  | 5 => .ok (.div w f.rd f.ra f.rb)
  | 6 => .ok (.divu w f.rd f.ra f.rb)
  | 7 => .ok (.rem w f.rd f.ra f.rb)
  | 8 => .ok (.remu w f.rd f.ra f.rb)
  | 9 => noW w (.and f.rd f.ra f.rb)
  | 10 => noW w (.or f.rd f.ra f.rb)
  | 11 => noW w (.xor f.rd f.ra f.rb)
  | 12 => noW w (.andn f.rd f.ra f.rb)
  | 13 => noW w (.orn f.rd f.ra f.rb)
  | 14 => .ok (.shl w f.rd f.ra f.rb)
  | 15 => .ok (.shr w f.rd f.ra f.rb)
  | 16 => .ok (.sra w f.rd f.ra f.rb)
  | 17 => .ok (.rotl w f.rd f.ra f.rb)
  | 18 => .ok (.rotr w f.rd f.ra f.rb)
  | 19 => noW w (.min f.rd f.ra f.rb)
  | 20 => noW w (.max f.rd f.ra f.rb)
  | 21 => noW w (.minu f.rd f.ra f.rb)
  | 22 => noW w (.maxu f.rd f.ra f.rb)
  | 23 => noW w (.slt f.rd f.ra f.rb)
  | 24 => noW w (.sltu f.rd f.ra f.rb)
  | 25 => noW w (.seq f.rd f.ra f.rb)
  | 26 => noW w (.sel f.rd f.ra f.rb)
  | _ => badFn

/-- R55. -/
def decUnary (f : Fields) : Dec :=
  let w := f.fn / 1024 % 2 == 1
  if f.fn / 32 % 32 != 0 || !f.rb.isNone then badRes
  else match f.fn % 32 with
  | 0 => .ok (.clz w f.rd f.ra)
  | 1 => .ok (.ctz w f.rd f.ra)
  | 2 => .ok (.popc w f.rd f.ra)
  | 4 => noW w (.sextB f.rd f.ra)
  | 5 => noW w (.sextH f.rd f.ra)
  | 6 => noW w (.sextW f.rd f.ra)
  | 8 => noW w (.zextB f.rd f.ra)
  | 9 => noW w (.zextH f.rd f.ra)
  | 10 => noW w (.zextW f.rd f.ra)
  | _ => badFn

/-- R53: the shift immediates; imm[15:7] zero, imm[6] the word form. -/
def decShift (mk : Bool → Reg → Src → BitVec 6 → Instr) (f : Fields) : Dec :=
  need (f.fn / 128 == 0) (checked (mk (f.fn / 64 % 2 == 1) f.rd f.ra (BitVec.ofNat 6 f.fn)))

/-- R53: bfx and bfi. -/
def decField (mk : Reg → Src → BitVec 6 → BitVec 6 → Instr) (f : Fields) : Dec :=
  need (f.fn / 4096 == 0) (checked (mk f.rd f.ra (BitVec.ofNat 6 f.fn) (BitVec.ofNat 6 (f.fn / 64))))

/-- R56: FP binary. -/
def decFpBin (f : Fields) : Dec :=
  match Rnd.ofCode (f.fn / 256) with
  | none => badLimit
  | some r =>
    let t := Fmt.ofCode (f.fn / 64 % 4)
    if f.fn / 32 % 2 != 0 then badRes
    else match f.fn % 32 with
    | 0 => .ok (.fadd r t f.rd f.ra f.rb)
    | 1 => .ok (.fsub r t f.rd f.ra f.rb)
    | 2 => .ok (.fmul r t f.rd f.ra f.rb)
    | 3 => .ok (.fdiv r t f.rd f.ra f.rb)
    | 4 => .ok (.fmin r t f.rd f.ra f.rb)
    | 5 => .ok (.fmax r t f.rd f.ra f.rb)
    | _ => badFn

/-- R56: fma and fms (C format: sub3 the rounding, fn8[7:6] the format). -/
def decFma (f : Fields) : Dec :=
  match Rnd.ofCode f.sub with
  | none => badLimit
  | some r =>
    let t := Fmt.ofCode (f.fn / 64)
    match f.fn % 64 with
    | 0 => .ok (.fma r t f.rd f.ra f.rb)
    | 1 => .ok (.fms r t f.rd f.ra f.rb)
    | _ => badFn

/-- R56: FP unary; fneg, fabs and fclass take only the rounding value 7. -/
def decFpUn (f : Fields) : Dec :=
  match Rnd.ofCode (f.fn / 256) with
  | none => badLimit
  | some r =>
    let t := Fmt.ofCode (f.fn / 64 % 4)
    if f.fn / 32 % 2 != 0 || !f.rb.isNone then badRes
    else match f.fn % 32 with
    | 0 => .ok (.fsqrt r t f.rd f.ra)
    | 1 => if r = .dyn then .ok (.fneg t f.rd f.ra) else badLimit
    | 2 => if r = .dyn then .ok (.fabs t f.rd f.ra) else badLimit
    | 3 => if r = .dyn then .ok (.fclass t f.rd f.ra) else badLimit
    | 4 => .ok (.fround r t f.rd f.ra)
    | _ => badFn

/-- R57. -/
def decFcvt (f : Fields) : Dec :=
  if !f.rb.isNone then badRes
  else match Rnd.ofCode (f.fn / 256), CvtTy.ofCode (f.fn / 16 % 16), CvtTy.ofCode (f.fn % 16) with
  | some r, some dt, some st => checked (.fcvt r dt st f.rd f.ra)
  | _, _, _ => badLimit

/-- R56: fcmp. -/
def decFcmp (f : Fields) : Dec :=
  if f.fn / 256 != 0 || f.fn / 8 % 8 != 0 then badRes
  else match FPred.ofCode (f.fn % 8) with
  | some p => .ok (.fcmp (Fmt.ofCode (f.fn / 64 % 4)) p f.rd f.ra f.rb)
  | none => badFn

/-- R58. -/
def decSfn (f : Fields) : Dec :=
  if f.fn / 64 != 0 || !f.rb.isNone then badRes
  else match SfnFn.ofCode (f.fn % 64) with
  | some g => .ok (.sfn g f.rd f.ra)
  | none => badFn

/-- R50, R90: a load. -/
def decLd (mk : Qual → Reg → Src → BitVec 12 → Instr) (f : Fields) : Dec :=
  if f.rb.last then badRes
  else match Qual.ofCode f.sub with
  | some q => .ok (mk q f.rd f.ra (BitVec.ofNat 12 f.fn))
  | none => badLimit

/-- R50, R90: a store. -/
def decSt (mk : Qual → Src → Src → BitVec 12 → Instr) (f : Fields) : Dec :=
  match Qual.ofCode f.sub with
  | some q => checked (mk q f.rb f.ra (BitVec.ofNat 12 f.fn))
  | none => badLimit

/-- R95: pf. -/
def decPf (f : Fields) : Dec :=
  if !f.rb.isNone then badRes
  else match Qual.ofCode f.sub with
  | some q => checked (.pf q f.ra (BitVec.ofNat 12 f.fn))
  | none => badLimit

/-- R59: waita. -/
def decWaita (f : Fields) : Dec :=
  if f.fn / 16 != 0 || f.sub != 0 then badRes
  else .ok (.waita (f.fn / 8 % 2 == 1) (f.fn / 4 % 2 == 1) (WCmp.ofCode (f.fn % 4)) f.rd f.ra f.rb)

/-- R59: the memory-level sub-map. -/
def decMemLevel (f : Fields) : Dec :=
  match f.fn with
  | 0 => need (f.rb.isNone && f.rd == 0) (.ok (.wakea f.ra))
  | 1 => need (f.rb.isNone && f.rd == 0) (.ok (.wakeaAll f.ra))
  | 2 => need f.rb.isNone (.ok (.home f.rd f.ra))
  | 3 => need (f.rb.isNone && f.rd == 0) (.ok (.l1inv f.ra))
  | _ => badFn

/-- R60: the atomic map. -/
def decAtomic (f : Fields) : Dec :=
  let ret := f.fn / 128 % 2 == 1
  let d := f.fn / 64 % 2 == 1
  let sc := Scope.ofCode (f.fn / 16 % 4)
  match AOrd.ofCode f.sub with
  | none => badLimit
  | some o =>
    match f.fn % 16 with
    | 0 => checked (.aadd ret d sc o f.rd f.ra f.rb)
    | 1 => checked (.aand ret d sc o f.rd f.ra f.rb)
    | 2 => checked (.aor ret d sc o f.rd f.ra f.rb)
    | 3 => checked (.axor ret d sc o f.rd f.ra f.rb)
    | 4 => checked (.amin ret d sc o f.rd f.ra f.rb)
    | 5 => checked (.amax ret d sc o f.rd f.ra f.rb)
    | 6 => checked (.aminu ret d sc o f.rd f.ra f.rb)
    | 7 => checked (.amaxu ret d sc o f.rd f.ra f.rb)
    | 8 => checked (.aswp ret d sc o f.rd f.ra f.rb)
    | 9 => need f.rb.isNone (checked (.adecp ret d sc o f.rd f.ra))
    | 10 => checked (.afadd ret d sc o f.rd f.ra f.rb)
    | _ => badFn

/-- R60: acas always returns; fn8[7] = 1 and fn8[3:0] = 0. -/
def decAcas (f : Fields) : Dec :=
  match AOrd.ofCode f.sub with
  | none => badLimit
  | some o =>
    if f.fn / 128 % 2 != 1 || f.fn % 16 != 0 then badLimit
    else .ok (.acas (f.fn / 64 % 2 == 1) (Scope.ofCode (f.fn / 16 % 4)) o f.rd f.ra f.rb)

/-- R61: the B-format conditions. -/
def decBranch (f : Fields) : Dec :=
  let o := BitVec.ofNat 12 f.fn
  match f.sub with
  | 0 => .ok (.beq f.ra f.rb o)
  | 1 => .ok (.bne f.ra f.rb o)
  | 2 => .ok (.blt f.ra f.rb o)
  | 3 => .ok (.bge f.ra f.rb o)
  | 4 => .ok (.bltu f.ra f.rb o)
  | 5 => .ok (.bgeu f.ra f.rb o)
  | _ => badFn

/-- R61: the Z-format conditions. -/
def decBranchZ (f : Fields) : Dec :=
  let o := BitVec.ofNat 17 f.fn
  match f.sub with
  | 0 => .ok (.bz f.ra o)
  | 1 => .ok (.bnz f.ra o)
  | 2 => .ok (.bltz f.ra o)
  | 3 => .ok (.bgez f.ra o)
  | _ => badFn

/-- R62: the thread sub-map. -/
def decThread (f : Fields) : Dec :=
  match f.fn with
  | 0 => need f.rb.isNone (.ok (.post f.rd f.ra))
  | 1 => need f.rb.isNone (.ok (.launch f.rd f.ra))
  | 2 => need (f.rb.isNone && f.rd == 0) (.ok (.migr f.ra))
  | 3 => need (f.rb.isNone && f.ra.isNone) (.ok (.coord f.rd))
  | 4 => need (f.rb.isNone && f.ra.isNone && f.rd == 0) (.ok .exit)
  | 5 => need (f.rb.isNone && f.ra.isNone && f.rd == 0) (.ok .yield)
  | 6 => need (f.rb.isNone && f.ra.isNone && f.rd == 0) (.ok .oflush)
  | 7 => need (f.rb.isNone && f.ra.isNone && f.rd == 0) (.ok .beat)
  | _ => badFn

/-- R53: fence (S format: sub5[4:3] the kind, sub5[1:0] the scope). -/
def decFence (f : Fields) : Dec :=
  if f.fn != 0 || f.rd != 0 || f.sub / 4 % 2 != 0 then badRes
  else match FenceKind.ofCode (f.sub / 8) with
  | some k => .ok (.fence k (Scope.ofCode (f.sub % 4)))
  | none => badLimit

/-- R63: the phaser sub-map. -/
def decPhaser (f : Fields) : Dec :=
  let ph := BitVec.ofNat 6 f.fn
  let m := f.fn / 64
  match f.sub with
  | 0 => need (f.rb.isNone && f.ra.isNone) (match PhMode.ofCode m with
    | some k => .ok (.phreg k ph f.rd)
    | none => badLimit)
  | 1 => need (m == 0 && f.rb.isNone && f.ra.isNone && f.rd == 0) (.ok (.phdrop ph))
  | 2 => need (m == 0 && f.rb.isNone && f.ra.isNone && f.rd == 0) (.ok (.phsig ph))
  | 3 => need (f.rb.isNone && f.rd == 0) (match PhRed.ofCode m with
    | some k => .ok (.phsigv k ph f.ra)
    | none => badLimit)
  | 4 => need (m == 0 && f.rb.isNone && f.ra.isNone) (.ok (.phwait ph f.rd))
  | 5 => need (m == 0 && f.rb.isNone && f.ra.isNone) (.ok (.phnext ph f.rd))
  | 6 => need (m == 0 && f.rb.isNone && f.rd == 0) (.ok (.phexpect ph f.ra))
  | 7 => need (m == 0 && f.rb.isNone && f.ra.isNone) (.ok (.phread ph f.rd))
  | _ => badFn

/-- R63: the future and pause sub-map. -/
def decFuture (f : Fields) : Dec :=
  match f.fn with
  | 0 => need f.rb.isNone (.ok (.fget f.rd f.ra))
  | 1 => need (f.rd == 0) (.ok (.ffill f.ra f.rb))
  | 2 => need (f.rb.isNone && f.rd == 0) (.ok (.fclr f.ra))
  | 3 => need (f.rb.isNone && f.ra.isNone && f.rd == 0) (.ok .pause)
  | _ => badFn

/-- R64: tcwh. -/
def decTcwh (f : Fields) : Dec :=
  if f.fn / 8 != 0 || f.sub != 0 then badRes
  else match Port.ofCode (f.fn % 8) with
  | some p => .ok (.tcwh p f.rd f.ra f.rb)
  | none => badLimit

/-- R64: the job sub-map. -/
def decJob (f : Fields) : Dec :=
  match f.fn with
  | 0 => need f.rb.isNone (.ok (.jpoll f.rd f.ra))
  | 1 => need (f.rb.isNone && f.rd == 0) (.ok (.jwait f.ra))
  | 2 => need (f.rb.isNone && f.ra.isNone) (.ok (.vbusy f.rd))
  | 3 => need (f.rb.isNone && f.ra.isNone && f.rd == 0) (.ok .vfence)
  | 4 => need f.rb.isNone (.ok (.ftile f.rd f.ra))
  | _ => badFn

/-- R64: the ring sub-map. -/
def decRing (f : Fields) : Dec :=
  let q := BitVec.ofNat 5 f.fn
  if f.fn / 32 != 0 || !f.rb.isNone then badRes
  else match f.sub with
  | 0 => .ok (.rdef q f.rd f.ra)
  | 1 => .ok (.rwaitf q f.rd f.ra)
  | 2 => .ok (.rwaite q f.rd f.ra)
  | 3 => need (f.rd == 0) (.ok (.radvh q f.ra))
  | 4 => need (f.rd == 0) (.ok (.radvt q f.ra))
  | 5 => need f.ra.isNone (.ok (.rstat q f.rd))
  | _ => badFn

/-- R65: the tree map. -/
def decTree (f : Fields) : Dec :=
  let k := BitVec.ofNat 4 f.fn
  if f.fn / 16 != 0 then badRes
  else match f.sub with
  | 0 => need (f.rb.isNone && f.rd == 0) (.ok (.ktree k f.ra))
  | 1 => need (f.rd == 0) (.ok (.kset k f.ra f.rb))
  | 2 => need (f.rd == 0) (.ok (.kseti k f.ra f.rb))
  | 3 => need f.rb.isNone (.ok (.kget k f.rd f.ra))
  | 4 => need (f.rb.isNone && f.ra.isNone) (.ok (.ktot k f.rd))
  | _ => badFn

/-- R65: the event map. -/
def decEvent (f : Fields) : Dec :=
  let k := BitVec.ofNat 4 f.fn
  if f.fn / 16 != 0 then badRes
  else match f.sub with
  | 0 => need (f.rb.isNone && f.ra.isNone) (.ok (.evnext k f.rd))
  | 1 => need (f.rb.isNone && f.ra.isNone && f.rd == 0) (.ok (.evdisp k))
  | 2 => need (f.rb.isNone && f.ra.isNone) (.ok (.clkget k f.rd))
  | 3 => .ok (.bsend k f.rd f.ra f.rb)
  | 4 => need f.rb.isNone (.ok (.bmsg k f.rd f.ra))
  | _ => badFn

/-- R65: the region map. -/
def decRegion (f : Fields) : Dec :=
  let k := BitVec.ofNat 4 f.fn
  if f.fn / 16 != 0 then badRes
  else match f.sub with
  | 0 => need (f.rb.isNone && f.ra.isNone) (.ok (.ckpt k f.rd))
  | 1 => need (f.rb.isNone && f.ra.isNone) (.ok (.rollb k f.rd))
  | 2 => need (f.rd == 0) (.ok (.mark k f.ra f.rb))
  | 3 => need (f.rd == 0) (.ok (.unmark k f.ra f.rb))
  | 4 => need (f.rb.isNone && f.rd == 0) (.ok (.fossil k f.ra))
  | 5 => need (f.rb.isNone && f.ra.isNone) (.ok (.dgst k f.rd))
  | 6 => need (f.rb.isNone && f.rd == 0) (.ok (.rgnsave k f.ra))
  | 7 => need (f.rb.isNone && f.rd == 0) (.ok (.rgnload k f.ra))
  | _ => badFn

/-- R65: the random-bit map. -/
def decRandom (f : Fields) : Dec :=
  match f.fn with
  | 0 => .ok (.rngb f.rd f.ra f.rb)
  | 1 => .ok (.rbern f.rd f.ra f.rb)
  | 2 => .ok (.thash f.rd f.ra f.rb)
  | _ => badFn

/-- R65: the priority-queue map. -/
def decQueue (f : Fields) : Dec :=
  let k := BitVec.ofNat 4 f.fn
  if f.fn / 16 != 0 then badRes
  else match f.sub with
  | 0 => .ok (.pqpush k f.rd f.ra f.rb)
  | 1 => need f.rb.isNone (.ok (.pqpop k f.rd f.ra))
  | 2 => need (f.rb.isNone && f.ra.isNone) (.ok (.pqmin k f.rd))
  | 3 => need (f.rb.isNone && f.ra.isNone) (.ok (.pqlen k f.rd))
  | _ => badFn

/-- R66: the real-set binary map. -/
def decRsBin (f : Fields) : Dec :=
  let z := BitVec.ofNat 3 f.sub
  match f.fn with
  | 0 => .ok (.rsadd z f.rd f.ra f.rb)
  | 1 => .ok (.rssub z f.rd f.ra f.rb)
  | 2 => .ok (.rsmul z f.rd f.ra f.rb)
  | 3 => .ok (.rsdiv z f.rd f.ra f.rb)
  | 4 => .ok (.rsor z f.rd f.ra f.rb)
  | 5 => .ok (.rsand z f.rd f.ra f.rb)
  | 6 => .ok (.rslt z f.rd f.ra f.rb)
  | 7 => .ok (.rsfi z f.rd f.ra f.rb)
  | _ => badFn

/-- R66: the real-set unary map. -/
def decRsUn (f : Fields) : Dec :=
  let z := BitVec.ofNat 3 f.sub
  if !f.rb.isNone then badRes
  else match f.fn with
  | 0 => .ok (.rsneg z f.rd f.ra)
  | 1 => .ok (.rsinv z f.rd f.ra)
  | 2 => .ok (.rssq z f.rd f.ra)
  | 3 => .ok (.rslo z f.rd f.ra)
  | 4 => .ok (.rshi z f.rd f.ra)
  | 5 => .ok (.rsconn z f.rd f.ra)
  | 6 => .ok (.rsf z f.rd f.ra)
  | _ => badFn

/-- R66: rscz and rsxz. -/
def decRsCz (f : Fields) : Dec :=
  let z := BitVec.ofNat 3 f.sub
  if f.fn / 8 != 0 || !f.rb.isNone then badRes
  else match CzW.ofCode (f.fn / 2 % 4) with
  | some w => if f.fn % 2 = 0 then .ok (.rscz w z f.rd f.ra) else .ok (.rsxz w z f.rd f.ra)
  | none => badLimit

/-- R53: the loft map. -/
def decLoft (f : Fields) : Dec :=
  match f.fn with
  | 0 => need f.rb.isNone (.ok (.ploft f.rd f.ra))
  | 1 => need f.rb.isNone (.ok (.pevict f.rd f.ra))
  | _ => badFn

/-- R396: the maintenance form; where it may run is decided when it executes (R74). -/
def decMaint (mk : MSize → Reg → Src → Src → BitVec 8 → Instr) (f : Fields) : Dec :=
  need (f.sub / 4 == 0) (.ok (mk (MSize.ofCode (f.sub % 4)) f.rd f.ra f.rb (BitVec.ofNat 8 f.fn)))

/-- R67: control-register access. -/
def decCr (f : Fields) : Dec :=
  let cr := BitVec.ofNat 12 f.fn
  if f.fn / 4096 % 4 != 0 then badRes
  else match f.fn / 16384 with
  | 0 => need f.ra.isNone (checked (.crr cr f.rd))
  | 1 => need (f.rd == 0) (checked (.crw cr f.ra))
  | 2 => checked (.crs cr f.rd f.ra)
  | 3 => checked (.crc cr f.rd f.ra)
  | _ => badFn

/-- R68: the system sub-map. -/
def decSystem (f : Fields) : Dec :=
  match f.fn with
  | 0 => need (f.rb.isNone && f.ra.isNone && f.rd == 0) (.ok .eret)
  | 1 => need (f.rd == 0) (.ok (.tlbinv f.ra f.rb))
  | 2 => need (f.rd == 0) (.ok (.frep f.ra f.rb))
  | 3 => need (f.rb.isNone && f.rd == 0) (.ok (.hvc f.ra))
  | 4 => need (f.rb.isNone && f.ra.isNone && f.rd == 0) (.ok .idle)
  | 5 => need (f.rb.isNone && f.rd == 0) (.ok (.kill f.ra))
  | _ => badFn

/-- R53: the major opcodes. -/
def decMajor (w : Nat) : Dec :=
  match opOf w with
  | 0x01 => decAlu (decR w)
  | 0x02 => decUnary (decR w)
  | 0x03 => .ok (.addi (decI w).rd (decI w).ra (BitVec.ofNat 16 (decI w).fn))
  | 0x04 => .ok (.andi (decI w).rd (decI w).ra (BitVec.ofNat 16 (decI w).fn))
  | 0x05 => .ok (.ori (decI w).rd (decI w).ra (BitVec.ofNat 16 (decI w).fn))
  | 0x06 => .ok (.xori (decI w).rd (decI w).ra (BitVec.ofNat 16 (decI w).fn))
  | 0x07 => decShift .shli (decI w)
  | 0x08 => decShift .shri (decI w)
  | 0x09 => decShift .srai (decI w)
  | 0x0A => .ok (.slti (decI w).rd (decI w).ra (BitVec.ofNat 16 (decI w).fn))
  | 0x0B => .ok (.sltiu (decI w).rd (decI w).ra (BitVec.ofNat 16 (decI w).fn))
  | 0x0C => decField .bfx (decI w)
  | 0x0D => decField .bfi (decI w)
  | 0x10 => decFpBin (decR w)
  | 0x11 => decFma (decC w)
  | 0x12 => decFpUn (decR w)
  | 0x13 => decFcvt (decR w)
  | 0x14 => decFcmp (decR w)
  | 0x15 => decSfn (decR w)
  | 0x18 => need ((decR w).fn == 0) (.ok (.adda (decR w).rd (decR w).ra (decR w).rb))
  | 0x19 => .ok (.addai (decI w).rd (decI w).ra (BitVec.ofNat 16 (decI w).fn))
  | 0x1A => need ((decI w).fn / 1024 == 0)
      (.ok (.tagset (decI w).rd (decI w).ra (BitVec.ofNat 4 ((decI w).fn / 64)) (BitVec.ofNat 6 (decI w).fn)))
  | 0x1B => match (decR w).fn with
    | 0 => need (decR w).rb.isNone (.ok (.tagget (decR w).rd (decR w).ra))
    | 1 => need (decR w).rb.isNone (.ok (.tagclr (decR w).rd (decR w).ra))
    | _ => badFn
  | 0x1C => need ((decK w).sub / 4 == 0) (.ok (.ldk (decK w).rd (BitVec.ofNat 16 (decK w).fn) (BitVec.ofNat 2 (decK w).sub)))
  | 0x1D => need ((decK w).sub / 4 == 0) (.ok (.ink (decK w).rd (BitVec.ofNat 16 (decK w).fn) (BitVec.ofNat 2 (decK w).sub)))
  | 0x20 => decLd .ldB (decM w)
  | 0x21 => decLd .ldH (decM w)
  | 0x22 => decLd .ldW (decM w)
  | 0x23 => decLd .ldD (decM w)
  | 0x24 => decLd .ldBS (decM w)
  | 0x25 => decLd .ldHS (decM w)
  | 0x26 => decLd .ldWS (decM w)
  | 0x28 => decSt .stB (decM w)
  | 0x29 => decSt .stH (decM w)
  | 0x2A => decSt .stW (decM w)
  | 0x2B => decSt .stD (decM w)
  | 0x2C => decPf (decM w)
  | 0x2D => decWaita (decC w)
  | 0x2E => decMemLevel (decR w)
  | 0x30 => decAtomic (decC w)
  | 0x31 => decAcas (decC w)
  | 0x38 => decBranch (decB w)
  | 0x39 => decBranchZ (decZ w)
  | 0x3A => .ok (.jal (decJ w).rd (BitVec.ofNat 21 (decJ w).fn))
  | 0x3B => .ok (.jalr (decI w).rd (decI w).ra (BitVec.ofNat 16 (decI w).fn))
  | 0x40 => need ((decI w).fn / 8 == 0) (checked (.spawn (decI w).rd (decI w).ra (BitVec.ofNat 3 (decI w).fn)))
  | 0x41 => decThread (decR w)
  | 0x42 => need ((decS w).sub == 0 && (decS w).rd == 0) (.ok (.safept (BitVec.ofNat 16 (decS w).fn)))
  | 0x48 => decFence (decS w)
  | 0x49 => need (!(decM w).rb.last)
      (.ok (.ldacq ((decM w).sub / 4 == 1) (Scope.ofCode ((decM w).sub % 4)) (decM w).rd (decM w).ra (BitVec.ofNat 12 (decM w).fn)))
  | 0x4A => .ok (.strel ((decM w).sub / 4 == 1) (Scope.ofCode ((decM w).sub % 4)) (decM w).rb (decM w).ra (BitVec.ofNat 12 (decM w).fn))
  | 0x4B => decPhaser (decC w)
  | 0x4C => decFuture (decR w)
  | 0x50 => need ((decR w).fn == 0 && (decR w).rd == 0) (.ok (.tcwl (decR w).ra (decR w).rb))
  | 0x51 => decTcwh (decC w)
  | 0x52 => decJob (decR w)
  | 0x53 => need ((decR w).fn == 0 && (decR w).rd == 0) (.ok (.vop (decR w).ra (decR w).rb))
  | 0x54 => decRing (decC w)
  | 0x58 => decTree (decC w)
  | 0x59 => decEvent (decC w)
  | 0x5A => decRegion (decC w)
  | 0x5B => decRandom (decR w)
  | 0x5C => decQueue (decC w)
  | 0x60 => decRsBin (decC w)
  | 0x61 => decRsUn (decC w)
  | 0x62 => need ((decC w).fn == 0 && (decC w).rb.isNone) (.ok (.rsring (BitVec.ofNat 3 (decC w).sub) (decC w).rd (decC w).ra))
  | 0x63 => decRsCz (decC w)
  | 0x68 => decLoft (decR w)
  | 0x6C => decMaint .mld (decC w)
  | 0x6D => decMaint .mst (decC w)
  | 0x70 => need ((decS w).sub == 0 && (decS w).rd == 0) (.ok (.sys (BitVec.ofNat 16 (decS w).fn)))
  | 0x71 => need ((decS w).sub == 0 && (decS w).rd == 0) (.ok (.brk (BitVec.ofNat 16 (decS w).fn)))
  | 0x72 => decCr (decI w)
  | 0x73 => decSystem (decR w)
  | _ => .error .unassignedOpcode

/-- The decoder (R46, R53, R74): total on every 32-bit word. -/
def decode (w : BitVec 32) : Except Reject Instr :=
  if w = 0 then .error .allZeros
  else if w = 0xFFFFFFFF then .error .allOnes
  else decMajor w.toNat

/-- The word of four bytes in memory order, little-endian (R6, R46). -/
def wordOfBytes (b0 b1 b2 b3 : Byte) : BitVec 32 := b3 ++ b2 ++ b1 ++ b0

/-- The four bytes of a word in memory order. -/
def bytesOfWord (w : BitVec 32) : List Byte :=
  [w.extractLsb' 0 8, w.extractLsb' 8 8, w.extractLsb' 16 8, w.extractLsb' 24 8]

/-- Decoding from a list of bytes: the instruction and the rest, or why there is none. -/
def decodeBytes : List Byte → Except Reject (Instr × List Byte)
  | b0 :: b1 :: b2 :: b3 :: rest =>
    match decode (wordOfBytes b0 b1 b2 b3) with
    | .ok i => .ok (i, rest)
    | .error e => .error e
  | _ => .error .notAWord

/-! ### The encoder -/

def Instr.encodeNat : Instr → Option Nat
  | .add w rd ra rb => some (encR 0x01 (0 + 1024 * Bool.num w) rd ra rb)
  | .sub w rd ra rb => some (encR 0x01 (1 + 1024 * Bool.num w) rd ra rb)
  | .mul w rd ra rb => some (encR 0x01 (2 + 1024 * Bool.num w) rd ra rb)
  | .mulh rd ra rb => some (encR 0x01 3 rd ra rb)
  | .mulhu rd ra rb => some (encR 0x01 4 rd ra rb)
  | .div w rd ra rb => some (encR 0x01 (5 + 1024 * Bool.num w) rd ra rb)
  | .divu w rd ra rb => some (encR 0x01 (6 + 1024 * Bool.num w) rd ra rb)
  | .rem w rd ra rb => some (encR 0x01 (7 + 1024 * Bool.num w) rd ra rb)
  | .remu w rd ra rb => some (encR 0x01 (8 + 1024 * Bool.num w) rd ra rb)
  | .and rd ra rb => some (encR 0x01 9 rd ra rb)
  | .or rd ra rb => some (encR 0x01 10 rd ra rb)
  | .xor rd ra rb => some (encR 0x01 11 rd ra rb)
  | .andn rd ra rb => some (encR 0x01 12 rd ra rb)
  | .orn rd ra rb => some (encR 0x01 13 rd ra rb)
  | .shl w rd ra rb => some (encR 0x01 (14 + 1024 * Bool.num w) rd ra rb)
  | .shr w rd ra rb => some (encR 0x01 (15 + 1024 * Bool.num w) rd ra rb)
  | .sra w rd ra rb => some (encR 0x01 (16 + 1024 * Bool.num w) rd ra rb)
  | .rotl w rd ra rb => some (encR 0x01 (17 + 1024 * Bool.num w) rd ra rb)
  | .rotr w rd ra rb => some (encR 0x01 (18 + 1024 * Bool.num w) rd ra rb)
  | .min rd ra rb => some (encR 0x01 19 rd ra rb)
  | .max rd ra rb => some (encR 0x01 20 rd ra rb)
  | .minu rd ra rb => some (encR 0x01 21 rd ra rb)
  | .maxu rd ra rb => some (encR 0x01 22 rd ra rb)
  | .slt rd ra rb => some (encR 0x01 23 rd ra rb)
  | .sltu rd ra rb => some (encR 0x01 24 rd ra rb)
  | .seq rd ra rb => some (encR 0x01 25 rd ra rb)
  | .sel rd ra rb => some (encR 0x01 26 rd ra rb)
  | .clz w rd ra => some (encR 0x02 (0 + 1024 * Bool.num w) rd ra Src.none)
  | .ctz w rd ra => some (encR 0x02 (1 + 1024 * Bool.num w) rd ra Src.none)
  | .popc w rd ra => some (encR 0x02 (2 + 1024 * Bool.num w) rd ra Src.none)
  | .sextB rd ra => some (encR 0x02 4 rd ra Src.none)
  | .sextH rd ra => some (encR 0x02 5 rd ra Src.none)
  | .sextW rd ra => some (encR 0x02 6 rd ra Src.none)
  | .zextB rd ra => some (encR 0x02 8 rd ra Src.none)
  | .zextH rd ra => some (encR 0x02 9 rd ra Src.none)
  | .zextW rd ra => some (encR 0x02 10 rd ra Src.none)
  | .addi rd ra i => some (encI 0x03 rd ra i.toNat)
  | .andi rd ra i => some (encI 0x04 rd ra i.toNat)
  | .ori rd ra i => some (encI 0x05 rd ra i.toNat)
  | .xori rd ra i => some (encI 0x06 rd ra i.toNat)
  | .shli w rd ra a => some (encI 0x07 rd ra (a.toNat + 64 * Bool.num w))
  | .shri w rd ra a => some (encI 0x08 rd ra (a.toNat + 64 * Bool.num w))
  | .srai w rd ra a => some (encI 0x09 rd ra (a.toNat + 64 * Bool.num w))
  | .slti rd ra i => some (encI 0x0A rd ra i.toNat)
  | .sltiu rd ra i => some (encI 0x0B rd ra i.toNat)
  | .bfx rd ra p l => some (encI 0x0C rd ra (p.toNat + 64 * l.toNat))
  | .bfi rd ra p l => some (encI 0x0D rd ra (p.toNat + 64 * l.toNat))
  | .fadd r t rd ra rb => some (encR 0x10 (0 + 64 * t.code + 256 * r.code) rd ra rb)
  | .fsub r t rd ra rb => some (encR 0x10 (1 + 64 * t.code + 256 * r.code) rd ra rb)
  | .fmul r t rd ra rb => some (encR 0x10 (2 + 64 * t.code + 256 * r.code) rd ra rb)
  | .fdiv r t rd ra rb => some (encR 0x10 (3 + 64 * t.code + 256 * r.code) rd ra rb)
  | .fmin r t rd ra rb => some (encR 0x10 (4 + 64 * t.code + 256 * r.code) rd ra rb)
  | .fmax r t rd ra rb => some (encR 0x10 (5 + 64 * t.code + 256 * r.code) rd ra rb)
  | .fma r t rd ra rb => some (encC 0x11 (0 + 64 * t.code) r.code rd ra rb)
  | .fms r t rd ra rb => some (encC 0x11 (1 + 64 * t.code) r.code rd ra rb)
  | .fsqrt r t rd ra => some (encR 0x12 (0 + 64 * t.code + 256 * r.code) rd ra Src.none)
  | .fneg t rd ra => some (encR 0x12 (1 + 64 * t.code + 256 * 7) rd ra Src.none)
  | .fabs t rd ra => some (encR 0x12 (2 + 64 * t.code + 256 * 7) rd ra Src.none)
  | .fclass t rd ra => some (encR 0x12 (3 + 64 * t.code + 256 * 7) rd ra Src.none)
  | .fround r t rd ra => some (encR 0x12 (4 + 64 * t.code + 256 * r.code) rd ra Src.none)
  | .fcvt r dt st rd ra => some (encR 0x13 (st.code + 16 * dt.code + 256 * r.code) rd ra Src.none)
  | .fcmp t p rd ra rb => some (encR 0x14 (p.code + 64 * t.code) rd ra rb)
  | .sfn g rd ra => some (encR 0x15 g.code rd ra Src.none)
  | .adda rd ra rb => some (encR 0x18 0 rd ra rb)
  | .addai rd ra i => some (encI 0x19 rd ra i.toNat)
  | .tagset rd ra b f => some (encI 0x1A rd ra (f.toNat + 64 * b.toNat))
  | .tagget rd ra => some (encR 0x1B 0 rd ra Src.none)
  | .tagclr rd ra => some (encR 0x1B 1 rd ra Src.none)
  | .ldk rd i x => some (encK 0x1C rd x.toNat i.toNat)
  | .ink rd i x => some (encK 0x1D rd x.toNat i.toNat)
  | .ldB q rd ra o => some (encM 0x20 ⟨rd, false⟩ ra q.code o.toNat)
  | .ldH q rd ra o => some (encM 0x21 ⟨rd, false⟩ ra q.code o.toNat)
  | .ldW q rd ra o => some (encM 0x22 ⟨rd, false⟩ ra q.code o.toNat)
  | .ldD q rd ra o => some (encM 0x23 ⟨rd, false⟩ ra q.code o.toNat)
  | .ldBS q rd ra o => some (encM 0x24 ⟨rd, false⟩ ra q.code o.toNat)
  | .ldHS q rd ra o => some (encM 0x25 ⟨rd, false⟩ ra q.code o.toNat)
  | .ldWS q rd ra o => some (encM 0x26 ⟨rd, false⟩ ra q.code o.toNat)
  | .stB q rd ra o => some (encM 0x28 rd ra q.code o.toNat)
  | .stH q rd ra o => some (encM 0x29 rd ra q.code o.toNat)
  | .stW q rd ra o => some (encM 0x2A rd ra q.code o.toNat)
  | .stD q rd ra o => some (encM 0x2B rd ra q.code o.toNat)
  | .pf q ra o => some (encM 0x2C Src.none ra q.code o.toNat)
  | .waita w a c rd ra rb => some (encC 0x2D (c.code + 4 * Bool.num a + 8 * Bool.num w) 0 rd ra rb)
  | .wakea ra => some (encR 0x2E 0 0 ra Src.none)
  | .wakeaAll ra => some (encR 0x2E 1 0 ra Src.none)
  | .home rd ra => some (encR 0x2E 2 rd ra Src.none)
  | .l1inv ra => some (encR 0x2E 3 0 ra Src.none)
  | .aadd r d s o rd ra rb => some (encC 0x30 (0 + 16 * s.code + 64 * Bool.num d + 128 * Bool.num r) o.code rd ra rb)
  | .aand r d s o rd ra rb => some (encC 0x30 (1 + 16 * s.code + 64 * Bool.num d + 128 * Bool.num r) o.code rd ra rb)
  | .aor r d s o rd ra rb => some (encC 0x30 (2 + 16 * s.code + 64 * Bool.num d + 128 * Bool.num r) o.code rd ra rb)
  | .axor r d s o rd ra rb => some (encC 0x30 (3 + 16 * s.code + 64 * Bool.num d + 128 * Bool.num r) o.code rd ra rb)
  | .amin r d s o rd ra rb => some (encC 0x30 (4 + 16 * s.code + 64 * Bool.num d + 128 * Bool.num r) o.code rd ra rb)
  | .amax r d s o rd ra rb => some (encC 0x30 (5 + 16 * s.code + 64 * Bool.num d + 128 * Bool.num r) o.code rd ra rb)
  | .aminu r d s o rd ra rb => some (encC 0x30 (6 + 16 * s.code + 64 * Bool.num d + 128 * Bool.num r) o.code rd ra rb)
  | .amaxu r d s o rd ra rb => some (encC 0x30 (7 + 16 * s.code + 64 * Bool.num d + 128 * Bool.num r) o.code rd ra rb)
  | .aswp r d s o rd ra rb => some (encC 0x30 (8 + 16 * s.code + 64 * Bool.num d + 128 * Bool.num r) o.code rd ra rb)
  | .adecp r d s o rd ra => some (encC 0x30 (9 + 16 * s.code + 64 * Bool.num d + 128 * Bool.num r) o.code rd ra Src.none)
  | .afadd r d s o rd ra rb => some (encC 0x30 (10 + 16 * s.code + 64 * Bool.num d + 128 * Bool.num r) o.code rd ra rb)
  | .acas d s o rd ra rb => some (encC 0x31 (16 * s.code + 64 * Bool.num d + 128) o.code rd ra rb)
  | .beq ra rb o => some (encB 0x38 0 ra rb o.toNat)
  | .bne ra rb o => some (encB 0x38 1 ra rb o.toNat)
  | .blt ra rb o => some (encB 0x38 2 ra rb o.toNat)
  | .bge ra rb o => some (encB 0x38 3 ra rb o.toNat)
  | .bltu ra rb o => some (encB 0x38 4 ra rb o.toNat)
  | .bgeu ra rb o => some (encB 0x38 5 ra rb o.toNat)
  | .bz ra o => some (encZ 0x39 0 ra o.toNat)
  | .bnz ra o => some (encZ 0x39 1 ra o.toNat)
  | .bltz ra o => some (encZ 0x39 2 ra o.toNat)
  | .bgez ra o => some (encZ 0x39 3 ra o.toNat)
  | .jal rd o => some (encJ 0x3A rd o.toNat)
  | .jalr rd ra i => some (encI 0x3B rd ra i.toNat)
  | .spawn rd ra n => some (encI 0x40 rd ra n.toNat)
  | .post rd ra => some (encR 0x41 0 rd ra Src.none)
  | .launch rd ra => some (encR 0x41 1 rd ra Src.none)
  | .migr ra => some (encR 0x41 2 0 ra Src.none)
  | .coord rd => some (encR 0x41 3 rd Src.none Src.none)
  | .exit => some (encR 0x41 4 0 Src.none Src.none)
  | .yield => some (encR 0x41 5 0 Src.none Src.none)
  | .oflush => some (encR 0x41 6 0 Src.none Src.none)
  | .beat => some (encR 0x41 7 0 Src.none Src.none)
  | .safept n => some (encS 0x42 0 n.toNat 0)
  | .fence k s => some (encS 0x48 (s.code + 8 * k.code) 0 0)
  | .ldacq w s rd ra o => some (encM 0x49 ⟨rd, false⟩ ra (s.code + 4 * Bool.num w) o.toNat)
  | .strel w s rd ra o => some (encM 0x4A rd ra (s.code + 4 * Bool.num w) o.toNat)
  | .phreg m p rd => some (encC 0x4B (p.toNat + 64 * m.code) 0 rd Src.none Src.none)
  | .phdrop p => some (encC 0x4B p.toNat 1 0 Src.none Src.none)
  | .phsig p => some (encC 0x4B p.toNat 2 0 Src.none Src.none)
  | .phsigv k p ra => some (encC 0x4B (p.toNat + 64 * k.code) 3 0 ra Src.none)
  | .phwait p rd => some (encC 0x4B p.toNat 4 rd Src.none Src.none)
  | .phnext p rd => some (encC 0x4B p.toNat 5 rd Src.none Src.none)
  | .phexpect p ra => some (encC 0x4B p.toNat 6 0 ra Src.none)
  | .phread p rd => some (encC 0x4B p.toNat 7 rd Src.none Src.none)
  | .fget rd ra => some (encR 0x4C 0 rd ra Src.none)
  | .ffill ra rb => some (encR 0x4C 1 0 ra rb)
  | .fclr ra => some (encR 0x4C 2 0 ra Src.none)
  | .pause => some (encR 0x4C 3 0 Src.none Src.none)
  | .tcwl ra rb => some (encR 0x50 0 0 ra rb)
  | .tcwh p rd ra rb => some (encC 0x51 p.code 0 rd ra rb)
  | .jpoll rd ra => some (encR 0x52 0 rd ra Src.none)
  | .jwait ra => some (encR 0x52 1 0 ra Src.none)
  | .vbusy rd => some (encR 0x52 2 rd Src.none Src.none)
  | .vfence => some (encR 0x52 3 0 Src.none Src.none)
  | .ftile rd ra => some (encR 0x52 4 rd ra Src.none)
  | .vop ra rb => some (encR 0x53 0 0 ra rb)
  | .rdef q rd ra => some (encC 0x54 q.toNat 0 rd ra Src.none)
  | .rwaitf q rd ra => some (encC 0x54 q.toNat 1 rd ra Src.none)
  | .rwaite q rd ra => some (encC 0x54 q.toNat 2 rd ra Src.none)
  | .radvh q ra => some (encC 0x54 q.toNat 3 0 ra Src.none)
  | .radvt q ra => some (encC 0x54 q.toNat 4 0 ra Src.none)
  | .rstat q rd => some (encC 0x54 q.toNat 5 rd Src.none Src.none)
  | .ktree k ra => some (encC 0x58 k.toNat 0 0 ra Src.none)
  | .kset k ra rb => some (encC 0x58 k.toNat 1 0 ra rb)
  | .kseti k ra rb => some (encC 0x58 k.toNat 2 0 ra rb)
  | .kget k rd ra => some (encC 0x58 k.toNat 3 rd ra Src.none)
  | .ktot k rd => some (encC 0x58 k.toNat 4 rd Src.none Src.none)
  | .evnext k rd => some (encC 0x59 k.toNat 0 rd Src.none Src.none)
  | .evdisp k => some (encC 0x59 k.toNat 1 0 Src.none Src.none)
  | .clkget k rd => some (encC 0x59 k.toNat 2 rd Src.none Src.none)
  | .bsend k rd ra rb => some (encC 0x59 k.toNat 3 rd ra rb)
  | .bmsg k rd ra => some (encC 0x59 k.toNat 4 rd ra Src.none)
  | .ckpt k rd => some (encC 0x5A k.toNat 0 rd Src.none Src.none)
  | .rollb k rd => some (encC 0x5A k.toNat 1 rd Src.none Src.none)
  | .mark k ra rb => some (encC 0x5A k.toNat 2 0 ra rb)
  | .unmark k ra rb => some (encC 0x5A k.toNat 3 0 ra rb)
  | .fossil k ra => some (encC 0x5A k.toNat 4 0 ra Src.none)
  | .dgst k rd => some (encC 0x5A k.toNat 5 rd Src.none Src.none)
  | .rgnsave k ra => some (encC 0x5A k.toNat 6 0 ra Src.none)
  | .rgnload k ra => some (encC 0x5A k.toNat 7 0 ra Src.none)
  | .rngb rd ra rb => some (encR 0x5B 0 rd ra rb)
  | .rbern rd ra rb => some (encR 0x5B 1 rd ra rb)
  | .thash rd ra rb => some (encR 0x5B 2 rd ra rb)
  | .pqpush k rd ra rb => some (encC 0x5C k.toNat 0 rd ra rb)
  | .pqpop k rd ra => some (encC 0x5C k.toNat 1 rd ra Src.none)
  | .pqmin k rd => some (encC 0x5C k.toNat 2 rd Src.none Src.none)
  | .pqlen k rd => some (encC 0x5C k.toNat 3 rd Src.none Src.none)
  | .rsadd z rd ra rb => some (encC 0x60 0 z.toNat rd ra rb)
  | .rssub z rd ra rb => some (encC 0x60 1 z.toNat rd ra rb)
  | .rsmul z rd ra rb => some (encC 0x60 2 z.toNat rd ra rb)
  | .rsdiv z rd ra rb => some (encC 0x60 3 z.toNat rd ra rb)
  | .rsor z rd ra rb => some (encC 0x60 4 z.toNat rd ra rb)
  | .rsand z rd ra rb => some (encC 0x60 5 z.toNat rd ra rb)
  | .rslt z rd ra rb => some (encC 0x60 6 z.toNat rd ra rb)
  | .rsfi z rd ra rb => some (encC 0x60 7 z.toNat rd ra rb)
  | .rsneg z rd ra => some (encC 0x61 0 z.toNat rd ra Src.none)
  | .rsinv z rd ra => some (encC 0x61 1 z.toNat rd ra Src.none)
  | .rssq z rd ra => some (encC 0x61 2 z.toNat rd ra Src.none)
  | .rslo z rd ra => some (encC 0x61 3 z.toNat rd ra Src.none)
  | .rshi z rd ra => some (encC 0x61 4 z.toNat rd ra Src.none)
  | .rsconn z rd ra => some (encC 0x61 5 z.toNat rd ra Src.none)
  | .rsf z rd ra => some (encC 0x61 6 z.toNat rd ra Src.none)
  | .rsring z rd ra => some (encC 0x62 0 z.toNat rd ra Src.none)
  | .rscz w z rd ra => some (encC 0x63 (0 + 2 * w.code) z.toNat rd ra Src.none)
  | .rsxz w z rd ra => some (encC 0x63 (1 + 2 * w.code) z.toNat rd ra Src.none)
  | .ploft rd ra => some (encR 0x68 0 rd ra Src.none)
  | .pevict rd ra => some (encR 0x68 1 rd ra Src.none)
  | .mld sz rd ra rb o => some (encC 0x6C o.toNat sz.code rd ra rb)
  | .mst sz rd ra rb o => some (encC 0x6D o.toNat sz.code rd ra rb)
  | .sys n => some (encS 0x70 0 n.toNat 0)
  | .brk n => some (encS 0x71 0 n.toNat 0)
  | .crr c rd => some (encI 0x72 rd Src.none c.toNat)
  | .crw c ra => some (encI 0x72 0 ra (c.toNat + 16384))
  | .crs c rd ra => some (encI 0x72 rd ra (c.toNat + 32768))
  | .crc c rd ra => some (encI 0x72 rd ra (c.toNat + 49152))
  | .eret => some (encR 0x73 0 0 Src.none Src.none)
  | .tlbinv ra rb => some (encR 0x73 1 0 ra rb)
  | .frep ra rb => some (encR 0x73 2 0 ra rb)
  | .hvc ra => some (encR 0x73 3 0 ra Src.none)
  | .idle => some (encR 0x73 4 0 Src.none Src.none)
  | .kill ra => some (encR 0x73 5 0 ra Src.none)
  | .mmul _ | .mmulg _ | .accz _ | .accld _ | .accst _ | .spmm _ | .spcol _ | .copy _ | .gath _ | .scat _ | .cvtb _
  | .subscription _ | .subTile _ | .drain _ | .drainTile _ | .pfill _ | .wqdef _ | .jobCompletion _
  | .vadd _ | .vsub _ | .vmul _ | .vfma _ | .vmin _ | .vmax _ | .vabs _ | .vcvt _ | .vsfn _ | .vcmp _ | .vsel _ | .vcopy _
  | .vsum _ | .vscan _ | .vmaxi _ | .vgath _ | .vscat _ | .vscad _ | .vbern _ | .vrs _
  | .registerFill _ | .faultBufferEntry _ | .faultRetry _ | .faultReply _ _ | .fbstatWrite _ _ | .utvecWrite _ _
  | .preemptRequest _ | .preemptCancel _ | .restore _ | .deschedule _ | .timeSlice _ | .watchdog _ _ | .threadAged _
  | .pauseEnd _ | .activeMessageArrival _ _ | .contextFreeNotice _ _ | .slotHoldExpiry _ _ | .messageRetry _ _
  | .migrationArrival _ | .dispatch _ | .conditionWake _ | .conditionRecheck _ | .launchDoorbell _ _ | .runDone _
  | .waitaWake _ | .loftInvalidation _ _ | .patternCompile _ | .sfnResult _ | .realSetResult _ | .tableBuild _
  | .boundaryMessageArrival _ | .antiMessageArrival _ | .arrivalAcknowledgement _ | .pageMigration _ | .redirectNotice _ _
  | .hostAccess _ | .featureAccept _ _ | .flitRetry _ _ | .reroute _ _ | .deviceReset _ | .shedReset _ | .maintenanceState _ _ _
  | .thermalLimit _ _ | .criticalLimit _ | .mirrorStream _ | .safeTierCheckpoint _ | .rewind _ _ | .deviceFailureDetection _
  | .illegal _ | .vectorCommandCompletion _ | .accessPerformed _ _ => none

/-- The instruction word (R46 to R68); a command or a happening has none. -/
def encode (i : Instr) : Option (BitVec 32) := (i.encodeNat).map (BitVec.ofNat 32)

/-- The word of an instruction, as faults and stochastic rounding name it (R103, R356); 0 for what has none. -/
def Instr.word (i : Instr) : BitVec 32 := (encode i).getD 0

/-- The instruction the decoder reads from a table word: one 32-bit word, bit 0 its least significant bit. -/
def decodeTableWord (nbits w : Nat) : Option Instr :=
  if nbits ≤ 32 ∧ w < 2 ^ 32 then
    match decodeBytes (bytesOfWord (BitVec.ofNat 32 w)) with
    | .ok (i, _) => some i
    | .error _ => none
  else none

end Sys2Proof
end

