-- ==== Sys2Proof/Machine/Map.lean ====
section
/-! DEFINITION. Finite maps as lists of key and value pairs, and the bit-field helpers the machine uses on words. -/

namespace Sys2Proof.Machine

/-- A finite map from numbers, as the list of its pairs with rising keys. -/
abbrev Map (α : Type) := List (Nat × α)

namespace Map

variable {α : Type}

/-- The value at a key: of the pair that has it. -/
def get (m : Map α) (key : Nat) : Option α :=
  match m with
  | [] => none
  | pair :: later => if pair.fst = key then some pair.snd else Map.get later key

/-- The map with a value at a key, in the place of what it had there. -/
def set (m : Map α) (key : Nat) (value : α) : Map α :=
  match m with
  | [] => [⟨key, value⟩]
  | pair :: later =>
    if pair.fst < key then pair :: Map.set later key value
    else ⟨key, value⟩ :: if pair.fst = key then later else pair :: later

/-- The map without a key. -/
def erase (m : Map α) (key : Nat) : Map α := m.filter fun pair => decide (pair.fst ≠ key)

/-- The keys rise strictly: the canonical form of a map. -/
def sorted : Map α → Bool
  | [] => true
  | pair :: later => (match later with
      | [] => true
      | next :: _ => decide (pair.fst < next.fst)) && sorted later

/-- Every value for which `p` holds, in key order. -/
def vals (m : Map α) : List α := m.map Prod.snd

def getD (m : Map α) (k : Nat) (d : α) : α := (m.get k).getD d

/-- Change the value at `k`, if there is one. -/
def modify (m : Map α) (k : Nat) (f : α → α) : Map α :=
  match m.get k with
  | some v => m.set k (f v)
  | none => m

/-- The map with `f` applied to every value. -/
def mapVals (m : Map α) (f : Nat → α → α) : Map α := m.map (fun p => (p.1, f p.1 p.2))

/-- The pairs for which `p` holds. -/
def filterKV (m : Map α) (p : Nat → α → Bool) : Map α := m.filter (fun x => p x.1 x.2)

/-- One more than the largest key: a key not in use. -/
def fresh (m : Map α) : Nat := m.foldl (fun acc p => max acc (p.1 + 1)) 0

end Map

/-! ### Bit fields -/

/-- The field v[hi:lo] of a word, as a number (R6). -/
def bits (v : Word) (hi lo : Nat) : Nat := v.toNat / 2 ^ lo % 2 ^ (hi + 1 - lo)

/-- Bit `i` of a word. -/
def bitAt (v : Word) (i : Nat) : Bool := v.toNat / 2 ^ i % 2 == 1

/-- sext(v, n) of R8, as a 64-bit word, from the low n bits of a number. -/
def sextN (v n : Nat) : Word := BitVec.ofInt 64 (if v % 2 ^ n < 2 ^ (n - 1) then (v % 2 ^ n : Int) else (v % 2 ^ n : Int) - 2 ^ n)

/-- The signed value of the low n bits of a number. -/
def sval (v n : Nat) : Int := if v % 2 ^ n < 2 ^ (n - 1) then (v % 2 ^ n : Int) else (v % 2 ^ n : Int) - 2 ^ n

/-- zext(v, n) of R8. -/
def zextN (v n : Nat) : Word := BitVec.ofNat 64 (v % 2 ^ n)

def b2n (b : Bool) : Nat := if b then 1 else 0

def boolWord (b : Bool) : Word := if b then 1 else 0

/-- Little-endian value of a list of bytes (R6). -/
def leVal : List Byte → Nat
  | [] => 0
  | b :: r => b.toNat + 256 * leVal r

/-- The first n bytes of a number, little-endian (R6). -/
def leBytes : Nat → Nat → List Byte
  | 0, _ => []
  | n + 1, v => BitVec.ofNat 8 v :: leBytes n (v / 256)

/-- The numbers lo, lo + 1, …, lo + n − 1. -/
def range (lo n : Nat) : List Nat := (List.range n).map (lo + ·)

/-- ⌈a / b⌉. -/
def cdiv (a b : Nat) : Nat := (a + b - 1) / b

/-- Rounding up to a multiple of b. -/
def roundUp (a b : Nat) : Nat := cdiv a b * b

end Sys2Proof.Machine
end

