-- ==== Sys2Proof/Machine/Fp.lean ====
section
/-! DEFINITION. Exact arithmetic on dyadic numbers and the one rounding of R103, R104, R123 and R124, for every floating-point format of R116. -/

namespace Sys2Proof.Machine

/-- A floating-point format of R116: exponent bits, fraction bits, bias, its largest finite code, and whether it has
infinities and NaNs in the all-ones exponent (`ieee`), or saturates (R124). -/
structure FpFmt where
  eb : Nat
  mb : Nat
  bias : Nat
  maxCode : Nat
  ieee : Bool
  deriving DecidableEq, Repr

def fp64F : FpFmt := ⟨11, 52, 1023, 0x7FEFFFFFFFFFFFFF, true⟩
def fp32F : FpFmt := ⟨8, 23, 127, 0x7F7FFFFF, true⟩
def fp16F : FpFmt := ⟨5, 10, 15, 0x7BFF, true⟩
def bf16F : FpFmt := ⟨8, 7, 127, 0x7F7F, true⟩
def e5m2F : FpFmt := ⟨5, 2, 15, 0x7B, true⟩
def e4m3F : FpFmt := ⟨4, 3, 7, 0x7E, false⟩
def e2m1F : FpFmt := ⟨2, 1, 1, 0x7, false⟩

def fmtOf : Fmt → FpFmt
  | .fp64 => fp64F | .fp32 => fp32F | .fp16 => fp16F | .bf16 => bf16F

def FpFmt.width (f : FpFmt) : Nat := f.eb + f.mb + 1

/-- The exponent of the least quantum: a subnormal is k × 2^qmin. -/
def FpFmt.qmin (f : FpFmt) : Int := 1 - (f.bias : Int) - (f.mb : Int)

/-- A decoded value: its sign and its kind; a finite value is m × 2^e with m > 0. -/
inductive FpVal where
  | zero (neg : Bool)
  | fin (neg : Bool) (m : Nat) (e : Int)
  | inf (neg : Bool)
  | nan (signalling : Bool)
  deriving DecidableEq, Repr

/-- The five flags of R17, in the order NV DZ OF UF NX. -/
structure FpFlags where
  nv : Bool := false
  dz : Bool := false
  of : Bool := false
  uf : Bool := false
  nx : Bool := false
  deriving DecidableEq, Repr

def FpFlags.or (a b : FpFlags) : FpFlags :=
  ⟨a.nv || b.nv, a.dz || b.dz, a.of || b.of, a.uf || b.uf, a.nx || b.nx⟩

/-- PCS bits 60:56 (R17). -/
def FpFlags.toBits (a : FpFlags) : BitVec 5 :=
  BitVec.ofNat 5 (16 * b2n a.nv + 8 * b2n a.dz + 4 * b2n a.of + 2 * b2n a.uf + b2n a.nx)

def FpFlags.none : FpFlags := {}
def FpFlags.invalid : FpFlags := { nv := true }

/-- The canonical quiet NaN of a format (R104, R119). -/
def FpFmt.nanCode (f : FpFmt) : Nat :=
  if f.ieee then (2 ^ f.eb - 1) * 2 ^ f.mb + 2 ^ (f.mb - 1) else if f.eb = 4 then 0x7F else 0

def FpFmt.signBit (f : FpFmt) (neg : Bool) : Nat := if neg then 2 ^ (f.eb + f.mb) else 0

def FpFmt.infCode (f : FpFmt) (neg : Bool) : Nat := f.signBit neg + (2 ^ f.eb - 1) * 2 ^ f.mb

/-- R116: the value of a bit pattern. -/
def FpFmt.decode (f : FpFmt) (x : Nat) : FpVal :=
  let neg := x / 2 ^ (f.eb + f.mb) % 2 == 1
  let e := x / 2 ^ f.mb % 2 ^ f.eb
  let fr := x % 2 ^ f.mb
  if f.ieee && e == 2 ^ f.eb - 1 then
    if fr = 0 then .inf neg else .nan (fr < 2 ^ (f.mb - 1))
  else if f.eb = 4 && e == 15 && fr == 7 then .nan false
  else if e = 0 then
    if fr = 0 then .zero neg else .fin neg fr f.qmin
  else .fin neg (2 ^ f.mb + fr) (f.qmin + (e : Int) - 1)

/-- Whether a bit pattern is subnormal. -/
def FpFmt.isSubnormal (f : FpFmt) (x : Nat) : Bool := x / 2 ^ f.mb % 2 ^ f.eb == 0 && x % 2 ^ f.mb != 0

def FpFmt.negOf (f : FpFmt) (x : Nat) : Bool := x / 2 ^ (f.eb + f.mb) % 2 == 1

/-- R102: read an operand, under the operand-flush bit of its format. -/
def FpFmt.operand (f : FpFmt) (flush : Bool) (x : Nat) : FpVal :=
  if flush && f.isSubnormal x then .zero (f.negOf x) else f.decode x

/-- The rounding modes that a result can be rounded with; `sr w` carries the random word of R103 or R123. -/
inductive RMode where
  | rne | rz | rd | ru
  | sr (w : Nat)
  deriving DecidableEq, Repr

/-- An exact magnitude m × 2^e, plus something strictly between 0 and 2^e when `sticky`. -/
structure Exact where
  neg : Bool
  m : Nat
  e : Int
  sticky : Bool := false
  deriving DecidableEq, Repr

/-- Round a magnitude to a multiple of 2^q: the multiple and whether it is inexact. -/
def roundAt (mode : RMode) (x : Exact) (q : Int) : Nat × Bool :=
  if q ≤ x.e then (x.m * 2 ^ (x.e - q).toNat, x.sticky)
  else
    let sh := (q - x.e).toNat
    let lo := x.m / 2 ^ sh
    let rem := x.m % 2 ^ sh
    let exact := rem == 0 && !x.sticky
    let up : Bool := match mode with
      | .rne => decide (2 ^ (sh - 1) < rem) || (rem == 2 ^ (sh - 1) && (x.sticky || lo % 2 == 1))
      | .rz => false
      | .rd => x.neg && !exact
      | .ru => !x.neg && !exact
      | .sr w => !exact && decide (w < rem * 2 ^ 32 / 2 ^ sh)
    (if up then lo + 1 else lo, !exact)

/-- floor(log2 m), for m > 0. -/
def floorLog2 (m : Nat) : Nat := Nat.log2 m

/-- What rounding gives: the code without NaN cases, and the flags. `flush` is the result-flush bit of the format
(R104). Overflow: ∞ or the largest finite code by R104; a format without infinities saturates (R124). -/
def roundTo (f : FpFmt) (mode : RMode) (flush : Bool) (x : Exact) : Nat × FpFlags :=
  if x.m = 0 && !x.sticky then (f.signBit x.neg, {})
  else
    let qU := x.e + (floorLog2 x.m : Int) - (f.mb : Int)
    let q := max qU f.qmin
    let (k, inexact) := roundAt mode x q
    let (kU, _) := roundAt mode x qU
    -- tininess after rounding with an unbounded exponent (R103)
    let tiny := decide (qU < f.qmin) && decide (kU < 2 ^ (f.mb + Int.toNat (f.qmin - qU)))
    if tiny && flush then (f.signBit x.neg, { uf := true, nx := true })
    else
      let mag := k + (q - f.qmin).toNat * 2 ^ f.mb
      if f.maxCode < mag then
        let toMax : Bool := match mode with
          | .rne | .sr _ => !f.ieee
          | .rz => true
          | .rd => !x.neg || !f.ieee
          | .ru => x.neg || !f.ieee
        (if toMax then f.signBit x.neg + f.maxCode else f.infCode x.neg, { of := true, nx := true })
      else (f.signBit x.neg + mag, { uf := tiny && inexact, nx := inexact })

/-! ### Exact operations -/

def Exact.ofVal : FpVal → Exact
  | .fin n m e => ⟨n, m, e, false⟩
  | .zero n => ⟨n, 0, 0, false⟩
  | .inf n => ⟨n, 0, 0, false⟩
  | .nan _ => ⟨false, 0, 0, false⟩

/-- The signed integer of an exact value in units of 2^e. -/
def Exact.scaled (x : Exact) (e : Int) : Int :=
  let v : Int := ((x.m * 2 ^ (x.e - e).toNat : Nat) : Int)
  if x.neg then -v else v

def Exact.ofInt (v : Int) (e : Int) : Exact := ⟨decide (v < 0), v.natAbs, e, false⟩

/-- The exact sum of two finite values. -/
def exactAdd (a b : Exact) : Exact :=
  let e := min a.e b.e
  Exact.ofInt (a.scaled e + b.scaled e) e

def exactMul (a b : Exact) : Exact := ⟨a.neg != b.neg, a.m * b.m, a.e + b.e, false⟩

/-- a / b for b ≠ 0, with 192 further bits and a sticky bit for the remainder. -/
def exactDiv (a b : Exact) : Exact :=
  let num := a.m * 2 ^ 192
  ⟨a.neg != b.neg, num / b.m, a.e - b.e - 192, num % b.m != 0⟩

/-- The integer square root, by one bit per step from bit `k`. -/
def isqrtAux (n : Nat) : Nat → Nat → Nat
  | 0, r => r
  | k + 1, r => if (r + 2 ^ k) * (r + 2 ^ k) ≤ n then isqrtAux n k (r + 2 ^ k) else isqrtAux n k r

def isqrt (n : Nat) : Nat := isqrtAux n (Nat.log2 n / 2 + 1) 0

/-- √a for a ≥ 0, with at least 64 bits below the unit of any format. -/
def exactSqrt (a : Exact) : Exact :=
  let sh : Nat := if a.e % 2 = 0 then 256 else 257
  let n := a.m * 2 ^ sh
  let r := isqrt n
  ⟨false, r, (a.e - sh) / 2, r * r != n⟩

/-- The comparison a < b of two values that are not NaN, with −0 = +0. -/
def FpVal.toExactInf : FpVal → Option (Int × Exact)
  | .nan _ => none
  | .inf n => some (if n then -1 else 1, ⟨false, 0, 0, false⟩)
  | v => some (0, Exact.ofVal v)

def FpVal.lt (a b : FpVal) : Bool :=
  match a.toExactInf, b.toExactInf with
  | some (i, x), some (j, y) =>
    if i ≠ j then decide (i < j)
    else if i ≠ 0 then false
    else decide (x.scaled (min x.e y.e) < y.scaled (min x.e y.e))
  | _, _ => false

def FpVal.eq (a b : FpVal) : Bool :=
  match a.toExactInf, b.toExactInf with
  | some _, some _ => !a.lt b && !b.lt a
  | _, _ => false

def FpVal.isNan : FpVal → Bool
  | .nan _ => true
  | _ => false

def FpVal.isSnan : FpVal → Bool
  | .nan s => s
  | _ => false

def FpVal.isNeg : FpVal → Bool
  | .zero n | .fin n _ _ | .inf n => n
  | .nan _ => false

def FpVal.negate : FpVal → FpVal
  | .zero n => .zero !n
  | .fin n m e => .fin (!n) m e
  | .inf n => .inf !n
  | .nan s => .nan s

/-- The bits of a value that lies in the format exactly (a flushed or unchanged operand). -/
def FpFmt.codeOf (f : FpFmt) (v : FpVal) : Nat :=
  match v with
  | .zero n => f.signBit n
  | .inf n => f.infCode n
  | .nan _ => f.nanCode
  | .fin n m e => (roundTo f .rz false ⟨n, m, e, false⟩).1

/-- A zero sum of operands with opposite signs: +0, and −0 under RD (R103). -/
def zeroSumNeg (mode : RMode) : Bool :=
  match mode with
  | .rd => true
  | _ => false

/-- Round an exact sum; the sign of a zero sum comes from its operands' signs (R103). -/
def roundSum (f : FpFmt) (mode : RMode) (flush : Bool) (an bn : Bool) (x : Exact) : Nat × FpFlags :=
  if x.m = 0 && !x.sticky then
    (f.signBit (if an = bn then an else zeroSumNeg mode), {})
  else roundTo f mode flush x

/-- R105: fadd; fsub is fadd of the negated second operand. -/
def fpAdd (f : FpFmt) (mode : RMode) (flush : Bool) (a b : FpVal) : Nat × FpFlags :=
  match a, b with
  | .nan _, _ | _, .nan _ => (f.nanCode, { nv := a.isSnan || b.isSnan })
  | .inf x, .inf y => if x = y then (f.infCode x, {}) else (f.nanCode, FpFlags.invalid)
  | .inf x, _ => (f.infCode x, {})
  | _, .inf y => (f.infCode y, {})
  | _, _ => roundSum f mode flush a.isNeg b.isNeg (exactAdd (Exact.ofVal a) (Exact.ofVal b))

/-- R105: fmul. -/
def fpMul (f : FpFmt) (mode : RMode) (flush : Bool) (a b : FpVal) : Nat × FpFlags :=
  let n := a.isNeg != b.isNeg
  match a, b with
  | .nan _, _ | _, .nan _ => (f.nanCode, { nv := a.isSnan || b.isSnan })
  | .inf _, .zero _ | .zero _, .inf _ => (f.nanCode, FpFlags.invalid)
  | .inf _, _ | _, .inf _ => (f.infCode n, {})
  | _, _ => roundTo f mode flush { exactMul (Exact.ofVal a) (Exact.ofVal b) with neg := n }

/-- R105: fdiv. -/
def fpDiv (f : FpFmt) (mode : RMode) (flush : Bool) (a b : FpVal) : Nat × FpFlags :=
  let n := a.isNeg != b.isNeg
  match a, b with
  | .nan _, _ | _, .nan _ => (f.nanCode, { nv := a.isSnan || b.isSnan })
  | .inf _, .inf _ | .zero _, .zero _ => (f.nanCode, FpFlags.invalid)
  | .inf _, _ => (f.infCode n, {})
  | _, .inf _ => (f.signBit n, {})
  | .fin .., .zero _ => (f.infCode n, { dz := true })
  | .zero _, .fin .. => (f.signBit n, {})
  | .fin .., .fin .. => roundTo f mode flush { exactDiv (Exact.ofVal a) (Exact.ofVal b) with neg := n }

/-- R105: fsqrt. -/
def fpSqrt (f : FpFmt) (mode : RMode) (flush : Bool) (a : FpVal) : Nat × FpFlags :=
  match a with
  | .nan s => (f.nanCode, { nv := s })
  | .zero n => (f.signBit n, {})
  | .inf true => (f.nanCode, FpFlags.invalid)
  | .inf false => (f.infCode false, {})
  | .fin true _ _ => (f.nanCode, FpFlags.invalid)
  | .fin false m e => roundTo f mode flush (exactSqrt ⟨false, m, e, false⟩)

/-- R106: a × b + c with one rounding; fms passes c negated. -/
def fpFma (f : FpFmt) (mode : RMode) (flush : Bool) (a b c : FpVal) : Nat × FpFlags :=
  let pn := a.isNeg != b.isNeg
  let zeroInf : Bool := match a, b with
    | .inf _, .zero _ | .zero _, .inf _ => true
    | _, _ => false
  let snan := a.isSnan || b.isSnan || c.isSnan
  if zeroInf then (f.nanCode, FpFlags.invalid)
  else if a.isNan || b.isNan || c.isNan then (f.nanCode, { nv := snan })
  else
    let prodInf : Bool := match a, b with
      | .inf _, _ | _, .inf _ => true
      | _, _ => false
    match prodInf, c with
    | true, .inf cn => if cn = pn then (f.infCode pn, {}) else (f.nanCode, FpFlags.invalid)
    | true, _ => (f.infCode pn, {})
    | false, .inf cn => (f.infCode cn, {})
    | false, _ =>
      let p := { exactMul (Exact.ofVal a) (Exact.ofVal b) with neg := pn }
      roundSum f mode flush pn c.isNeg (exactAdd p (Exact.ofVal c))

/-- −0 ordered below +0 (R107). -/
def FpVal.ltSigned (a b : FpVal) : Bool :=
  match a, b with
  | .zero x, .zero y => x && !y
  | _, _ => a.lt b

/-- R107: fmin and fmax, and vmin and vmax; a subnormal result stays, as they do not round: R104's result flush is taken not to act
on them (log entry 76). -/
def fpMinMax (f : FpFmt) (isMax : Bool) (a b : FpVal) : Nat × FpFlags :=
  let fl : FpFlags := { nv := a.isSnan || b.isSnan }
  if a.isNan && b.isNan then (f.nanCode, fl)
  else if a.isNan then (f.codeOf b, fl)
  else if b.isNan then (f.codeOf a, fl)
  else
    let pickB := if isMax then a.ltSigned b else b.ltSigned a
    (f.codeOf (if pickB then b else a), fl)

/-- R110: fcmp. -/
def fpCmp (p : FPred) (a b : FpVal) : Bool × FpFlags :=
  let s := a.isSnan || b.isSnan
  let n := a.isNan || b.isNan
  match p with
  | .eq => (a.eq b, { nv := s })
  | .lt => (a.lt b, { nv := n })
  | .le => (!n && !b.lt a, { nv := n })
  | .un => (n, { nv := s })

/-- R109: round to an integral value in the same format. -/
def fpRound (f : FpFmt) (mode : RMode) (flush : Bool) (a : FpVal) : Nat × FpFlags :=
  match a with
  | .nan s => (f.nanCode, { nv := s })
  | .zero n => (f.signBit n, {})
  | .inf n => (f.infCode n, {})
  | .fin n m e =>
    let (k, inexact) := roundAt mode ⟨n, m, e, false⟩ (max 0 e)
    let (c, _) := roundTo f .rz flush ⟨n, k, max 0 e, false⟩
    (c, { nx := inexact })

/-- R108: the class word of fclass. -/
def fpClass (f : FpFmt) (flush : Bool) (x : Nat) : Nat :=
  let neg := f.negOf x
  let sub := f.isSubnormal x
  let kind := match f.decode x with
    | .zero _ => 0
    | .fin _ _ _ => if sub then 1 else 2
    | .inf _ => 3
    | .nan s => if s then 5 else 4
  let integral : Bool := match f.decode x with
    | .zero _ => true
    | .fin _ m e => decide (0 ≤ e) || m % 2 ^ (-e).toNat == 0
    | _ => false
  kind + 8 * b2n neg + 16 * b2n integral + 32 * b2n (sub && flush)

/-- R111: a floating-point value to another floating-point format. -/
def fpToFp (g : FpFmt) (mode : RMode) (flush : Bool) (a : FpVal) : Nat × FpFlags :=
  match a with
  | .nan s => (g.nanCode, { nv := s })
  | .zero n => (g.signBit n, {})
  | .inf n => (g.infCode n, {})
  | .fin n m e => roundTo g mode flush ⟨n, m, e, false⟩

/-- R111: a floating-point value to an integer between lo and hi. -/
def fpToInt (mode : RMode) (lo hi : Int) (a : FpVal) : Int × FpFlags :=
  match a with
  | .nan _ => (0, FpFlags.invalid)
  | .zero _ => (0, {})
  | .inf n => (if n then lo else hi, FpFlags.invalid)
  | .fin n m e =>
    let (k, inexact) := roundAt mode ⟨n, m, e, false⟩ (max 0 e)
    let v : Int := ((k * 2 ^ (max 0 e).toNat : Nat) : Int)
    let v := if n then -v else v
    if hi < v then (hi, FpFlags.invalid)
    else if v < lo then (lo, FpFlags.invalid)
    else (v, { nx := inexact })

/-- R111: an integer to a floating-point format. -/
def intToFp (g : FpFmt) (mode : RMode) (flush : Bool) (v : Int) : Nat × FpFlags :=
  roundTo g mode flush ⟨decide (v < 0), v.natAbs, 0, false⟩

end Sys2Proof.Machine
end

