-- ==== Sys2Proof/Machine/Random.lean ====
section
/-! DEFINITION. The permutation MIX (R317), the tie hash (R320) and the random words of stochastic rounding (R103, R123). -/

namespace Sys2Proof.Machine

/-- Rotation of a 64-bit word to the left by 0 < n < 64. -/
def rotl64 (x : Word) (n : Nat) : Word := x <<< n ||| x >>> (64 - n)

/-- ROT of R317. -/
def mixRot (r : Nat) : Nat :=
  match r % 8 with
  | 0 => 14 | 1 => 52 | 2 => 23 | 3 => 5 | 4 => 37 | 5 => 25 | 6 => 46 | _ => 12

/-- key[j mod 3] of R317. -/
def mixKey (k0 k1 : Word) (j : Nat) : Word :=
  match j % 3 with
  | 0 => k0 | 1 => k1 | _ => k0 ^^^ k1 ^^^ 0x6A09E667F3BCC909#64

/-- One round of R317 on (a, b). -/
def mixRound (k0 k1 : Word) (r : Nat) (ab : Word × Word) : Word × Word :=
  let a := ab.1 + ab.2
  let b := rotl64 ab.2 (mixRot r) ^^^ a
  if r % 4 = 3 then
    let j := (r + 1) / 4
    (a + mixKey k0 k1 j, b + mixKey k0 k1 (j + 1) + BitVec.ofNat 64 j)
  else (a, b)

/-- MIX(seed, s, c) of R317 as the pair of its low and high halves; the seed is (lo, hi). -/
def mix (lo hi : Word) (s : Nat) (c : Word) : Word × Word :=
  (List.range 16).foldl (fun ab r => mixRound lo hi r ab)
    (c + lo, (BitVec.ofNat 64 (s % 2 ^ 32) ^^^ 0xB7E151628AED2A6A#64) + hi)

/-- A run's seed, CR.SEEDHI:CR.SEEDLO (R157). -/
structure Seed where
  lo : Word
  hi : Word
  deriving DecidableEq, Repr

/-- MIX bits 63:0. -/
def mixLow (sd : Seed) (s : Nat) (c : Word) : Word := (mix sd.lo sd.hi s c).1

/-- th(g, o) of R320. -/
def tieHash (sd : Seed) (g o : Nat) : Word :=
  mixLow sd 0xFFFFFFF2 (BitVec.ofNat 64 (g % 2 ^ 22 * 2 ^ 42 + o % 2 ^ 42))

/-- R103: the word w of a scalar stochastic rounding. -/
def srScalar (sd : Seed) (a b c : Word) (word : BitVec 32) : Nat :=
  (mixLow sd 0xFFFFFFF0 (a ^^^ rotl64 b 21 ^^^ rotl64 c 42 ^^^ (word.setWidth 64 <<< 32))).toNat % 2 ^ 32

/-- R123: the word w of an engine's stochastic rounding of element i under key k. -/
def srUnit (sd : Seed) (k i : Nat) : Nat :=
  (mixLow sd 0xFFFFFFF1 (BitVec.ofNat 64 (k % 2 ^ 24 * 2 ^ 40 + i % 2 ^ 40))).toNat % 2 ^ 32

/-- R347, R299: bits 63:48 of a draw lie below a probability. -/
def bernoulli (sd : Seed) (s : Nat) (c : Word) (p : Nat) : Bool :=
  decide (bits (mixLow sd s c) 63 48 < p)

/-- R318: a program stream. -/
def programStream (s : Nat) : Bool := decide (0x00400000 ≤ s) && decide (s ≤ 0xFFFEFFFF)

/-- R331: the hash of a line with its eight dwords. -/
def lineHash (sd : Seed) (addr : Nat) (ws : List Word) : Word :=
  ws.foldl (fun h w => mixLow sd 0xFFFFFFF3 (h ^^^ w)) (BitVec.ofNat 64 (addr / 64 % 2 ^ 46))

/-- R331: the hash of leaf i with value q. -/
def leafHash (sd : Seed) (i q : Nat) : Word :=
  mixLow sd 0xFFFFFFF4 (mixLow sd 0xFFFFFFF4 (BitVec.ofNat 64 i) ^^^ BitVec.ofNat 64 q)

end Sys2Proof.Machine
end

