-- ==== Sys2Proof/Machine/Narrow.lean ====
section
/-! DEFINITION. The number formats of the units (R115 to R129): format codes, elements, conversion, the microscaling blocks and LQ2. -/

namespace Sys2Proof.Machine

/-- R115: the bits of one element (one weight for LQ2; format 18 by its width). -/
def fmtBits (code w18 : Nat) : Nat :=
  match code with
  | 1 | 17 => 64
  | 2 | 16 => 32
  | 3 | 4 | 15 => 16
  | 7 | 9 | 12 => 4
  | 14 => 2
  | 18 => w18
  | _ => 8

/-- R115: a format code and block-length logarithm that a unit accepts. -/
def fmtOk (code blog : Nat) : Bool :=
  if code ≤ 9 then blog == 0
  else if code ≤ 13 then blog == 0 || (decide (3 ≤ blog) && decide (blog ≤ 8))
  else if code = 14 then blog == 0 || blog == 5
  else decide (code ≤ 18) && blog == 0

/-- Formats whose elements carry an E8M0 scale. -/
def fmtScaled (code : Nat) : Bool := decide (10 ≤ code) && decide (code ≤ 14)

/-- R125, R128: the block length of a scaled format. -/
def blockLen (code blog : Nat) : Nat :=
  if code = 14 then 32 else if blog = 0 then 32 else 2 ^ blog

/-- R120: bit number of the operand flush of a format code; the result flush is the next bit. -/
def flushBit (code : Nat) : Nat :=
  match code with
  | 1 => 0 | 2 => 2 | 3 => 4 | 4 => 6 | 5 => 8 | 6 => 10 | 7 => 12 | _ => 64

def opFlush (fpctl code : Nat) : Bool := fpctl / 2 ^ flushBit code % 2 == 1
def resFlush (fpctl code : Nat) : Bool := fpctl / 2 ^ (flushBit code + 1) % 2 == 1

/-- The pointer format code of a scalar format. -/
def fmtPtrCode : Fmt → Nat
  | .fp64 => 1 | .fp32 => 2 | .fp16 => 3 | .bf16 => 4

/-- The floating-point format of a code's element. -/
def elemFmt (code : Nat) : FpFmt :=
  match code with
  | 1 => fp64F | 2 => fp32F | 3 => fp16F | 4 => bf16F
  | 5 | 10 => e4m3F
  | 6 | 11 => e5m2F
  | _ => e2m1F

def isIntFmt (code : Nat) : Bool := code == 8 || code == 9 || code == 13

/-- An integer as a value. -/
def FpVal.ofInt (v : Int) (e : Int) : FpVal :=
  if v = 0 then .zero false else .fin (decide (v < 0)) v.natAbs e

/-- X × value (R126). -/
def FpVal.scale (v : FpVal) (x : Int) : FpVal :=
  match v with
  | .fin n m e => .fin n m (e + x)
  | v => v

/-- R126: the value of an element under its scale; an unscaled element under its flush bit (R121). -/
def elemVal (fpctl code raw scale : Nat) : FpVal :=
  if fmtScaled code then
    if scale = 0xFF then .nan false
    else
      let v := if code = 13 then FpVal.ofInt (sval raw 8) (-6) else (elemFmt code).decode raw
      v.scale ((scale : Int) - 127)
  else if code = 8 then FpVal.ofInt (sval raw 8) 0
  else if code = 9 then FpVal.ofInt (sval raw 4) 0
  else (elemFmt code).operand (opFlush fpctl code) raw

/-- R128: the coordinates of an LQ2 index, doubled. -/
def lq2Coords (idx : Nat) : List Int :=
  let bit (i : Nat) : Bool := idx / 2 ^ i % 2 == 1
  let mag (c : Nat) : Int := if bit c then 3 else 1
  let w7 := (List.range 7).map (fun c => if bit (8 + c) then -(mag c) else mag c)
  let s := w7.foldl (· + ·) 0 + mag 7
  let last := if s % 4 = 0 then mag 7 else -(mag 7)
  (w7 ++ [last]).map (fun v => if bit 15 then v + 1 else v)

/-- R128: weight i of an index under its scale. -/
def lq2Val (idx i scale : Nat) : FpVal :=
  if scale = 0xFF then .nan false
  else (FpVal.ofInt ((lq2Coords idx).getD (i % 8) 0) (-1)).scale ((scale : Int) - 127)

/-- R124: conversion of an exact value into an unscaled destination format. -/
def convTo (fpctl code : Nat) (mode : RMode) (v : FpVal) : Nat × FpFlags :=
  if code = 8 then
    let r := fpToInt mode (-128) 127 v
    ((r.1 % 256).toNat, r.2)
  else if code = 9 then
    let r := fpToInt mode (-8) 7 v
    ((r.1 % 16).toNat, r.2)
  else
    let f := elemFmt code
    if f.ieee then fpToFp f mode (resFlush fpctl code) v
    else match v with
      | .nan s => (f.nanCode, { nv := s || code == 7 })
      | .inf n => (f.signBit n + f.maxCode, FpFlags.invalid)
      | v => fpToFp f mode (resFlush fpctl code) v

/-- floor(log2 |v|) of a non-zero finite value. -/
def FpVal.expo : FpVal → Option Int
  | .fin _ m e => some ((floorLog2 m : Int) + e)
  | _ => none

/-- emax of R127. -/
def mxEmax (code : Nat) : Int :=
  match code with
  | 10 => 8 | 11 => 15 | 12 => 2 | _ => 0

/-- One element of an MX block (R127): its code and whether it differs from the exact quotient, and whether it is zero. -/
def mxElem (code : Nat) (mode : RMode) (v : FpVal) : Nat × Bool × Bool :=
  match v with
  | .fin n m e =>
    if code = 13 then
      let r := roundAt mode ⟨n, m, e + 6, false⟩ (max 0 (e + 6))
      let k := r.1 * 2 ^ (max 0 (e + 6)).toNat
      let lim := if n then 128 else 127
      let c := min k lim
      (if n then (256 - c) % 256 else c, r.2 || decide (lim < k), c == 0)
    else
      let f := elemFmt code
      let r := roundTo f mode false ⟨n, m, e, false⟩
      if r.2.of then (f.signBit n + f.maxCode, true, false)
      else (r.1, r.2.nx, r.1 % 2 ^ (f.eb + f.mb) == 0)
  | .zero n => (if code = 13 then 0 else (elemFmt code).signBit n, false, true)
  | _ => (0, false, true)

/-- R127: quantising a block: its scale, its element codes and the flags. `mode j` is the mode of element j. -/
def mxQuantise (code : Nat) (mode : Nat → RMode) (vs : List FpVal) : Nat × List Nat × FpFlags :=
  if vs.any (fun v => match v with | .nan _ | .inf _ => true | _ => false) then
    (0xFF, vs.map (fun _ => 0), FpFlags.invalid)
  else
    let x0 : Int := match vs.filterMap FpVal.expo with
      | [] => -127
      | e :: es => es.foldl max e - mxEmax code
    let low := decide (x0 < -127)
    let big := decide (127 < x0)
    let x := if low then -127 else if big then 127 else x0
    let es := (vs.zip (List.range vs.length)).map
      (fun p => mxElem code (if low then .rne else mode p.2) (p.1.scale (-x)))
    let nz := vs.map (fun v => v.expo.isSome)
    let fl : FpFlags := {
      of := big
      nx := es.any (fun e => e.2.1)
      uf := low && (es.zip nz).any (fun e => e.1.2.2 && e.2) }
    ((x + 127).toNat, es.map (fun e => e.1), fl)

end Sys2Proof.Machine
end

