-- ==== Sys2Proof/Machine/State.lean ====
section
/-! DEFINITION. The state of the machine as plain data: harts, threads, runs, logical sheds with their phasers, rings, regions and queues, cores, service cores, partitions, devices, memory, and the happenings in flight. -/

namespace Sys2Proof.Machine

/-- Why the machine stops. -/
inductive Fault where
  /-- Raised by `step` when every device is stopped by its critical limit (R395) and no happening or input is to come. Safe: no state
  follows. -/
  | deviceStopped
  deriving DecidableEq, Repr

/-- Why an instruction has no meaning. -/
inductive Refusal where
  /-- Raised by an arm of `exec` whose instruction the model does not give a meaning. Safe: no state follows. -/
  | notModelled (mnemonic : String)
  deriving DecidableEq, Repr

/-- The context of a thread or of a service core (R15 to R17): live registers x1 to x15 (an absent key is a dead
register, R20), and the fields of PCS. -/
structure Hart where
  regs : Map Word
  rm : BitVec 3
  /-- NV DZ OF UF NX, PCS bits 60:56. -/
  flags : BitVec 5
  intrap : Bool
  dead : Bool
  pc : BitVec 52
  deriving DecidableEq, Repr

def Hart.blank : Hart := ⟨[], 0, 0, false, false, 0⟩

/-- A logical coordinate (R156). -/
structure Coord where
  ly : Nat
  ls : Nat
  lc : Nat
  st : Nat
  deriving DecidableEq, Repr

/-- The issue classes (R182). -/
inductive Cls where
  | normal | background | reply
  deriving DecidableEq, Repr

/-- What a thread that re-executes its instruction when woken waits for; `save` is the eret that ends a save routine, which
waits for the thread's jobs and vector commands (R372). -/
inductive Why where
  /-- The ring of that number, for n filled slots, or for n free ones (R270). -/
  | ring (q n : Nat) (filled : Bool)
  | job
  /-- A stalled tcwh's job (R373). -/
  | port
  /-- A rebuild of a slot's tables (R139). -/
  | build
  | outbox
  | phase (ph : Nat)
  | vector
  /-- A page migration of the 64 KiB frame (R239). -/
  | frame (f : Nat)
  | slot
  | save
  deriving DecidableEq, Repr

/-- How a thread is parked (R22 to R25, R42, R373). -/
inductive Park where
  | none
  /-- On its mailbox, for the reply to fault message f (R42). -/
  | mailbox (f : Nat)
  /-- In a phaser wait for the completion of a phase (R214). -/
  | phaser (ph : Nat) (rd : Reg) (upto : Int)
  /-- Its instruction is re-executed when the unit wakes it: rings, jobs, a stalled tcwh or vop, oflush, a second phsig. -/
  | retry (w : Why)
  /-- In the wait table, with entry e (R242). -/
  | waita (rd : Reg) (e : Nat) (ends : List Reg)
  /-- Removed from the wait table; the status is on its way (R243). -/
  | woken (rd : Reg) (status : Nat) (sys : Bool) (ends : List Reg)
  /-- Until the core's vector commands with keys below `upto` have finished (R279). -/
  | vfence (upto : Nat)
  /-- An sfn or real-set result in flight (R113, R149): destination, value, flags. -/
  | result (rset : Bool) (rd : Reg) (v : Word) (fl : BitVec 5)
  /-- rsring is building its tables (R138, R139), for the load of that number. -/
  | table (z : Nat) (rd : Reg) (points : List Word) (version : Nat)
  /-- Until the clock reaches a step (R221). -/
  | pause (till : Nat)
  /-- At safe point n, by R372. -/
  | safepoint (n : Nat)
  /-- Its migration message is on its way to a physical shed (R173). -/
  | migrating (sheds : List Nat) (refusals : Nat) (access : Bool)
  /-- Its write of CR.UTVEC is on its way, with the value written (R175). -/
  | utvec (v : Word)
  deriving DecidableEq, Repr

/-- What an atomic does to its location (R203): fadd under its run's flush bits for the operands and for the result, cas with its
compare value. -/
inductive AtomKind where
  | add | and | or | xor | min | max | minu | maxu | swp | decp
  | fadd (fo fr : Bool)
  | cas (c : Nat)
  deriving DecidableEq, Repr

/-- An atomic: what it does, its operand, and the register that a returning form writes. -/
structure Atomic where
  kind : AtomKind
  v : Nat
  rd : Option Reg
  deriving DecidableEq, Repr

/-- A store, or a relaxed atomic (R206), that is not yet performed (R187): the byte key of its first byte and its bytes, which for an
atomic say its width alone; a release store is performed after every earlier access of its thread (R193). -/
structure PStore where
  key : Nat
  bytes : List Byte
  rel : Bool
  atom : Option Atomic
  deriving DecidableEq, Repr

/-- A load that is not yet performed (R190): its destination, where it reads, its width and extension, and whether the L1
may serve it (R94). -/
structure PLoad where
  rd : Reg
  key : Nat
  size : Nat
  signed : Bool
  cached : Bool
  deriving DecidableEq, Repr

/-- The staged words of a tcwl, and its address (R76). -/
structure Staged where
  w0 : Word
  w1 : Word
  pc : BitVec 52
  deriving DecidableEq, Repr

/-- A compute thread. -/
structure Thread where
  hart : Hart
  run : Nat
  coord : Coord
  /-- Physical core and context slot (R161). -/
  core : Nat
  slot : Nat
  cls : Cls
  /-- At its first issue after a wake, or aged (R182, R183). -/
  urgent : Bool
  /-- Steps in which it was ready since its last issue (R183). -/
  ready : Nat
  /-- Its place in the round-robin order: the clock at its last issue or yield. -/
  stamp : Nat
  park : Park
  utcause : Word
  utval : Word
  utepc : Word
  save7 : Option Word
  save8 : Option Word
  jobbase : Word
  staged : Option Staged
  pending : List PStore
  loads : List PLoad
  /-- Jobs not yet observed complete (R174). -/
  unseen : List Nat
  /-- Bits of vbusy (R279): first non-OK status and the flags of its finished commands. -/
  vErr : Nat
  vFlags : BitVec 5
  /-- The move for the current access has ended (R173). -/
  moved : Bool
  /-- It has counted at a safe point, and is held from issue while the request stays set (R373). -/
  held : Bool
  /-- It runs its restore routine (R375). -/
  restoring : Bool
  deriving DecidableEq, Repr

/-- A real-set slot: the run-wide record of R139: the definition's address, the coordinate of the thread that loaded it, its width,
its status (0 loaded, else empty) and the number of the load. -/
structure ZRec where
  addr : Nat
  coord : Coord
  width : Nat
  status : Nat
  version : Nat
  deriving DecidableEq, Repr

/-- A member of a phaser (R210, R214). -/
structure Member where
  /-- Its logical shed. -/
  lk : Nat
  mode : PhMode
  sig : Int
  obs : Int
  joined : Nat
  value : Option Word
  /-- The last phase that it had signalled, or that had completed, when its thread was recovered (R394, log entry 114); else −1. -/
  past : Int
  deriving DecidableEq, Repr

/-- The byte counter of a phaser in one logical shed (R211). -/
structure Counter where
  c : Int
  posted : Bool
  arrived : Bool
  deriving DecidableEq, Repr

/-- A phaser (R208 to R216). -/
structure Phaser where
  phase : Nat
  members : Map Member
  /-- A signal or byte arrival has been made since the record was created (R210). -/
  started : Bool
  counters : Map Counter
  kind : Option PhRed
  value : Word
  /-- A signal has been counted toward the current phase. -/
  had : Bool
  /-- The cause of R212 when the phaser is broken; else 0. -/
  broken : Nat
  /-- The values of the completed phases, the latest first: phread asks for that one (R214), and a thread that a recovery has put back for
  those of the phases that it observes again (R394). -/
  vals : List Word
  deriving DecidableEq, Repr

/-- The value of the latest completed phase. -/
def Phaser.last (p : Phaser) : Word := p.vals.headD 0

/-- A run (R150 to R157). -/
structure Run where
  hdr : Nat
  part : Nat
  prio : Nat
  state : Nat
  drop : Nat
  cause : Nat
  nly : Nat
  nls : Nat
  nlc : Nat
  nstage : Nat
  det : Bool
  drt : Bool
  pers : Bool
  beat : Nat
  spad : Nat
  trees : Nat
  zclaim : Nat
  htab : Nat
  hcount : Nat
  sptab : Nat
  spcount : Nat
  utvec : Word
  fpctl : Nat
  seed : Seed
  jobbase : Word
  rings : Nat
  /-- Present wait conditions: comparison, address, value (R155). -/
  conds : List (WCmp × Nat × Word)
  zslots : Map ZRec
  /-- ph56 to ph63 (R208). -/
  phasers : Map Phaser
  preempt : Bool
  frozen : Bool
  descheduled : Bool
  /-- The CR.RUNCTL writes that wait for their outcome (R366, R374): service core and OP. -/
  requester : List (Nat × Nat)
  /-- The conditions have held, and the run waits for sheds (R181). -/
  ready : Bool
  /-- The clock since which it is the oldest ready run of the highest non-empty level (R181). -/
  oldest : Option Nat
  /-- STATE was not 0 at launch (R154). -/
  stale : Bool
  /-- The first entry of its block of its partition's remap table (R159). -/
  block : Nat
  deriving DecidableEq, Repr

/-- A party attached to a ring as a producer (R268). -/
inductive Att where
  | thread (t : Nat)
  | job (j : Nat)
  | vcmd (v : Nat)
  deriving DecidableEq, Repr

/-- A ring (R266 to R275). -/
structure Ring where
  /-- 0 UNDEF, 1 OPEN, 2 CLOSED, 3 BROKEN. -/
  st : Nat
  defn : Word
  head : Nat
  tail : Nat
  att : List Att
  seq : Map Nat
  /-- Scale groups on the side band: tag and scale bytes (R275). -/
  scales : List (Nat × List Nat)
  /-- Announced skips (R288). -/
  skips : List Nat
  deriving DecidableEq, Repr

/-- A tiling of the work queue (R280, R295). -/
structure Tiling where
  colMajor : Bool
  rows : Nat
  cols : Nat
  trows : Nat
  tcols : Nat
  cursor : Nat
  deriving DecidableEq, Repr

/-- An event key (R320); `start` is the start key. -/
structure Key where
  start : Bool
  time : Nat
  tie : Nat
  id : Nat
  ord : Nat
  sub : Nat
  deriving DecidableEq, Repr

def Key.begin : Key := ⟨true, 0, 0, 0, 0, 0⟩

/-- A boundary message (R323); kind 2 is an anti-message. -/
structure BMsg where
  run : Nat
  key : Key
  /-- The key of the event that sent it (R393). -/
  src : Key
  kind : Nat
  /-- For an anti-message, the kind of the message it cancels. -/
  orig : Nat
  target : Nat
  p0 : Word
  p1 : Word
  /-- 0 on its way, 1 held before the target's queue (R324, R335), 2 entered and not yet acknowledged. -/
  st : Nat
  deriving DecidableEq, Repr

/-- A marked range (R326, R343): each of its lines with its eight dwords, as the keys of their bytes; a scratchpad's byte
has the key 2^60 + logical core × 2^19 + local offset here (R354). -/
structure Mark where
  addr : Nat
  len : Nat
  lines : List (Nat × List Nat)
  deriving DecidableEq, Repr

/-- An undo entry (R326), with its epoch. -/
inductive Undo where
  | line (epoch va : Nat) (keys : List Nat) (bytes : List Byte)
  | leaf (epoch i q : Nat)
  /-- The term that it added to DIGEST. -/
  | mark (epoch : Nat) (m : Mark) (d : Word)
  /-- The term that it subtracted from DIGEST, and the hash of each line at its instant. -/
  | unmark (epoch : Nat) (m : Mark) (d : Word) (hs : List Word)
  deriving DecidableEq, Repr

/-- A checkpoint (R325). -/
structure Ckpt where
  key : Key
  clock : Nat
  ord : Nat
  count : Nat
  sat : Bool
  lost : Bool
  epoch : Nat
  deriving DecidableEq, Repr

/-- A region (R312). -/
structure Region where
  /-- 0 UNDEF, 1 DEFINED, 2 SAVED (R335). -/
  st : Nat
  desc : Nat
  scale : Int
  nl : Nat
  back : Nat
  disp : Nat
  log : Nat
  logsz : Nat
  t : Nat
  tab : Bool
  rbz : Bool
  table : Word
  /-- Non-zero leaves. -/
  leaves : Map Nat
  clock : Nat
  ord : Nat
  count : Nat
  last : Key
  sub : Nat
  sat : Bool
  lost : Bool
  replay : Key
  cur : Nat
  curV : Bool
  bnd : Bool
  strag : Nat
  digest : Word
  /-- The marshalling queue: undelivered messages and anti-messages (R324). -/
  inq : List BMsg
  /-- The receive log, latest first. -/
  recv : List BMsg
  /-- The send log, oldest first. -/
  sends : List BMsg
  /-- The undo log, newest first. -/
  undo : List Undo
  /-- Checkpoints, latest first. -/
  ckpts : List Ckpt
  epoch : Nat
  marks : List Mark
  /-- The message that the last step delivered (R341). -/
  got : Option BMsg
  /-- The room report of R324 has been posted since the region last had room. -/
  reported : Bool
  deriving DecidableEq, Repr

/-- The last allotment of a job index (R259, R263). -/
structure JobSlot where
  gen : Nat
  id : Nat
  status : Nat
  scope : Scope
  busy : Bool
  deriving DecidableEq, Repr

/-- A logical shed (R152, R159, R160) and what belongs to it. -/
structure LShed where
  run : Nat
  ly : Nat
  ls : Nat
  /-- The physical shed that hosts it, and the remap mode. -/
  shed : Nat
  mode : Nat
  resident : Bool
  /-- The base of each logical core's window in its scratchpad (R160). -/
  bases : Map Nat
  released : List Nat
  evctl : Word
  drawtab : Word
  phasers : Map Phaser
  rings : Map Ring
  /-- Accumulator words that are not zero: tile × 1,024 + row × 32 + column (R283). -/
  acc : Map (BitVec 32)
  tilings : Map Tiling
  regions : Map Region
  /-- Priority queues: entries in order (R333). -/
  pqs : Map (List (Word × Word))
  /-- The watchdog's down-counter (R377). -/
  dog : Nat
  /-- The clock at which it became resident (R160). -/
  since : Nat
  /-- The dispatcher has set its pre-empt request for time slicing (R160, R372). -/
  slicing : Bool
  /-- While it is descheduled: the job indices of its cores, by core × 96 + port × 16 + index (R374). -/
  jobTabs : Map JobSlot
  deriving DecidableEq, Repr

/-- A group's CR.UTVEC and its threads (R37, R176). -/
structure Group where
  utvec : Word
  alive : Bool
  deriving DecidableEq, Repr

/-- A message in a core's outbox (R164, R169). -/
structure OutMsg where
  run : Nat
  hdr : Word
  args : List Word
  /-- The sending thread (R170) and its logical shed. -/
  thread : Nat
  home : Nat
  /-- For a first thread, the thread that placement registered on ph0 and ph63 (R209). -/
  first : Option Nat
  /-- Refused, and in the target's refusal queue (R168). -/
  queued : Bool
  /-- The core that sent it, and the clock at which it did (R169). -/
  sender : Nat
  sent : Nat
  deriving DecidableEq, Repr

/-- An entry of a core's refusal queue: the refused outbox message of a core, or a migrating thread (R168). -/
inductive Refused where
  | msg (core mid : Nat) (reply : Bool)
  | mig (t : Nat)
  deriving DecidableEq, Repr

/-- A physical compute core. -/
structure Core where
  /-- Lines in the L1, oldest first (R230). -/
  l1 : List (Nat × List Byte)
  outbox : Map OutMsg
  refused : List Refused
  /-- Slots held for a refused arrival, until a step of the clock (R168). -/
  holds : Map (Refused × Nat)
  /-- Job indices: port × 16 + index (R259). -/
  jobs : Map JobSlot
  /-- Faults posted by each slot (R359). -/
  tags : Map Nat
  retired : Nat
  /-- Consecutive issue slots given to urgent threads while a normal thread was ready (R182). -/
  urgentRow : Nat
  deriving DecidableEq, Repr

def Core.blank : Core := ⟨[], [], [], [], [], [], 0, 0⟩

/-- A store of microcode that is still to be made: the n bits v at bit `off` from an address on, and the contiguous destination
of the command that they belong to, as its first address and its bytes (R379). -/
structure Put where
  base : Nat
  off : Nat
  n : Nat
  v : Nat
  lo : Nat
  len : Nat
  deriving DecidableEq, Repr

/-- A load that microcode has made: its address, its bytes and its value. -/
structure Read where
  ea : Nat
  n : Nat
  v : Nat
  deriving DecidableEq, Repr

/-- The loads of the microcode step that is being made: those that it made before it stopped, and has yet to come to again, and those that
it has made, latest first (R264). -/
structure Reads where
  old : List Read
  made : List Read
  deriving DecidableEq, Repr

/-- An operand tile that a matrix command has taken: its bytes and its scales (R287). -/
structure Tile where
  bytes : List Byte
  scales : List Nat
  deriving DecidableEq, Repr

/-- A tile command (R256 to R265). -/
structure Job where
  id : Nat
  port : Port
  core : Nat
  w0 : Word
  w1 : Word
  w2 : Word
  w3 : Word
  jobbase : Word
  run : Nat
  coord : Coord
  thread : Nat
  /-- The body has started; tiles done (R274). -/
  started : Bool
  prog : Nat
  /-- The body has ended. -/
  ended : Bool
  status : Nat
  detail : Nat
  flags : BitVec 5
  value : Nat
  /-- Bytes written (R261). -/
  bytes : Nat
  /-- The loads that the step which stopped has made, in order: they are not made again (R264). -/
  reads : List Read
  /-- The fault message it waits on, and whether the reply killed it. -/
  fault : Option Nat
  killed : Bool
  tag : Nat
  /-- What its microcode holds between steps: the row counts of a grouped product (R288) or the structure of a tile (R303),
  the descriptor of a tile (R300), the operand tiles (R287), where spcol stands: the rows it has begun, its next entry and the one
  past the last of its row (R290). -/
  counts : List Nat
  hold : List Byte
  opA : Option Tile
  opB : Option Tile
  cursor : Nat × Nat × Nat
  /-- The stores that its last step is still to make, in order (R264). -/
  todo : List Put
  /-- The phaser arrival and the detachment from rings have been made (R257). -/
  arrived : Bool
  deriving DecidableEq, Repr

/-- Where an operand of a vector command lies: the address of its first byte, what an index is taken modulo, from which address
on (R298), and its ring. -/
structure VLoc where
  base : Nat
  origin : Nat
  lim : Nat
  ring : Option Nat
  seq : Nat
  deriving DecidableEq, Repr

/-- The operands of a running vector command. -/
structure VOps where
  a : VLoc
  b : VLoc
  d : VLoc
  aScales : List Nat
  fpctl : Nat
  seed : Seed
  points : List Word
  deriving DecidableEq, Repr

/-- What a vector command has found so far: its flags, a value carried from element to element, the scales of a destination, the
values merged by a vscad, the lanes of a vsum, and the stores that its last step is still to make. -/
structure VRun where
  flags : FpFlags
  acc : Nat
  scales : List Nat
  merged : List (Nat × Nat)
  lanes : Map FpVal
  todo : List Put
  /-- The loads that the step which stopped has made (R264). -/
  reads : List Read
  deriving DecidableEq, Repr

def VRun.begin : VRun := ⟨{}, 0, [], [], [], [], []⟩

/-- A vector command (R278, R296). -/
structure VCmd where
  core : Nat
  run : Nat
  coord : Coord
  thread : Nat
  /-- The instruction word of the vop. -/
  word : BitVec 32
  opw : Word
  opd : Word
  ended : Bool
  status : Nat
  flags : BitVec 5
  fault : Option Nat
  killed : Bool
  tag : Nat
  /-- The tables of its slot, once a vrs has started (R139). -/
  points : Option (List Word)
  /-- Where it stands in its element loop: its operands, the step and what it has found. -/
  held : Option (VOps × Nat × VRun)
  deriving DecidableEq, Repr

/-- Who waits for the reply to a fault message. -/
inductive Waiter where
  | thread (t : Nat)
  | job (j : Nat)
  | vcmd (v : Nat)
  | run (r : Nat)
  | svc (n : Nat)
  /-- A request of the host, in the queue of a frame that is being moved (R239). -/
  | host (op : HostOp)
  | nobody
  deriving DecidableEq, Repr

/-- A fault message (R356 to R359). -/
structure FaultMsg where
  who : Waiter
  /-- The service core that it goes to, and, once it has a reply, the one that replied. -/
  svc : Nat
  run : Nat
  core : Nat
  slot : Nat
  eng : Bool
  tag : Nat
  kind : Nat
  cause : Nat
  coord : Coord
  addr : Word
  pcs : Word
  value : Word
  args : List Word
  /-- 0 on its way, 1 refused and queued, 2 refused and not queued, 3 in the buffer. -/
  st : Nat
  res1 : Word
  res2 : Word
  deriving DecidableEq, Repr

/-- A wait-table entry (R241); its key in the table is its age. -/
structure Wait where
  key : Nat
  size : Nat
  mask : Nat
  cmp : WCmp
  expect : Nat
  all : Bool
  who : Waiter
  ms : Bool
  deriving DecidableEq, Repr

/-- A service core (R364 to R366). -/
structure Svc where
  hart : Hart
  hmode : Bool
  hvvec : Word
  hvepc : Word
  hvcause : Word
  hvval : Word
  part : Nat
  fbbase : Word
  ovf : Bool
  retry : Nat
  tail : Nat
  head : Nat
  /-- The refusal queue (R238). -/
  refused : List Nat
  svstat : Nat
  /-- Its own wait on an address (R242, R364). -/
  park : Park
  stopped : Bool
  idle : Bool
  /-- A tlbinv waits for its page migration (R369). -/
  busy : Bool
  /-- A CR.RUNCTL write is in progress (R380). -/
  inCtl : Bool
  /-- Its last instruction waits, and is executed again (R380). -/
  again : Bool
  retired : Nat
  deriving DecidableEq, Repr

def Svc.blank : Svc := ⟨Hart.blank, true, 0, 0, 0, 0, 0, 0, false, 0, 0, 0, [], 0, .none, false, false, false, false, false, 0⟩

/-- An entry of a TLB (R235): the partition, an address of the page, its leaf and the leaf's level. -/
structure TlbEntry where
  part : Nat
  va : Nat
  leaf : Word
  level : Nat
  deriving DecidableEq, Repr

/-- What a buddy, or the safe tier, holds of a logical shed (R391, R392): what R374 saves of it: its record, its threads, its groups,
its suspended commands, its outbox entries by core and number, its part of the run's phasers, the reports to which a party of it awaits a
reply, and the bytes of its windows. -/
structure MirrorShed where
  shed : LShed
  threads : Map Thread
  groups : Map Group
  jobs : Map Job
  vcmds : Map VCmd
  outbox : List (Nat × Nat × OutMsg)
  phasers : Map Phaser
  faults : Map FaultMsg
  cells : List Host.Cell
  deriving DecidableEq, Repr

/-- What the safe tier holds of a partition's memory (R392): its bytes, the save areas of its logical sheds, and its log areas. -/
structure SafeCopy where
  cells : List Host.Cell
  sheds : Map MirrorShed
  logAreas : Map Region
  deriving DecidableEq, Repr

/-- A partition (R387): its page-table root and grant map, its sheds as ranges of physical shed numbers, its service
cores, the designated one of each device first. -/
structure Partition where
  ptroot : Word
  grant : Word
  sheds : List (Nat × Nat)
  svcs : List Nat
  /-- Launch queues by level: run ids, oldest first (R180). -/
  queues : Map (List Nat)
  /-- The device-local address of the remap tables, one for each partition (R159, log entry 74). -/
  remapAt : Nat
  /-- Storage behind the host ports that holds the last safe-tier checkpoint (R392). -/
  safe : SafeCopy
  deriving DecidableEq, Repr

def Partition.blank : Partition := ⟨0, 0, [], [], [], 0x7F80000000, ⟨[], [], []⟩⟩

/-- A loft entry or a compile (R302, R305): descriptor address and GEN, run, the lines it was built from. -/
structure LoftEntry where
  addr : Nat
  gen : Nat
  run : Nat
  part : Nat
  va : Nat
  lines : List Nat
  fired : Bool
  compiling : Bool
  /-- The structure that the program is built from: U, COLS, the address of the values, row offsets and column indices. -/
  uops : Nat
  cols : Nat
  vals : Nat
  rowp : List Nat
  colIdx : List Nat
  deriving DecidableEq, Repr

/-- A physical shed. -/
structure Shed where
  loft : List LoftEntry
  compiles : List LoftEntry
  /-- Real-set tables: run × 8 + slot, to the version and the points (R139). -/
  tables : Map (Nat × List Word)
  /-- The clock at the shed's last reset (R33). -/
  since : Nat
  held : Bool
  maint : Bool
  deriving DecidableEq, Repr

def Shed.blank : Shed := ⟨[], [], [], 0, false, false⟩

/-- What a buddy holds of a device as of boundary g (R391): the marked memory, its logical sheds with their regions and logs, and the log
areas of saved regions that stand in its memory. -/
structure Mirror where
  g : Nat
  cells : List Host.Cell
  sheds : Map MirrorShed
  logAreas : Map Region
  deriving DecidableEq, Repr

/-- A device: the feature word (R388), its states, its link ports (R385) and what it holds as the buddy of others (R391). -/
structure Device where
  offered : BitVec 128
  feat : BitVec 128
  accepted : Bool
  maint : Bool
  stopped : Bool
  failed : Bool
  /-- Retries of the current flit of each port; a port that is down holds 9. -/
  ports : Map Nat
  routes : Nat
  /-- Mirrors by device, that this one holds as its buddy: on their way, and acknowledged, which makes the boundary recoverable. -/
  incoming : Map Mirror
  mirrors : Map Mirror
  /-- The 2 MiB granules of its memory that the management driver has exposed to the host (R384). -/
  exposed : List Nat
  /-- The ports with an uncorrectable error of a link transfer, oldest first: the device's next accesses over its links meet them (R385). -/
  linkErrors : List Nat
  /-- The device-local address from which on harts in H mode reach the device's scratchpads, where there is one (R378). -/
  padWindow : Option Nat
  /-- The clock at its last reset (R33). -/
  since : Nat
  deriving DecidableEq, Repr

def Device.blank : Device := ⟨0xFF, 0, false, true, false, false, [], 0, [], [], [], [], some 0x7FC0000000, 0⟩

/-- A page migration (R239). -/
structure PageMig where
  part : Nat
  va : Nat
  old : Nat
  new : Nat
  svc : Nat
  moved : Bool
  /-- The requests that the old home queued, at most 128, oldest first (R239, R240). -/
  queue : List Waiter
  deriving DecidableEq, Repr

/-- A happening in flight, or an outside input to come, in the agenda: a command that a unit runs, or a happening of a
unit; each is performed by the meaning of the instruction of the same name. -/
inductive Event where
  /-- The tile command of job j, by its code (R70), and its end (R257). -/
  | job (j : Nat)
  | jobDone (j : Nat)
  /-- The vector command v, by its code (R73), and its end (R296). -/
  | vcmd (v : Nat)
  | vcmdDone (v : Nat)
  | registerFill (t : Nat)
  | faultBufferEntry (f : Nat)
  | faultRetry (f : Nat)
  | faultReply (f : Nat) (a : Reply)
  | fbstatWrite (sv : Nat) (v : Word)
  | utvecWrite (t : Nat) (v : Word)
  | preemptRequest (r : Nat)
  | preemptCancel (r : Nat)
  | restore (r : Nat)
  | deschedule (l : Nat)
  | timeSlice (l : Nat)
  | watchdog (r h : Nat)
  | threadAged (t : Nat)
  | pauseEnd (t : Nat)
  | activeMessageArrival (c i : Nat)
  | contextFreeNotice (c e : Nat)
  | slotHoldExpiry (c sl : Nat)
  | messageRetry (c i : Nat)
  | migrationArrival (t : Nat)
  | dispatch (p : Nat)
  | conditionWake (r : Nat)
  | conditionRecheck (r : Nat)
  | launchDoorbell (p hdr : Nat)
  | runDone (r : Nat)
  | waitaWake (t : Nat)
  | loftInvalidation (h line : Nat)
  | patternCompile (h : Nat)
  | sfnResult (t : Nat)
  | realSetResult (t : Nat)
  | tableBuild (t : Nat)
  | boundaryMessageArrival (m : Nat)
  | antiMessageArrival (m : Nat)
  | arrivalAcknowledgement (m : Nat)
  | pageMigration (m : Nat)
  | redirectNotice (h m : Nat)
  | hostAccess (op : HostOp)
  | featureAccept (dev : Nat) (w : BitVec 128)
  | flitRetry (dev port : Nat)
  | reroute (dev port : Nat)
  | deviceReset (dev : Nat)
  | shedReset (h : Nat)
  | maintenanceState (shed : Bool) (n : Nat) (enter : Bool)
  | thermalLimit (h : Nat) (withhold : Bool)
  | criticalLimit (dev : Nat)
  | mirrorStream (op : StreamOp)
  | safeTierCheckpoint (p : Nat)
  | rewind (r g : Nat)
  | deviceFailureDetection (dev : Nat)
  | accessPerformed (t i : Nat)
  deriving DecidableEq, Repr

/-- The hart whose instruction is executed next. -/
inductive Party where
  | thread (t : Nat)
  | svc (n : Nat)
  deriving DecidableEq, Repr

/-- Whether the next step performs a happening of a unit or issues an instruction. -/
inductive Turn where
  | unit | core
  deriving DecidableEq, Repr

/-- The machine. -/
structure State where
  /-- Memory (R186): byte keys 0 to 2^49 − 1 are physical addresses, byte L of the scratchpad of physical core c
  has the key 2^49 + c × 2^19 + L, and keys from 2^61 on are the save areas of reservations (R374). An unlisted byte
  reads 0. -/
  mem : List Host.Cell
  threads : Map Thread
  runs : Map Run
  lsheds : Map LShed
  groups : Map Group
  cores : Map Core
  sheds : Map Shed
  svcs : Map Svc
  parts : Map Partition
  devices : Map Device
  jobs : Map Job
  vcmds : Map VCmd
  faults : Map FaultMsg
  bmsgs : Map BMsg
  /-- What rgnsave moved to log areas (R346), by partition × 2^52 + the area's address. -/
  logAreas : Map Region
  waits : Map Wait
  /-- Watched lines and the lofts they list (R306). -/
  watches : Map (List Nat)
  /-- Invalidations on their way: shed and line. -/
  invals : List (Nat × Nat)
  /-- This device's slice copies of lines homed elsewhere: device × 2^43 + line number (R195). -/
  slices : Map (List Byte)
  /-- The TLBs (R235), the oldest entry of each first: key 2c the instruction TLB of core c and 2c + 1 its data TLB,
  2^40 + h the L2 TLB of shed h, 2^50 + 128 d + g the L3 bank of slice g of device d. -/
  tlbs : Map (List TlbEntry)
  /-- What the instruction caches hold: for each placed logical shed, the bytes as they stood at its last placement, where
  a store has changed them since (R96). -/
  icaches : Map (Map Byte)
  /-- The completion records written, by their byte keys: the command's scope, run and coordinate (R199). -/
  records : Map (Scope × Nat × Coord)
  pageMigs : Map PageMig
  nextRun : Nat
  /-- The key of the next thread, job or vector command: keys rise in the order of their creation. -/
  nextKey : Nat
  /-- Lines with an uncorrectable error (R379). -/
  badLines : List Nat
  /-- What the host's reads returned, oldest first (R384). -/
  hostOut : List (List Byte)
  /-- Discarded requests that the management log records (R387), and MCHECK reports to the controller (R364). -/
  mgmtLog : Nat
  /-- Happenings in flight and outside inputs to come, in the order in which they are performed. -/
  agenda : List Event
  turn : Turn
  cur : Party
  clock : Nat
  /-- Which coming loads and stores are performed later (R190): the model's own field. -/
  defer : List Bool
  /-- The number of the next free value: the model's own field. -/
  free : Nat
  /-- The loads of a microcode step, none between steps: the model's own field. -/
  reads : Reads
  deriving DecidableEq, Repr

/-- The machine right after reset (log entries 1 to 4): device 0 in the maintenance state, one partition with the
device's 256 sheds and its 16 service cores, service core 0 about to issue in H mode at address 0. -/
def State.reset : State where
  mem := []
  threads := []
  runs := []
  lsheds := []
  groups := []
  cores := []
  sheds := []
  svcs := []
  parts := [(0, { Partition.blank with sheds := [(0, 256)], svcs := List.range 16 })]
  devices := [(0, Device.blank)]
  jobs := []
  vcmds := []
  faults := []
  bmsgs := []
  logAreas := []
  waits := []
  watches := []
  invals := []
  slices := []
  tlbs := []
  icaches := []
  records := []
  pageMigs := []
  nextRun := 1
  nextKey := 1
  badLines := []
  hostOut := []
  mgmtLog := 0
  agenda := []
  turn := .core
  cur := .svc 0
  clock := 0
  defer := []
  free := 0
  reads := ⟨[], []⟩

end Sys2Proof.Machine
end

