-- ==== Sys2Proof/Machine/Ops.lean ====
section
/-! DEFINITION. The named operations over registers and memory: contexts, translation, homes, the L1, stores and their wakes, release and acquire, and the taking of traps, faults and exceptions and the return from them. -/

namespace Sys2Proof.Machine

/-- What stops an instruction before it has any effect: a user trap (R36), a system fault (R356) or a service core's
exception (R364), a system call or breakpoint with its arguments (R371), a wait after which the instruction is executed
again, or a move of the thread that comes first (R172). -/
inductive Exc where
  | trap (code detail : Nat) (val : Word)
  | fault (kind cause : Nat) (addr : Word)
  | call (kind n : Nat) (args : List Word)
  | wait (w : Why)
  | move (sheds : List Nat)
  deriving DecidableEq, Repr

/-- A computation that is stopped by an `Exc` or goes on. -/
abbrev M (α : Type) := Except Exc α

/-! ### Records by key -/

namespace State

def core (s : State) (c : Nat) : Core := s.cores.getD c Core.blank
def shed (s : State) (h : Nat) : Shed := s.sheds.getD h Shed.blank
def svc (s : State) (n : Nat) : Svc := s.svcs.getD n Svc.blank
def part (s : State) (p : Nat) : Partition := s.parts.getD p Partition.blank
def device (s : State) (d : Nat) : Device := s.devices.getD d Device.blank

def setCore (s : State) (c : Nat) (x : Core) : State := { s with cores := s.cores.set c x }
def setShed (s : State) (h : Nat) (x : Shed) : State := { s with sheds := s.sheds.set h x }
def setSvc (s : State) (n : Nat) (x : Svc) : State := { s with svcs := s.svcs.set n x }
def setPart (s : State) (p : Nat) (x : Partition) : State := { s with parts := s.parts.set p x }
def setDevice (s : State) (d : Nat) (x : Device) : State := { s with devices := s.devices.set d x }
def setThread (s : State) (t : Nat) (x : Thread) : State := { s with threads := s.threads.set t x }
def setRun (s : State) (r : Nat) (x : Run) : State := { s with runs := s.runs.set r x }
def modThread (s : State) (t : Nat) (f : Thread → Thread) : State := { s with threads := s.threads.modify t f }
def modRun (s : State) (r : Nat) (f : Run → Run) : State := { s with runs := s.runs.modify r f }
def modLShed (s : State) (l : Nat) (f : LShed → LShed) : State := { s with lsheds := s.lsheds.modify l f }
def modJob (s : State) (j : Nat) (f : Job → Job) : State := { s with jobs := s.jobs.modify j f }
def modVCmd (s : State) (v : Nat) (f : VCmd → VCmd) : State := { s with vcmds := s.vcmds.modify v f }
def modCore (s : State) (c : Nat) (f : Core → Core) : State := s.setCore c (f (s.core c))
def modShed (s : State) (h : Nat) (f : Shed → Shed) : State := s.setShed h (f (s.shed h))
def modSvc (s : State) (n : Nat) (f : Svc → Svc) : State := s.setSvc n (f (s.svc n))
def modPart (s : State) (p : Nat) (f : Partition → Partition) : State := s.setPart p (f (s.part p))
def modDevice (s : State) (d : Nat) (f : Device → Device) : State := s.setDevice d (f (s.device d))

/-- Put a happening at the end of the agenda. -/
def post (s : State) (e : Event) : State := { s with agenda := s.agenda ++ [e] }

/-- The current thread, when a thread issues. -/
def curThread (s : State) : Option Thread :=
  match s.cur with
  | .thread t => s.threads.get t
  | .svc _ => none

def curTid (s : State) : Nat :=
  match s.cur with
  | .thread t => t
  | .svc _ => 0

def isSvc (s : State) : Bool :=
  match s.cur with
  | .thread _ => false
  | .svc _ => true

def curSvc (s : State) : Nat :=
  match s.cur with
  | .thread _ => 0
  | .svc n => n

/-- The context that the current instruction reads and writes. -/
def hart (s : State) : Hart :=
  match s.cur with
  | .thread t => match s.threads.get t with
    | some x => x.hart
    | none => Hart.blank
  | .svc n => (s.svc n).hart

def setHart (s : State) (h : Hart) : State :=
  match s.cur with
  | .thread t => s.modThread t (fun x => { x with hart := h })
  | .svc n => s.modSvc n (fun x => { x with hart := h })

/-- Change the current thread. -/
def modCur (s : State) (f : Thread → Thread) : State :=
  match s.cur with
  | .thread t => s.modThread t f
  | .svc _ => s

def curRun (s : State) : Option Run :=
  match s.curThread with
  | some t => s.runs.get t.run
  | none => none

end State

/-! ### Coordinates and physical numbers -/

/-- CR.COORD (R156). -/
def Coord.bits (c : Coord) : Nat := c.ly * 2 ^ 24 + c.ls * 2 ^ 18 + c.lc * 2 ^ 15 + c.st * 2 ^ 12

/-- The coordinate fields of a message header or of a kill word's layout shifted to bits 35:12 (R162). -/
def coordOf (w : Word) : Coord := ⟨bits w 35 24, bits w 23 18, bits w 17 15, bits w 14 12⟩

/-- The key of a logical shed of a run. -/
def lkey (run ly ls : Nat) : Nat := run * 2 ^ 18 + ly * 64 + ls

def Thread.lkey (t : Thread) : Nat := Machine.lkey t.run t.coord.ly t.coord.ls

/-- The key of a group. -/
def gkey (run : Nat) (c : Coord) : Nat := run * 2 ^ 24 + c.ly * 2 ^ 12 + c.ls * 64 + c.lc * 8 + c.st

def coreShed (core : Nat) : Nat := core / 8
def shedDev (shed : Nat) : Nat := shed / 256
def shedYard (shed : Nat) : Nat := shed / 64 % 4
def svcDev (n : Nat) : Nat := n / 16

/-- The key under which WAITA_WAKE names service core n: beyond every thread's. -/
def svcKey (n : Nat) : Nat := 2 ^ 60 + n

/-- R226: the home slice of a physical address, as yard × 32 + slice. -/
def homeSlice (pa : Nat) : Nat := pa / 2 ^ 16 % 128

/-- The sheds beside the home slice of a physical address, the even one first (R172). -/
def homeSheds (pa : Nat) : List Nat :=
  let h := pa / 2 ^ 39 * 256 + homeSlice pa / 32 * 64 + homeSlice pa % 32 * 2
  [h, h + 1]

/-- The device of a byte key: of its frame, or of its scratchpad. -/
def keyDev (k : Nat) : Nat := if k < 2 ^ 49 then k / 2 ^ 39 else (k - 2 ^ 49) / 2 ^ 19 / 8 / 256

/-- Where a logical core's window stands: in its physical core's scratchpad (R160), and, while its logical shed is
descheduled, in its save area (R374). -/
def LShed.window (x : LShed) (lc : Nat) : Nat :=
  if x.resident then 2 ^ 49 + (x.shed * 8 + lc) * 2 ^ 19 + x.bases.getD lc 0
  else 2 ^ 61 + (lkey x.run x.ly x.ls * 8 + lc) * 2 ^ 19

/-! ### Memory -/

/-- Memory.wf: the canonical form: keys rise strictly and no listed byte is zero. -/
def Memory.wf (m : List Host.Cell) : Bool := Map.sorted (α := Byte) m && m.all (fun c => c.2 != 0)

/-- The byte at a key: what an unlisted byte reads as is zero (log entry 2). -/
def Memory.byte (m : List Host.Cell) (k : Nat) : Byte := (Map.get (α := Byte) m k).getD 0

/-- Write a byte, keeping the canonical form. -/
def Memory.put (m : List Host.Cell) (k : Nat) (b : Byte) : List Host.Cell :=
  if b = 0 then Map.erase (α := Byte) m k else Map.set (α := Byte) m k b

/-- Write bytes from a key on. -/
def Memory.puts (m : List Host.Cell) : Nat → List Byte → List Host.Cell
  | _, [] => m
  | k, b :: bs => Memory.puts (Memory.put m k b) (k + 1) bs

def State.byte (s : State) (k : Nat) : Byte := Memory.byte s.mem k

def State.bytes (s : State) (k n : Nat) : List Byte := (List.range n).map (fun i => s.byte (k + i))

/-- A little-endian value at its home. -/
def State.value (s : State) (k n : Nat) : Nat := leVal (s.bytes k n)

/-- The comparison of a wait entry (R241, R155). -/
def cmpHolds (c : WCmp) (a b : Nat) : Bool :=
  match c with
  | .eq => a == b
  | .ne => a != b
  | .lt => decide (a < b)
  | .ge => decide (b ≤ a)

/-- R241: whether an entry is satisfied. -/
def Wait.holds (s : State) (e : Wait) : Bool :=
  cmpHolds e.cmp (s.value e.key e.size &&& e.mask) (e.expect &&& e.mask)

def Wait.overlaps (e : Wait) (k n : Nat) : Bool := decide (e.key < k + n) && decide (k < e.key + e.size)

/-- Whether a home lies on another device than a core. -/
def awayFrom (core k : Nat) : Bool := shedDev (coreShed core) != keyDev k

/-- Wake a waiter whose entry has been removed (R243, R244): it is on its way to the thread or the dispatcher. -/
def wakeWaiter (s : State) (e : Wait) (status : Nat) : State :=
  match e.who with
  | .thread t =>
    match s.threads.get t with
    | some x =>
      match x.park with
      | .waita rd _ ends => (s.setThread t { x with park := .woken rd status (awayFrom x.core e.key) ends }).post (.waitaWake t)
      | _ => s
    | none => s
  | .run r => s.post (.conditionWake r)
  | .svc n =>
    match (s.svc n).park with
    | .waita rd _ ends => (s.modSvc n (fun x => { x with park := .woken rd status (svcDev n != keyDev e.key) ends })).post
        (.waitaWake (svcKey n))
    | _ => s
  | _ => s

/-- Remove wait entries and wake their waiters, in order. -/
def wakeAll (s : State) (status : Nat) : List (Nat × Wait) → State
  | [] => s
  | (k, e) :: r => wakeAll (wakeWaiter { s with waits := s.waits.erase k } e status) status r

/-- R243: evaluate a write of n bytes at k against the wait entries on its location, at the write's instant. -/
def evalWakes (s : State) (k n : Nat) : State :=
  let on := s.waits.filter (fun p => p.2.overlaps k n && p.2.holds s)
  let alls := on.filter (fun p => p.2.all)
  let one := (on.filter (fun p => !p.2.all)).take 1
  wakeAll s 1 (alls ++ one)

/-- R306: a write to watched lines sends an invalidation to every listed loft and removes the lines. -/
def fireWatches (s : State) (k n : Nat) : State :=
  let lines := (range (k / 64) (cdiv (k % 64 + n) 64)).filter (fun l => (s.watches.get l).isSome)
  lines.foldl (fun s l =>
    let lofts := s.watches.getD l []
    { s with
      watches := s.watches.erase l
      invals := s.invals ++ lofts.map (fun h => (h, l))
      agenda := s.agenda ++ lofts.map (fun h => Event.loftInvalidation h l) }) s

/-- R96: the instruction caches of the placed logical sheds keep the bytes as they stood. -/
def keepCode (s : State) (k : Nat) (n : Nat) : State :=
  if k < 2 ^ 49 then
    { s with icaches := s.icaches.mapVals (fun _ c =>
        (List.range n).foldl (fun m i => if (m.get (k + i)).isSome then m else m.set (k + i) (s.byte (k + i))) c) }
  else s

/-- A write performed at its home, at one instant (R187, R243, R306). -/
def writeHome (s : State) (k : Nat) (bs : List Byte) : State :=
  let s := keepCode s k bs.length
  let s := { s with mem := Memory.puts s.mem k bs }
  fireWatches (evalWakes s k bs.length) k bs.length

/-! ### The undo logger (R326) -/

/-- The space a region's records take in its log area (R326). -/
def Region.used (g : Region) : Nat :=
  64 * (g.ckpts.length + g.sends.length + g.inq.length + g.recv.length) +
    g.undo.foldl (fun a u => a + match u with
      | .line .. => 80 | .leaf .. => 16 | .mark .. => 32 | .unmark .. => 32) 0

/-- Whether the log area can supply n more bytes. -/
def Region.room (g : Region) (n : Nat) : Bool := decide (g.used + n ≤ g.logsz)

/-- The byte key of a byte of a mark: where its logical shed stands now (R354). -/
def LShed.phys (x : LShed) (d : Nat) : Nat :=
  if d < 2 ^ 60 then d
  else
    let lc := (d - 2 ^ 60) / 2 ^ 19
    x.window lc + d % 2 ^ 19

/-- The lines of a region's marks that a write of n bytes at k touches. -/
def Region.touched (g : Region) (x : LShed) (k n : Nat) : List (Nat × List Nat) :=
  if g.st = 1 then
    (g.marks.flatMap (fun m => m.lines)).filter (fun l => l.2.any (fun d => decide (x.phys d < k + n) && decide (k < x.phys d + 8)))
  else []

/-- Those that are not yet logged in its epoch. -/
def Region.toLog (g : Region) (x : LShed) (k n : Nat) : List (Nat × List Nat) :=
  (g.touched x k n).filter (fun l =>
    !(g.undo.any (fun u => match u with
      | .line e va _ _ => e == g.epoch && va == l.1
      | _ => false)))

/-- The first region of a logical shed, in order, whose log cannot supply the line entries that a write reserves: one for
each marked line that it touches, logged or not. -/
def logFull (s : State) (l k n : Nat) : Option Nat :=
  match s.lsheds.get l with
  | some x => (x.regions.find? (fun p => !(p.2.room (80 * (p.2.touched x k n).length)))).map (fun p => p.1)
  | none => none

/-- Copy the lines that a write of n bytes at k changes first in their epoch into the logs of their regions. -/
def logWrite (s : State) (l k n : Nat) : State :=
  s.modLShed l (fun x => { x with regions := x.regions.mapVals (fun _ g =>
    (g.toLog x k n).foldl (fun g ln =>
      { g with undo := .line g.epoch ln.1 ln.2 (ln.2.flatMap (fun d => s.bytes (x.phys d) 8)) :: g.undo }) g) })

/-- Whether a write touches a marked range of a logical shed. -/
def touchesMark (s : State) (l k n : Nat) : Bool :=
  match s.lsheds.get l with
  | some x => x.regions.any (fun p => p.2.marks.any (fun m => m.lines.any (fun ln =>
      ln.2.any (fun d => decide (x.phys d < k + n) && decide (k < x.phys d + 8)))))
  | none => false

/-! ### Contexts and translation -/

/-- A device whose cores issue and whose units run (R394, R395). -/
def deviceIssues (s : State) (d : Nat) : Bool := !(s.device d).stopped && !(s.device d).failed

/-- The device of a core works. -/
def coreWorks (s : State) (c : Nat) : Bool := deviceIssues s (shedDev (coreShed c))

/-- Whose accesses are made: a thread of a run, a command of one in a unit of the core's shed, a service core, or the dispatcher
of a partition on a device. -/
inductive Ctx where
  | run (r : Nat) (c : Coord) (core : Nat)
  | unit (r : Nat) (c : Coord) (core : Nat) (w : Waiter)
  | svcS (n : Nat)
  | svcH (n : Nat)
  | disp (p dev : Nat)
  deriving DecidableEq, Repr

def State.ctx (s : State) : Ctx :=
  match s.cur with
  | .thread t => match s.threads.get t with
    | some x => .run x.run x.coord x.core
    | none => .run 0 ⟨0, 0, 0, 0⟩ 0
  | .svc n => if (s.svc n).hmode then .svcH n else .svcS n

/-- The context of command k. -/
def Job.ctx (k : Nat) (j : Job) : Ctx := .unit j.run j.coord j.core (.job k)
def VCmd.ctx (k : Nat) (v : VCmd) : Ctx := .unit v.run v.coord v.core (.vcmd k)

def Ctx.dev : Ctx → Nat
  | .run _ _ core | .unit _ _ core _ => shedDev (coreShed core)
  | .svcS n | .svcH n => svcDev n
  | .disp _ d => d

def State.ctxPart (s : State) : Ctx → Nat
  | .run r _ _ | .unit r _ _ _ => match s.runs.get r with
    | some x => x.part
    | none => 0
  | .svcS n | .svcH n => (s.svc n).part
  | .disp p _ => p

/-- R387: a physical shed of a partition. -/
def shedOwned (s : State) (p h : Nat) : Bool := (s.part p).sheds.any (fun r => decide (r.1 ≤ h) && decide (h < r.1 + r.2))

inductive Acc where
  | read | write | fetch
  deriving DecidableEq, Repr

/-- Where an access goes: its first byte key, and what its page says. -/
structure Place where
  key : Nat
  near : Bool
  ms : Bool
  mg : Bool
  psz : Nat
  deriving DecidableEq, Repr

def accessFault (cause addr : Nat) : Exc := .fault 2 cause (BitVec.ofNat 64 addr)
def pageFault (cause addr : Nat) : Exc := .fault 3 cause (BitVec.ofNat 64 addr)

/-- Near space: bits 51:48 are 0xF (R222). -/
def isNear (ea : Nat) : Bool := ea / 2 ^ 48 % 16 == 15

/-- R222: the logical core and local offset that a near-space address names; `none` when a must-be-zero bit is set. -/
def nearTarget (c : Coord) (ea : Nat) : Option (Nat × Nat × Nat × Nat) :=
  let f (hi lo : Nat) : Nat := ea / 2 ^ lo % 2 ^ (hi + 1 - lo)
  match f 47 46 with
  | 0 => if f 45 19 = 0 then some (c.ly, c.ls, c.lc, f 18 0) else none
  | 1 => if f 45 22 = 0 then some (c.ly, c.ls, f 21 19, f 18 0) else none
  | 2 => if f 45 22 = 0 then some (c.ly, c.ls, f 5 3, f 21 6 * 8 + f 2 0) else none
  | _ => if f 45 40 = 0 then some (f 39 28, f 27 22, f 21 19, f 18 0) else none

/-- R223: the checks of a near-space access, in their order, and the byte key it names. -/
def nearPlace (s : State) (r : Nat) (c : Coord) (acc : Acc) (ea : Nat) : M Place :=
  match nearTarget c ea with
  | none => .error (accessFault 3 ea)
  | some (ly, ls, lc, l) =>
    match s.runs.get r, s.lsheds.get (lkey r ly ls) with
    | some run, some x =>
      if run.nly < ly || run.nls < ls || run.nlc < lc then .error (accessFault 4 ea)
      else if acc = .fetch then .error (accessFault 5 ea)
      else if x.released.contains lc then .error (.trap 2 0 (BitVec.ofNat 64 ea))
      else if 0x7E000 ≤ l then .error (accessFault 6 ea)
      else if run.spad * 4096 ≤ l then .error (accessFault 3 ea)
      else .ok ⟨x.window lc + l, true, false, false, 3⟩
    | _, _ => .error (accessFault 4 ea)

/-- What a walk finds. -/
inductive Walk where
  | leaf (e : Word) (level : Nat)
  | absent
  | bad
  /-- A table entry at this address stands in a line with an uncorrectable error (R379). -/
  | error (k : Nat)
  deriving DecidableEq, Repr

/-- R233: the lowest address bit and the number of index bits of a level. -/
def levelShift (l : Nat) : Nat := match l with | 0 => 16 | 1 => 21 | 2 => 30 | _ => 39
def levelBits (l : Nat) : Nat := match l with | 0 => 5 | 1 => 9 | 2 => 9 | _ => 13

/-- R234: a valid entry of a level is malformed. -/
def pteBad (feat : Nat) (level : Nat) (e : Word) : Bool :=
  bits e 57 49 != 0 || bits e 7 0 != 0 ||
  (if bitAt e 62 then
    level == 3 || bits e 15 8 != 0 ||
    (level == 1 && bits e 20 16 != 0) || (level == 2 && bits e 29 16 != 0) ||
    (bitAt e 59 && feat / 16 % 2 == 0) || (bitAt e 58 && feat / 8 % 2 == 0)
  else
    level == 0 || bits e 61 58 != 0 || bits e 48 39 != 0 ||
    (decide (2 ≤ level) && bits e 11 8 != 0))

/-- Where the data of a key stand while the page's frame moves: at the old home until M1, and at the new one from then on (R239). -/
def dataKey (s : State) (k : Nat) : Nat :=
  match s.pageMigs.find? (fun m => (if m.2.moved then m.2.old else m.2.new) == k / 2 ^ 16) with
  | some m => (if m.2.moved then m.2.new else m.2.old) * 2 ^ 16 + k % 2 ^ 16
  | none => k

/-- R235: read the entries from a table down; a table whose frame is being moved is read where it stands (log entry 59), and the table of
a partition of several devices is read in the memory of the device that walks (log entry 92). -/
def walkFrom (s : State) (dev feat va : Nat) : Nat → Nat → Walk
  | level, table =>
    let k := dataKey s (dev * 2 ^ 39 + table + 8 * (va / 2 ^ levelShift level % 2 ^ levelBits level))
    let e := BitVec.ofNat 64 (s.value k 8)
    if s.badLines.contains (k / 64) then .error k
    else if !bitAt e 63 then .absent
    else if pteBad feat level e then .bad
    else if bitAt e 62 then .leaf e level
    else match level with
      | 0 => .bad
      | l + 1 => walkFrom s dev feat va l (bits e 38 8 * 256)

/-- The current hart uses physical addresses (R364). -/
def State.isPhys (s : State) : Bool :=
  match s.cur with
  | .thread _ => false
  | .svc n => (s.svc n).hmode

def State.feat (s : State) (dev : Nat) : Nat := (s.device dev).feat.toNat % 2 ^ 64

/-- R233: the walk from a partition's root; with translation off every walk finds nothing (R366). -/
def walk (s : State) (p dev va : Nat) : Walk :=
  let root := (s.part p).ptroot
  if bitAt root 0 then walkFrom s dev (s.feat dev) va 3 (bits root 38 16 * 2 ^ 16) else .absent

/-- One of the TLBs that an access asks: its key, its sets and the entries of a set. -/
structure TlbBank where
  key : Nat
  sets : Nat
  ways : Nat
  deriving DecidableEq, Repr

/-- R235: the TLBs that an access asks, in order. The accesses of a service core and of the
dispatcher ask the L3 bank alone (log entry 9). -/
def tlbBanks (c : Ctx) (acc : Acc) (va : Nat) : List TlbBank :=
  let l3 : TlbBank := ⟨2 ^ 50 + c.dev * 128 + homeSlice va, 1, 1024⟩
  let l2 (core : Nat) : TlbBank := ⟨2 ^ 40 + coreShed core, 256, 8⟩
  match c with
  | .run _ _ core => [if acc = .fetch then ⟨2 * core, 1, 32⟩ else ⟨2 * core + 1, 1, 64⟩, l2 core, l3]
  | .unit _ _ core _ => [l2 core, l3]
  | .svcS _ | .svcH _ | .disp .. => [l3]

/-- The entry maps va for partition p. -/
def TlbEntry.maps (e : TlbEntry) (p va : Nat) : Bool :=
  e.part == p && e.va / 2 ^ levelShift e.level == va / 2 ^ levelShift e.level

/-- Fill an entry: the oldest of a full set leaves (log entry 9). -/
def TlbBank.fill (b : TlbBank) (e : TlbEntry) (l : List TlbEntry) : List TlbEntry :=
  let page (e : TlbEntry) : Nat := e.va / 2 ^ levelShift e.level
  match l.filter (fun x => page x % b.sets == page e % b.sets) with
  | oldest :: rest => if b.ways ≤ rest.length + 1 then l.erase oldest ++ [e] else l ++ [e]
  | [] => l ++ [e]

/-- The key under which the translations that walks have found for a partition stand, used or not any longer, until they are invalidated:
an invalidation reaches the lines of every frame that they name (R236, log entry 9). -/
def foundKey (p : Nat) : Nat := 2 ^ 62 + p

/-- A walk has found a translation. -/
def noteFound (s : State) (e : TlbEntry) : State :=
  let l := s.tlbs.getD (foundKey e.part) []
  if l.any (fun x => x.maps e.part e.va && x.leaf == e.leaf && x.level == e.level) then s
  else { s with tlbs := s.tlbs.set (foundKey e.part) (l ++ [e]) }

/-- R235, R236: ask TLBs in order, and the tables at last; each TLB that missed is filled with a valid translation. -/
def ask (s : State) (p dev va : Nat) : List TlbBank → State × Walk
  | [] => match walk s p dev va with
    | .leaf e l => (noteFound s ⟨p, va, e, l⟩, .leaf e l)
    | r => (s, r)
  | b :: later =>
    match (s.tlbs.getD b.key []).find? (·.maps p va) with
    | some e => (s, .leaf e.leaf e.level)
    | none =>
      match ask s p dev va later with
      | (u, .leaf e l) => ({ u with tlbs := u.tlbs.set b.key (b.fill ⟨p, va, e, l⟩ (u.tlbs.getD b.key [])) }, .leaf e l)
      | r => r

/-- The translation of va for an access of a party. -/
def lookup (s : State) (c : Ctx) (acc : Acc) (va : Nat) : State × Walk := ask s (s.ctxPart c) c.dev va (tlbBanks c acc va)

/-- R226, R234: the physical address of va under a leaf of a level. -/
def leafAddr (e : Word) (level va : Nat) : Nat :=
  bits e 48 39 * 2 ^ 39 + bits e 38 16 * 2 ^ 16 + va % 2 ^ levelShift level

/-- R366: the byte key of a frame's bit in the grant map of a partition, which is read where it stands. -/
def grantKey (s : State) (p pa : Nat) : Nat :=
  dataKey s (bits (s.part p).grant 51 20 * 2 ^ 20 % 2 ^ 49 + (pa / 2 ^ 39 * 2 ^ 23 + pa % 2 ^ 39 / 2 ^ 16) / 8)

/-- R388: without Volgari links a device reaches its own frames only. -/
def linked (s : State) (dev k : Nat) : Bool := keyDev k == dev || s.feat dev / 2 % 2 == 1

/-- R237, R366, R388: the frame is granted to the partition. -/
def granted (s : State) (p dev pa : Nat) : Bool :=
  (s.byte (grantKey s p pa)).toNat / 2 ^ (pa / 2 ^ 16 % 8) % 2 == 1 && linked s dev pa

def machineCheck (k : Nat) : Exc := .fault 8 1 (BitVec.ofNat 64 k)

/-- Global memory: the place of va for a party (R233 to R237). -/
def globalPlace (s : State) (c : Ctx) (acc : Acc) (va : Nat) : M (State × Place) :=
  match lookup s c acc va with
  | (s', .leaf e l) =>
    if acc = .write && !bitAt e 61 then .error (pageFault 3 va)
    else if acc = .fetch && !bitAt e 60 then .error (pageFault 4 va)
    else
      let pa := leafAddr e l va
      let g := grantKey s (s.ctxPart c) pa
      if s.badLines.contains (g / 64) then .error (machineCheck g)
      else if granted s (s.ctxPart c) c.dev pa then .ok (s', ⟨pa, false, bitAt e 59, bitAt e 58, l⟩)
      else .error (accessFault 7 va)
  | (_, .absent) => .error (pageFault 1 va)
  | (_, .bad) => .error (pageFault 2 va)
  | (_, .error k) => .error (machineCheck k)

/-- What a party's access to a frame meets while the page's frame moves or has moved (R239, R240): the old frame and the new one are
closed from M0 to M1; from M1 on the new one is, for any other party, until the queued requests have been performed in their order. -/
def PageMig.closed (g : PageMig) (w : Waiter) (f : Nat) : Bool :=
  if g.moved then g.new == f && (match g.queue with
    | first :: _ => first != w
    | [] => false)
  else g.old == f || g.new == f

/-- The frame of a key is closed to a party: its access waits. -/
def frameBusy (s : State) (w : Waiter) (k : Nat) : Bool :=
  decide (k < 2 ^ 49) && s.pageMigs.any (fun m => m.2.closed w (k / 2 ^ 16))

/-- The party that issues. -/
def curWaiter (s : State) : Waiter :=
  match s.cur with
  | .thread t => .thread t
  | .svc n => .svc n

/-- An access of the current hart to a closed frame waits. -/
def openFrame (s : State) (k : Nat) : M Unit :=
  if frameBusy s (curWaiter s) k then .error (.wait (.frame (k / 2 ^ 16))) else .ok ()

/-- A party that waits for a frame (R239): the old home queues up to 128 requests in arrival order; later ones are refused. -/
def joinQueue (s : State) (w : Waiter) (f : Nat) : State :=
  { s with pageMigs := s.pageMigs.mapVals (fun _ g =>
      if g.old == f && !g.moved && !g.queue.contains w && decide (g.queue.length < 128) then { g with queue := g.queue ++ [w] }
      else g) }

/-- A party whose request has been performed, or that asks no more, leaves the queues, and those behind it go on (R240). -/
def leaveQueue (s : State) (w : Waiter) : State :=
  if s.pageMigs.any (fun m => m.2.queue.contains w) then
    { s with
      pageMigs := s.pageMigs.mapVals (fun _ g => { g with queue := g.queue.filter (· != w) })
      threads := s.threads.mapVals (fun _ t =>
        if s.pageMigs.any (fun m => m.2.moved && m.2.queue.contains w && t.park == .retry (.frame m.2.new)) then
          { t with park := .none } else t) }
  else s

/-- The scratchpads as a hart in H mode reaches them (R378): the spec does not give the place of their physical window in the device's
space, and State.reset has it in the last GiB (log entry 62). No program reaches the backing store at the top of each (R24). -/
def padKey (s : State) (dev pa : Nat) : Option Nat :=
  match (s.device dev).padWindow with
  | some a =>
    let b := dev * 2 ^ 39 + a
    if b ≤ pa ∧ pa < b + 2 ^ 30 then some (2 ^ 49 + dev * 2 ^ 30 + (pa - b)) else none
  | none => none

/-- R75 step 5 up to FRAME: the place of an access. -/
def placeRaw (s : State) (c : Ctx) (acc : Acc) (ea : Nat) : M (State × Place) :=
  match c with
  | .svcH n =>
    match padKey s (svcDev n) (ea % 2 ^ 49) with
    | some k => if 0x7E000 ≤ k % 2 ^ 19 then .error (accessFault 6 ea) else .ok (s, ⟨k, true, false, false, 0⟩)
    | none =>
      if linked s (svcDev n) (ea % 2 ^ 49) then .ok (s, ⟨ea % 2 ^ 49, false, false, false, 0⟩) else .error (accessFault 7 ea)
  | .svcS _ | .disp .. => if isNear ea then .error (accessFault 4 ea) else globalPlace s c acc ea
  | .run r co _ | .unit r co _ _ =>
    if isNear ea then (nearPlace s r co acc ea).map (fun p => (s, p)) else globalPlace s c acc ea

/-- R239: the entries of a page in the TLBs of a shed's cores, in its L2 TLB and in the L3 banks of its device. -/
def dropPageAt (s : State) (p va h : Nat) : State :=
  let here (k : Nat) : Bool := (decide (k < 2 ^ 40) && k / 16 == h) || k == 2 ^ 40 + h ||
    (decide (2 ^ 50 ≤ k) && (k - 2 ^ 50) / 128 == shedDev h)
  { s with tlbs := s.tlbs.mapVals (fun k b => if here k then b.filter (fun e => !e.maps p va) else b) }

/-- The physical shed in which a party's TLBs are. -/
def Ctx.shed : Ctx → Nat
  | .run _ _ core | .unit _ _ core _ => coreShed core
  | c => c.dev * 256

/-- Where the bytes of a key of a moved frame stand from M1 on. -/
def movedTo (s : State) (k : Nat) : Nat :=
  match s.pageMigs.find? (fun m => m.2.moved && m.2.old == k / 2 ^ 16) with
  | some m => m.2.new * 2 ^ 16 + k % 2 ^ 16
  | none => k

/-- R239: from M1 on an access to the old frame is one to the new home: a queued request is forwarded there, and a later one meets a
redirect notice, drops the page's translations and is sent there; so is one by a physical address or by another page (log entry 59). -/
def redirect (s : State) (c : Ctx) (p : Place) : State × Place :=
  match s.pageMigs.find? (fun m => m.2.moved && m.2.old == p.key / 2 ^ 16) with
  | some m => (dropPageAt s m.2.part m.2.va c.shed, { p with key := movedTo s p.key })
  | none => (s, p)

/-- The place of an access, whatever stands in its line. -/
def placeAny (s : State) (c : Ctx) (acc : Acc) (ea : Nat) : M (State × Place) :=
  (placeRaw s c acc ea).map (fun r => redirect r.1 c r.2)

/-- The address that a machine check gives (R356): the physical address of global memory, and of a scratchpad its address in the window
of log entry 62, 0 where the device has none. -/
def checkAddr (s : State) (k : Nat) : Nat :=
  if k < 2 ^ 49 then k
  else (s.device (keyDev k)).padWindow.elim 0 (fun a => keyDev k * 2 ^ 39 + a + (k - 2 ^ 49) % 2 ^ 30)

/-- R379: an access of a party that meets an uncorrectable error, of its line at its home, be that a scratchpad (R186), or in the link
transfer to another device (R385), is a machine check; one that replaces the whole line does not meet its error. -/
def errorCheck (s : State) (c : Ctx) (k : Nat) (mends : Bool) : M Unit :=
  if !mends && s.badLines.contains (k / 64) then .error (machineCheck (checkAddr s k))
  else if keyDev k ≠ c.dev ∧ (s.device c.dev).linkErrors ≠ [] then .error (.fault 8 2 (BitVec.ofNat 64 (checkAddr s k)))
  else .ok ()

/-- The place of an access that meets no such error. -/
def placeIn (s : State) (c : Ctx) (acc : Acc) (ea : Nat) (mends : Bool) : M (State × Place) := do
  let (s, p) ← placeAny s c acc ea
  errorCheck s c p.key mends
  .ok (s, p)

/-- The place of an access that replaces no whole line. -/
def place (s : State) (c : Ctx) (acc : Acc) (ea : Nat) : M (State × Place) := placeIn s c acc ea false

/-- The place of an access by a unit that the old home queues and forwards to the new one like any other (R239): no party sees its bytes
elsewhere while it waits, so it is performed where they stand (log entry 59). -/
def placeData (s : State) (c : Ctx) (acc : Acc) (ea : Nat) : M (State × Place) :=
  (place s c acc ea).map (fun r => (r.1, { r.2 with key := dataKey r.1 r.2.key }))

/-- R379: a write that replaces a whole line ends its error. -/
def mendLine (s : State) (line : Nat) : State := { s with badLines := s.badLines.filter (fun l => l != line) }

/-- R28: the effective address of an access, and its checks. -/
def effAddr (ra : Word) (off : Int) (size : Nat) : M Nat :=
  if bits ra 53 52 ≠ 0 then .error (.trap 4 1 ra)
  else
    let ea : Int := (bits ra 51 0 : Int) + off
    if ea < 0 || (2 ^ 52 : Int) ≤ ea then .error (.trap 4 0 ra)
    else if ea.toNat % size ≠ 0 then .error (.trap 5 (Nat.log2 size) (BitVec.ofNat 64 ea.toNat))
    else .ok ea.toNat

/-! ### Moving with a migratory page (R172, R174) -/

/-- R174: what keeps a thread where it stands. -/
def Thread.stays (s : State) (tid : Nat) (t : Thread) : Bool :=
  t.hart.intrap || !t.unseen.isEmpty || s.vcmds.any (fun p => p.2.thread == tid)

/-- A move of a thread to some sheds (R172): those of its partition take it; a move that names only sheds of another is discarded, and
the management log records it (R387). -/
def moveTo (s : State) (sheds : List Nat) (go : List Nat → M State) : M State :=
  let mine := sheds.filter (shedOwned s (s.ctxPart s.ctx))
  if mine.isEmpty then .ok { s with mgmtLog := s.mgmtLog + 1 } else go mine

/-- A load or store of the current thread to a migratory page first moves it (R172), once. -/
def moveFirst (s : State) (p : Place) : M State :=
  match s.cur, s.curThread with
  | .thread tid, some t =>
    if p.mg && !t.moved && !t.stays s tid && !((homeSheds p.key).contains (coreShed t.core)) then
      moveTo s (homeSheds p.key) (fun sheds => .error (.move sheds))
    else .ok s
  | _, _ => .ok s

/-! ### Watches and copies -/

/-- R306: a watch leaves the table when the last entry or compile of the loft that depends on its line is gone. -/
def unwatch (s : State) (h : Nat) (lines : List Nat) : State :=
  lines.foldl (fun s l =>
    if (s.shed h).loft.any (fun e => e.lines.contains l) || (s.shed h).compiles.any (fun e => e.lines.contains l) then s
    else match s.watches.get l with
      | some w =>
        let w := w.filter (fun x => x != h)
        { s with watches := if w.isEmpty then s.watches.erase l else s.watches.set l w }
      | none => s) s

/-- Apply one invalidation to a shed's loft (R306). -/
def invalidate (s : State) (h line : Nat) : State :=
  let s := { s with invals := s.invals.filter (fun p => p != (h, line)) }
  let dead := (s.shed h).loft.filter (fun e => e.lines.contains line)
  let s := s.modShed h (fun x => { x with
    loft := x.loft.filter (fun e => !e.lines.contains line)
    compiles := x.compiles.map (fun e => if e.lines.contains line then { e with fired := true } else e) })
  unwatch s h (dead.flatMap (fun e => e.lines))

/-- The writes performed are acknowledged once every listed loft has confirmed (R306). -/
def settleInvals (s : State) : State := s.invals.foldl (fun s p => invalidate s p.1 p.2) s

/-- Drop every line of a core's L1 (R193). -/
def dropL1 (s : State) (c : Nat) : State := s.modCore c (fun x => { x with l1 := [] })

def dropL1Line (s : State) (c line : Nat) : State :=
  s.modCore c (fun x => { x with l1 := x.l1.filter (fun p => p.1 != line) })

/-- This device's copies of lines homed on other devices (R195). -/
def dropSlices (s : State) (d : Nat) : State :=
  { s with slices := s.slices.filterKV (fun k _ => k / 2 ^ 43 != d) }

/-- Drop the device's copies of a line homed elsewhere: its slices' and its cores' (R195). -/
def dropRemote (s : State) (d line : Nat) : State :=
  if keyDev (line * 64) = d then s
  else { s with
    slices := s.slices.erase (d * 2 ^ 43 + line)
    cores := s.cores.mapVals (fun c x => if shedDev (coreShed c) == d then { x with l1 := x.l1.filter (fun p => p.1 != line) } else x) }

/-- An access by core c that reads the home of a line drops the core's copy, and the device's of a line homed elsewhere, so
that no later plain load there returns an older value (R195). -/
def dropCopies (s : State) (c k : Nat) : State := dropRemote (dropL1Line s c (k / 64)) (shedDev (coreShed c)) (k / 64)

/-- A unit that reads the home of a line drops its device's copies of it (R195). -/
def dropUnit (s : State) (c : Ctx) (p : Place) : State := if p.near then s else dropRemote s c.dev (p.key / 64)

/-! ### Atomics (R203) -/

/-- What an atomic of n bits writes over an old value m, whether it writes, and the flags that its old value returns with. -/
def AtomKind.apply (k : AtomKind) (n m v : Nat) : Nat × Bool × BitVec 5 :=
  match k with
  | .add => ((m + v) % 2 ^ n, true, 0)
  | .and => (m &&& v, true, 0)
  | .or => (m ||| v, true, 0)
  | .xor => (m ^^^ v, true, 0)
  | .min => (if sval v n < sval m n then v else m, true, 0)
  | .max => (if sval m n < sval v n then v else m, true, 0)
  | .minu => (Nat.min m v, true, 0)
  | .maxu => (Nat.max m v, true, 0)
  | .swp => (v, true, 0)
  | .decp => (m - 1, decide (0 < sval m n), 0)
  | .cas c => (v, m == c, 0)
  | .fadd fo fr =>
    let f := fmtOf (if n = 64 then .fp64 else .fp32)
    let r := fpAdd f .rne fr (f.operand fo m) (f.operand fo v)
    (r.1, true, r.2.toBits)

/-- The old value that a returning form writes: sign-extended, but for afadd's. -/
def AtomKind.old (k : AtomKind) (n m : Nat) : Word :=
  match k with
  | .fadd .. => BitVec.ofNat 64 m
  | _ => sextN m n

/-- A returned old value and its flags reach a context. -/
def Atomic.give (a : Atomic) (n m : Nat) (h : Hart) : Hart :=
  match a.rd with
  | some rd =>
    let h := { h with flags := h.flags ||| (a.kind.apply n m a.v).2.2 }
    if rd = 0 then h else { h with regs := h.regs.set rd.val (a.kind.old n m) }
  | none => h

/-- R203: at one instant the location of n bytes at k is read and, where the atomic writes, written; the old value. -/
def Atomic.perform (a : Atomic) (s : State) (k n : Nat) : State × Nat :=
  let m := s.value k n
  let r := a.kind.apply (8 * n) m a.v
  (if r.2.1 then writeHome s k (leBytes n r.1) else s, m)

/-! ### Stores, loads and atomics not yet performed -/

/-- A pending store or atomic of a thread of a device is performed; a release store after every listed loft has confirmed (R306). -/
def performStore (tid d : Nat) (s : State) (p : PStore) : State :=
  let s := if p.rel then settleInvals s else s
  let s := if p.key < 2 ^ 49 then dropRemote s d (p.key / 64) else s
  match p.atom with
  | some a =>
    let r := a.perform s p.key p.bytes.length
    r.1.modThread tid (fun t => { t with hart := a.give (8 * p.bytes.length) r.2 t.hart })
  | none => writeHome s p.key p.bytes

/-- Two ranges of bytes overlap. -/
def PStore.meets (p : PStore) (k n : Nat) : Bool := decide (p.key < k + n) && decide (k < p.key + p.bytes.length)

/-- The pending stores and atomics that f names, with those that come before one of them, and the others (R190, R193): those that
overlap it, all before a release store, and every atomic, which is a load before a store. -/
def mustGo (f : PStore → Bool) (q : List PStore) : List PStore × List PStore :=
  q.foldr (fun p r =>
    if f p || r.1.any (fun g => g.rel || p.atom.isSome || p.meets g.key g.bytes.length) then (p :: r.1, r.2) else (r.1, p :: r.2)) ([], [])

/-- Perform some of a thread's pending stores, in order; the others stay. -/
def performStores (s : State) (tid : Nat) (t : Thread) (r : List PStore × List PStore) : State :=
  if r.1.isEmpty then s
  else r.1.foldl (performStore tid (shedDev (coreShed t.core))) (s.setThread tid { t with pending := r.2 })

/-- Perform the pending stores and atomics of a thread that f names, with those that come before them. -/
def drainThose (s : State) (tid : Nat) (f : PStore → Bool) : State :=
  match s.threads.get tid with
  | some t => performStores s tid t (mustGo f t.pending)
  | none => s

/-- Perform those that come before an access of the thread to n bytes at k: before a store, every atomic among them (R190). -/
def drainOver (s : State) (tid k n : Nat) (writes : Bool) : State :=
  drainThose s tid (fun p => p.meets k n || (writes && p.atom.isSome))

/-- A byte as a thread sees it: its own latest pending store to it, else the base value (R187). -/
def seen (t : Thread) (base : Nat → Byte) (k : Nat) : Byte :=
  t.pending.foldl (fun b p => if p.atom.isNone ∧ p.key ≤ k ∧ k < p.key + p.bytes.length then p.bytes.getD (k - p.key) b else b) (base k)

/-- R195: what a plain load that misses in the L1 is served from: the home, or this device's slice copy of a line homed
elsewhere, always where there is one, and else filled (log entry 79). -/
def sliceLine (s : State) (d line : Nat) : State × List Byte :=
  if keyDev (line * 64) = d then (s, s.bytes (line * 64) 64)
  else match s.slices.get (d * 2 ^ 43 + line) with
    | some b => (s, b)
    | none =>
      let b := s.bytes (line * 64) 64
      let s := dropRemote s d line
      ({ s with slices := s.slices.set (d * 2 ^ 43 + line) b }, b)

/-- R195: a refill waits for the stores of the core's threads to the line, which with what comes before them are performed now (log
entry 8). -/
def drainLine (s : State) (c line : Nat) : State :=
  s.threads.foldl (fun s p => if p.2.core == c then drainOver s p.1 (line * 64) 64 false else s) s

/-- R230: put a line into a core's L1; the oldest line of a full set leaves. -/
def fillL1 (s : State) (c line : Nat) (b : List Byte) : State :=
  s.modCore c (fun x =>
    let set := x.l1.filter (fun p => p.1 % 64 == line % 64)
    let l1 := match set with
      | v :: _ => if 8 ≤ set.length then x.l1.filter (fun p => p.1 != v.1) else x.l1
      | [] => x.l1
    { x with l1 := l1 ++ [(line, b)] })

/-- The L1 copy of a line, refilled on a miss. -/
def l1Line (s : State) (c line : Nat) : State × List Byte :=
  match (s.core c).l1.find? (fun p => p.1 == line) with
  | some p => (s, p.2)
  | none =>
    let s := drainLine s c line
    let r := sliceLine s (shedDev (coreShed c)) line
    (fillL1 r.1 c line r.2, r.2)

/-- R94, R189: the n bytes at k that a load of a thread returns, from the L1 or from their home. -/
def threadLoad (s : State) (tid : Nat) (t : Thread) (k n : Nat) (cached : Bool) : State × List Byte :=
  if cached then
    let r := l1Line s t.core (k / 64)
    -- the refill may have performed this thread's own pending stores
    let t' := (r.1.threads.get tid).getD t
    (r.1, (List.range n).map (fun i => seen t' (fun k => r.2.getD (k % 64) 0) (k + i)))
  else
    (if k < 2 ^ 49 then dropCopies s t.core k else s, (List.range n).map (fun i => seen t s.byte (k + i)))

/-- A loaded value, extended to 64 bits (R91). -/
def extend (signed : Bool) (size v : Nat) : Word := if signed then sextN v (8 * size) else zextN v (8 * size)

/-- A pending load is performed: its register is written. -/
def performLoad (tid : Nat) (s : State) (l : PLoad) : State :=
  match s.threads.get tid with
  | some t =>
    let r := threadLoad s tid t l.key l.size l.cached
    r.1.modThread tid (fun x => { x with hart :=
      if l.rd = 0 then x.hart else { x.hart with regs := x.hart.regs.set l.rd.val (extend l.signed l.size (leVal r.2)) } })
  | none => s

/-- Perform every pending load of a thread. -/
def performLoads (s : State) (tid : Nat) : State :=
  match s.threads.get tid with
  | some t => if t.loads.isEmpty then s else t.loads.foldl (performLoad tid) (s.setThread tid { t with loads := [] })
  | none => s

/-- Perform every pending access of a thread that writes a register: its loads, and the atomics that return a value. -/
def performReturns (s : State) (tid : Nat) : State :=
  drainThose (performLoads s tid) tid (fun p => p.atom.any (fun a => a.rd.isSome))

/-- The current hart's loads are performed, and its atomics, each of which is a load before a store (R189, R206). -/
def loadsDone (s : State) : State :=
  match s.cur with
  | .thread t => drainThose (performLoads s t) t (fun p => p.atom.isSome)
  | .svc _ => s

/-- Perform every pending access of a thread. -/
def drain (s : State) (tid : Nat) : State :=
  let s := performLoads s tid
  match s.threads.get tid with
  | some t => performStores s tid t (t.pending, [])
  | none => s

/-- The pending accesses of threads to ranges of memory, given as first byte and length, are performed, with those that come before them: a
thread that has made one has used a translation that names the range, and does so no longer (R236); one that reached a scratchpad before its release is performed before it (R225). -/
def drainRanges (s : State) (fs : List (Nat × Nat)) : State :=
  let hit (k n : Nat) : Bool := fs.any (fun f => decide (f.1 < k + n) && decide (k < f.1 + f.2))
  s.threads.foldl (fun s p =>
    if p.2.pending.any (fun x => hit x.key x.bytes.length) || p.2.loads.any (fun x => hit x.key x.size) then drain s p.1 else s) s

/-- A release of the current hart waits for its earlier accesses (R193). -/
def release (s : State) : State :=
  settleInvals (match s.cur with
    | .thread t => drain s t
    | .svc _ => s)

/-- R191: a thread stands away from its logical core's physical core. -/
def Thread.away (s : State) (t : Thread) : Bool :=
  match s.lsheds.get t.lkey with
  | some x => t.core != x.shed * 8 + t.coord.lc
  | none => false

/-- R191: some thread of the current thread's logical core stands away from it. -/
def someAway (s : State) (t : Thread) : Bool :=
  s.threads.any (fun p => p.2.run == t.run && p.2.coord.ly == t.coord.ly && p.2.coord.ls == t.coord.ls &&
    p.2.coord.lc == t.coord.lc && p.2.away s)

/-- A thread stands on another device than the one that holds its logical yard (R191). -/
def Thread.abroad (s : State) (t : Thread) : Bool :=
  match s.lsheds.get t.lkey with
  | some x => shedDev (coreShed t.core) != shedDev x.shed
  | none => false

/-- Some thread of the current thread's logical yard stands on another device. -/
def someAbroad (s : State) (t : Thread) : Bool :=
  s.threads.any (fun p => p.2.run == t.run && p.2.coord.ly == t.coord.ly && p.2.abroad s)

/-- An acquire of thread t at a scope (R193); each scope does what the narrower ones do, so that one of shed scope is as wide as one of core
scope (R191). While a thread of the yard stands on another device, one that is performed at device scope drops the device's copies too: the
order within the yard is no less than where the yard is together (R192, log entry 125). -/
def acquireT (s : State) (t : Nat) (sc : Scope) : State :=
  match s.threads.get t with
  | some x =>
    let wide := match sc with
      | .dev | .sys => true
      | .core | .shed => someAway s x
    let far := someAbroad s x
    let s := if wide then dropL1 s x.core else s
    if sc = .sys || (wide && far) then dropSlices s (shedDev (coreShed x.core)) else s
  | none => s

/-- What the end of a thread that stood away leaves at home: its logical core's physical core keeps no copy from before, nor does that core's
device when the thread stood on another, as if it had stood there all along (R192, log entry 125). -/
def refreshHome (s : State) (t : Thread) : State :=
  match s.lsheds.get t.lkey with
  | some x =>
    let u := if t.away s then dropL1 s (x.shed * 8 + t.coord.lc) else s
    if t.abroad s then dropSlices u (shedDev x.shed) else u
  | none => s

/-- An acquire of the current hart. -/
def acquire (s : State) (sc : Scope) : State :=
  match s.cur with
  | .thread t => acquireT s t sc
  | .svc n => if sc = .sys then dropSlices s (svcDev n) else s

/-- Device scope, or system when a home lies on another device (R219, R245). -/
def homeScope (s : State) (k : Nat) : Scope := if s.ctx.dev = keyDev k then .dev else .sys

/-! ### Loads -/

/-- The bytes that a load of the current hart returns; what a service core loads is its home's. -/
def loadBytes (s : State) (p : Place) (plain : Bool) (n : Nat) : State × List Byte :=
  match s.curThread with
  | some t => threadLoad s s.curTid t p.key n (plain && !p.near && !p.ms)
  | none => (if p.near then s else dropRemote s s.ctx.dev (p.key / 64), s.bytes p.key n)

/-- The current hart's core and device drop their copies of a line that it reads at its home. -/
def dropMine (s : State) (k : Nat) : State :=
  match s.curThread with
  | some t => dropCopies s t.core k
  | none => dropRemote s s.ctx.dev (k / 64)

/-- Before a load of n bytes at k: the current thread's earlier loads and atomics on an overlapping byte are performed (R190). -/
def beforeLoad (s : State) (k n : Nat) : State :=
  match s.cur, s.curThread with
  | .thread tid, some x =>
    let s := if x.loads.any (fun l => decide (l.key < k + n) && decide (k < l.key + l.size)) then performLoads s tid else s
    if x.pending.any (fun p => p.atom.isSome && p.meets k n) then drainOver s tid k n false else s
  | _, _ => s

/-- A fresh load of n bytes at ea that an instruction of the current hart makes as part of its work; it never moves the thread (log
entry 96). -/
def loadFresh (s : State) (ea n : Nat) : M (State × Nat) := do
  let (s, p) ← place s s.ctx .read ea
  openFrame s p.key
  let (s, b) := loadBytes (beforeLoad s p.key n) p false n
  .ok (s, leVal b)

/-! ### Stores -/

/-- When a store may be performed: at once, as part of a larger operation; or later, a release store after every earlier
access of its thread. -/
inductive StoreKind where
  | atOnce | plain | release
  deriving DecidableEq, Repr

/-- The logical shed whose undo logger sees a context's writes. -/
def Ctx.lkey : Ctx → Nat
  | .run r c _ | .unit r c _ _ => Machine.lkey r c.ly c.ls
  | _ => 0

/-- A store of the current hart, checked and placed, is performed, with its bytes logged first (R326). -/
def storeNow (s : State) (p : Place) (bs : List Byte) : State :=
  match s.cur, s.curThread with
  | .thread tid, some t =>
    let s := if p.near then s else dropCopies s t.core p.key
    writeHome (logWrite (drainOver s tid p.key bs.length true) t.lkey p.key bs.length) p.key bs
  | _, _ => writeHome (if p.near then s else dropRemote s s.ctx.dev (p.key / 64)) p.key bs

/-- A store of the current hart, checked and placed: performed now, or later when the schedule `defer` holds it back (R187,
R190, log entry 8). A write to a marked range is logged first (R326), and is not held back. -/
def store (s : State) (p : Place) (ea : Nat) (bs : List Byte) (kind : StoreKind) : M State :=
  match s.cur, s.curThread with
  | .thread tid, some t =>
    match logFull s t.lkey p.key bs.length with
    | some k => .error (.fault 5 k (BitVec.ofNat 64 ea))
    | none =>
      let s := if p.near then s else dropCopies s t.core p.key
      let later := kind != .atOnce && s.defer.headD false && !touchesMark s t.lkey p.key bs.length
      let s := if kind = .atOnce then s else { s with defer := s.defer.tail }
      if later then
        .ok ((s.modThread tid (fun t => { t with pending := t.pending ++ [⟨p.key, bs, kind == .release, none⟩] })).post
          (.accessPerformed tid t.pending.length))
      else
        let s := if kind = .release then settleInvals (drain s tid) else drainOver s tid p.key bs.length true
        .ok (writeHome (logWrite s t.lkey p.key bs.length) p.key bs)
  | _, _ =>
    let s := if kind = .release then settleInvals s else s
    .ok (writeHome (if p.near then s else dropRemote s s.ctx.dev (p.key / 64)) p.key bs)

/-! ### Registers -/

/-- x0 reads as zero, and a dead register too (R16, R21). -/
def Hart.reg (h : Hart) (r : Reg) : Word := if r = 0 then 0 else (h.regs.get r.val).getD 0

/-- A register is dead (R20); x0 never is. -/
def Hart.isDead (h : Hart) (r : Reg) : Bool := r != 0 && (h.regs.get r.val).isNone

/-- A write of a register makes it live; a write to x0 is discarded (R16, R20). -/
def Hart.setReg (h : Hart) (r : Reg) (v : Word) : Hart :=
  if r = 0 then h else { h with regs := h.regs.set r.val v }

/-- End the value of a register (R20). -/
def Hart.kill (h : Hart) (r : Reg) : Hart := { h with regs := h.regs.erase r.val }

/-- The last-use mark of a source (R20). -/
def Hart.endSrc (h : Hart) (a : Src) : Hart := if a.last then h.kill a.r else h

def State.reg (s : State) (r : Reg) : Word := s.hart.reg r
def State.setReg (s : State) (r : Reg) (v : Word) : State := s.setHart (s.hart.setReg r v)
def State.setReg? (s : State) (r : Option Reg) (v : Word) : State :=
  match r with
  | some r => s.setReg r v
  | none => s

/-- PCS (R17). -/
def Hart.pcs (h : Hart) : Word :=
  (h.rm ++ h.flags ++ BitVec.ofBool h.intrap ++ BitVec.ofBool h.dead ++ 0#2 ++ h.pc : BitVec 64)

/-- PCS bits 63:52, in place (R37). -/
def Hart.status (h : Hart) : Word :=
  (h.rm ++ h.flags ++ BitVec.ofBool h.intrap ++ BitVec.ofBool h.dead ++ 0#54 : BitVec 64)

/-- R21: the run traps dead reads; a service core does not (R364). -/
def State.drt (s : State) : Bool :=
  match s.curRun with
  | some r => r.drt
  | none => false

/-- R21: read registers: the first dead one traps, or sets DEAD. -/
def readRegs (s : State) (rs : List Reg) : M State :=
  match rs.find? s.hart.isDead with
  | some r =>
    if s.drt then .error (.trap 1 0 (BitVec.ofNat 64 r.val))
    else .ok (s.setHart { s.hart with dead := true })
  | none => .ok s

/-- R100: an instruction at the last word of the address space cannot continue sequentially. -/
def seqCheck (s : State) : M Unit :=
  if s.hart.pc = 0xFFFFFFFFFFFFC#52 then .error (.trap 4 0 (s.hart.pc.setWidth 64)) else .ok ()

/-- The program counter moves past the instruction. -/
def State.advance (s : State) : State := s.setHart { s.hart with pc := s.hart.pc + 4 }

/-! ### Posting faults, taking traps and exceptions -/

/-- The service core that a device's fault messages of a partition reach (R42, R387). -/
def designated (s : State) (p dev : Nat) : Nat :=
  ((s.part p).svcs.find? (fun n => svcDev n == dev)).getD (dev * 16)

/-- Post a fault message (R42): it is on its way to the service core's buffer. -/
def postFault (s : State) (f : FaultMsg) : State :=
  let k := s.faults.fresh
  { s with faults := s.faults.set k f, agenda := s.agenda ++ [.faultBufferEntry k] }

/-- A machine check that the dispatcher, or another unit that runs for no thread, meets (R379) is posted from nobody. -/
def unitCheck (s : State) (p dev run : Nat) (e : Exc) : State :=
  match e with
  | .fault 8 cause addr =>
    postFault s
      { who := .nobody, svc := designated s p dev, run := run, core := dev * 2048, slot := 0, eng := false, tag := 0, kind := 8,
        cause := cause, coord := ⟨0, 0, 0, 0⟩, addr := addr, pcs := 0, value := 0, args := [], st := 0, res1 := 0, res2 := 0 }
  | _ => s

/-- The access that meets an error of a link transfer ends it (R385): the oldest of its device, as the model has no routes (log entry 57). -/
def meetLink (s : State) (dev : Nat) (e : Exc) : State :=
  match e with
  | .fault 8 2 _ => s.modDevice dev (fun d => { d with linkErrors := d.linkErrors.tail })
  | _ => s

/-- R42, R359: a thread posts a fault message and parks on its mailbox; its earlier accesses come first (R44). -/
def faultThread (s : State) (tid : Nat) (kind cause : Nat) (addr value : Word) (args : List Word) : State :=
  let s := settleInvals (drain s tid)
  match s.threads.get tid with
  | some t =>
    let tag := (s.core t.core).tags.getD t.slot 0
    let f := s.faults.fresh
    let msg : FaultMsg :=
      { who := .thread tid, svc := designated s (s.ctxPart (.run t.run t.coord t.core)) (shedDev (coreShed t.core)),
        run := t.run, core := t.core, slot := t.slot, eng := false, tag := tag, kind := kind, cause := cause,
        coord := t.coord, addr := addr, pcs := t.hart.pcs, value := value, args := args, st := 0, res1 := 0, res2 := 0 }
    let s := s.modCore t.core (fun c => { c with tags := c.tags.set t.slot ((tag + 1) % 256) })
    postFault (s.setThread tid { t with park := .mailbox f }) msg
  | none => s

/-- A thread at a tcwh: its staged words are discarded, and it stands at the tcwl again (R76). A fetch fault after a tcwl, before the word
there is known to be a tcwh, is taken as met at one (log entry 88). What the tcwl's last-use marks have ended stays ended (log entry 104). -/
def unstage (s : State) (tid : Nat) : State :=
  s.modThread tid (fun t => match t.staged with
    | some g => { t with staged := none, hart := { t.hart with pc := g.pc } }
    | none => t)

/-- The address that a table entry names, read at its home; where it cannot be read the spec states no address, and it is free (log
entry 6). -/
def tableEntry (s : State) (c : Ctx) (ea : Nat) : BitVec 52 :=
  match placeData s c .read ea with
  | .ok (s', p) => BitVec.ofNat 52 (s'.value p.key 8 / 4 * 4)
  | .error _ => BitVec.ofNat 52 ((Config.freeWord s.free).toNat / 4 * 4)

/-- The machine check that a read of a table entry meets (R379, R385). -/
def tableCheck (s : State) (c : Ctx) (ea : Nat) : Option Exc :=
  match placeData s c .read ea with
  | .error (.fault 8 cause addr) => some (.fault 8 cause addr)
  | _ => none

/-- The place of the safe-point table's entry n of a thread's run: its save or its restore routine's address (R150). -/
def safeEntry (s : State) (t : Thread) (n : Nat) (restore : Bool) : Nat :=
  (s.runs.get t.run).elim 0 (fun r => r.sptab) + 16 * n + (if restore then 8 else 0)

/-- The address of a save or a restore routine. -/
def safeRoutine (s : State) (t : Thread) (n : Nat) (restore : Bool) : BitVec 52 :=
  tableEntry s (.run t.run t.coord t.core) (safeEntry s t n restore)

/-- A read of a table by a unit for a run: the machine check that it meets is posted from nobody, and has ended (R379, R385). -/
def postTableCheck (s : State) (c : Ctx) (run ea : Nat) : State :=
  (tableCheck s c ea).elim s (fun e => unitCheck (meetLink s c.dev e) (s.ctxPart c) c.dev run e)

/-- R38 and R372: taking a user trap, with the trapping instruction having no other effect. A machine check that the read of the save
routine's address meets is the thread's (R379). -/
def userTrap (s : State) (tid : Nat) (code detail : Nat) (val : Word) : State :=
  match s.threads.get tid, (if code = 7 then (s.threads.get tid).bind (fun t =>
      tableCheck s (.run t.run t.coord t.core) (safeEntry s t val.toNat false)) else none) with
  | some t, some (.fault kind cause addr) =>
    faultThread (meetLink s (shedDev (coreShed t.core)) (.fault kind cause addr)) tid kind cause addr 0 []
  | some t, _ =>
    let vec := (s.groups.getD (gkey t.run t.coord) ⟨0, false⟩).utvec
    if t.hart.intrap || (code != 7 && !bitAt vec 0) then
      faultThread s tid 9 code val (BitVec.ofNat 64 detail) []
    else
      let cause := BitVec.ofNat 64 (detail * 256 + code)
      let back := if code = 7 then t.hart.pc + 4 else t.hart.pc
      let target := if code = 7 then safeRoutine s t val.toNat false else BitVec.ofNat 52 (bits vec 51 2 * 4)
      let h := ((t.hart.setReg 7 cause).setReg 8 val)
      { s with free := if code = 7 then s.free + 1 else s.free }.setThread tid { t with
        utcause := cause
        utval := val
        utepc := t.hart.status ||| back.setWidth 64
        save7 := t.hart.regs.get 7
        save8 := t.hart.regs.get 8
        hart := { h with intrap := true, pc := target } }
  | none, _ => s

/-- R39: x7 and x8 come back with their liveness, INTRAP clears and the thread continues at UTEPC. -/
def trapReturn (t : Thread) : Thread :=
  let put (h : Hart) (r : Reg) (v : Option Word) : Hart := match v with
    | some w => h.setReg r w
    | none => h.kill r
  let h := put (put t.hart 7 t.save7) 8 t.save8
  { t with restoring := false, hart := { h with intrap := false, pc := BitVec.ofNat 52 (bits t.utepc 51 2 * 4) } }

/-- R364: a synchronous exception of a service core; one met in H mode stops the core, which reports to the
management controller. -/
def svcException (s : State) (n kind cause : Nat) (val : Word) (back : BitVec 52) : State :=
  let x := s.svc n
  if x.hmode then { s.setSvc n { x with stopped := true } with mgmtLog := s.mgmtLog + 1 }
  else s.setSvc n { x with
    hvcause := BitVec.ofNat 64 (cause % 256 * 256 + kind)
    hvval := val
    hvepc := (if x.hmode then 0x8000000000000000#64 else 0) ||| back.setWidth 64
    hmode := true
    hart := { x.hart with pc := BitVec.ofNat 52 (bits x.hvvec 51 2 * 4) } }

/-- Taking what stopped an instruction: the one shared operation. On a compute core a user trap (R38) or a system fault
(R42); on a service core an exception (R364); a wait parks the thread, which executes the instruction again; a move
sends the thread on its way first (R172). -/
def takeExc (s : State) (e : Exc) : State :=
  let s := meetLink s s.ctx.dev e
  match s.cur with
  | .svc n =>
    let pc := (s.svc n).hart.pc
    match e with
    | .trap code _ val => svcException s n 9 code val pc
    | .fault kind cause addr => svcException s n kind cause addr pc
    | .call kind v _ => svcException s n kind 0 (BitVec.ofNat 64 v) (pc + 4)
    | .wait w =>
      let s := s.modSvc n (fun x => { x with again := true })
      match w with
      | .frame f => joinQueue s (.svc n) f
      | _ => s
    | .move _ => s
  | .thread tid =>
    let s := performReturns s tid
    match e with
    | .trap code detail val => userTrap (unstage s tid) tid code detail val
    | .fault kind cause addr => faultThread (unstage s tid) tid kind cause addr 0 []
    | .call kind v args => faultThread s tid kind 0 (BitVec.ofNat 64 v) 0 args
    | .wait w =>
      let s := s.modThread tid (fun t => { t with park := .retry w })
      match w with
      | .frame f => joinQueue s (.thread tid) f
      | _ => s
    | .move sheds => (s.modThread tid (fun t => { t with park := .migrating sheds 0 true })).post (.migrationArrival tid)

/-- An instruction's outcome: the state its body gives, or what stopped it taken from the state before it. -/
def complete (s : State) (r : M State) : Host.Outcome State Fault Refusal :=
  match r with
  | .ok s' => .next s'
  | .error e =>
    let s' := takeExc s e
    .next { s' with free := s'.free + 1 }

/-- ADDR_WRAP and ILLEGAL, ACCESS faults by name. -/
def illegalWord (w : BitVec 32) : Exc := .fault 1 0 (w.setWidth 64)

/-- The instruction word as a fault's ADDR, when there is no address (R356). -/
def privFault (i : Instr) : Exc := .fault 2 1 (i.word.setWidth 64)

/-- A form that compute cores do not have. -/
def needSvc (s : State) (i : Instr) : M Unit := if s.isSvc then .ok () else .error (privFault i)

/-- A form that service cores do not have (R364). -/
def needThread (s : State) (i : Instr) : M Unit := if s.isSvc then .error (illegalWord i.word) else .ok ()

/-! ### Pre-emption (R372, R373) -/

/-- A pre-empt request is set for a thread: its run's, or its logical shed's for time slicing (R372). -/
def requested (s : State) (t : Thread) : Bool :=
  (match s.runs.get t.run with
    | some r => r.preempt
    | none => false) ||
  (match s.lsheds.get t.lkey with
    | some x => x.slicing
    | none => false)

/-- A thread runs its save routine (R372), and not its restore routine (R375): an eret of that one continues, whatever requests are set
(log entry 103). -/
def Thread.inSave (t : Thread) : Bool := t.hart.intrap && bits t.utcause 7 0 == 7 && !t.restoring

/-- R373: a thread counts as being at a safe point. -/
def Thread.counts (t : Thread) : Bool :=
  t.held || (match t.park with
    | .safepoint _ | .phaser .. | .waita .. | .vfence _ => true
    | .retry w => (match w with
      | .ring .. | .job | .port | .outbox | .phase _ => true
      | _ => false)
    | .mailbox _ => !t.inSave
    | _ => false)

/-- A thread that counts is held from issue while its request stays set (R373). -/
def holdThread (s : State) (tid : Nat) : State :=
  match s.threads.get tid with
  | some t => if requested s t && t.counts then s.setThread tid { t with held := true } else s
  | none => s

/-- The result of an engine's operation has reached the current thread, which counts from here on (R373). -/
def holdResult (s : State) : State :=
  match s.curThread with
  | some t => if requested s t then s.modCur (fun t => { t with held := true }) else s
  | none => s

/-! ### Waking parked threads -/

/-- A thread parked in a phaser, on an address, in jwait or oflush, or for a fault reply becomes ready, urgent at its first
issue (R182). -/
def unpark (s : State) (t : Nat) : State := s.modThread t (fun x => { x with park := .none, urgent := true })

/-- The waits whose end makes a thread urgent at its first issue (R182). -/
def Why.urgent : Why → Bool
  | .job | .outbox | .phase _ => true
  | _ => false

/-- Wake every thread for which p holds that re-executes its instruction for a reason. -/
def wakeRetry (s : State) (p : Thread → Bool) (w : Why) : State :=
  { s with threads := s.threads.mapVals (fun _ t =>
      if t.park == .retry w && p t then { t with park := .none, urgent := t.urgent || w.urgent } else t) }

/-- The instructions that wait for a rebuild of a slot's tables in a shed go on (R139). -/
def wakeBuild (s : State) (h : Nat) : State := wakeRetry s (fun t => coreShed t.core == h) .build

/-! ### Fetching -/

/-- A byte of code as the instruction caches of a thread's logical shed hold it (R96). -/
def codeByte (s : State) (t : Thread) (k : Nat) : Byte :=
  match s.icaches.get t.lkey with
  | some c => (c.get k).getD (s.byte k)
  | none => s.byte k

/-- The instruction word at the program counter (R46), or why it cannot be fetched. A service core fetches the bytes as they
stand (log entry 65). -/
def fetchWord (s : State) : M (State × BitVec 32) := do
  let ea := s.hart.pc.toNat
  let (s, p) ← place s s.ctx .fetch ea
  openFrame s p.key
  let b (i : Nat) : Byte := match s.curThread with
    | some t => codeByte s t (p.key + i)
    | none => s.byte (p.key + i)
  .ok (s, wordOfBytes (b 0) (b 1) (b 2) (b 3))

end Sys2Proof.Machine
end

