-- ==== Sys2Proof/Machine/Operands.lean ====
section
/-! DEFINITION. The operand forms: reading sources with their last-use marks (R20, R21, R77) and writing a destination. -/

namespace Sys2Proof.Machine

/-- Read registers that an instruction which continues sequentially needs: dead reads first (R75), then R100, which comes before
the instruction's own checks of addresses (log entry 77). -/
def sources (s : State) (rs : List Reg) : M State := do
  let s ← readRegs s rs
  seqCheck s
  .ok s

/-- End the marked sources, after all have been read (R20). -/
def endSources (s : State) (as : List Src) : State := s.setHart (as.foldl Hart.endSrc s.hart)

/-- One source. -/
def op1 (s : State) (a : Src) : M (State × Word) := do
  let v := s.reg a.r
  let s ← sources s [a.r]
  .ok (endSources s [a], v)

/-- Two sources. -/
def op2 (s : State) (a b : Src) : M (State × Word × Word) := do
  let u := s.reg a.r
  let v := s.reg b.r
  let s ← sources s [a.r, b.r]
  .ok (endSources s [a, b], u, v)

/-- A source, and rd read as a source without a mark (R81, R85, R86). -/
def op1d (s : State) (d : Reg) (a : Src) : M (State × Word × Word) := do
  let w := s.reg d
  let u := s.reg a.r
  let s ← sources s [a.r, d]
  .ok (endSources s [a], w, u)

/-- Two sources, and rd read as a source without a mark (R81, R106, R202, R242). -/
def op2d (s : State) (d : Reg) (a b : Src) : M (State × Word × Word × Word) := do
  let w := s.reg d
  let u := s.reg a.r
  let v := s.reg b.r
  let s ← sources s [a.r, b.r, d]
  .ok (endSources s [a, b], w, u, v)

/-- The sources of a branch or jump: R100 is checked by the form itself. -/
def opJ (s : State) (as : List Src) : M (State × List Word) := do
  let vs := as.map (fun a => s.reg a.r)
  let s ← readRegs s (as.map (fun a => a.r))
  .ok (endSources s as, vs)

/-- Write rd and go on to the next instruction. -/
def writeNext (s : State) (rd : Reg) (v : Word) : State := (s.setReg rd v).advance

/-- A form with one source and a result that depends on it alone. -/
def unary (s : State) (rd : Reg) (a : Src) (f : Word → Word) : Host.Outcome State Fault Refusal :=
  complete s (do
    let (s, u) ← op1 s a
    .ok (writeNext s rd (f u)))

/-- A form with two sources and a result that depends on them alone. -/
def binary (s : State) (rd : Reg) (a b : Src) (f : Word → Word → Word) : Host.Outcome State Fault Refusal :=
  complete s (do
    let (s, u, v) ← op2 s a b
    .ok (writeNext s rd (f u v)))

/-- The word form of an operation (R30, R80), or its 64-bit form. -/
def wordForm (w : Bool) (f : Word → Word → Word) (g : BitVec 32 → BitVec 32 → BitVec 32) (u v : Word) : Word :=
  if w then (g (u.setWidth 32) (v.setWidth 32)).signExtend 64 else f u v

/-- The sign-extended 16-bit immediate (R53, R83). -/
def sext16 (imm : BitVec 16) : Word := imm.signExtend 64
def zext16 (imm : BitVec 16) : Word := imm.setWidth 64

end Sys2Proof.Machine
end

