-- ==== Sys2Proof/Machine/Flags.lean ====
section
/-! DEFINITION. The flag and mode computations of PCS: the sticky flags (R17, R104), CR.STATUS (R32), the rounding mode and the flush bits that a floating-point instruction runs under (R52, R102, R103, R120). -/

namespace Sys2Proof.Machine

/-- R104: OR flags into PCS bits 60:56. -/
def Hart.orFlags (h : Hart) (f : BitVec 5) : Hart := { h with flags := h.flags ||| f }

def State.orFlags (s : State) (f : BitVec 5) : State := s.setHart (s.hart.orFlags f)

/-- CR.STATUS as it reads (R32): PCS bits 63:52. -/
def statusRead (h : Hart) : Word := h.status

/-- A write of CR.STATUS (R32): RM keeps its value when 5 to 7 is written; INTRAP and the reserved bits are ignored. -/
def statusWrite (h : Hart) (v : Word) : Hart :=
  { h with
    rm := if bits v 63 61 ≤ 4 then BitVec.ofNat 3 (bits v 63 61) else h.rm
    flags := BitVec.ofNat 5 (bits v 60 56)
    dead := bitAt v 54 }

/-- CR.FPCTL of the current run (R120); a service core has none, and flushes nothing (log entry 21). -/
def State.fpctl (s : State) : Nat :=
  match s.curRun with
  | some r => r.fpctl
  | none => 0

/-- The seed that a stochastic rounding uses (R157). -/
def State.seed (s : State) : Seed :=
  match s.curRun with
  | some r => r.seed
  | none => ⟨0, 0⟩

/-- The operand flush of a scalar format in force (R102). -/
def State.opFlush (s : State) (f : Fmt) : Bool := Machine.opFlush s.fpctl (fmtPtrCode f)

/-- The result flush of a scalar format in force (R104). -/
def State.resFlush (s : State) (f : Fmt) : Bool := Machine.resFlush s.fpctl (fmtPtrCode f)

/-- R52, R103: the mode an instruction rounds in: its field, or PCS.RM; `w` is the random word of SR. -/
def roundMode (h : Hart) (rnd : Rnd) (w : Nat) : RMode :=
  match rnd with
  | .rne => .rne
  | .rz => .rz
  | .rdn => .rd
  | .rup => .ru
  | .sr => .sr w
  | .dyn => match h.rm.toNat with
    | 0 => .rne
    | 1 => .rz
    | 2 => .rd
    | 3 => .ru
    | _ => .sr w

/-- The bits of a floating-point operand (R101). -/
def fpBits (f : Fmt) (v : Word) : Nat := v.toNat % 2 ^ (fmtOf f).width

/-- An operand, read under its flush bit (R102). -/
def State.fpOperand (s : State) (f : Fmt) (v : Word) : FpVal := (fmtOf f).operand (s.opFlush f) (fpBits f v)

/-- Write a floating-point result and OR its flags (R101, R104). -/
def writeFp (s : State) (rd : Reg) (r : Nat × FpFlags) : State :=
  ((s.setReg rd (BitVec.ofNat 64 r.1)).orFlags r.2.toBits).advance

end Sys2Proof.Machine
end

