-- ==== Sys2Proof/Machine/Integer.lean ====
section
/-! DEFINITION. The integer, immediate, constant, address and tag instructions (R79 to R89). -/

namespace Sys2Proof.Machine

abbrev Out := Host.Outcome State Fault Refusal

/-- R31: the quotient of n-bit operands. -/
def divS {n : Nat} (a b : BitVec n) : BitVec n :=
  if b = 0 then BitVec.allOnes n else BitVec.ofInt n (Int.tdiv a.toInt b.toInt)
def divU {n : Nat} (a b : BitVec n) : BitVec n :=
  if b = 0 then BitVec.allOnes n else BitVec.ofNat n (a.toNat / b.toNat)
/-- R31: the remainder. -/
def remS {n : Nat} (a b : BitVec n) : BitVec n :=
  if b = 0 then a else BitVec.ofInt n (a.toInt - b.toInt * Int.tdiv a.toInt b.toInt)
def remU {n : Nat} (a b : BitVec n) : BitVec n :=
  if b = 0 then a else BitVec.ofNat n (a.toNat % b.toNat)

/-- R30: shift and rotate amounts are taken modulo the width. -/
def shlB {n : Nat} (a b : BitVec n) : BitVec n := a <<< (b.toNat % n)
def shrB {n : Nat} (a b : BitVec n) : BitVec n := a >>> (b.toNat % n)
def sraB {n : Nat} (a b : BitVec n) : BitVec n := a.sshiftRight (b.toNat % n)
def rotlB {n : Nat} (a b : BitVec n) : BitVec n := a <<< (b.toNat % n) ||| a >>> (n - b.toNat % n)
def rotrB {n : Nat} (a b : BitVec n) : BitVec n := a >>> (b.toNat % n) ||| a <<< (n - b.toNat % n)

def execAdd (w : Bool) (rd : Reg) (ra rb : Src) (s : State) : Out :=
  binary s rd ra rb (wordForm w (· + ·) (· + ·))
def execSub (w : Bool) (rd : Reg) (ra rb : Src) (s : State) : Out :=
  binary s rd ra rb (wordForm w (· - ·) (· - ·))
def execMul (w : Bool) (rd : Reg) (ra rb : Src) (s : State) : Out :=
  binary s rd ra rb (wordForm w (· * ·) (· * ·))
def execMulh (rd : Reg) (ra rb : Src) (s : State) : Out :=
  binary s rd ra rb (fun a b => BitVec.ofInt 64 (a.toInt * b.toInt / 2 ^ 64))
def execMulhu (rd : Reg) (ra rb : Src) (s : State) : Out :=
  binary s rd ra rb (fun a b => BitVec.ofNat 64 (a.toNat * b.toNat / 2 ^ 64))
def execDiv (w : Bool) (rd : Reg) (ra rb : Src) (s : State) : Out := binary s rd ra rb (wordForm w divS divS)
def execDivu (w : Bool) (rd : Reg) (ra rb : Src) (s : State) : Out := binary s rd ra rb (wordForm w divU divU)
def execRem (w : Bool) (rd : Reg) (ra rb : Src) (s : State) : Out := binary s rd ra rb (wordForm w remS remS)
def execRemu (w : Bool) (rd : Reg) (ra rb : Src) (s : State) : Out := binary s rd ra rb (wordForm w remU remU)
def execAnd (rd : Reg) (ra rb : Src) (s : State) : Out := binary s rd ra rb (· &&& ·)
def execOr (rd : Reg) (ra rb : Src) (s : State) : Out := binary s rd ra rb (· ||| ·)
def execXor (rd : Reg) (ra rb : Src) (s : State) : Out := binary s rd ra rb (· ^^^ ·)
def execAndn (rd : Reg) (ra rb : Src) (s : State) : Out := binary s rd ra rb (fun a b => a &&& ~~~b)
def execOrn (rd : Reg) (ra rb : Src) (s : State) : Out := binary s rd ra rb (fun a b => a ||| ~~~b)
def execShl (w : Bool) (rd : Reg) (ra rb : Src) (s : State) : Out := binary s rd ra rb (wordForm w shlB shlB)
def execShr (w : Bool) (rd : Reg) (ra rb : Src) (s : State) : Out := binary s rd ra rb (wordForm w shrB shrB)
def execSra (w : Bool) (rd : Reg) (ra rb : Src) (s : State) : Out := binary s rd ra rb (wordForm w sraB sraB)
def execRotl (w : Bool) (rd : Reg) (ra rb : Src) (s : State) : Out := binary s rd ra rb (wordForm w rotlB rotlB)
def execRotr (w : Bool) (rd : Reg) (ra rb : Src) (s : State) : Out := binary s rd ra rb (wordForm w rotrB rotrB)
def execMin (rd : Reg) (ra rb : Src) (s : State) : Out := binary s rd ra rb (fun a b => if b.slt a then b else a)
def execMax (rd : Reg) (ra rb : Src) (s : State) : Out := binary s rd ra rb (fun a b => if a.slt b then b else a)
def execMinu (rd : Reg) (ra rb : Src) (s : State) : Out := binary s rd ra rb (fun a b => if b.ult a then b else a)
def execMaxu (rd : Reg) (ra rb : Src) (s : State) : Out := binary s rd ra rb (fun a b => if a.ult b then b else a)
def execSlt (rd : Reg) (ra rb : Src) (s : State) : Out := binary s rd ra rb (fun a b => boolWord (a.slt b))
def execSltu (rd : Reg) (ra rb : Src) (s : State) : Out := binary s rd ra rb (fun a b => boolWord (a.ult b))
def execSeq (rd : Reg) (ra rb : Src) (s : State) : Out := binary s rd ra rb (fun a b => boolWord (a == b))

/-- R79: sel reads the old rd. -/
def execSel (rd : Reg) (ra rb : Src) (s : State) : Out :=
  complete s (do
    let (s, c, a, b) ← op2d s rd ra rb
    .ok (writeNext s rd (if c ≠ 0 then a else b)))

/-! ### Unary (R82) -/

/-- The number of leading zeros of the low n bits. -/
def leadingZeros (n : Nat) (v : Nat) : Nat :=
  match n with
  | 0 => 0
  | k + 1 => if v / 2 ^ k % 2 = 1 then 0 else 1 + leadingZeros k v

def trailingZeros (n : Nat) (v : Nat) : Nat :=
  match n with
  | 0 => 0
  | k + 1 => if v % 2 = 1 then 0 else 1 + trailingZeros k (v / 2)

def onesCount (n : Nat) (v : Nat) : Nat :=
  match n with
  | 0 => 0
  | k + 1 => v % 2 + onesCount k (v / 2)

/-- A count over 64 bits, or over ra[31:0] in a word form. -/
def countForm (w : Bool) (f : Nat → Nat → Nat) (a : Word) : Word :=
  if w then BitVec.ofNat 64 (f 32 (a.toNat % 2 ^ 32)) else BitVec.ofNat 64 (f 64 a.toNat)

def execClz (w : Bool) (rd : Reg) (ra : Src) (s : State) : Out := unary s rd ra (countForm w leadingZeros)
def execCtz (w : Bool) (rd : Reg) (ra : Src) (s : State) : Out := unary s rd ra (countForm w trailingZeros)
def execPopc (w : Bool) (rd : Reg) (ra : Src) (s : State) : Out := unary s rd ra (countForm w onesCount)
def execSextB (rd : Reg) (ra : Src) (s : State) : Out := unary s rd ra (fun a => (a.setWidth 8).signExtend 64)
def execSextH (rd : Reg) (ra : Src) (s : State) : Out := unary s rd ra (fun a => (a.setWidth 16).signExtend 64)
def execSextW (rd : Reg) (ra : Src) (s : State) : Out := unary s rd ra (fun a => (a.setWidth 32).signExtend 64)
def execZextB (rd : Reg) (ra : Src) (s : State) : Out := unary s rd ra (fun a => (a.setWidth 8).setWidth 64)
def execZextH (rd : Reg) (ra : Src) (s : State) : Out := unary s rd ra (fun a => (a.setWidth 16).setWidth 64)
def execZextW (rd : Reg) (ra : Src) (s : State) : Out := unary s rd ra (fun a => (a.setWidth 32).setWidth 64)

/-! ### Immediates (R83, R84) -/

def execAddi (rd : Reg) (ra : Src) (imm : BitVec 16) (s : State) : Out := unary s rd ra (· + sext16 imm)
def execAndi (rd : Reg) (ra : Src) (imm : BitVec 16) (s : State) : Out := unary s rd ra (· &&& zext16 imm)
def execOri (rd : Reg) (ra : Src) (imm : BitVec 16) (s : State) : Out := unary s rd ra (· ||| zext16 imm)
def execXori (rd : Reg) (ra : Src) (imm : BitVec 16) (s : State) : Out := unary s rd ra (· ^^^ zext16 imm)
def execShli (w : Bool) (rd : Reg) (ra : Src) (amt : BitVec 6) (s : State) : Out :=
  unary s rd ra (fun a => wordForm w shlB shlB a (amt.setWidth 64))
def execShri (w : Bool) (rd : Reg) (ra : Src) (amt : BitVec 6) (s : State) : Out :=
  unary s rd ra (fun a => wordForm w shrB shrB a (amt.setWidth 64))
def execSrai (w : Bool) (rd : Reg) (ra : Src) (amt : BitVec 6) (s : State) : Out :=
  unary s rd ra (fun a => wordForm w sraB sraB a (amt.setWidth 64))
def execSlti (rd : Reg) (ra : Src) (imm : BitVec 16) (s : State) : Out :=
  unary s rd ra (fun a => boolWord (a.slt (sext16 imm)))
def execSltiu (rd : Reg) (ra : Src) (imm : BitVec 16) (s : State) : Out :=
  unary s rd ra (fun a => boolWord (a.ult (sext16 imm)))

/-- m of R84: len ones from bit pos on. -/
def fieldMask (pos len : Nat) : Word := BitVec.ofNat 64 ((2 ^ len - 1) * 2 ^ pos)

def execBfx (rd : Reg) (ra : Src) (pos lenM1 : BitVec 6) (s : State) : Out :=
  unary s rd ra (fun a => zextN (a.toNat / 2 ^ pos.toNat) (lenM1.toNat + 1))

def execBfi (rd : Reg) (ra : Src) (pos lenM1 : BitVec 6) (s : State) : Out :=
  complete s (do
    let (s, d, a) ← op1d s rd ra
    let m := fieldMask pos.toNat (lenM1.toNat + 1)
    .ok (writeNext s rd (d &&& ~~~m ||| a <<< pos.toNat &&& m)))

/-! ### Constants (R86) -/

def execLdk (rd : Reg) (imm : BitVec 16) (idx : BitVec 2) (s : State) : Out :=
  complete s (do
    let s ← sources s []
    .ok (writeNext s rd (zext16 imm <<< (16 * idx.toNat))))

def execInk (rd : Reg) (imm : BitVec 16) (idx : BitVec 2) (s : State) : Out :=
  complete s (do
    let d := s.reg rd
    let s ← sources s [rd]
    let m := fieldMask (16 * idx.toNat) 16
    .ok (writeNext s rd (d &&& ~~~m ||| zext16 imm <<< (16 * idx.toNat))))

/-! ### Address and tag (R87, R88) -/

/-- R29: VA plus an addend, with the tag of the pointer kept. -/
def addPointer (a : Word) (d : Int) : M Word :=
  let n : Int := (bits a 51 0 : Int) + d
  if n < 0 || (2 ^ 52 : Int) ≤ n then .error (.trap 4 0 a)
  else .ok (BitVec.ofNat 64 (bits a 63 52 * 2 ^ 52 + n.toNat))

def execAdda (rd : Reg) (ra rb : Src) (s : State) : Out :=
  complete s (do
    let (s, a, b) ← op2 s ra rb
    let v ← addPointer a b.toInt
    .ok (writeNext s rd v))

def execAddai (rd : Reg) (ra : Src) (imm : BitVec 16) (s : State) : Out :=
  complete s (do
    let (s, a) ← op1 s ra
    let v ← addPointer a imm.toInt
    .ok (writeNext s rd v))

def execTagset (rd : Reg) (ra : Src) (blog : BitVec 4) (fmt : BitVec 6) (s : State) : Out :=
  unary s rd ra (fun a => (fmt ++ blog ++ a.extractLsb' 0 54 : BitVec 64))
def execTagget (rd : Reg) (ra : Src) (s : State) : Out := unary s rd ra (fun a => BitVec.ofNat 64 (bits a 63 52))
def execTagclr (rd : Reg) (ra : Src) (s : State) : Out := unary s rd ra (fun a => BitVec.ofNat 64 (bits a 51 0))

end Sys2Proof.Machine
end

