-- ==== Sys2Proof/Machine/Control.lean ====
section
/-! DEFINITION. Branches and jumps (R98 to R100). -/

namespace Sys2Proof.Machine

/-- R98, R100: go to PC + 4 × offset. -/
def takeBranch (s : State) (off : Int) : M State :=
  let t : Int := (s.hart.pc.toNat : Int) + 4 * off
  if t < 0 || (2 ^ 52 : Int) ≤ t then .error (.trap 4 0 (s.hart.pc.setWidth 64))
  else .ok (s.setHart { s.hart with pc := BitVec.ofInt 52 t })

/-- A branch that is not taken continues sequentially (R98, R100). -/
def fallThrough (s : State) : M State := do
  seqCheck s
  .ok s.advance

def branch2 (s : State) (ra rb : Src) (off : BitVec 12) (c : Word → Word → Bool) : Out :=
  complete s (do
    let a := s.reg ra.r
    let b := s.reg rb.r
    let (t, _) ← opJ s [ra, rb]
    if c a b then takeBranch t off.toInt else fallThrough t)

def branch1 (s : State) (ra : Src) (off : BitVec 17) (c : Word → Bool) : Out :=
  complete s (do
    let a := s.reg ra.r
    let (t, _) ← opJ s [ra]
    if c a then takeBranch t off.toInt else fallThrough t)

def execBeq (ra rb : Src) (off : BitVec 12) (s : State) : Out := branch2 s ra rb off (· == ·)
def execBne (ra rb : Src) (off : BitVec 12) (s : State) : Out := branch2 s ra rb off (· != ·)
def execBlt (ra rb : Src) (off : BitVec 12) (s : State) : Out := branch2 s ra rb off BitVec.slt
def execBge (ra rb : Src) (off : BitVec 12) (s : State) : Out := branch2 s ra rb off (fun a b => !a.slt b)
def execBltu (ra rb : Src) (off : BitVec 12) (s : State) : Out := branch2 s ra rb off BitVec.ult
def execBgeu (ra rb : Src) (off : BitVec 12) (s : State) : Out := branch2 s ra rb off (fun a b => !a.ult b)
def execBz (ra : Src) (off : BitVec 17) (s : State) : Out := branch1 s ra off (· == 0)
def execBnz (ra : Src) (off : BitVec 17) (s : State) : Out := branch1 s ra off (· != 0)
def execBltz (ra : Src) (off : BitVec 17) (s : State) : Out := branch1 s ra off (fun a => a.slt 0)
def execBgez (ra : Src) (off : BitVec 17) (s : State) : Out := branch1 s ra off (fun a => !a.slt 0)

/-- R99, R100: the link address, checked first and only when rd ≠ x0. -/
def linkCheck (s : State) (rd : Reg) : M Unit := if rd = 0 then .ok () else seqCheck s

/-- The link word PC + 4 (R99). -/
def linkWord (s : State) : Word := (s.hart.pc + 4).setWidth 64

def execJal (rd : Reg) (off : BitVec 21) (s : State) : Out :=
  complete s (do
    linkCheck s rd
    let t ← takeBranch s off.toInt
    .ok (t.setReg rd (linkWord s)))

def execJalr (rd : Reg) (ra : Src) (imm : BitVec 16) (s : State) : Out :=
  complete s (do
    let a := s.reg ra.r
    let (t, _) ← opJ s [ra]
    linkCheck s rd
    let n : Int := (bits a 51 0 : Int) + 4 * imm.toInt
    if n < 0 || (2 ^ 52 : Int) ≤ n then .error (.trap 4 0 a)
    else if n.toNat % 4 ≠ 0 then .error (.trap 5 2 (BitVec.ofNat 64 n.toNat))
    else
      let t := t.setReg rd (linkWord s)
      .ok (t.setHart { t.hart with pc := BitVec.ofNat 52 n.toNat }))

end Sys2Proof.Machine
end

