-- ==== Sys2Proof/Machine/RealSet.lean ====
section
/-! DEFINITION. Sets of reals (R132 to R148): atoms of a value ring, exact images under the operations, and the bounds, order, cover and code of a mask. -/

namespace Sys2Proof.Machine.RealSet

/-- An extended real; `fin n d` is n / d with d > 0. -/
inductive Ext where
  | ninf
  | fin (n : Int) (d : Nat)
  | pinf
  deriving DecidableEq, Repr

def Ext.lt : Ext → Ext → Bool
  | .ninf, .ninf => false
  | .ninf, _ => true
  | .fin _ _, .ninf => false
  | .fin a b, .fin c d => decide (a * (d : Int) < c * (b : Int))
  | .fin _ _, .pinf => true
  | .pinf, _ => false

def Ext.le (a b : Ext) : Bool := !b.lt a
def Ext.max (a b : Ext) : Ext := if a.lt b then b else a
def Ext.min (a b : Ext) : Ext := if b.lt a then b else a

/-- −1, 0 or 1. -/
def Ext.sign : Ext → Int
  | .ninf => -1
  | .pinf => 1
  | .fin n _ => if n < 0 then -1 else if n = 0 then 0 else 1

def Ext.ofSign (s : Int) : Ext := if s < 0 then .ninf else if s = 0 then .fin 0 1 else .pinf

/-- The corner product, with 0 × ∞ read as 0. -/
def Ext.mul : Ext → Ext → Ext
  | .fin a b, .fin c d => .fin (a * c) (b * d)
  | a, b => Ext.ofSign (a.sign * b.sign)

/-- The sum of two ends of one side; a infinite end absorbs. -/
def Ext.add : Ext → Ext → Ext
  | .fin a b, .fin c d => .fin (a * (d : Int) + c * (b : Int)) (b * d)
  | .ninf, _ => .ninf
  | .pinf, _ => .pinf
  | _, b => b

def Ext.neg : Ext → Ext
  | .ninf => .pinf
  | .pinf => .ninf
  | .fin n d => .fin (-n) d

/-- 1 / x for a non-zero end; a zero end gives `z`, an infinite end 0. -/
def Ext.recip (x z : Ext) : Ext :=
  match x with
  | .ninf | .pinf => .fin 0 1
  | .fin n d => if n = 0 then z else if n < 0 then .fin (-(d : Int)) n.natAbs else .fin d n.natAbs

/-- An interval of reals: its ends, and whether each belongs to it. -/
structure Iv where
  lo : Ext
  loIn : Bool
  hi : Ext
  hiIn : Bool
  deriving DecidableEq, Repr

/-- An image on the projective line (R136). -/
structure Image where
  whole : Bool := false
  inf : Bool := false
  ivs : List Iv := []
  deriving DecidableEq, Repr

def Image.line : Image := { whole := true }
def Image.infinity : Image := { inf := true }

/-- A finite FP64 value as an extended real. -/
def extOf (v : FpVal) : Ext :=
  match v with
  | .zero _ => .fin 0 1
  | .fin n m e =>
    let k : Int := if n then -(m : Int) else m
    if 0 ≤ e then .fin (k * 2 ^ e.toNat) 1 else .fin k (2 ^ (-e).toNat)
  | .inf n => if n then .ninf else .pinf
  | .nan _ => .fin 0 1

/-- A loaded ring (R132): its finite points as FP64 bit patterns, in increasing order. -/
abbrev Points := List Word

def width (ps : Points) : Nat := 2 * (ps.length + 1)

/-- Point j, with p0 read as −∞ and pn as +∞. -/
def pointExt (ps : Points) (j : Nat) : Ext :=
  if j = 0 then .ninf
  else match ps[j - 1]? with
    | some w => extOf (fp64F.decode w.toNat)
    | none => .pinf

/-- The reals of an atom: none for atom 0, which is ∞ (R132). -/
def atomIv (ps : Points) (a : Nat) : Option Iv :=
  if a = 0 then none
  else if a % 2 = 0 then some ⟨pointExt ps (a / 2), true, pointExt ps (a / 2), true⟩
  else some ⟨pointExt ps (a / 2), false, pointExt ps (a / 2 + 1), false⟩

def Iv.isPoint (i : Iv) : Bool := i.loIn && i.hiIn
def Iv.hasZero (i : Iv) : Bool :=
  (i.isPoint && i.lo.sign == 0) || (i.lo.sign == -1 && i.hi.sign == 1)

/-- Two intervals of which each is a point or open share a value; `[0, h)` of a square counts as its interior and 0. -/
def Iv.meets (i j : Iv) : Bool :=
  let lo := i.lo.max j.lo
  let hi := i.hi.min j.hi
  lo.lt hi ||
    (lo.le hi && hi.le lo &&
      (i.lo.lt lo || i.loIn) && (hi.lt i.hi || i.hiIn) && (j.lo.lt lo || j.loIn) && (hi.lt j.hi || j.hiIn))

/-- The atoms that meet an image, as a mask (R136). -/
def Image.mask (ps : Points) (im : Image) : Nat :=
  if im.whole then 2 ^ width ps - 1
  else (List.range (width ps)).foldl (fun acc a =>
    let hit : Bool := match atomIv ps a with
      | none => im.inf
      | some v => im.ivs.any v.meets
    if hit then acc + 2 ^ a else acc) 0

def addIv (i j : Iv) : Iv :=
  let c := i.isPoint && j.isPoint
  ⟨i.lo.add j.lo, c, i.hi.add j.hi, c⟩

def negIv (i : Iv) : Iv := ⟨i.hi.neg, i.hiIn, i.lo.neg, i.loIn⟩

def mulIv (i j : Iv) : Iv :=
  let c := (i.isPoint && j.isPoint) || (i.isPoint && i.lo.sign == 0) || (j.isPoint && j.lo.sign == 0)
  let a := i.lo.mul j.lo
  let b := i.lo.mul j.hi
  let d := i.hi.mul j.lo
  let e := i.hi.mul j.hi
  ⟨(a.min b).min (d.min e), c, (a.max b).max (d.max e), c⟩

/-- 1 / y for an interval that does not contain 0: a zero end is infinite on the interval's own side. -/
def recipIv (j : Iv) : Iv := ⟨j.hi.recip .ninf, j.hiIn, j.lo.recip .pinf, j.loIn⟩

def zeroPoint : Iv := ⟨.fin 0 1, true, .fin 0 1, true⟩

/-- The pieces of 1 / y, and ∞ when y contains 0. -/
def recipImage (j : Iv) : Image :=
  if j.isPoint && j.lo.sign == 0 then Image.infinity
  else if j.hasZero then
    { inf := true
      ivs := [recipIv ⟨j.lo, false, .fin 0 1, false⟩, recipIv ⟨.fin 0 1, false, j.hi, false⟩] }
  else { ivs := [recipIv j] }

/-- The binary operations with tables. -/
inductive BinOp where
  | add | sub | mul | div
  deriving DecidableEq, Repr

inductive UnOp where
  | neg | inv | sq
  deriving DecidableEq, Repr

/-- R136: the image of an atom pair; `none` is the point ∞. -/
def imageBin (op : BinOp) (x y : Option Iv) : Image :=
  match op, x, y with
  | .add, none, none | .sub, none, none => Image.line
  | .add, none, some _ | .add, some _, none | .sub, none, some _ | .sub, some _, none => Image.infinity
  | .add, some i, some j => { ivs := [addIv i j] }
  | .sub, some i, some j => { ivs := [addIv i (negIv j)] }
  | .mul, none, none => Image.infinity
  | .mul, none, some j | .mul, some j, none => if j.hasZero then Image.line else Image.infinity
  | .mul, some i, some j => { ivs := [mulIv i j] }
  | .div, none, none => Image.line
  | .div, none, some _ => Image.infinity
  | .div, some _, none => { ivs := [zeroPoint] }
  | .div, some i, some j =>
    if i.hasZero && j.hasZero then Image.line
    else
      let r := recipImage j
      { r with ivs := r.ivs.map (mulIv i) }

/-- The square of an interval. -/
def sqIv (i : Iv) : Iv :=
  let a := i.lo.mul i.lo
  let b := i.hi.mul i.hi
  if i.hasZero then ⟨.fin 0 1, true, a.max b, i.isPoint⟩ else ⟨a.min b, i.isPoint, a.max b, i.isPoint⟩

/-- R136: the image of one atom under a unary operation. -/
def imageUn (op : UnOp) (x : Option Iv) : Image :=
  match op, x with
  | .neg, none | .sq, none => Image.infinity
  | .inv, none => { ivs := [zeroPoint] }
  | .neg, some i => { ivs := [negIv i] }
  | .sq, some i => { ivs := [sqIv i] }
  | .inv, some i => recipImage i

/-- The atoms of a mask. -/
def atomsOf (ps : Points) (x : Nat) : List Nat :=
  (List.range (width ps)).filter (fun a => x / 2 ^ a % 2 == 1)

/-- R137. -/
def binary (ps : Points) (op : BinOp) (x y : Nat) : Nat :=
  (atomsOf ps x).foldl (fun acc a =>
    (atomsOf ps y).foldl (fun acc b => acc ||| (imageBin op (atomIv ps a) (atomIv ps b)).mask ps) acc) 0

def unary (ps : Points) (op : UnOp) (x : Nat) : Nat :=
  (atomsOf ps x).foldl (fun acc a => acc ||| (imageUn op (atomIv ps a)).mask ps) 0

/-- R143: a value, already read under R102, as a set. -/
def ofVal (ps : Points) (v : FpVal) : Nat :=
  match v with
  | .nan _ => 2 ^ width ps - 1
  | .inf _ => 1
  | v => ({ ivs := [⟨extOf v, true, extOf v, true⟩] } : Image).mask ps

/-- R144: a closed interval as a set. -/
def ofInterval (ps : Points) (lo hi : FpVal) : Nat :=
  if lo.isNan || hi.isNan then 2 ^ width ps - 1
  else
    let l := extOf lo
    let h := extOf hi
    let isInf (v : FpVal) : Bool := match v with | .inf _ => true | _ => false
    let fin (e : Ext) : Bool := match e with | .fin _ _ => true | _ => false
    let ivs : List Iv :=
      if l.le h then [⟨l, fin l, h, fin h⟩]
      else [⟨l, fin l, .pinf, false⟩, ⟨.ninf, false, h, fin h⟩]
    let single := isInf lo && l == h
    ({ inf := isInf lo || isInf hi || h.lt l
       ivs := if single then [] else ivs } : Image).mask ps

/-- R145: the lower and upper bound of a set, as FP64 bits. -/
def bound (ps : Points) (upper : Bool) (x : Nat) : Nat :=
  let w := width ps
  match atomsOf ps x with
  | [] => fp64F.nanCode
  | a :: rest =>
    if a = 0 then fp64F.infCode (!upper)
    else if upper then
      let top := rest.getLastD a
      if top = w - 1 then fp64F.infCode false
      else (ps.getD ((top + 1) / 2 - 1) 0).toNat
    else if a = 1 then fp64F.infCode true
    else (ps.getD (a / 2 - 1) 0).toNat

/-- R146. -/
def less (ps : Points) (x y : Nat) : Nat :=
  let xs := atomsOf ps x
  let ys := atomsOf ps y
  if xs.isEmpty || ys.isEmpty then 2
  else
    let isLess (a b : Nat) : Bool := a != 0 && b != 0 && decide (a < b)
    let notLess (a b : Nat) : Bool := a == 0 || b == 0 || decide (b < a) || (a == b && a % 2 == 0)
    if xs.all (fun a => ys.all (isLess a)) then 1
    else if xs.all (fun a => ys.all (notLess a)) then 0
    else 2

/-- The length of the run of absent atoms that starts at `a`, going round. -/
def gapFrom (x w : Nat) : Nat → Nat → Nat
  | _, 0 => 0
  | a, k + 1 => if x / 2 ^ (a % w) % 2 == 1 then 0 else 1 + gapFrom x w (a + 1) k

/-- R147: the smallest covering arc, as start and length; length 0 is the empty set. -/
def cover (ps : Points) (x : Nat) : Nat × Nat :=
  let w := width ps
  let x := x % 2 ^ w
  if x = 0 then (1, 0)
  else if x = 2 ^ w - 1 then (0, w)
  else
    -- the covers: each starts at a present atom whose predecessor ends a gap
    let cands := (List.range w).filterMap (fun st =>
      if x / 2 ^ st % 2 == 1 && x / 2 ^ ((st + w - 1) % w) % 2 == 0 then
        let g := (List.range w).foldl (fun acc k =>
          if acc.2 && x / 2 ^ ((st + w - 1 - k) % w) % 2 == 0 then (acc.1 + 1, true) else (acc.1, false)) (0, true)
        some (st, g.1)
      else none)
    let best := cands.foldl (fun (acc : Nat × Nat) c => if acc.2 < c.2 then c else acc) (0, 0)
    (best.1, w - best.2)

/-- The mask of an arc of atoms (R132). -/
def arcMask (ps : Points) (st len : Nat) : Nat :=
  (List.range len).foldl (fun acc k => acc ||| 2 ^ ((st + k) % width ps)) 0

def connected (ps : Points) (x : Nat) : Nat :=
  let c := cover ps x
  arcMask ps c.1 c.2

/-- The number of present atoms. -/
def card (ps : Points) (x : Nat) : Nat := (atomsOf ps x).length

/-- R148: the code width that fits a ring: 8, 10 or 12 bits. -/
def codeWidth (ps : Points) : Nat := if ps.length = 7 then 8 else if ps.length = 15 then 10 else 12

/-- R148: the code of a set, and whether the cover is larger than the set. -/
def compress (ps : Points) (x : Nat) : Nat × Bool :=
  let k := codeWidth ps / 2
  let c := cover ps x
  if c.2 = 0 then ((2 ^ k - 1) * 2 ^ k + 1, false)
  else ((c.2 - 1) * 2 ^ k + c.1, decide (card ps x < c.2))

/-- R148: the mask of a code. -/
def expand (ps : Points) (code : Nat) : Nat :=
  let w := width ps
  let k := codeWidth ps / 2
  let st := code % 2 ^ k
  let len := code / 2 ^ k % 2 ^ k + 1
  if len = 2 ^ k then (if st = 0 then 2 ^ w - 1 else 0) else arcMask ps (st % w) len

/-- R134, R138: the points are finite and strictly increasing. -/
def pointsOk (ps : Points) : Bool :=
  let vs := ps.map (fun w => fp64F.decode w.toNat)
  vs.all (fun v => match v with | .zero _ | .fin .. => true | _ => false) &&
    (vs.zip (vs.drop 1)).all (fun p => p.1.lt p.2)

/-- −0 is read as 0 (R134). -/
def normPoint (w : Word) : Word := if w.toNat % 2 ^ 63 = 0 then 0 else w

end Sys2Proof.Machine.RealSet
end

