-- ==== Sys2Proof/Machine/Sfn.lean ====
section
/-! DEFINITION. The special functions of R113 and R114, correctly rounded: each is computed in fixed point with 800 fraction bits, far past the point where an FP32 result (or the FP64 −ln U of R131) can be in doubt, and rounded once. -/

namespace Sys2Proof.Machine

namespace Sfn

/-- Fraction bits of the working precision. -/
def P : Nat := 800

def one : Int := 2 ^ P

def mulF (a b : Int) : Int := a * b / one

def divF (a b : Int) : Int := a * one / b

/-- Σ 1/((2i+1) d^(2i+1)), alternating in sign when `alt`: atan(1/d) or atanh(1/d). -/
def invSeries (alt : Bool) (d : Int) : Nat → Nat → Int → Int → Int
  | 0, _, _, acc => acc
  | k + 1, i, p, acc =>
    let t := p / ((2 * i + 1 : Nat) : Int)
    invSeries alt d k (i + 1) (p / (d * d)) (if alt && i % 2 == 1 then acc - t else acc + t)

def ln2 : Int := 2 * invSeries false 3 280 0 (one / 3) 0

def pi : Int := 16 * invSeries true 5 200 0 (one / 5) 0 - 4 * invSeries true 239 60 0 (one / 239) 0

/-- Σ r^n / n!, from the term `t` of index `n`. -/
def expSeries (r : Int) : Nat → Nat → Int → Int → Int
  | 0, _, _, acc => acc
  | k + 1, n, t, acc => expSeries r k (n + 1) (mulF t r / ((n + 1 : Nat) : Int)) (acc + t)

/-- A value in units of 2^−800. -/
def fixed (x : Exact) : Int := x.scaled (-(P : Int))

/-- e^X for X in units of 2^−800: (F, k) with e^X = F × 2^(k − 800), F between 2^800 and 2^801. -/
def expF (x : Int) : Int × Int :=
  let k := x / ln2
  (expSeries (x - k * ln2) 170 0 one 0, k)

/-- Odd series of atanh: 2 Σ z^(2i+1)/(2i+1). -/
def atanhSeries (z2 : Int) : Nat → Nat → Int → Int → Int
  | 0, _, _, acc => 2 * acc
  | k + 1, i, p, acc => atanhSeries z2 k (i + 1) (mulF p z2) (acc + p / ((2 * i + 1 : Nat) : Int))

/-- ln of a positive m × 2^e, in units of 2^−800. -/
def lnF (m : Nat) (e : Int) : Int :=
  let l := floorLog2 m
  let t : Int := (m : Int) * one / ((2 ^ l : Nat) : Int)
  let z := divF (t - one) (t + one)
  (e + l) * ln2 + atanhSeries (mulF z z) 280 0 z 0

def sinSeries (r2 : Int) : Nat → Nat → Int → Int → Int
  | 0, _, _, acc => acc
  | k + 1, n, t, acc => sinSeries r2 k (n + 2) (-(mulF t r2) / (((n + 1) * (n + 2) : Nat) : Int)) (acc + t)

/-- sin r and cos r for r between 0 and π/2. -/
def sinF (r : Int) : Int := sinSeries (mulF r r) 110 1 r 0
def cosF (r : Int) : Int := sinSeries (mulF r r) 110 0 one 0

/-- sin X, or cos X when `c`, for any X in units of 2^−800. -/
def sinCos (c : Bool) (x : Int) : Int :=
  let h := pi / 2
  let k := x / h + (if c then 1 else 0)
  let r := x - (x / h) * h
  match (k % 4).toNat, c with
  | 0, false => sinF r
  | 1, false => cosF r
  | 2, false => -sinF r
  | _, false => -cosF r
  | 1, true => cosF r
  | 2, true => -sinF r
  | 3, true => -cosF r
  | _, true => sinF r

def sqrtF (v : Int) : Int := ((isqrt (v * one).toNat : Nat) : Int)

def atanSeries (z2 : Int) : Nat → Nat → Int → Int → Int
  | 0, _, _, acc => acc
  | k + 1, i, p, acc =>
    let t := p / ((2 * i + 1 : Nat) : Int)
    atanSeries z2 k (i + 1) (mulF p z2) (if i % 2 = 1 then acc - t else acc + t)

def halveAtan (y : Int) : Int := divF y (one + sqrtF (one + mulF y y))

/-- atan y for y between 0 and 1. -/
def atanUnit (y : Int) : Int :=
  let z := halveAtan (halveAtan (halveAtan y))
  8 * atanSeries (mulF z z) 140 0 z 0

/-- Σ (−1)^n x^(2n+1) / (n! (2n+1)); `t` is x^(2n+1) / n!. -/
def erfSeries (x2 : Int) : Nat → Nat → Int → Int → Int
  | 0, _, _, acc => acc
  | k + 1, n, t, acc =>
    let u := t / ((2 * n + 1 : Nat) : Int)
    erfSeries x2 k (n + 1) (mulF t x2 / ((n + 1 : Nat) : Int)) (if n % 2 = 1 then acc - u else acc + u)

def erfF (x : Int) : Int := divF (2 * erfSeries (mulF x x) 420 0 x 0) (sqrtF pi)

/-- An inexact magnitude from a fixed-point value. -/
def approx (neg : Bool) (v : Int) : Exact := ⟨neg != decide (v < 0), v.natAbs, -(P : Int), true⟩

/-- Just below 1; the result rounds to 1. -/
def belowOne (neg : Bool) : Exact := ⟨neg, 2 ^ 100 - 1, -100, true⟩

/-- A magnitude too small, or too large, for any FP32 value. -/
def tiny (neg : Bool) : Exact := ⟨neg, 1, -600, true⟩
def huge (neg : Bool) : Exact := ⟨neg, 1, 600, true⟩

/-- e^x as an exact-with-sticky magnitude, for x finite and not zero. -/
def expExact (x : Exact) : Exact :=
  if 512 * one < fixed x then huge false
  else if fixed x < -(512 * one) then tiny false
  else let (f, k) := expF (fixed x); ⟨false, f.natAbs, k - P, true⟩

/-- The value of x is an integer. -/
def isIntegral (m : Nat) (e : Int) : Bool := decide (0 ≤ e) || m % 2 ^ (-e).toNat == 0

def exp2Exact (n : Bool) (m : Nat) (e : Int) : Exact :=
  let x : Exact := ⟨n, m, e, false⟩
  if 512 * one < fixed x then huge false
  else if fixed x < -(512 * one) then tiny false
  else
    let k := fixed x / one
    if isIntegral m e then ⟨false, 1, k, false⟩
    else ⟨false, (expSeries (mulF (fixed x - k * one) ln2) 170 0 one 0).natAbs, k - P, true⟩

/-- 1/√(m × 2^e). -/
def rsqrtExact (m : Nat) (e : Int) : Exact :=
  let par : Nat := if e % 2 = 0 then 0 else 1
  let q := 2 ^ (600 + par) / m
  let r := isqrt q
  ⟨false, r, (-e - 600 - par) / 2, r * r * m != 2 ^ (600 + par)⟩

/-- 1/(1 + e^−x) for x finite and not zero. -/
def sigmoidExact (x : Exact) : Exact :=
  if 256 * one < fixed x then belowOne false
  else if fixed x < -(256 * one) then tiny false
  else
    let (f, k) := expF (fixed x)
    let num := f.natAbs * 2 ^ k.toNat
    let den := 2 ^ P * 2 ^ (-k).toNat + num
    ⟨false, num * 2 ^ P / den, -(P : Int), true⟩

def tanhExact (n : Bool) (m : Nat) (e : Int) : Exact :=
  let x : Exact := ⟨false, m, e, false⟩
  if 64 * one < fixed x then belowOne n
  else
    let (f, k) := expF (2 * fixed x)
    let big := f * 2 ^ k.toNat
    approx n (divF (big - one) (big + one))

def atanExact (n : Bool) (m : Nat) (e : Int) : Exact :=
  let x := fixed ⟨false, m, e, false⟩
  if x ≤ one then approx n (atanUnit x)
  else approx n (pi / 2 - atanUnit (divF one x))

def erfExact (n : Bool) (m : Nat) (e : Int) : Exact :=
  let x := fixed ⟨false, m, e, false⟩
  if 8 * one < x then belowOne n else approx n (erfF x)

/-- R113, R114: the result of one special function on a decoded FP32 operand, and its flags. The result is rounded
RNE to FP32 under the result-flush bit `flush`. -/
def result (fn : SfnFn) (flush : Bool) (a : FpVal) : Nat × FpFlags :=
  let f := fp32F
  let r := fun x => roundTo f .rne flush x
  match a with
  | .nan s => (f.nanCode, { nv := s })
  | .zero n =>
    match fn with
    | .exp | .exp2 | .cos => (0x3F800000, {})
    | .log | .log2 => (f.infCode true, { dz := true })
    | .rcp | .rsqrt => (f.infCode n, { dz := true })
    | .sin | .tanh | .erf | .atan => (f.signBit n, {})
    | .sigmoid => (0x3F000000, {})
  | .inf n =>
    match fn with
    | .exp | .exp2 => (if n then 0 else f.infCode false, {})
    | .log | .log2 => if n then (f.nanCode, FpFlags.invalid) else (f.infCode false, {})
    | .rcp => (f.signBit n, {})
    | .rsqrt => if n then (f.nanCode, FpFlags.invalid) else (0, {})
    | .sin | .cos => (f.nanCode, FpFlags.invalid)
    | .tanh | .erf => (f.signBit n + 0x3F800000, {})
    | .sigmoid => (if n then 0 else 0x3F800000, {})
    | .atan => r (approx n (pi / 2))
  | .fin n m e =>
    match fn with
    | .exp => r (expExact ⟨n, m, e, false⟩)
    | .exp2 => r (exp2Exact n m e)
    | .log => if n then (f.nanCode, FpFlags.invalid)
        else if m = 2 ^ floorLog2 m ∧ e + floorLog2 m = 0 then (0, {}) else r (approx false (lnF m e))
    | .log2 => if n then (f.nanCode, FpFlags.invalid)
        else if m = 2 ^ floorLog2 m then intToFp f .rne flush (e + floorLog2 m) else r (approx false (divF (lnF m e) ln2))
    | .rcp => r { exactDiv ⟨false, 1, 0, false⟩ ⟨false, m, e, false⟩ with neg := n }
    | .rsqrt => if n then (f.nanCode, FpFlags.invalid) else r (rsqrtExact m e)
    | .sin => r (approx false (sinCos false (fixed ⟨n, m, e, false⟩)))
    | .cos => r (approx false (sinCos true (fixed ⟨n, m, e, false⟩)))
    | .tanh => r (tanhExact n m e)
    | .sigmoid => r (sigmoidExact ⟨n, m, e, false⟩)
    | .erf => r (erfExact n m e)
    | .atan => r (atanExact n m e)

/-- R131: E = −ln U with U = (m + ½) × 2^−53, correctly rounded to FP64. -/
def negLogU (m : Nat) : Nat := (roundTo fp64F .rne false (approx false (-(lnF (2 * m + 1) (-54))))).1

end Sfn

end Sys2Proof.Machine
end

