-- ==== Sys2Proof/Machine/Fpu.lean ====
section
/-! DEFINITION. The scalar floating-point instructions (R101 to R112) and the special-function call (R113, R114). -/

namespace Sys2Proof.Machine

/-- The mode of an instruction, with the random word of R103 from its raw sources. -/
def scalarMode (s : State) (i : Instr) (rnd : Rnd) (a b c : Word) : RMode :=
  roundMode s.hart rnd (srScalar s.seed a b c i.word)

/-- A two-operand floating-point form. -/
def fpBinary (i : Instr) (rnd : Rnd) (f : Fmt) (rd : Reg) (ra rb : Src) (s : State)
    (op : FpFmt → RMode → Bool → FpVal → FpVal → Nat × FpFlags) : Out :=
  complete s (do
    let (t, a, b) ← op2 s ra rb
    .ok (writeFp t rd (op (fmtOf f) (scalarMode s i rnd a b 0) (s.resFlush f) (s.fpOperand f a) (s.fpOperand f b))))

/-- A one-operand floating-point form: the b and the c of its SR key are 0 (R103, log entry 82). -/
def fpUnary (i : Instr) (rnd : Rnd) (f : Fmt) (rd : Reg) (ra : Src) (s : State)
    (op : FpFmt → RMode → Bool → FpVal → Nat × FpFlags) : Out :=
  complete s (do
    let (t, a) ← op1 s ra
    .ok (writeFp t rd (op (fmtOf f) (scalarMode s i rnd a 0 0) (s.resFlush f) (s.fpOperand f a))))

/-- A form that reads rd as the addend (R106). -/
def fpTernary (i : Instr) (rnd : Rnd) (f : Fmt) (rd : Reg) (ra rb : Src) (s : State) (minus : Bool) : Out :=
  complete s (do
    let (t, c, a, b) ← op2d s rd ra rb
    let cv := s.fpOperand f c
    .ok (writeFp t rd (fpFma (fmtOf f) (scalarMode s i rnd a b c) (s.resFlush f) (s.fpOperand f a) (s.fpOperand f b)
      (if minus then cv.negate else cv))))

def execFadd (rnd : Rnd) (f : Fmt) (rd : Reg) (ra rb : Src) (s : State) : Out :=
  fpBinary (.fadd rnd f rd ra rb) rnd f rd ra rb s fpAdd
def execFsub (rnd : Rnd) (f : Fmt) (rd : Reg) (ra rb : Src) (s : State) : Out :=
  fpBinary (.fsub rnd f rd ra rb) rnd f rd ra rb s (fun g m fl a b => fpAdd g m fl a b.negate)
def execFmul (rnd : Rnd) (f : Fmt) (rd : Reg) (ra rb : Src) (s : State) : Out :=
  fpBinary (.fmul rnd f rd ra rb) rnd f rd ra rb s fpMul
def execFdiv (rnd : Rnd) (f : Fmt) (rd : Reg) (ra rb : Src) (s : State) : Out :=
  fpBinary (.fdiv rnd f rd ra rb) rnd f rd ra rb s fpDiv
def execFmin (rnd : Rnd) (f : Fmt) (rd : Reg) (ra rb : Src) (s : State) : Out :=
  fpBinary (.fmin rnd f rd ra rb) rnd f rd ra rb s (fun g _ _ a b => fpMinMax g false a b)
def execFmax (rnd : Rnd) (f : Fmt) (rd : Reg) (ra rb : Src) (s : State) : Out :=
  fpBinary (.fmax rnd f rd ra rb) rnd f rd ra rb s (fun g _ _ a b => fpMinMax g true a b)
def execFma (rnd : Rnd) (f : Fmt) (rd : Reg) (ra rb : Src) (s : State) : Out :=
  fpTernary (.fma rnd f rd ra rb) rnd f rd ra rb s false
def execFms (rnd : Rnd) (f : Fmt) (rd : Reg) (ra rb : Src) (s : State) : Out :=
  fpTernary (.fms rnd f rd ra rb) rnd f rd ra rb s true
def execFsqrt (rnd : Rnd) (f : Fmt) (rd : Reg) (ra : Src) (s : State) : Out :=
  fpUnary (.fsqrt rnd f rd ra) rnd f rd ra s fpSqrt
def execFround (rnd : Rnd) (f : Fmt) (rd : Reg) (ra : Src) (s : State) : Out :=
  fpUnary (.fround rnd f rd ra) rnd f rd ra s fpRound

/-- R108: fneg inverts the sign bit, with no flush and no flag. -/
def execFneg (f : Fmt) (rd : Reg) (ra : Src) (s : State) : Out :=
  unary s rd ra (fun a => BitVec.ofNat 64 (fpBits f a ^^^ 2 ^ ((fmtOf f).width - 1)))
/-- R108: fabs clears the sign bit. -/
def execFabs (f : Fmt) (rd : Reg) (ra : Src) (s : State) : Out :=
  unary s rd ra (fun a => BitVec.ofNat 64 (fpBits f a % 2 ^ ((fmtOf f).width - 1)))
/-- R108: the class word. -/
def execFclass (f : Fmt) (rd : Reg) (ra : Src) (s : State) : Out :=
  unary s rd ra (fun a => BitVec.ofNat 64 (fpClass (fmtOf f) (s.opFlush f) (fpBits f a)))

/-- R110. -/
def execFcmp (f : Fmt) (p : FPred) (rd : Reg) (ra rb : Src) (s : State) : Out :=
  complete s (do
    let (t, a, b) ← op2 s ra rb
    let r := fpCmp p (s.fpOperand f a) (s.fpOperand f b)
    .ok (writeFp t rd (b2n r.1, r.2)))

/-- The floating-point format of an fcvt type. -/
def cvtFmt : CvtTy → Option Fmt
  | .d => some .fp64 | .s => some .fp32 | .h => some .fp16 | .bf => some .bf16 | _ => none

/-- The least and the greatest value of an fcvt integer type. -/
def cvtRange : CvtTy → Int × Int
  | .l => (-(2 ^ 63), 2 ^ 63 - 1)
  | .lu => (0, 2 ^ 64 - 1)
  | .w => (-(2 ^ 31), 2 ^ 31 - 1)
  | _ => (0, 2 ^ 32 - 1)

/-- The value of an fcvt integer source (R111). -/
def cvtIntOf (t : CvtTy) (a : Word) : Int :=
  match t with
  | .l => a.toInt
  | .lu => a.toNat
  | .w => sval a.toNat 32
  | _ => (a.toNat % 2 ^ 32 : Nat)

/-- R111: the conversion's result and flags. -/
def cvtResult (s : State) (mode : RMode) (dst src : CvtTy) (a : Word) : Nat × FpFlags :=
  match cvtFmt dst, cvtFmt src with
  | some g, some f => fpToFp (fmtOf g) mode (s.resFlush g) (s.fpOperand f a)
  | some g, none => intToFp (fmtOf g) mode (s.resFlush g) (cvtIntOf src a)
  | none, some f =>
    let r := fpToInt mode (cvtRange dst).1 (cvtRange dst).2 (s.fpOperand f a)
    ((r.1 % 2 ^ 64).toNat, r.2)
  | none, none => (0, {})

def execFcvt (rnd : Rnd) (dst src : CvtTy) (rd : Reg) (ra : Src) (s : State) : Out :=
  complete s (do
    let (t, a) ← op1 s ra
    .ok (writeFp t rd (cvtResult s (scalarMode s (.fcvt rnd dst src rd ra) rnd a 0 0) dst src a)))

/-- R113, R114: the result of a special function. -/
def sfnValue (s : State) (fn : SfnFn) (a : Word) : Nat × FpFlags :=
  Sfn.result fn (s.resFlush .fp32) (s.fpOperand .fp32 a)

/-- R113: sfn sends its request and the thread issues nothing further until SFN_RESULT brings the result. A service core
has no special-function unit beside it and takes the result at once (log entry 22). -/
def execSfn (fn : SfnFn) (rd : Reg) (ra : Src) (s : State) : Out :=
  complete s (do
    let (t, a) ← op1 s ra
    let r := sfnValue s fn a
    match s.cur with
    | .svc _ => .ok (writeFp t rd r)
    | .thread tid =>
      .ok ((t.modThread tid (fun x => { x with park := .result false rd (BitVec.ofNat 64 r.1) r.2.toBits })).post
        (.sfnResult tid)))

/-- R113, R149: a result returns to its thread's slot: rd and the flags are written, and the thread goes on. While the thread's device has
stopped, the result waits (R395). -/
def deliverResult (s : State) (rset : Bool) (t : Nat) : State :=
  match s.threads.get t with
  | some x =>
    match x.park with
    | .result k rd v fl =>
      if k = rset then
        if !coreWorks s x.core then s.post (if rset then .realSetResult t else .sfnResult t)
        else
        let h := (x.hart.setReg rd v).orFlags fl
        s.setThread t { x with hart := { h with pc := h.pc + 4 }, park := .none, held := requested s x }
      else s
    | _ => s
  | none => s

/-- SFN_RESULT (R113, R376). -/
def execSfnResult (t : Nat) (s : State) : Out := .next (deliverResult s false t)

end Sys2Proof.Machine
end

