-- ==== Sys2Proof/Machine/Mem.lean ====
section
/-! DEFINITION. Loads, stores and prefetch (R90 to R97), the memory-level instructions (R232, R242, R245, R248), fences, acquire loads and release stores (R200, R201), atomics (R202 to R207), futures (R218 to R220) and pause (R221). -/

namespace Sys2Proof.Machine

/-- The end of a memory access: the next one may move the thread again (R172). -/
def doneMem (s : State) : State := (s.modCur (fun t => { t with moved := false })).advance

/-- R91, R92: q = 3 reaches near space only. -/
def nearOnly (q : Qual) (ea : Nat) : M Unit :=
  if q = .near && !isNear ea then .error (accessFault 2 ea) else .ok ()

/-- A place for a scalar access: the page faults, the wait of R239 and the move of R172. -/
def placeMem (s : State) (acc : Acc) (ea : Nat) : M (State × Place) := do
  let (s, p) ← place s s.ctx acc ea
  openFrame s p.key
  let s ← moveFirst s p
  .ok (s, p)

/-- The load itself, performed now, or later when the schedule `defer` holds it back (R190, log entry 8); the thread's earlier
accesses of an overlapping byte come first. -/
def loadInto (s : State) (p : Place) (plain : Bool) (size : Nat) (signed : Bool) (rd : Reg) : State :=
  match s.cur, s.curThread with
  | .thread tid, some x =>
    let s := beforeLoad s p.key size
    let later := s.defer.headD false
    let s := { s with defer := s.defer.tail }
    if later then
      (s.modThread tid (fun t => { t with loads := t.loads ++ [⟨rd, p.key, size, signed, plain && !p.near && !p.ms⟩] })).post
        (.accessPerformed tid (x.pending.length + x.loads.length))
    else
      let r := loadBytes s p plain size
      r.1.setReg rd (extend signed size (leVal r.2))
  | _, _ =>
    let r := loadBytes s p plain size
    r.1.setReg rd (extend signed size (leVal r.2))

/-- R91. -/
def loadBody (s : State) (q : Qual) (size : Nat) (signed : Bool) (rd : Reg) (ra : Src) (off : BitVec 12) : M State := do
  let (t, a) ← op1 s ra
  let ea ← effAddr a (off.toInt * size) size
  nearOnly q ea
  let (t, p) ← placeMem t .read ea
  .ok (doneMem (loadInto t p (q == .plain) size signed rd))

/-- R92. -/
def storeBody (s : State) (q : Qual) (size : Nat) (rd ra : Src) (off : BitVec 12) : M State := do
  let (t, a, v) ← op2 s ra rd
  let ea ← effAddr a (off.toInt * size) size
  nearOnly q ea
  let (t, p) ← placeMem t .write ea
  let t ← store t p ea (leBytes size v.toNat) .plain
  .ok (doneMem t)

def execLdB (q : Qual) (rd : Reg) (ra : Src) (off : BitVec 12) (s : State) : Out := complete s (loadBody s q 1 false rd ra off)
def execLdH (q : Qual) (rd : Reg) (ra : Src) (off : BitVec 12) (s : State) : Out := complete s (loadBody s q 2 false rd ra off)
def execLdW (q : Qual) (rd : Reg) (ra : Src) (off : BitVec 12) (s : State) : Out := complete s (loadBody s q 4 false rd ra off)
def execLdD (q : Qual) (rd : Reg) (ra : Src) (off : BitVec 12) (s : State) : Out := complete s (loadBody s q 8 false rd ra off)
def execLdBS (q : Qual) (rd : Reg) (ra : Src) (off : BitVec 12) (s : State) : Out := complete s (loadBody s q 1 true rd ra off)
def execLdHS (q : Qual) (rd : Reg) (ra : Src) (off : BitVec 12) (s : State) : Out := complete s (loadBody s q 2 true rd ra off)
def execLdWS (q : Qual) (rd : Reg) (ra : Src) (off : BitVec 12) (s : State) : Out := complete s (loadBody s q 4 true rd ra off)
def execStB (q : Qual) (rd ra : Src) (off : BitVec 12) (s : State) : Out := complete s (storeBody s q 1 rd ra off)
def execStH (q : Qual) (rd ra : Src) (off : BitVec 12) (s : State) : Out := complete s (storeBody s q 2 rd ra off)
def execStW (q : Qual) (rd ra : Src) (off : BitVec 12) (s : State) : Out := complete s (storeBody s q 4 rd ra off)
def execStD (q : Qual) (rd ra : Src) (off : BitVec 12) (s : State) : Out := complete s (storeBody s q 8 rd ra off)

/-- R95: a prefetch warms the core's L1 with the line at ea, or is discarded; pf.stream warms the home slice only. -/
def prefetch (s : State) (q : Qual) (a : Word) (off : BitVec 12) : State :=
  match s.curThread, q with
  | some t, .plain =>
    match effAddr a (off.toInt * 64) 64 with
    | .ok ea =>
      if isNear ea then s
      else match place s s.ctx .read ea with
        | .ok (s', p) => if p.ms || frameBusy s' (curWaiter s) p.key then s else (l1Line s' t.core (p.key / 64)).1
        | .error _ => s
    | .error _ => s
  | _, _ => s

def execPf (q : Qual) (ra : Src) (off : BitVec 12) (s : State) : Out :=
  complete s (do
    let (t, a) ← op1 s ra
    .ok (prefetch t q a off).advance)

/-- R187, ACCESS_PERFORMED: a pending access of thread t is performed: of its stores, oldest first, and its loads after them, the
one that i names, with the stores that come before it (R190). The schedule `defer` may hold it back further. -/
def execAccessPerformed (t i : Nat) (s : State) : Out :=
  match s.threads.get t with
  | some x =>
    let n := x.pending.length + x.loads.length
    if n = 0 then .next s
    else
      let u := { s with defer := s.defer.tail }
      if s.defer.headD false then .next (u.post (.accessPerformed t (i + 1)))
      else
        let j := i % n
        match x.pending[j]? with
        | some p =>
          let r := mustGo (fun g => g.meets p.key p.bytes.length) (x.pending.take (j + 1))
          .next (performStores u t x (r.1, r.2 ++ x.pending.drop (j + 1)))
        | none =>
          let k := j - x.pending.length
          match x.loads[k]? with
          | some l => .next (performLoad t (u.setThread t { x with loads := x.loads.eraseIdx k }) l)
          | none => .next s
  | none => .next s

/-! ### Waiting on an address -/

/-- R241: the entries of the home slice that fronts a key. -/
def tableEntries (s : State) (k : Nat) : List (Nat × Wait) :=
  s.waits.filter (fun p => homeSlice p.2.key == homeSlice k && keyDev p.2.key == keyDev k)

/-- R226, R241: the HBM stack of a key. -/
def stackOf (k : Nat) : Nat := homeSlice k / 32 * 2 + homeSlice k / 16 % 2

/-- R241, R242: no entry is free for a location, or, for a memory-side line, no wake-filter line. -/
def waitFull (s : State) (p : Place) : Bool :=
  decide (256 ≤ (tableEntries s p.key).length) ||
    (p.ms &&
      let lines := ((s.waits.filter (fun e => e.2.ms && stackOf e.2.key == stackOf p.key && keyDev e.2.key == keyDev p.key)).map
        (fun e => e.2.key / 64)).eraseDups
      !(lines.contains (p.key / 64)) && decide (2048 ≤ lines.length))

/-- R242: the registers of a waita's sources that its marks end. -/
def endRegs (as : List Src) : List Reg := (as.filter (fun a => a.last)).map (fun a => a.r)

/-- The current thread's pending stores that come before an access of its to n bytes at k (R190). -/
def drainCur (s : State) (k n : Nat) (writes : Bool) : State :=
  match s.cur with
  | .thread t => drainOver s t k n writes
  | .svc _ => s

/-- Insert a wait entry (R242). -/
def insertWait (s : State) (e : Wait) : State := { s with waits := s.waits.set s.waits.fresh e }

/-- The current hart parks in the wait table with entry e. -/
def parkWait (s : State) (rd : Reg) (e : Nat) (ends : List Reg) : State :=
  match s.cur with
  | .thread t => s.modThread t (fun x => { x with park := .waita rd e ends })
  | .svc n => s.modSvc n (fun x => { x with park := .waita rd e ends })

/-- waita (R242). In H mode no address is near space, and one in the window of the scratchpads is keyed by it (R378, log entry 108). -/
def execWaita (w all : Bool) (c : WCmp) (rd : Reg) (ra rb : Src) (s : State) : Out :=
  complete s (do
    let size := if w then 4 else 8
    let (t, mk, a, v) ← op2d s rd ra rb
    let ea ← effAddr a 0 size
    if isNear ea && !s.isPhys then .error (accessFault 10 ea)
    let (t, p) ← place t t.ctx .read ea
    openFrame t p.key
    let t := drainCur t p.key size false
    let mask := mk.toNat % 2 ^ (8 * size)
    let e : Wait := ⟨p.key, size, mask, c, v.toNat % 2 ^ (8 * size), all, curWaiter s, p.ms⟩
    if e.holds t then .ok ((acquire t (homeScope t p.key)).setReg rd 0).advance
    else if waitFull t p then .ok (t.setReg rd 2).advance
    else
      -- the marks take effect when the instruction completes: a restore executes it again from its start (R244)
      let u := t.setHart { s.hart with dead := t.hart.dead }
      .ok (parkWait (insertWait u e) rd u.waits.fresh (endRegs [ra, rb])))

/-- The registers after a waita's wake: its marks, then its status (R242). -/
def waitaDone (h : Hart) (rd : Reg) (status : Nat) (ends : List Reg) : Hart :=
  let h := (ends.foldl Hart.kill h).setReg rd (BitVec.ofNat 64 status)
  { h with pc := h.pc + 4 }

/-- WAITA_WAKE (R243, R246): the woken waiter returns, with an acquire for WOKEN, and its waita has retired (R33). While its device has
stopped, it waits (R395). -/
def execWaitaWake (t : Nat) (s : State) : Out :=
  if svcKey 0 ≤ t then
    let n := t - svcKey 0
    match (s.svc n).park with
    | .woken rd st sys ends =>
      if !deviceIssues s (svcDev n) then .next (s.post (.waitaWake t))
      else
      let s := s.modSvc n (fun x => { x with park := .none, hart := waitaDone x.hart rd st ends, retired := x.retired + 1 })
      .next (if st = 1 && sys then dropSlices s (svcDev n) else s)
    | _ => .next s
  else match s.threads.get t with
    | some x =>
      match x.park with
      | .woken rd st sys ends =>
        if !coreWorks s x.core then .next (s.post (.waitaWake t))
        else
        let s := s.setThread t { x with park := .none, urgent := true, hart := waitaDone x.hart rd st ends }
        let s := s.modCore x.core (fun c => { c with retired := c.retired + 1 })
        .next (if st = 1 then acquireT s t (if sys then .sys else .dev) else s)
      | _ => .next s
    | none => .next s

/-- R245: wake the oldest entry on mem64(ea), or every one. -/
def wakeaBody (s : State) (ra : Src) (all : Bool) : M State := do
  let (t, a) ← op1 s ra
  let ea := bits a 51 3 * 8
  if isNear ea && !s.isPhys then .ok (release t).advance
  else
    let (t, p) ← place t t.ctx .read ea
    openFrame t p.key
    let t := release t
    let on := t.waits.filter (fun e => e.2.overlaps p.key 8)
    .ok (wakeAll t 1 (if all then on else on.take 1)).advance

def execWakea (ra : Src) (s : State) : Out := complete s (wakeaBody s ra false)
def execWakeaAll (ra : Src) (s : State) : Out := complete s (wakeaBody s ra true)

/-- R224: the latency class of a physical core as seen from another. -/
def nearClass (mine other : Nat) : Nat :=
  if mine = other then 0
  else if coreShed mine = coreShed other then 1
  else if shedDev (coreShed mine) ≠ shedDev (coreShed other) then 4
  else if shedYard (coreShed mine) = shedYard (coreShed other) then 2
  else 3

/-- R248: the word home writes for a near-space address. -/
def homeNear (s : State) (t : Thread) (ea : Nat) : Word :=
  match nearTarget t.coord ea with
  | none => 0
  | some (ly, ls, lc, _) =>
    match s.runs.get t.run, s.lsheds.get (lkey t.run ly ls) with
    | some r, some x =>
      if r.nly < ly || r.nls < ls || r.nlc < lc || x.released.contains lc then 0
      else
        let core := x.shed * 8 + lc
        BitVec.ofNat 64 (2 ^ 63 + 2 ^ 62 + 3 * 2 ^ 58 + nearClass t.core core * 2 ^ 53 + shedDev x.shed * 2 ^ 43 +
          shedYard x.shed * 2 ^ 41 + x.shed % 64 * 2 ^ 35 + lc * 2 ^ 30)
    | _, _ => 0

/-- R248: the word home writes for a global address under a leaf. -/
def homeGlobal (dev yard : Nat) (e : Word) (level va : Nat) : Word :=
  let pa := leafAddr e level va
  let g := homeSlice pa
  let cls := if pa / 2 ^ 39 ≠ dev then 4 else if g / 32 = yard then 2 else 3
  BitVec.ofNat 64 (2 ^ 63 + b2n (bitAt e 59) * 2 ^ 61 + b2n (bitAt e 58) * 2 ^ 60 + level * 2 ^ 58 + cls * 2 ^ 53 +
    pa / 2 ^ 39 * 2 ^ 43 + g / 32 * 2 ^ 41 + g % 32 * 2 * 2 ^ 35 + g % 32 * 2 ^ 30)

def homeWord (s : State) (ea : Nat) : Word :=
  match s.cur, s.curThread with
  | .thread _, some t =>
    if isNear ea then homeNear s t ea
    else match lookup s s.ctx .read ea with
      | (_, .leaf e l) => homeGlobal (shedDev (coreShed t.core)) (shedYard (coreShed t.core)) e l ea
      | _ => 0
  | .svc n, _ =>
    if (s.svc n).hmode then homeGlobal (svcDev n) (n / 4 % 4) (BitVec.ofNat 64 (ea % 2 ^ 49 / 2 ^ 16 * 2 ^ 16)) 0 ea
    else if isNear ea then 0
    else match lookup s s.ctx .read ea with
      | (_, .leaf e l) => homeGlobal (svcDev n) (n / 4 % 4) e l ea
      | _ => 0
  | _, _ => 0

def execHome (rd : Reg) (ra : Src) (s : State) : Out :=
  complete s (do
    let (t, a) ← op1 s ra
    .ok (writeNext t rd (homeWord t (bits a 51 0))))

/-- R232. -/
def l1invLine (s : State) (ea : Nat) : State :=
  match s.curThread with
  | some t =>
    if isNear ea then s
    else match lookup s s.ctx .read ea with
      | (s', .leaf e l) => if bitAt e 59 then s' else dropL1Line s' t.core (leafAddr e l ea / 64)
      | _ => s
  | none => s

def execL1inv (ra : Src) (s : State) : Out :=
  complete s (do
    let (t, a) ← op1 s ra
    .ok (l1invLine t (bits a 51 0)).advance)

/-! ### Fences, acquire loads and release stores -/

/-- R196, R200: a fence with a release side waits for every earlier access, and one with an acquire side alone for every earlier load. -/
def execFence (k : FenceKind) (sc : Scope) (s : State) : Out :=
  complete s (do
    let t ← sources s []
    .ok (match k with
      | .full => acquire (release t) sc
      | .rel => release t
      | .acq => acquire (loadsDone t) sc).advance)

/-- How wide a scope is (R191). -/
def Scope.rank : Scope → Nat
  | .core => 0
  | .shed => 1
  | .dev => 2
  | .sys => 3

/-- A scope of a thread contains a command's engine (R191). -/
def Scope.holds (sc : Scope) (t : Thread) (run : Nat) (c : Coord) : Bool :=
  match sc with
  | .core => t.run == run && t.coord.ly == c.ly && t.coord.ls == c.ls && t.coord.lc == c.lc
  | .shed => t.run == run && t.coord.ly == c.ly && t.coord.ls == c.ls
  | .dev => t.run == run && t.coord.ly == c.ly
  | .sys => true

/-- R199: an acquire load that reads a dword of a completion record, at a scope that contains the engine, acquires at the command's scope
too. -/
def recordScope (s : State) (sc : Scope) (k n : Nat) : Scope :=
  match s.curThread with
  | some t => s.records.foldl (fun a r =>
      if decide (r.1 < k + n) && decide (k < r.1 + 8) && Scope.holds sc t r.2.2.1 r.2.2.2 && decide (Scope.rank a < Scope.rank r.2.1) then r.2.1
      else a) sc
  | none => sc

def execLdacq (w : Bool) (sc : Scope) (rd : Reg) (ra : Src) (off : BitVec 12) (s : State) : Out :=
  complete s (do
    let size : Nat := if w then 4 else 8
    let (t, a) ← op1 s ra
    let ea ← effAddr a (off.toInt * size) size
    let (t, p) ← placeMem t .read ea
    let (t, b) := loadBytes (beforeLoad t p.key size) p false size
    .ok (doneMem ((acquire t (recordScope t sc p.key size)).setReg rd (zextN (leVal b) (8 * size)))))

def execStrel (w : Bool) (_sc : Scope) (rd ra : Src) (off : BitVec 12) (s : State) : Out :=
  complete s (do
    let size : Nat := if w then 4 else 8
    let (t, a, v) ← op2 s ra rd
    let ea ← effAddr a (off.toInt * size) size
    let (t, p) ← placeMem t .write ea
    let t ← store t p ea (leBytes size v.toNat) .release
    .ok (doneMem t))

/-! ### Atomics -/

/-- R205: the address lies in the scratchpad of the issuing thread's own logical core. -/
def ownPad (t : Thread) (ea : Nat) : Bool :=
  isNear ea && (match nearTarget t.coord ea with
    | some (ly, ls, lc, _) => ly == t.coord.ly && ls == t.coord.ls && lc == t.coord.lc
    | none => false)

/-- R205: a deterministic-mode violation. -/
def detCheck (s : State) (ea : Nat) (bad : Bool) : M Unit :=
  match s.curThread, s.curRun with
  | some t, some r => if r.det && bad && !ownPad t ea then .error (.fault 4 0 (BitVec.ofNat 64 ea)) else .ok ()
  | _, _ => .ok ()

/-- The sides of an atomic's ordering (R197). -/
def AOrd.isRel (o : AOrd) : Bool := o == .rel || o == .ar
def AOrd.isAcq (o : AOrd) : Bool := o == .acq || o == .ar

/-- The bytes of an access by a thread may be accessed later: the schedule `defer` says so, and they are in no marked range. -/
def heldBack (s : State) (p : Place) (n : Nat) : Bool :=
  match s.cur, s.curThread with
  | .thread _, some t => s.defer.headD false && !touchesMark s t.lkey p.key n
  | _, _ => false

/-- R203: the body of an atomic after its operands are read: at one instant, the old value, the write, and the old value's return.
A relaxed one of a thread is performed now, or later when `defer` holds it back (R190, R206, log entry 8). A deterministic-mode violation
comes before what its access would meet (R75, R205). -/
def atomicAt (t : State) (d : Bool) (sc : Scope) (o : AOrd) (detBad : Bool) (a : Word) (x : Atomic) : M State := do
  let size := if d then 8 else 4
  let ea ← effAddr a 0 size
  let _ ← placeAny t t.ctx .write ea
  detCheck t ea detBad
  let (t, p) ← place t t.ctx .write ea
  openFrame t p.key
  let t := if p.near then t else dropMine t p.key
  let later := o == .relaxed && heldBack t p size
  let t := if o == .relaxed && !t.isSvc then { t with defer := t.defer.tail } else t
  if later then
    .ok ((t.modCur (fun y => { y with pending := y.pending ++ [⟨p.key, List.replicate size 0, false, some x⟩] })).post
      (.accessPerformed t.curTid ((t.curThread.map (fun y => y.pending.length)).getD 0)))
  else
    let t := if AOrd.isRel o then release t else drainCur t p.key size true
    let m := t.value p.key size
    let w := x.kind.apply (8 * size) m x.v
    let t ← if w.2.1 then store t p ea (leBytes size w.1) .atOnce else .ok t
    let t := if AOrd.isAcq o then acquire t sc else t
    .ok (t.setHart (x.give (8 * size) m t.hart))

/-- An atomic with an operand. -/
def atomic (k : State → AtomKind) (ret d : Bool) (sc : Scope) (o : AOrd) (rd : Reg) (ra rb : Src) (s : State) (det : Bool) : Out :=
  complete s (do
    let (t, a, v) ← op2 s ra rb
    let t ← atomicAt t d sc o (ret || det) a ⟨k s, v.toNat % 2 ^ (if d then 64 else 32), if ret then some rd else none⟩
    .ok t.advance)

def execAadd (ret d : Bool) (sc : Scope) (o : AOrd) (rd : Reg) (ra rb : Src) (s : State) : Out :=
  atomic (fun _ => .add) ret d sc o rd ra rb s false
def execAand (ret d : Bool) (sc : Scope) (o : AOrd) (rd : Reg) (ra rb : Src) (s : State) : Out :=
  atomic (fun _ => .and) ret d sc o rd ra rb s false
def execAor (ret d : Bool) (sc : Scope) (o : AOrd) (rd : Reg) (ra rb : Src) (s : State) : Out :=
  atomic (fun _ => .or) ret d sc o rd ra rb s false
def execAxor (ret d : Bool) (sc : Scope) (o : AOrd) (rd : Reg) (ra rb : Src) (s : State) : Out :=
  atomic (fun _ => .xor) ret d sc o rd ra rb s false
def execAmin (ret d : Bool) (sc : Scope) (o : AOrd) (rd : Reg) (ra rb : Src) (s : State) : Out :=
  atomic (fun _ => .min) ret d sc o rd ra rb s false
def execAmax (ret d : Bool) (sc : Scope) (o : AOrd) (rd : Reg) (ra rb : Src) (s : State) : Out :=
  atomic (fun _ => .max) ret d sc o rd ra rb s false
def execAminu (ret d : Bool) (sc : Scope) (o : AOrd) (rd : Reg) (ra rb : Src) (s : State) : Out :=
  atomic (fun _ => .minu) ret d sc o rd ra rb s false
def execAmaxu (ret d : Bool) (sc : Scope) (o : AOrd) (rd : Reg) (ra rb : Src) (s : State) : Out :=
  atomic (fun _ => .maxu) ret d sc o rd ra rb s false
def execAswp (ret d : Bool) (sc : Scope) (o : AOrd) (rd : Reg) (ra rb : Src) (s : State) : Out :=
  atomic (fun _ => .swp) ret d sc o rd ra rb s true

def execAdecp (ret d : Bool) (sc : Scope) (o : AOrd) (rd : Reg) (ra : Src) (s : State) : Out :=
  complete s (do
    let (t, a) ← op1 s ra
    let t ← atomicAt t d sc o true a ⟨.decp, 0, if ret then some rd else none⟩
    .ok t.advance)

/-- R203: afadd rounds RNE under the run's flush bits; a .r form returns the old value zero-extended and ORs its flags. -/
def execAfadd (ret d : Bool) (sc : Scope) (o : AOrd) (rd : Reg) (ra rb : Src) (s : State) : Out :=
  atomic (fun s => .fadd (s.opFlush (if d then .fp64 else .fp32)) (s.resFlush (if d then .fp64 else .fp32))) ret d sc o rd ra rb s true

/-- R203: acas writes when the location equals rd; it always returns. -/
def execAcas (d : Bool) (sc : Scope) (o : AOrd) (rd : Reg) (ra rb : Src) (s : State) : Out :=
  complete s (do
    let n := if d then 64 else 32
    let (t, c, a, v) ← op2d s rd ra rb
    let t ← atomicAt t d sc o true a ⟨.cas (c.toNat % 2 ^ n), v.toNat % 2 ^ n, some rd⟩
    .ok t.advance)

/-! ### Futures -/

/-- The two dwords of an aligned 16-byte cell (R219): in interleaved near space they lie in two scratchpads. No thread moves for it, on a
migratory page too (log entry 96). -/
def place16 (s : State) (acc : Acc) (ea : Nat) : M (State × Place × Place) := do
  let (s, p) ← place s s.ctx acc ea
  let (s, q) ← place s s.ctx acc (ea + 8)
  openFrame s p.key
  .ok (s, p, q)

/-- R218, R219: the control dword of a cell has a reserved bit set. -/
def cellBad (c : Nat) : Bool := c / 2 % 2 ^ 31 != 0

def execFget (rd : Reg) (ra : Src) (s : State) : Out :=
  complete s (do
    needThread s (.fget rd ra)
    let (t, a) ← op1 s ra
    let ea ← effAddr a 0 16
    let (t, p, q) ← place16 t .read ea
    let t := drainCur (drainCur t p.key 8 false) q.key 8 false
    let v := t.value p.key 8
    let c := t.value q.key 8
    if cellBad c then .error (accessFault 16 ea)
    if c % 2 = 0 then .error (.trap 3 0 (BitVec.ofNat 64 ea))
    .ok ((acquire (if p.near then t else dropMine t p.key) (homeScope t p.key)).setReg rd (BitVec.ofNat 64 v)).advance)

/-- Both dwords of a cell written at one instant, logged first (R219, R326). -/
def storeCell (s : State) (p q : Place) (ea v c : Nat) : M State := do
  if q.key = p.key + 8 then store s p ea (leBytes 8 v ++ leBytes 8 c) .atOnce
  else
    let s ← store s p ea (leBytes 8 v) .atOnce
    store s q (ea + 8) (leBytes 8 c) .atOnce

def execFfill (ra rb : Src) (s : State) : Out :=
  complete s (do
    needThread s (.ffill ra rb)
    let (t, a, v) ← op2 s ra rb
    let ea ← effAddr a 0 16
    let (t, p, q) ← place16 t .write ea
    let t := release t
    let c := t.value q.key 8
    if cellBad c then .error (accessFault 16 ea)
    if c % 2 = 1 then .error (accessFault 17 ea)
    let t ← storeCell t p q ea v.toNat ((c / 2 ^ 32 + 1) % 2 ^ 32 * 2 ^ 32 + 1)
    .ok t.advance)

def execFclr (ra : Src) (s : State) : Out :=
  complete s (do
    needThread s (.fclr ra)
    let (t, a) ← op1 s ra
    let ea ← effAddr a 0 16
    let (t, p, q) ← place16 t .write ea
    let t := drainCur (drainCur t p.key 8 true) q.key 8 true
    let v := t.value p.key 8
    let c := t.value q.key 8
    if cellBad c then .error (accessFault 16 ea)
    let t ← if c % 2 = 1 then storeCell t p q ea v (c / 2 * 2) else .ok t
    .ok t.advance)

/-! ### Pause -/

/-- R221: the thread is not ready in the 32 cycles after the pause issues. -/
def execPause (s : State) : Out :=
  complete s (do
    needThread s .pause
    let t ← sources s []
    match s.cur with
    | .thread tid => .ok ((t.advance.modThread tid (fun x => { x with park := .pause (s.clock + 33) })).post (.pauseEnd tid))
    | .svc _ => .ok t.advance)

/-- PAUSE_END (R221). -/
def execPauseEnd (t : Nat) (s : State) : Out :=
  match s.threads.get t with
  | some x =>
    match x.park with
    | .pause till =>
      if till ≤ s.clock then .next (s.setThread t { x with park := .none }) else .next (s.post (.pauseEnd t))
    | _ => .next s
  | none => .next s

end Sys2Proof.Machine
end

