-- ==== Sys2Proof/Machine/Sync.lean ====
section
/-! DEFINITION. Phasers (R208 to R217) and rings (R266 to R275): the sync engine's and the ring unit's operations, and the instructions over them. -/

namespace Sys2Proof.Machine

/-- The body of an instruction that only a compute thread has: it gets the thread. -/
def onThread (s : State) (i : Instr) (f : Nat → Thread → M State) : M State := do
  needThread s i
  match s.cur, s.curThread with
  | .thread tid, some t => f tid t
  | _, _ => .ok s

def asThread (s : State) (i : Instr) (f : Nat → Thread → M State) : Out := complete s (onThread s i f)

/-- The ACCESS fault of an instruction that has no address (R356). -/
def wordFault (cause : Nat) (i : Instr) : Exc := .fault 2 cause (i.word.setWidth 64)

/-- The current thread parks and executes its instruction again when woken. -/
def parkRetry (s : State) (w : Why) : State := s.modCur (fun t => { t with park := .retry w })

/-! ### Phaser records -/

/-- R208: ph56 to ph63 are the run's. -/
def isRunPhaser (ph : Nat) : Bool := decide (56 ≤ ph)

def phGet (s : State) (run l ph : Nat) : Option Phaser :=
  if isRunPhaser ph then (match s.runs.get run with
    | some r => r.phasers.get ph
    | none => none)
  else (match s.lsheds.get l with
    | some x => x.phasers.get ph
    | none => none)

def phSet (s : State) (run l ph : Nat) (p : Phaser) : State :=
  if isRunPhaser ph then s.modRun run (fun r => { r with phasers := r.phasers.set ph p })
  else s.modLShed l (fun x => { x with phasers := x.phasers.set ph p })

def phErase (s : State) (run l ph : Nat) : State :=
  if isRunPhaser ph then s.modRun run (fun r => { r with phasers := r.phasers.erase ph })
  else s.modLShed l (fun x => { x with phasers := x.phasers.erase ph })

/-- R208: the scope of a phaser's releases and acquires. -/
def phScope (s : State) (run ph : Nat) : Scope :=
  if isRunPhaser ph then (match s.runs.get run with
    | some r => if r.nly = 0 then .dev else .sys
    | none => .sys)
  else .shed

/-- The records of one logical shed, its own and those of its run's phasers (R208). -/
def shedRecords (s : State) (l : Nat) (x : LShed) : Nat :=
  x.phasers.length + (match s.runs.get x.run with
    | some r => (r.phasers.filter (fun q => (q.2.counters.get l).isSome)).length
    | none => 0)

/-- The records that stand beside those of logical shed l in a sync engine (R208), its own with them: those of the logical
sheds resident on its physical shed while it is resident; while it is not, its records are saved and stand alone. -/
def phRecords (s : State) (l : Nat) : Nat :=
  match s.lsheds.get l with
  | some x => s.lsheds.foldl (fun n p =>
      if p.1 == l || (x.resident && p.2.resident && p.2.shed == x.shed) then n + shedRecords s p.1 p.2 else n) 0
  | none => 0

/-- The records that a physical shed's sync engine holds (R208). -/
def engineRecords (s : State) (h : Nat) : Nat :=
  s.lsheds.foldl (fun n p => if p.2.resident && p.2.shed == h then n + shedRecords s p.1 p.2 else n) 0

/-- The status word of R213. -/
def phWord (phase : Int) (cause status : Nat) : Word :=
  BitVec.ofNat 64 ((phase % 2 ^ 32).toNat * 2 ^ 32 + cause * 256 + status)

def Member.capable (m : Member) : Bool := m.mode != .wait

/-- R211: the current phase is complete. -/
def Phaser.complete (p : Phaser) : Bool :=
  let cap := p.members.filter (fun q => q.2.capable && decide (q.2.joined ≤ p.phase))
  let bytes := p.counters.all (fun q => if q.2.posted then q.2.c == 0 else !q.2.arrived)
  cap.all (fun q => decide ((p.phase : Int) ≤ q.2.sig)) && bytes &&
    (!cap.isEmpty || p.had || p.counters.any (fun q => q.2.posted))

/-- The value of completed phase l. -/
def Phaser.valueAt (p : Phaser) (l : Int) : Word := p.vals.getD ((p.phase : Int) - 1 - l).toNat 0

/-- A thread parked in a wait of phaser ph of its run, or of its logical shed, which a completion or a break can wake: while its device has
stopped it stays parked (R395), and has its answer when it goes on (phDeliver). -/
def parkedOn (s : State) (run l ph t : Nat) : Option (Reg × Int) :=
  match s.threads.get t with
  | some x =>
    match x.park with
    | .phaser q rd upto =>
      if q = ph && x.run = run && (isRunPhaser ph || x.lkey == l) && coreWorks s x.core then some (rd, upto) else none
    | _ => none
  | none => none

/-- A phaser wait ends: the status word is in rd and the thread goes on (R182, R216). -/
def phWake (s : State) (run ph t : Nat) (rd : Reg) (w : Word) : State :=
  match s.threads.get t with
  | some x =>
    let h := x.hart.setReg rd w
    acquireT (s.setThread t { x with hart := { h with pc := h.pc + 4 }, park := .none, urgent := true }) t (phScope s run ph)
  | none => s

/-- A thread in a phaser wait whose phase has completed, or whose phaser has broken, while it could not go on: its device had stopped (R395),
or it stands where it was at the boundary to which a recovery has put it back (R394). It has its answer now. -/
def phDeliver (s : State) (t : Nat) : State :=
  match s.threads.get t with
  | some x =>
    match x.park with
    | .phaser ph rd upto =>
      match phGet s x.run x.lkey ph with
      | some p =>
        if p.broken ≠ 0 then phWake s x.run ph t rd (phWord p.phase p.broken 1)
        else if upto < (p.phase : Int) then
          let p := { p with members := p.members.modify t (fun m => { m with obs := upto, value := some (p.valueAt upto) }) }
          phWake (phSet s x.run x.lkey ph p) x.run ph t rd (phWord upto 0 0)
        else s
      | none => s
    | _ => s
  | none => s

/-- R211, R214, R215: the current phase completes; every parked waiter observes it and gets its value, and threads held
one phase ahead go on. -/
def phComplete (s : State) (run l ph : Nat) (p : Phaser) : State :=
  let v := if p.kind.isSome then p.value else 0
  let waiting := p.members.filter (fun q => match parkedOn s run l ph q.1 with
    | some (_, upto) => decide (upto ≤ (p.phase : Int))
    | none => false)
  let members := p.members.mapVals (fun t m =>
    match parkedOn s run l ph t with
    | some (_, upto) => if upto ≤ (p.phase : Int) then { m with obs := p.phase, value := some v } else m
    | none => m)
  let s := phSet s run l ph { p with
    phase := p.phase + 1, members := members, counters := p.counters.mapVals (fun _ _ => ⟨0, false, false⟩),
    kind := none, value := 0, had := false, vals := v :: p.vals }
  let s := waiting.foldl (fun s q => match parkedOn s run l ph q.1 with
    | some (rd, _) => phWake s run ph q.1 rd (phWord p.phase 0 0)
    | none => s) s
  wakeRetry s (fun t => t.run == run && (isRunPhaser ph || t.lkey == l)) (.phase ph)

/-- Store a record and complete its phase if that is due. -/
def phSettle (s : State) (run l ph : Nat) (p : Phaser) : State :=
  let s := phSet s run l ph p
  if p.broken = 0 && p.complete then phComplete s run l ph p else s

/-- R212: the phaser breaks: every parked waiter wakes with STATUS 1. -/
def phTrip (s : State) (run l ph : Nat) (p : Phaser) (cause : Nat) : State :=
  let s := phSet s run l ph { p with broken := cause }
  let s := p.members.foldl (fun s q => match parkedOn s run l ph q.1 with
    | some (rd, _) => phWake s run ph q.1 rd (phWord p.phase cause 1)
    | none => s) s
  wakeRetry s (fun t => t.run == run && (isRunPhaser ph || t.lkey == l)) (.phase ph)

/-- R210, R214 phreg: a registration, and its status word. With no record there is no current phase, and a FULL's PHASE is 0
(log entry 70). -/
def phJoin (s : State) (run l ph tid : Nat) (mode : PhMode) : State × Word :=
  let old := phGet s run l ph
  let cur : Nat := match old with
    | some p => p.phase
    | none => 0
  match old with
  | some p =>
    if p.broken ≠ 0 then (s, phWord p.phase p.broken 1)
    else if (p.members.get tid).isSome then (s, phWord p.phase 0 5)
    else if ((p.counters.get l).isNone && decide (64 ≤ phRecords s l)) ||
        decide (512 ≤ (p.members.filter (fun q => q.2.lk == l)).length) then (s, phWord cur 0 2)
    else
      let j : Nat := if p.started then p.phase + 1 else 0
      (phSet s run l ph { p with
        members := p.members.set tid ⟨l, mode, (j : Int) - 1, (j : Int) - 1, j, none, -1⟩,
        counters := if (p.counters.get l).isSome then p.counters else p.counters.set l ⟨0, false, false⟩ }, phWord j 0 0)
  | none =>
    if 64 ≤ phRecords s l then (s, phWord 0 0 2)
    else (phSet s run l ph ⟨0, [(tid, ⟨l, mode, -1, -1, 0, none, -1⟩)], false, [(l, ⟨0, false, false⟩)], none, 0, false, 0, []⟩,
      phWord 0 0 0)

/-- R210: a membership ends; an unsent signal of the current phase counts, with no value. -/
def phLeave (s : State) (run l ph tid : Nat) : State :=
  match phGet s run l ph with
  | some p =>
    match p.members.get tid with
    | some m =>
      let signals := p.broken = 0 && m.capable && decide (m.joined ≤ p.phase) && decide (m.sig < p.phase)
      let rest := p.members.erase tid
      -- the record in a logical shed goes with its last member there (R208)
      let counters := if rest.any (fun q => q.2.lk == l) then p.counters else p.counters.erase l
      if rest.isEmpty then phErase s run l ph
      else phSettle s run l ph { p with
        members := rest, counters := counters, had := p.had || signals, started := p.started || signals }
    | none => s
  | none => s

/-- The departures of a thread that exits or is killed (R210). -/
def phLeaveAll (s : State) (run l tid : Nat) : State := (List.range 64).foldl (fun s ph => phLeave s run l ph tid) s

/-- The counter C is a signed 48-bit number (R211, R8). -/
def wrap48 (c : Int) : Int := sval (c % 2 ^ 48).toNat 48

/-- R211, R212, R217: an engine command's arrival on a phaser of its submitter's logical shed, and its status. -/
def phArrive (s : State) (run l ph bytes : Nat) : State × Nat :=
  match phGet s run l ph with
  | some p =>
    match p.counters.get l with
    | some c =>
      if p.broken ≠ 0 then (s, 0)
      else
        let c' : Counter := { c with c := wrap48 (c.c - bytes), arrived := c.arrived || decide (0 < bytes) }
        let p := { p with counters := p.counters.set l c', started := p.started || decide (0 < bytes) }
        if c'.posted && c'.c < 0 then (phTrip s run l ph p 1, 7) else (phSettle s run l ph p, 0)
    | none => (s, 8)
  | none => (s, 8)

/-! ### Phaser instructions (R214) -/

def phCombine (k : PhRed) (a b : Word) : Word :=
  match k with
  | .min => if a.ult b then a else b
  | .max => if a.ult b then b else a
  | .sum => a + b

/-- The member that a thread is on a phaser. -/
def phMember (s : State) (t : Thread) (ph tid : Nat) : Option (Phaser × Member) :=
  match phGet s t.run t.lkey ph with
  | some p => (p.members.get tid).map (fun m => (p, m))
  | none => none

def execPhreg (m : PhMode) (ph : BitVec 6) (rd : Reg) (s : State) : Out :=
  asThread s (.phreg m ph rd) (fun tid t => do
    let u ← sources s []
    let r := phJoin u t.run t.lkey ph.toNat tid m
    .ok (writeNext r.1 rd r.2))

/-- R216: a departure that counts as a signal is a release. -/
def execPhdrop (ph : BitVec 6) (s : State) : Out :=
  asThread s (.phdrop ph) (fun tid t => do
    let u ← sources s []
    .ok (if (phMember s t ph.toNat tid).isSome then phLeave (release u) t.run t.lkey ph.toNat tid else u).advance)

/-- A recovered member signals a phase again that has completed since the boundary, or that it had signalled (R394: what is re-executed comes
out identical): its signal has been counted, and so have the bytes of a completed phase, which its logical shed's counter does not carry on
(log entry 114). -/
def Phaser.replaySignal (p : Phaser) (l tid : Nat) (m : Member) : Phaser :=
  { p with
    members := p.members.set tid { m with sig := m.sig + 1 }
    counters := if m.sig + 1 < (p.phase : Int) then p.counters.modify l (fun c => if c.c = 0 then ⟨0, false, false⟩ else c) else p.counters }

/-- R214 signal(m), as a release: at most one phase ahead. -/
def phSignal (s : State) (t : Thread) (ph tid : Nat) (v : Option (PhRed × Word)) : M State :=
  match phMember s t ph tid with
  | some (p, m) =>
    if p.broken ≠ 0 then .ok s
    else if m.sig < m.past then .ok (phSettle (release s) t.run t.lkey ph (p.replaySignal t.lkey tid m))
    else if (p.phase : Int) ≤ m.sig then .error (.wait (.phase ph))
    else
      let s := release s
      match v, p.kind with
      | some (k, w), some k' =>
        if k = k' then
          .ok (phSettle s t.run t.lkey ph { p with
            members := p.members.set tid { m with sig := p.phase }, started := true, had := true,
            value := phCombine k p.value w })
        else .ok (phTrip s t.run t.lkey ph p 3)
      | some (k, w), none =>
        .ok (phSettle s t.run t.lkey ph { p with
          members := p.members.set tid { m with sig := p.phase }, started := true, had := true, kind := some k, value := w })
      | none, _ =>
        .ok (phSettle s t.run t.lkey ph { p with
          members := p.members.set tid { m with sig := p.phase }, started := true, had := true })
  | none => .ok s

/-- R214: a member that signals. One that is none faults on a broken phaser too (log entry 71). -/
def canSignal (s : State) (t : Thread) (ph tid : Nat) : Bool :=
  match phMember s t ph tid with
  | some (_, m) => m.capable
  | none => false

def execPhsig (ph : BitVec 6) (s : State) : Out :=
  asThread s (.phsig ph) (fun tid t => do
    let u ← sources s []
    if canSignal s t ph.toNat tid then .ok (← phSignal u t ph.toNat tid none).advance
    else .error (wordFault 15 (.phsig ph)))

def execPhsigv (k : PhRed) (ph : BitVec 6) (ra : Src) (s : State) : Out :=
  asThread s (.phsigv k ph ra) (fun tid t => do
    let (u, v) ← op1 s ra
    if canSignal s t ph.toNat tid then .ok (← phSignal u t ph.toNat tid (some (k, v))).advance
    else .error (wordFault 15 (.phsigv k ph ra)))

/-- A wait that has its answer: the phase is observed, its value delivered, and the acquire made (R214, R216). -/
def phObserve (s : State) (t : Thread) (ph tid : Nat) (rd : Reg) (p : Phaser) (m : Member) (l : Int) : State :=
  let s := phSet s t.run t.lkey ph { p with members := p.members.set tid { m with obs := l, value := some (p.valueAt l) } }
  writeNext (acquire s (phScope s t.run ph)) rd (phWord l 0 0)

/-- R214 wait(m), with R212's answer on a broken phaser, to a thread that is no member too (log entry 71); with no record a
NOTMEMBER's PHASE is 0 (log entry 70). -/
def phWaitOn (s : State) (t : Thread) (ph tid : Nat) (rd : Reg) : State :=
  match phMember s t ph tid with
  | some (p, m) =>
    if p.broken ≠ 0 then writeNext (acquire s (phScope s t.run ph)) rd (phWord p.phase p.broken 1)
    else match m.mode with
      | .sig => writeNext s rd (phWord p.phase 0 3)
      | .wait =>
        if m.obs < (p.phase : Int) - 1 then phObserve s t ph tid rd p m ((p.phase : Int) - 1)
        else s.modThread tid (fun x => { x with park := .phaser ph rd p.phase })
      | .both =>
        if m.sig ≤ m.obs then writeNext s rd (phWord p.phase 0 4)
        else if m.sig < (p.phase : Int) then phObserve s t ph tid rd p m m.sig
        else s.modThread tid (fun x => { x with park := .phaser ph rd m.sig })
  | none =>
    match phGet s t.run t.lkey ph with
    | some p => if p.broken ≠ 0 then writeNext (acquire s (phScope s t.run ph)) rd (phWord p.phase p.broken 1) else writeNext s rd (phWord p.phase 0 3)
    | none => writeNext s rd (phWord 0 0 3)

def execPhwait (ph : BitVec 6) (rd : Reg) (s : State) : Out :=
  asThread s (.phwait ph rd) (fun tid t => do
    let u ← sources s []
    .ok (phWaitOn u t ph.toNat tid rd))

def execPhnext (ph : BitVec 6) (rd : Reg) (s : State) : Out :=
  asThread s (.phnext ph rd) (fun tid t => do
    let u ← sources s []
    match phMember s t ph.toNat tid with
    | some (p, m) =>
      if p.broken ≠ 0 then .ok (phWaitOn u t ph.toNat tid rd)
      else if m.mode = .both then .ok (phWaitOn (← phSignal u t ph.toNat tid none) t ph.toNat tid rd)
      else .ok (writeNext u rd (phWord p.phase 0 3))
    | none => .ok (phWaitOn u t ph.toNat tid rd))

def execPhexpect (ph : BitVec 6) (ra : Src) (s : State) : Out :=
  asThread s (.phexpect ph ra) (fun tid t => do
    let (u, n) ← op1 s ra
    match phMember s t ph.toNat tid with
    | some (p, _) =>
      if p.broken ≠ 0 then .ok u.advance
      else if 2 ^ 47 ≤ n.toNat then .ok (phTrip u t.run t.lkey ph.toNat p 2).advance
      else
        let c := p.counters.getD t.lkey ⟨0, false, false⟩
        let c' : Counter := { c with c := wrap48 (c.c + n.toNat), posted := true }
        let p := { p with counters := p.counters.set t.lkey c' }
        .ok (if c'.c < 0 then phTrip u t.run t.lkey ph.toNat p 1 else phSettle u t.run t.lkey ph.toNat p).advance
    | none => .error (wordFault 15 (.phexpect ph ra)))

/-- The next free value of the machine. -/
def takeFree (s : State) : State × Word := ({ s with free := s.free + 1 }, Config.freeWord s.free)

/-- phread (R214): the value delivered, else the latest completed phase's; where no phase has completed the spec states
no value, and it is free (log entry 6). The value goes with the membership, so a thread that has dropped or registered anew since its last
wait has none (log entry 95). -/
def execPhread (ph : BitVec 6) (rd : Reg) (s : State) : Out :=
  asThread s (.phread ph rd) (fun tid t => do
    let u ← sources s []
    match (phMember s t ph.toNat tid).bind (fun x => x.2.value) with
    | some v => .ok (writeNext u rd v)
    | none =>
      match phGet s t.run t.lkey ph.toNat with
      | some p =>
        if p.phase = 0 then .ok (writeNext (takeFree u).1 rd (takeFree u).2) else .ok (writeNext u rd p.last)
      | none => .ok (writeNext (takeFree u).1 rd (takeFree u).2))

/-! ### Rings -/

def Ring.blank : Ring := ⟨0, 0, 0, 0, [], [], [], []⟩

/-- R266: the fields of a ring's definition. -/
def Ring.slots (r : Ring) : Nat := bits r.defn 63 56 + 1
def Ring.slotBytes (r : Ring) : Nat := 64 * 2 ^ bits r.defn 55 52
def Ring.coreOf (r : Ring) : Nat := bits r.defn 21 19

/-- The local offset of slot i (R266). -/
def Ring.slotOffset (r : Ring) (i : Nat) : Nat := bits r.defn 18 6 * 64 + i % r.slots * r.slotBytes

/-- The near-space address of slot i (R266). -/
def Ring.slotAddr (r : Ring) (i : Nat) : Nat := 0x000F400000000000 + r.coreOf * 0x80000 + r.slotOffset i

/-- Filled slots: the counts wrap modulo 2^32 (R267). -/
def Ring.filled (r : Ring) : Nat := (r.tail + 2 ^ 32 - r.head) % 2 ^ 32

def ringGet (s : State) (l q : Nat) : Ring :=
  match s.lsheds.get l with
  | some x => x.rings.getD q Ring.blank
  | none => Ring.blank

/-- R270: a wait for n filled slots of a ring, or for n free ones, is over. -/
def Ring.meets (r : Ring) (n : Nat) (filled : Bool) : Bool :=
  r.st != 1 || decide (n ≤ if filled then r.filled else r.slots - r.filled)

/-- A thread is parked on a ring. -/
def waitsOn (l q : Nat) (t : Thread) : Bool :=
  t.lkey == l && (match t.park with
    | .retry (.ring p ..) => p == q
    | _ => false)

/-- Store a ring. Of the threads parked on it those whose wait is over go on, and the others stay parked (R269, R270); one that goes on
decides its wait when it executes its instruction again (log entry 101). -/
def ringSet (s : State) (l q : Nat) (r : Ring) : State :=
  let s := s.modLShed l (fun x => { x with rings := x.rings.set q r })
  { s with threads := s.threads.mapVals (fun _ t =>
      if waitsOn l q t && (match t.park with
        | .retry (.ring _ n filled) => r.meets n filled
        | _ => false) then { t with park := .none } else t) }

def Ring.attach (r : Ring) (a : Att) : Ring := if r.att.contains a then r else { r with att := r.att ++ [a] }

/-- R268: a detachment: the last one closes an open ring, and a BROKEN one stays so (log entry 119); a kill or a failed command breaks it. -/
def Ring.detach (r : Ring) (a : Att) (broken : Bool) : Ring :=
  if r.att.contains a then
    let att := r.att.filter (fun b => b != a)
    { r with att := att, st := if broken then 3 else if att.isEmpty && r.st == 1 then 2 else r.st }
  else r

/-- Detach a party from every ring of a logical shed. -/
def ringDetach (s : State) (l : Nat) (a : Att) (broken : Bool) : State :=
  match s.lsheds.get l with
  | some x => (x.rings.filter (fun p => p.2.att.contains a)).foldl (fun s p =>
      ringSet s l p.1 ((ringGet s l p.1).detach a broken)) s
  | none => s

/-- Move TAIL on by n, tagging the slots (R271, R275). -/
def Ring.produce (r : Ring) (n : Nat) : Ring :=
  { r with
    seq := (List.range n).foldl (fun m i => m.set ((r.tail + i) % r.slots) ((r.tail + i) % 2 ^ 32)) r.seq
    tail := (r.tail + n) % 2 ^ 32 }

/-- Move HEAD on by n. -/
def Ring.consume (r : Ring) (n : Nat) : Ring := { r with head := (r.head + n) % 2 ^ 32 }

/-- The first scale group with a tag leaves the side band (R275). -/
def Ring.dropGroup (r : Ring) (tag : Nat) : Ring := { r with scales := r.scales.eraseP (fun g => g.1 == tag) }

/-- R266: the header's mask claims the ring. -/
def ringClaimed (s : State) (run q : Nat) : Bool :=
  match s.runs.get run with
  | some r => r.rings / 2 ^ q % 2 == 1
  | none => false

/-- The failure word of R270. -/
def ringFail (c : Nat) : Word := BitVec.ofNat 64 (2 ^ 63 + c)

/-- A ring outside the header's mask (R266), tested after the register reads, where R75 names no step for it (log entry 80). -/
def needRing (s : State) (t : Thread) (q : Nat) (i : Instr) : M Unit :=
  if ringClaimed s t.run q then .ok () else .error (wordFault 12 i)

/-- R269: the definition is bad. -/
def badDef (s : State) (run : Nat) (w : Word) : Bool :=
  let r : Ring := { Ring.blank with defn := w }
  match s.runs.get run with
  | some x => bits w 51 22 != 0 || bits w 5 0 != 0 || decide (10 < bits w 55 52) || decide (x.nlc < r.coreOf) ||
      decide (x.spad * 4096 < bits w 18 6 * 64 + r.slots * r.slotBytes)
  | none => true

def execRdef (q : BitVec 5) (rd : Reg) (ra : Src) (s : State) : Out :=
  asThread s (.rdef q rd ra) (fun tid t => do
    let (u, a) ← op1 s ra
    needRing s t q.toNat (.rdef q rd ra)
    let r := ringGet s t.lkey q.toNat
    let waited := s.threads.any (fun p => waitsOn t.lkey q.toNat p.2)
    if r.st = 1 && !(r.att == [.thread tid] && !waited) then .ok (writeNext u rd 1)
    else if badDef s t.run a then .ok (writeNext u rd 2)
    else .ok (writeNext (ringSet u t.lkey q.toNat { Ring.blank with st := 1, defn := a, att := [.thread tid] }) rd 0))

def execRwaitf (q : BitVec 5) (rd : Reg) (ra : Src) (s : State) : Out :=
  asThread s (.rwaitf q rd ra) (fun _ t => do
    let (u, n) ← op1 s ra
    needRing s t q.toNat (.rwaitf q rd ra)
    let r := ringGet s t.lkey q.toNat
    if r.st = 0 then .ok (writeNext u rd (ringFail 3))
    else if r.slots < n.toNat then .ok (writeNext u rd (ringFail 4))
    else if r.st = 3 then .ok (writeNext u rd (ringFail 2))
    else if n.toNat ≤ r.filled then .ok (writeNext (acquire u .shed) rd (BitVec.ofNat 64 (r.slotAddr r.head)))
    else if r.st = 2 then .ok (writeNext (acquire u .shed) rd (ringFail 1))
    else .error (.wait (.ring q.toNat n.toNat true)))

/-- rwaite (R270); a thread attaches on an open ring alone, and so not on a BROKEN one (R268, log entry 102). -/
def execRwaite (q : BitVec 5) (rd : Reg) (ra : Src) (s : State) : Out :=
  asThread s (.rwaite q rd ra) (fun tid t => do
    let (u, n) ← op1 s ra
    needRing s t q.toNat (.rwaite q rd ra)
    let r := ringGet s t.lkey q.toNat
    if r.st = 0 then .ok (writeNext u rd (ringFail 3))
    else if r.slots < n.toNat then .ok (writeNext u rd (ringFail 4))
    else if r.st = 2 then .ok (writeNext (acquire u .shed) rd (ringFail 1))
    else if r.st = 3 then .ok (writeNext u rd (ringFail 2))
    else
      let attach (s : State) : State := s.modLShed t.lkey (fun x => { x with rings := x.rings.set q.toNat (r.attach (.thread tid)) })
      if n.toNat ≤ r.slots - r.filled then
        .ok (writeNext (acquire (attach u) .shed) rd (BitVec.ofNat 64 (r.slotAddr r.tail)))
      else .ok (parkRetry (attach s) (.ring q.toNat n.toNat false)))

/-- A fault of radvh or radvt (R271). -/
def ringCheck (s : State) (t : Thread) (q : Nat) (i : Instr) (bad : Ring → Bool) (beyond : Ring → Bool) : M Ring := do
  needRing s t q i
  let r := ringGet s t.lkey q
  if bad r then .error (wordFault 13 i)
  if beyond r then .error (wordFault 14 i)
  .ok r

def execRadvh (q : BitVec 5) (ra : Src) (s : State) : Out :=
  asThread s (.radvh q ra) (fun _ t => do
    let (u, n) ← op1 s ra
    let r ← ringCheck s t q.toNat (.radvh q ra) (fun r => r.st == 0 || r.st == 3) (fun r => decide (r.filled < n.toNat))
    .ok (ringSet (release u) t.lkey q.toNat (r.consume n.toNat)).advance)

def execRadvt (q : BitVec 5) (ra : Src) (s : State) : Out :=
  asThread s (.radvt q ra) (fun tid t => do
    let (u, n) ← op1 s ra
    let r ← ringCheck s t q.toNat (.radvt q ra) (fun r => r.st == 0 || r.st == 3 || r.st == 2)
      (fun r => decide (r.slots - r.filled < n.toNat))
    .ok (ringSet (release u) t.lkey q.toNat ((r.attach (.thread tid)).produce n.toNat)).advance)

/-- R272. -/
def Ring.statWord (r : Ring) : Word :=
  BitVec.ofNat 64 (r.st * 2 ^ 62 + min r.att.length 63 * 2 ^ 56 + r.tail % 2 ^ 24 * 2 ^ 24 + r.head % 2 ^ 24)

def execRstat (q : BitVec 5) (rd : Reg) (s : State) : Out :=
  asThread s (.rstat q rd) (fun _ t => do
    let u ← sources s []
    needRing s t q.toNat (.rstat q rd)
    .ok (writeNext u rd (ringGet s t.lkey q.toNat).statWord))

end Sys2Proof.Machine
end

