-- ==== Sys2Proof/Machine/Threads.lean ====
section
/-! DEFINITION. Threads: context slots and active messages (R161 to R171), migration (R172 to R175), the end of threads, groups and runs (R176, R370), and the thread instructions (R164, R165, R170, R172, R176 to R180). -/

namespace Sys2Proof.Machine

/-! ### Slots -/

/-- R161: the slots that an arrival tries, in order. -/
def migSlots : List Nat := range 56 4 ++ List.range 56
def replySlots : List Nat := range 60 4 ++ List.range 56
def msgSlots : List Nat := List.range 56

def clsSlots (c : Cls) : List Nat :=
  match c with
  | .reply => replySlots
  | _ => msgSlots

/-- A slot holds a thread, or is held for a refused arrival. -/
def slotUsed (s : State) (c sl : Nat) : Bool :=
  s.threads.any (fun p => p.2.core == c && p.2.slot == sl) || ((s.core c).holds.get sl).isSome

def freeSlots (s : State) (c : Nat) (order : List Nat) : List Nat := order.filter (fun sl => !slotUsed s c sl)

/-- R168: a queued entry can use a slot. -/
def Refused.canUse (e : Refused) (sl : Nat) : Bool :=
  match e with
  | .mig _ => decide (sl < 60)
  | .msg _ _ reply => decide (sl < 56) || (reply && decide (60 ≤ sl))

/-- R168: a slot has become free: it is held for the oldest queued entry that can use it, which is sent a notice. -/
def offerSlot (s : State) (c sl : Nat) : State :=
  if 64 ≤ sl || slotUsed s c sl then s
  else match (s.core c).refused.find? (fun e => e.canUse sl) with
    | some e =>
      ((s.modCore c (fun x => { x with
        refused := x.refused.erase e, holds := x.holds.set sl (e, s.clock + 64) })).post (.contextFreeNotice c sl)).post
          (.slotHoldExpiry c sl)
    | none => s

/-- R168: a refusal queue has 64 entries; whether the entry has joined it. -/
def refuse (s : State) (c : Nat) (e : Refused) : State × Bool :=
  if (s.core c).refused.length < 64 then (s.modCore c (fun x => { x with refused := x.refused ++ [e] }), true) else (s, false)

/-- Refused arrivals that are gone leave the refusal queues, and the slots held for them are free (R168). -/
def dropRefused (s : State) (dead : Refused → Bool) : State :=
  let held := s.cores.flatMap (fun c => (c.2.holds.filter (fun h => dead h.2.1)).map (fun h => (c.1, h.1)))
  let s := { s with cores := s.cores.mapVals (fun _ x => { x with refused := x.refused.filter (fun e => !dead e) }) }
  held.foldl (fun s h => offerSlot (s.modCore h.1 (fun x => { x with holds := x.holds.erase h.2 })) h.1 h.2) s

/-! ### The ends of runs and groups -/

/-- R181, R387: the device of the first shed of a partition, whose dispatcher serves it. -/
def partDev (s : State) (p : Nat) : Nat :=
  match (s.part p).sheds with
  | x :: _ => shedDev x.1
  | [] => 0

/-- R154: the dispatcher writes a run's STATUS dword, at its home, as a release at system scope. -/
def runStatus (s : State) (r : Nat) (state : Nat) : State :=
  match s.runs.get r with
  | some x =>
    let w := r % 2 ^ 32 * 2 ^ 32 + x.drop * 2 ^ 16 + x.cause * 256 + state
    match placeData s (.disp x.part (partDev s x.part)) .write (x.hdr + 0x68) with
    | .ok (s', p) => writeHome s' p.key (leBytes 8 w)
    | .error e => unitCheck (meetLink s (partDev s x.part) e) x.part (partDev s x.part) r e
  | none => s

/-- R176: nothing of the run remains. -/
def runIdle (s : State) (r : Nat) : Bool :=
  !(s.threads.any (fun p => p.2.run == r)) && !(s.cores.any (fun c => c.2.outbox.any (fun m => m.2.run == r))) &&
    !(s.jobs.any (fun j => j.2.run == r)) && !(s.vcmds.any (fun v => v.2.run == r))

/-- A running or killed run of which nothing remains is done. -/
def checkDone (s : State) (r : Nat) : State :=
  match s.runs.get r with
  | some x => if (x.state == 3 || x.state == 6) && runIdle s r then s.post (.runDone r) else s
  | none => s

/-- R225: the accesses to a logical core's scratchpad that have been made are performed before the instant of its release; what reaches it
later is refused. -/
def releasePad (s : State) (run : Nat) (c : Coord) : State :=
  match s.runs.get run, s.lsheds.get (lkey run c.ly c.ls) with
  | some r, some x => drainRanges s [(x.window c.lc, r.spad * 4096)]
  | _, _ => s

/-- R176: a group whose last thread has gone ends; a logical core whose last group has ended is released (R225). -/
def settleGroup (s : State) (run : Nat) (c : Coord) : State :=
  if s.threads.any (fun p => p.2.run == run && p.2.coord == c) then s
  else
    let s := { s with groups := s.groups.modify (gkey run c) (fun g => { g with alive := false }) }
    let stages := match s.runs.get run with
      | some r => r.nstage + 1
      | none => 0
    if (List.range stages).any (fun st => (s.groups.getD (gkey run { c with st := st }) ⟨0, false⟩).alive) then s
    else (releasePad s run c).modLShed (lkey run c.ly c.ls) (fun x => if x.released.contains c.lc then x else { x with released := x.released ++ [c.lc] })

/-- R169: two messages for one logical core and stage. -/
def sameTarget (a b : OutMsg) : Bool := a.run == b.run && coordOf a.hdr == coordOf b.hdr

/-- R169: a message for the same target that core c sent earlier, or that stands in c's outbox and was sent earlier, holds message m of
c's outbox back, wherever it stands now (R374). -/
def heldBehind (s : State) (c : Nat) (m : OutMsg) : Bool :=
  s.cores.any (fun k => k.2.outbox.any (fun p => (k.1 == c || p.2.sender == m.sender) && decide (p.2.sent < m.sent) && sameTarget p.2 m))

/-- The messages of core c's outbox that nothing holds back any longer, which something held back in state s, are sent (R169). -/
def sendFreed (s u : State) (c : Nat) : State :=
  let free := (u.core c).outbox.filter (fun m => heldBehind s c m.2 && !heldBehind u c m.2)
  { u with agenda := u.agenda ++ free.map (fun m => .activeMessageArrival c m.1) }

/-- So with those of every core. -/
def sendAllFreed (s u : State) : State := u.cores.foldl (fun u c => sendFreed s u c.1) u

/-- Discard the outbox entries for which `p` holds, with their places in refusal queues and the slots held for them (R167, R370); the
messages that they held back are sent (R169). -/
def dropMessages (s : State) (p : OutMsg → Bool) : State :=
  let u := dropRefused s (fun e => match e with
    | .msg c mid _ => ((s.core c).outbox.get mid).any p
    | .mig _ => false)
  sendAllFreed s { u with cores := u.cores.mapVals (fun _ x => { x with outbox := x.outbox.filter (fun m => !p m.2) }) }

/-- The end of a thread: what exit (R176) and a kill (R370) share. -/
def endThread (s : State) (tid : Nat) (killed : Bool) : State :=
  match s.threads.get tid with
  | some t =>
    let s := leaveQueue (refreshHome (drain s tid) t) (.thread tid)
    let s := { s with waits := s.waits.filter (fun p => p.2.who != .thread tid) }
    let s := ringDetach s t.lkey (.thread tid) killed
    let s := phLeaveAll s t.run t.lkey tid
    let s := if killed then dropRefused (dropMessages s (fun m => m.thread == tid)) (· == .mig tid) else s
    let s := wakeBuild { s with threads := s.threads.erase tid } (coreShed t.core)
    let s := offerSlot s t.core t.slot
    checkDone (settleGroup s t.run t.coord) t.run
  | none => s

/-! ### Starting threads and sending messages -/

/-- R162: the fields of a header. -/
def msgIdx (h : Word) : Nat := bits h 63 48
def msgCls (h : Word) : Cls := match bits h 41 40 with | 0 => .normal | 1 => .background | _ => .reply

/-- R163. -/
def msgValid (r : Run) (h : Word) : Bool :=
  let c := coordOf h
  bits h 47 42 == 0 && bits h 39 36 == 0 && bits h 11 0 == 0 && bits h 41 40 != 3 && decide (msgIdx h < r.hcount) &&
    decide (c.ly ≤ r.nly) && decide (c.ls ≤ r.nls) && decide (c.lc ≤ r.nlc) && decide (c.st ≤ r.nstage)

/-- The handler-table entry of a message (R150, R166). -/
def handlerPc (s : State) (r : Run) (run core : Nat) (h : Word) : BitVec 52 :=
  tableEntry s (.run run (coordOf h) core) (r.htab + 8 * msgIdx h)

/-- R171, R191: the narrowest scope that contains the sender's core c and the target core of a message. -/
def msgScope (c core : Nat) (m : OutMsg) : Scope :=
  let t := coordOf m.hdr
  if m.home = lkey m.run t.ly t.ls ∧ coreShed c = coreShed core then (if c = core then .core else .shed)
  else if m.home % 2 ^ 18 / 64 = t.ly ∧ shedDev (coreShed c) = shedDev (coreShed core) then .dev
  else .sys

/-- R18, R166: the thread that a message starts in a slot, with an acquire at a scope. -/
def startThread (s : State) (tid core slot : Nat) (m : OutMsg) (sc : Scope) : State :=
  match s.runs.get m.run with
  | some r =>
    let regs : Map Word := (List.range m.args.length).map (fun i => (i + 1, m.args.getD i 0))
    let h : Hart := { Hart.blank with regs := regs, pc := handlerPc s r m.run core m.hdr }
    let t : Thread :=
      { hart := h, run := m.run, coord := coordOf m.hdr, core := core, slot := slot, cls := msgCls m.hdr, urgent := false,
        ready := 0, stamp := s.clock, park := .none, utcause := 0, utval := 0, utepc := 0, save7 := none, save8 := none,
        jobbase := r.jobbase, staged := none, pending := [], loads := [], unseen := [], vErr := 0, vFlags := 0, moved := false, held := false, restoring := false }
    let s := { s with
      free := s.free + 1
      threads := s.threads.set tid t
      groups := s.groups.set (gkey m.run t.coord) { s.groups.getD (gkey m.run t.coord) ⟨r.utvec, true⟩ with alive := true } }
    acquireT (postTableCheck s (.run m.run t.coord core) m.run (r.htab + 8 * msgIdx m.hdr)) tid sc
  | none => s

/-- R162: the logical shed and the physical core that a message is for. -/
def msgTarget (s : State) (m : OutMsg) : Option (LShed × Nat) :=
  let c := coordOf m.hdr
  (s.lsheds.get (lkey m.run c.ly c.ls)).map (fun x => (x, x.shed * 8 + c.lc))

/-- An outbox entry is freed (R169): parked oflushes of its sender go on, and the next message for the target is sent. -/
def freeEntry (s : State) (c mid : Nat) (m : OutMsg) : State :=
  let u := s.modCore c (fun x => { x with outbox := x.outbox.erase mid })
  sendAllFreed s (u.modThread m.thread (fun t =>
    if t.park == .retry .outbox then { t with park := .none, urgent := true } else t))

/-- A message reaches its target core (R166 to R168); a core holds a slot for it when it is a retry on a notice. A first thread's
acquire is at device scope (R198). While the sender's or the target's device has stopped (R395), or the target's logical shed is out
(R374), the message waits. A first thread that is discarded stays registered on its phasers (log entry 91). -/
def arriveMessage (s : State) (c mid : Nat) (held : Option (Nat × Nat)) : State :=
  match (s.core c).outbox.get mid with
  | some m =>
    if heldBehind s c m then s
    else match msgTarget s m with
      | none => checkDone (freeEntry s c mid m) m.run
      | some (x, core) =>
        if !x.resident || !coreWorks s c || !coreWorks s core then s.post (.messageRetry c mid)
        else if x.released.contains (coordOf m.hdr).lc then
          let s := s.modRun m.run (fun r => { r with drop := min 0xFFFF (r.drop + 1) })
          let s := runStatus s m.run 3
          checkDone (freeEntry s c mid m) m.run
        else
          match ((held.toList.filter (fun h => h.1 == core)).map Prod.snd ++ freeSlots s core (clsSlots (msgCls m.hdr))).head? with
          | some sl =>
            let (tid, s) := match m.first with
              | some t => (t, s)
              | none => (s.nextKey, { s with nextKey := s.nextKey + 1 })
            freeEntry (startThread s tid core sl m (if m.first.isSome then .dev else msgScope c core m)) c mid m
          | none =>
            let r := refuse s core (.msg c mid (msgCls m.hdr == .reply))
            if r.2 then r.1.modCore c (fun x => { x with outbox := x.outbox.set mid { m with queued := true } })
            else s.post (.messageRetry c mid)
  | none => s

/-- A message that is in no refusal queue is offered to its target. -/
def offerMessage (s : State) (c i : Nat) : State :=
  match (s.core c).outbox.get i with
  | some m => if m.queued then s else arriveMessage s c i none
  | none => s

/-- ACTIVE_MESSAGE_ARRIVAL (R166 to R169). -/
def execActiveMessageArrival (c i : Nat) (s : State) : Out := .next (offerMessage s c i)

/-- MESSAGE_RETRY (R168): a refused sender that is in no refusal queue tries again. -/
def execMessageRetry (c i : Nat) (s : State) : Out := .next (offerMessage s c i)

/-! ### Migration -/

/-- A thread lands in a slot of a core (R173): departure and arrival are a release and an acquire at device scope. On another
device it acquires at system scope, so that no copy there is older than what the thread has seen (R192, R195). -/
def landThread (s : State) (tid core slot : Nat) : State :=
  match s.threads.get tid with
  | some t =>
    let s := settleInvals (drain s tid)
    let s := s.modThread tid (fun t => { t with core := core, slot := slot, park := .none, held := requested s t })
    acquireT (offerSlot s t.core t.slot) tid (if shedDev (coreShed t.core) = shedDev (coreShed core) then .dev else .sys)
  | none => s

/-- R173 step 2: the core of a shed with the most free slots for a migration, the lowest-numbered winning ties. -/
def bestCore (s : State) (h : Nat) : Nat × Nat :=
  (List.range 8).foldl (fun b c =>
    let n := (freeSlots s (h * 8 + c) migSlots).length
    if b.2 < n then (h * 8 + c, n) else b) (h * 8, 0)

/-- MIGRATION_ARRIVAL (R173); while the source's or the target's device has stopped, the thread is on its way (R395). Where no shed has a
slot, the first one refuses it (log entry 94). -/
def execMigrationArrival (t : Nat) (s : State) : Out :=
  match s.threads.get t with
  | some x =>
    match x.park with
    | .migrating sheds n access =>
      if !coreWorks s x.core || sheds.any (fun h => !deviceIssues s (shedDev h)) then .next (s.post (.migrationArrival t))
      else match (sheds.map (bestCore s)).find? (fun b => decide (0 < b.2)) with
      | some b =>
        match (freeSlots s b.1 migSlots).head? with
        | some sl => .next (landThread s t b.1 sl)
        | none => .next s
      | none =>
        if n = 2 then .next (s.setThread t { x with park := .none, moved := access })
        else
          let s := s.setThread t { x with park := .migrating sheds (n + 1) access }
          let r := refuse s ((sheds.map (fun h => h * 8)).headD 0) (.mig t)
          if r.2 then .next r.1 else .next (s.post (.migrationArrival t))
    | _ => .next s
  | none => .next s

/-- CONTEXT_FREE_NOTICE (R168): slot sl of core c is held for a refused arrival, whose retry takes it; where the retry does not,
the slot goes to the next queued entry. -/
def execContextFreeNotice (c sl : Nat) (s : State) : Out :=
  match (s.core c).holds.get sl with
  | some (e, _) =>
    if !coreWorks s c then .next (s.post (.contextFreeNotice c sl))
    else
    let s := s.modCore c (fun x => { x with holds := x.holds.erase sl })
    match e with
    | .msg c' mid _ =>
      match (s.core c').outbox.get mid with
      | some m =>
        let s := s.modCore c' (fun x => { x with outbox := x.outbox.set mid { m with queued := false } })
        .next (offerSlot (arriveMessage s c' mid (some (c, sl))) c sl)
      | none => .next (offerSlot s c sl)
    | .mig t =>
      match s.threads.get t with
      | some x =>
        match x.park with
        | .migrating .. => .next (landThread s t c sl)
        | _ => .next (offerSlot s c sl)
      | none => .next (offerSlot s c sl)
  | none => .next s

/-- A refused arrival joins a core's queue, or, where that is full, tries again later (R168). -/
def requeue (s : State) (c : Nat) (e : Refused) : State :=
  let r := refuse s c e
  if r.2 then r.1
  else match e with
    | .msg c' mid _ =>
      (s.modCore c' (fun x => { x with outbox := x.outbox.modify mid (fun m => { m with queued := false }) })).post (.messageRetry c' mid)
    | .mig t => s.post (.migrationArrival t)

/-- SLOT_HOLD_EXPIRY (R168): a slot held for 64 cycles is free again; the entry it was held for has missed its window, and is
a new refusal (log entry 19). -/
def execSlotHoldExpiry (c sl : Nat) (s : State) : Out :=
  match (s.core c).holds.get sl with
  | some (e, till) =>
    if till ≤ s.clock then
      let s := s.modCore c (fun x => { x with holds := x.holds.erase sl })
      .next (requeue (offerSlot s c sl) c e)
    else .next (s.post (.slotHoldExpiry c sl))
  | none => .next s

/-- R172: the sheds that an address of migr stands for; none where the address names no memory of the run. -/
def migrTargets (s : State) (t : Thread) (ea : Nat) : List Nat :=
  if isNear ea then
    match nearTarget t.coord ea with
    | some (ly, ls, _, _) => match s.lsheds.get (lkey t.run ly ls) with
      | some x => [x.shed]
      | none => []
    | none => []
  else match lookup s (.run t.run t.coord t.core) .read ea with
    | (_, .leaf e l) => homeSheds (leafAddr e l ea)
    | _ => []

def execMigr (ra : Src) (s : State) : Out :=
  asThread s (.migr ra) (fun tid t => do
    let (u, a) ← op1 s ra
    let all := migrTargets s t (bits a 51 0)
    if all.isEmpty || all.contains (coreShed t.core) || t.stays s tid then .ok u.advance
    else moveTo u.advance all (fun sheds =>
      .ok ((u.advance.modThread tid (fun x => { x with park := .migrating sheds 0 false })).post (.migrationArrival tid))))

/-! ### Sending -/

/-- The messages in a core's outbox: those of a descheduled logical shed are saved with it (R374). -/
def outboxCount (s : State) (c : Nat) : Nat :=
  ((s.core c).outbox.filter (fun m => match s.lsheds.get m.2.home with
    | some x => x.resident
    | none => true)).length

/-- R164 from the outbox test on: the status is 1 when the outbox holds 32 messages. -/
def sendMessage (s : State) (tid : Nat) (t : Thread) (rd : Reg) (h : Word) (args : List Word) : State :=
  if 32 ≤ outboxCount s t.core then writeNext s rd 1
  else
    let s := release s
    let mid := (s.core t.core).outbox.fresh
    let m : OutMsg := ⟨t.run, h, args, tid, t.lkey, none, false, t.core, s.clock⟩
    writeNext ((s.modCore t.core (fun x => { x with outbox := x.outbox.set mid m })).post (.activeMessageArrival t.core mid)) rd 0

def curRunOr (s : State) (i : Instr) : M Run :=
  match s.curRun with
  | some r => .ok r
  | none => .error (illegalWord i.word)

def execSpawn (rd : Reg) (ra : Src) (n : BitVec 3) (s : State) : Out :=
  asThread s (.spawn rd ra n) (fun tid t => do
    let args := (range 1 n.toNat).map (fun i => s.reg (Fin.ofNat 16 i))
    let h := s.reg ra.r
    let u ← sources s (ra.r :: (range 1 n.toNat).map (Fin.ofNat 16))
    let u := endSources u [ra]
    let r ← curRunOr s (.spawn rd ra n)
    if msgValid r h then .ok (sendMessage u tid t rd h args) else .error (wordFault 8 (.spawn rd ra n)))

/-- Fresh loads of n dwords from an address on (R165). -/
def loadDwords (s : State) (ea : Nat) : Nat → M (State × List Word)
  | 0 => .ok (s, [])
  | n + 1 => do
    let (s, v) ← loadFresh s ea 8
    let (s, r) ← loadDwords s (ea + 8) n
    .ok (s, BitVec.ofNat 64 v :: r)

def execPost (rd : Reg) (ra : Src) (s : State) : Out :=
  asThread s (.post rd ra) (fun tid t => do
    let (u, a) ← op1 s ra
    let ea ← effAddr a 0 64
    let (u, h) ← loadFresh u ea 8
    let (u, c) ← loadFresh u (ea + 8) 8
    let r ← curRunOr s (.post rd ra)
    if 7 ≤ c then .error (accessFault 8 ea)
    if !msgValid r (BitVec.ofNat 64 h) then .error (accessFault 8 ea)
    let (u, args) ← loadDwords u (ea + 16) c
    .ok (sendMessage u tid t rd (BitVec.ofNat 64 h) args))

/-! ### The other thread instructions -/

def execCoord (rd : Reg) (s : State) : Out :=
  asThread s (.coord rd) (fun _ t => do
    let u ← sources s []
    .ok (writeNext u rd (BitVec.ofNat 64 t.coord.bits)))

/-- R176: a release at device scope, and the end of the thread. -/
def execExit (s : State) : Out :=
  asThread s .exit (fun tid _ => .ok (endThread (release s) tid false))

/-- R177: to the tail of its class. -/
def execYield (s : State) : Out :=
  asThread s .yield (fun tid _ => do
    let u ← sources s []
    .ok (u.modThread tid (fun t => { t with stamp := s.clock })).advance)

/-- R170. -/
def execOflush (s : State) : Out :=
  asThread s .oflush (fun tid _ => do
    let u ← sources s []
    if s.cores.any (fun c => c.2.outbox.any (fun m => m.2.thread == tid)) then .error (.wait .outbox) else .ok u.advance)

/-- R377: the counters of a persistent run in the shed where a thread stands are reloaded. -/
def reloadDog (s : State) (t : Thread) : State :=
  match s.runs.get t.run with
  | some r =>
    if r.pers then
      { s with lsheds := s.lsheds.mapVals (fun _ x => if x.run == t.run && x.shed == coreShed t.core then { x with dog := r.beat } else x) }
    else s
  | none => s

/-- R178. -/
def execBeat (s : State) : Out :=
  asThread s .beat (fun _ t => do
    let u ← sources s []
    .ok (reloadDog u t).advance)

/-- R179. One that raises SAFEPOINT has been executed too (R38: UTEPC is after it), and reloads the counters (R377). -/
def execSafept (n : BitVec 16) (s : State) : Out :=
  asThread s (.safept n) (fun _ t => do
    let u ← sources s []
    let r ← curRunOr s (.safept n)
    if r.spcount ≤ n.toNat then .error (wordFault 9 (.safept n))
    let u := reloadDog u t
    if requested s t && !t.hart.intrap then .ok (takeExc u (.trap 7 0 (n.setWidth 64))) else .ok u.advance)

/-! ### Launching -/

/-- A run that has been enqueued and is not yet validated (R180). -/
def Run.queued (hdr part prio : Nat) (stale : Bool) : Run :=
  { hdr := hdr, part := part, prio := prio, state := 1, drop := 0, cause := 0, nly := 0, nls := 0, nlc := 0, nstage := 0,
    det := false, drt := false, pers := false, beat := 0, spad := 0, trees := 0, zclaim := 0, htab := 0, hcount := 0,
    sptab := 0, spcount := 0, utvec := 0, fpctl := 0, seed := ⟨0, 0⟩, jobbase := 0, rings := 0, conds := [], zslots := [],
    phasers := [], preempt := false, frozen := false, descheduled := false, requester := [], ready := false,
    oldest := none, stale := stale, block := 0 }

/-- The queue of a level (R180). -/
def queueOf (s : State) (p prio : Nat) : List Nat := (s.part p).queues.getD prio []

/-- A run id not in use, from the next one on; 0 is no run's (R359). -/
def freshRun (s : State) : Nat :=
  ((List.range (s.runs.length + 1)).map (fun i => (s.nextRun - 1 + i) % (2 ^ 32 - 1) + 1)).find?
    (fun id => (s.runs.get id).isNone) |>.getD s.nextRun

/-- Allot a run id and put the run at the end of its queue; the dispatcher serves it (R180). -/
def enqueueRun (s : State) (p prio hdr : Nat) (stale : Bool) : State × Nat :=
  let id := freshRun s
  let s := { s with nextRun := id % (2 ^ 32 - 1) + 1, runs := s.runs.set id (Run.queued hdr p prio stale) }
  ((s.modPart p (fun x => { x with queues := x.queues.set prio (x.queues.getD prio [] ++ [id]) })).post (.dispatch p), id)

def execLaunch (rd : Reg) (ra : Src) (s : State) : Out :=
  asThread s (.launch rd ra) (fun _ _ => do
    let (u, a) ← op1 s ra
    let ea ← effAddr a 0 8
    let u := release u
    let (u, ctl) ← loadFresh u ea 8
    let prio := ctl / 2 ^ 13 % 8
    let p := s.ctxPart s.ctx
    if 256 ≤ (queueOf u p prio).length then .ok (writeNext u rd (BitVec.allOnes 64))
    else
      let (u, q) ← place u u.ctx .write (ea + 0x68)
      openFrame u q.key
      let (u, id) := enqueueRun u p prio ea (u.value q.key 8 % 8 != 0)
      let u ← store u q (ea + 0x68) (leBytes 8 (id * 2 ^ 32 + 1)) .atOnce
      .ok (writeNext u rd (BitVec.ofNat 64 id)))

end Sys2Proof.Machine
end

