-- ==== Sys2Proof/Machine/Engine.lean ====
section
/-! DEFINITION. The engines' common machinery: the accesses of microcode, the start and the end of tile commands (R256 to R265), submission and observation of jobs (R258, R263), the vector unit's queue (R278, R279) and the work queue (R280). -/

namespace Sys2Proof.Machine

/-! ### Microcode -/

/-- What stops microcode: an end with a status and DETAIL (R262), a fault that is posted (R264), or a wait after which it
goes on where it stands. -/
inductive JExc where
  | stop (status detail : Nat)
  | fault (kind cause addr : Nat)
  | wait
  /-- A wait for a frame that is being moved (R239). -/
  | frame (f : Nat)
  deriving DecidableEq, Repr

/-- What has stopped a step, and the loads that it has made, which it does not make again (R264). -/
structure JStop where
  exc : JExc
  reads : List Read
  deriving DecidableEq, Repr

abbrev JM (α : Type) := Except JStop α

/-- The microcode step starts, with the loads that it made before it stopped. -/
def State.reading (s : State) (l : List Read) : State := { s with reads := ⟨l, []⟩ }

/-- The loads of the step that is being made: those made, and those that it has yet to come to again. -/
def Reads.all (r : Reads) : List Read := r.made.reverse ++ r.old

/-- A step is stopped. -/
def halt {α : Type} (s : State) (e : JExc) : JM α := .error ⟨e, s.reads.all⟩

/-- The place of an access of microcode: a near-space failure ends the command (R262), a global one is a fault (R264). A command
whose queued access is performed leaves the queue of the frame (R240). -/
def jPlace (s : State) (c : Ctx) (acc : Acc) (ea : Nat) (mends : Bool) : JM (State × Place) :=
  let w : Waiter := match c with
    | .unit _ _ _ w => w
    | _ => .nobody
  match placeIn s c acc ea mends with
  | .ok (s', p) => if frameBusy s' w p.key then halt s (.frame (p.key / 2 ^ 16)) else .ok (leaveQueue s' w, p)
  | .error (.trap 2 _ _) => halt s (.stop 4 0)
  | .error (.trap code _ v) => halt s (.fault 9 code v.toNat)
  | .error (.fault kind cause a) => if isNear ea && kind != 8 then halt s (.stop 12 0) else halt s (.fault kind cause a.toNat)
  | .error _ => halt s .wait

/-- A load of microcode, made by f unless the step made it before it stopped: no load is repeated (R264). -/
def jOnce (s : State) (ea n : Nat) (f : State → JM (State × Nat)) : JM (State × Nat) :=
  match s.reads.old with
  | r :: rest =>
    if r.ea = ea ∧ r.n = n then .ok ({ s with reads := ⟨rest, r :: s.reads.made⟩ }, r.v)
    else do
      let (u, v) ← f { s with reads := ⟨[], s.reads.made⟩ }
      .ok ({ u with reads := ⟨[], ⟨ea, n, v⟩ :: u.reads.made⟩ }, v)
  | [] => do
    let (u, v) ← f s
    .ok ({ u with reads := ⟨[], ⟨ea, n, v⟩ :: u.reads.made⟩ }, v)

/-- A load of n bytes that lie in one line, at their home (R256); no copy of the device stays older (R195). -/
def jLoad (s : State) (c : Ctx) (ea n : Nat) : JM (State × Nat) :=
  jOnce s ea n (fun s => do
    let (s, p) ← jPlace s c .read ea false
    .ok (dropUnit s c p, s.value p.key n))

/-- A store of bytes that lie in one line, logged first (R326); `mends` marks a store that is part of one that replaces the whole
line (R379). -/
def jStore (s : State) (c : Ctx) (ea : Nat) (bs : List Byte) (mends : Bool) : JM State := do
  let (s, p) ← jPlace s c .write ea mends
  match logFull s c.lkey p.key bs.length with
  | some k => halt s (.fault 5 k ea)
  | none =>
    let s := if mends then mendLine s (p.key / 64) else s
    .ok (writeHome (logWrite s c.lkey p.key bs.length) p.key bs)

/-- The bytes from an address on that lie together: to the end of the line, or, in interleaved near space, of the dword (R222). -/
def together (ea : Nat) : Nat := if isNear ea && ea / 2 ^ 46 % 4 == 2 then 8 - ea % 8 else 64 - ea % 64

/-- The contiguous bytes that a line takes to be replaced whole: its own 64, or, in interleaved near space, the 512 of which each of eight
scratchpads holds a line (R222). -/
def spread (ea : Nat) : Nat := if isNear ea && ea / 2 ^ 46 % 4 == 2 then 512 else 64

/-- A load of n bytes, in as many accesses as it has pieces that lie together. -/
def jLoadPieces (c : Ctx) : Nat → State → Nat → Nat → JM (State × List Byte)
  | 0, s, _, _ => .ok (s, [])
  | f + 1, s, ea, n =>
    if n = 0 then .ok (s, [])
    else do
      let m := min n (together ea)
      let (s, v) ← jLoad s c ea m
      let (s, r) ← jLoadPieces c f s (ea + m) (n - m)
      .ok (s, leBytes m v ++ r)

def jLoadBytes (s : State) (c : Ctx) (ea n : Nat) : JM (State × List Byte) := jLoadPieces c n s ea n

/-- The pieces of a store, each of which is one access. -/
def Put.pieces : Nat → Put → List Put
  | 0, _ => []
  | f + 1, p =>
    let room := together (p.base + p.off / 8) * 8 - p.off % 8
    if p.n ≤ room then [p]
    else { p with n := room, v := p.v % 2 ^ room } :: Put.pieces f { p with off := p.off + room, n := p.n - room, v := p.v / 2 ^ room }

/-- The bytes that a store begins, which the count of bytes written takes (R261). -/
def Put.count (p : Put) : Nat := (p.off + p.n + 7) / 8 - (p.off + 7) / 8

/-- Make one store: bits that do not fill their bytes leave the others as they are (R118). -/
def jPut (s : State) (c : Ctx) (p : Put) : JM State := do
  let ea := p.base + p.off / 8
  let sh := p.off % 8
  let m := cdiv (sh + p.n) 8
  let line := ea / spread ea * spread ea
  let mends := decide (p.lo ≤ line) && decide (line + spread ea ≤ p.lo + p.len)
  if sh = 0 ∧ p.n % 8 = 0 then jStore s c ea (leBytes m p.v) mends
  else
    let (s, old) ← jLoad s c ea m
    jStore s c ea (leBytes m (old % 2 ^ sh + p.v % 2 ^ p.n * 2 ^ sh + old / 2 ^ (sh + p.n) * 2 ^ (sh + p.n))) mends

/-- The address of an element (R28, R291): it stays within the 52-bit space. -/
def jAddr (s : State) (base off : Nat) : JM Nat := if base + off < 2 ^ 52 then .ok (base + off) else halt s (.fault 9 4 base)

/-- The address of an element that an index forms, which the unit also checks for alignment (R28, R291). -/
def jAddrAligned (s : State) (base off size : Nat) : JM Nat := do
  let a ← jAddr s base off
  if a % size = 0 then .ok a else halt s (.fault 9 5 a)

/-! ### Pointers (R26, R27) -/

def ptrAddr (w : Word) : Nat := bits w 51 0
def ptrFmt (w : Word) : Nat := bits w 63 58
def ptrBlog (w : Word) : Nat := bits w 57 54

/-- R281: bits 53:52 of a pointer fail a field limit. -/
def ptrBad (w : Word) : Bool := bits w 53 52 != 0

/-- R115: the formats lo to hi are accepted. -/
def ptrFmtOk (w : Word) (lo hi : Nat) : Bool := decide (lo ≤ ptrFmt w) && decide (ptrFmt w ≤ hi) && fmtOk (ptrFmt w) (ptrBlog w)

/-! ### The start and the end of a command -/

def portNum (p : Port) : Nat :=
  match p with | .mat => 0 | .copy => 1 | .load => 2 | .store => 3 | .patt => 4 | .wq => 5

/-- R256: the commands that a port has in flight at most. -/
def portCap (p : Port) : Nat :=
  match p with | .mat => 1 | .copy => 8 | .load => 32 | .store => 32 | .patt => 1 | .wq => 1

def Job.cmd (j : Job) : Nat := bits j.w0 7 0
def Job.lkey (j : Job) : Nat := Machine.lkey j.run j.coord.ly j.coord.ls
def VCmd.lkey (v : VCmd) : Nat := Machine.lkey v.run v.coord.ly v.coord.ls
def Job.scope (j : Job) : Scope := match bits j.w0 9 8 with | 0 => .core | 1 => .shed | 2 => .dev | _ => .sys

/-- R70: the port that accepts a code. -/
def cmdPort (c : Nat) : Option Port :=
  match c with
  | 1 | 2 | 3 | 4 | 5 | 6 | 7 => some .mat
  | 0x10 | 0x11 | 0x12 | 0x13 => some .copy
  | 0x20 => some .load
  | 0x28 => some .store
  | 0x30 => some .patt
  | 0x38 => some .wq
  | _ => none

/-- R69, R70: the checks of word 0 that every command shares. -/
def badWord (j : Job) : Bool :=
  let phen := bitAt j.w0 10
  let ph := bits j.w0 31 24
  cmdPort j.cmd != some j.port || bitAt j.w0 11 || (phen && decide (63 < ph)) || (!phen && ph != 0)

/-- The ring that a sub or a drain names (R293). -/
def Job.ringOf (j : Job) : Nat := bits j.w0 63 59

/-- A logical shed holds its physical shed; else its suspended commands are saved with its run (R265). -/
def isResident (s : State) (l : Nat) : Bool :=
  match s.lsheds.get l with
  | some x => x.resident
  | none => false

/-- R277: the partner logical shed of a command that a pair of matrix engines runs. -/
def Job.partner (j : Job) : Option Nat :=
  if j.port == .mat && j.cmd == 1 && bitAt j.w0 13 && j.coord.ls % 2 == 0 then some (Machine.lkey j.run j.coord.ly (j.coord.ls + 1)) else none

/-- The physical sheds whose matrix engines run a command: its own and, for a pair's, that of the partner logical shed (R277). -/
def Job.engines (s : State) (j : Job) : List Nat :=
  coreShed j.core :: (match j.partner with
    | some l => (s.lsheds.get l).toList.map (fun x => x.shed)
    | none => [])

/-- The logical sheds whose accumulator tiles a command changes. -/
def Job.tileOwners (j : Job) : List Nat := j.lkey :: j.partner.toList

/-- A matrix command other than k has begun, in one of some engines, for which p holds. -/
def engineBusy (s : State) (k : Nat) (hs : List Nat) (p : Nat → Bool) : Bool :=
  s.jobs.any (fun q => q.1 != k && q.2.port == .mat && q.2.started && !q.2.ended && p q.1 && isResident s q.2.lkey &&
    (q.2.engines s).any hs.contains)

/-- A matrix command other than k has begun, and has tiles of some logical sheds, suspended or not (R283). -/
def tilesBusy (s : State) (k : Nat) (ls : List Nat) : Bool :=
  s.jobs.any (fun q => q.1 != k && q.2.port == .mat && q.2.started && !q.2.ended && q.2.tileOwners.any ls.contains)

/-- R277, R283: a matrix command waits for what has its engine, and a pair's command for the partner's engine too; one that has begun
waits for those that came before it. The partner logical shed need not be resident: the engine exchanges its tiles. -/
def pairFree (s : State) (k : Nat) (j : Job) : Bool :=
  j.port != .mat || (if j.started then !engineBusy s k (j.engines s) (fun q => decide (q < k))
    else !engineBusy s k (j.engines s) (fun _ => true) && !tilesBusy s k j.tileOwners)

/-- R256: the commands of a port start in arrival order, and no more are in flight than the unit takes. -/
def mayStart (s : State) (k : Nat) (j : Job) : Bool :=
  let before := s.jobs.filter (fun p => decide (p.1 < k) && coreShed p.2.core == coreShed j.core && p.2.port == j.port &&
    isResident s p.2.lkey)
  before.all (fun p => p.2.started) && decide (before.length < portCap j.port) &&
    !((j.port == .load || j.port == .store) && before.any (fun p => p.2.lkey == j.lkey && p.2.ringOf == j.ringOf)) &&
    pairFree s k j

/-- The units of a logical shed work: it is resident, and its device has not stopped (R265, R395). -/
def shedWorks (s : State) (l : Nat) : Bool :=
  match s.lsheds.get l with
  | some x => x.resident && deviceIssues s (shedDev x.shed)
  | none => false

/-- A run's units make steps for a core of a logical shed: they work there and where the core stands, and the run is not frozen
(R377). -/
def unitRuns (s : State) (run l core : Nat) : Bool :=
  (match s.runs.get run with
    | some r => !r.frozen
    | none => true) && shedWorks s l && coreWorks s core

/-- The body of a command has ended: JOB_COMPLETION follows. -/
def finishJob (s : State) (k : Nat) (status detail value : Nat) : State :=
  ((leaveQueue s (.job k)).modJob k (fun j => { j with started := true, ended := true, status := status, detail := detail, value := value })).post
    (.jobDone k)

/-- R358. -/
def faultDetail (kind cause : Nat) : Nat := if kind = 2 then 0x40 + cause else if kind = 3 then 0x20 + cause else kind

/-- R264: a fault that microcode meets is posted on behalf of the run, and the command waits. -/
def faultJob (s : State) (k kind cause addr : Nat) : State :=
  match s.jobs.get k with
  | some j =>
    let f := s.faults.fresh
    let msg : FaultMsg :=
      { who := .job k, svc := designated s (s.ctxPart (j.ctx k)) (shedDev (coreShed j.core)), run := j.run, core := j.core,
        slot := 0, eng := true, tag := j.tag, kind := kind, cause := cause, coord := j.coord, addr := BitVec.ofNat 64 addr,
        pcs := 0, value := BitVec.ofNat 64 j.id, args := [], st := 0, res1 := 0, res2 := 0 }
    postFault (leaveQueue (s.modJob k (fun j => { j with fault := some f, tag := (j.tag + 1) % 256 })) (.job k)) msg
  | none => s

/-- What stops a command's microcode. -/
def stopJob (s : State) (k : Nat) (e : JExc) : State :=
  match e with
  | .stop st d => match s.jobs.get k with
    | some j => finishJob s k st d j.bytes
    | none => s
  | .fault kind cause a => faultJob (meetLink s ((s.jobs.get k).elim 0 (fun j => shedDev (coreShed j.core))) (.fault kind cause 0)) k kind cause a
  | .wait => s.post (.job k)
  | .frame f => (joinQueue s (.job k) f).post (.job k)

/-- R264, R370: a command of a killed run ends with FAULT; the spec states no DETAIL and no VALUE for a command that met
no fault, and they are free (log entry 6). -/
def killJob (s : State) (k : Nat) : State :=
  let a := takeFree s
  let b := takeFree a.1
  finishJob b.1 k 3 (a.2.toNat % 256) b.2.toNat

/-- R199: a command begins with an acquire at its SCOPE: at system scope the device drops its copies of remote lines (R193). -/
def startAcquire (s : State) (j : Job) : State := if j.scope = .sys then dropSlices s (shedDev (coreShed j.core)) else s

/-- A command's microcode outside its loop is stopped: the loads that it has made are kept. -/
def haltJob (s : State) (k : Nat) (e : JStop) : State := stopJob (s.modJob k (fun j => { j with reads := e.reads })) k e.exc

/-- It goes on: the loads of its step are done with. -/
def State.readDone (s : State) (k : Nat) : State := (s.reading []).modJob k (fun j => { j with reads := [] })

/-- A step of a command with code c, if it is enabled: the checks (R281) at its start, and then its microcode. A malformed word
ends at once (R70). An end before the body has DETAIL and VALUE 0 (log entry 115). -/
def runJob (s : State) (k c : Nat) (check : State → Job → Nat) (body : State → Job → State) : State :=
  match s.jobs.get k with
  | some j =>
    if j.ended || j.fault.isSome || j.cmd != c then s
    else if j.killed then killJob s k
    else if !unitRuns s j.run j.lkey j.core then s.post (.job k)
    else if j.started then (if pairFree s k j then body s j else s.post (.job k))
    else if badWord j then finishJob s k 1 0 0
    else if !mayStart s k j then s.post (.job k)
    else match check s j with
      | 0 => body (startAcquire (s.modJob k (fun j => { j with started := true })) j) { j with started := true }
      | st => finishJob s k st 0 0
  | none => s

/-- A word that no command has (R70), whose DETAIL and VALUE are 0 (log entry 115). -/
def badJob (s : State) (k : Nat) : State :=
  match s.jobs.get k with
  | some j =>
    if j.ended || j.fault.isSome then s
    else if j.killed then killJob s k
    else if !unitRuns s j.run j.lkey j.core then s.post (.job k)
    else finishJob s k 1 0 0
  | none => s

/-- A step adds a store, as the accesses that it is made of. -/
def Job.put (j : Job) (p : Put) : Job := { j with todo := j.todo ++ p.pieces (p.n + 1) }

/-- Make stores in order: those that one which stops leaves to be made, with it, and the bytes of the others added to a count. The
loads that the one which stops has made stay in `reads`. -/
def makePuts (c : Ctx) : List Put → State → Nat → State × List Put × Nat × Option JExc
  | [], s, n => (s, [], n, none)
  | p :: r, s, n =>
    match jPut s c p with
    | .ok s' => makePuts c r (s'.reading []) (n + p.count)
    | .error e => (s.reading e.reads, p :: r, n, some e.exc)

/-- A store that lies before an address, where there is one. -/
def Put.before (p : Put) (lim : Option Nat) : Bool := lim.all (fun e => decide (p.base + p.off / 8 < e))

/-- Make the stores of a command's step that lie before an address, where there is one: those before one that stops stand. -/
def flushPuts (c : Ctx) (s : State) (j : Job) (lim : Option Nat) : State × Job × Option JExc :=
  let now := j.todo.takeWhile (fun p => p.before lim)
  match makePuts c now (s.reading j.reads) j.bytes with
  | (u, ps, n, e) => (u.reading [], { j with todo := ps ++ j.todo.drop now.length, bytes := n, reads := u.reads.all }, e)

/-- Microcode as a loop over at most n steps, until it is done: the stores of a step are made before the next step, those of the last one
up to an address, and the progress stands when a step stops. -/
def jobLoop (k : Nat) (done : Job → Bool) (step : State → Job → JM (State × Job)) (lim : Option Nat) :
    Nat → State → Job → State × Option JExc
  | n, s, j =>
    match flushPuts (j.ctx k) s j (if n = 0 then lim else none) with
    | (u, x, some e) => ({ u with jobs := u.jobs.set k x }, some e)
    | (u, x, none) =>
      match n with
      | 0 => ({ u with jobs := u.jobs.set k x }, none)
      | n + 1 =>
        if done x then ({ u with jobs := u.jobs.set k x }, none)
        else match step (u.reading x.reads) { x with reads := [] } with
          | .ok (v, y) => jobLoop k done step lim n (v.reading []) { y with prog := y.prog + 1 }
          | .error e => ({ u with jobs := u.jobs.set k { x with reads := e.reads } }, some e.exc)

/-- Run at most `burst` steps of a command, up to its next step boundary (R265); it ends with OK when it is done. -/
def loopJob (s : State) (k : Nat) (j : Job) (burst : Nat) (lim : Option Nat) (done : Job → Bool)
    (step : State → Job → JM (State × Job)) : State :=
  match jobLoop k done step lim burst s j with
  | (u, some e) => stopJob u k e
  | (u, none) =>
    match u.jobs.get k with
    | some x => if done x && x.todo.isEmpty then stopJob u k (.stop 0 0) else u.post (.job k)
    | none => u

def orJobFlags (j : Job) (f : FpFlags) : Job := { j with flags := j.flags ||| f.toBits }

/-- R261: the completion record. -/
def Job.record (j : Job) : List Byte :=
  leBytes 8 (j.id * 2 ^ 48 + j.status % 256 * 2 ^ 40 + j.detail % 256 * 2 ^ 32 + j.flags.toNat * 2 ^ 27 + 1) ++ leBytes 8 j.value

/-- What becomes of the write of a record: written, not written for a cause of JOB_RECORD (R261), or a fault that the command waits
on (R264, R326, R379). -/
inductive Recorded where
  | written (s : State)
  | failed (cause : Nat)
  | faulted (kind cause addr : Nat)
  /-- The frame of its page is being moved, and it waits (R239). -/
  | moving (f : Nat)

/-- The first region of a logical shed, in order, whose log cannot supply the entries of the marked lines that the two dwords of a record
touch, which in interleaved near space may be two (R222, R326). -/
def recordFull (s : State) (l p q : Nat) : Option Nat :=
  match s.lsheds.get l with
  | some x => (x.regions.find? (fun g =>
      !(g.2.room (80 * (g.2.touched x p 8 ++ (g.2.touched x q 8).filter (fun ln => !(g.2.touched x p 8).contains ln)).length)))).map
        (fun g => g.1)
  | none => none

/-- R261: the record is written at one instant, and each of its dwords is known for one of a command's (R199). A record in a marked line reserves its undo entry as any store of an engine
does (R326). -/
def writeRecord (s : State) (k : Nat) (j : Job) : Recorded :=
  let ea := bits j.jobbase 51 12 * 4096 + 16 * bits j.w0 23 16
  let c := j.ctx k
  match place s c .write ea, place s c .write (ea + 8) with
  | .ok (s', p), .ok (_, q) =>
    if frameBusy s' (.job k) p.key then .moving (p.key / 2 ^ 16)
    else match recordFull s' j.lkey p.key q.key with
    | some r => .faulted 5 r ea
    | none =>
      let by_ := (j.scope, j.run, j.coord)
      let s := { s' with records := (s'.records.set p.key by_).set q.key by_ }
      if q.key = p.key + 8 then .written (writeHome (logWrite s j.lkey p.key 16) p.key j.record)
      else
        let s := writeHome (logWrite s j.lkey p.key 8) p.key (j.record.take 8)
        .written (writeHome (logWrite s j.lkey q.key 8) q.key (j.record.drop 8))
  | .error (.trap ..), _ => .failed 1
  | _, .error (.trap ..) => .failed 1
  | .error (.fault 8 n a), _ => .faulted 8 n a.toNat
  | _, .error (.fault 8 n a) => .faulted 8 n a.toNat
  | _, _ => .failed (if isNear ea then 2 else 0)

/-- The resident threads that wait for a job of a core go on (R182). -/
def wakeJobs (s : State) (core : Nat) : State :=
  let here (t : Thread) : Bool := t.core == core && isResident s t.lkey
  wakeRetry (wakeRetry (wakeRetry s here .job) here .port) here .save

/-- The arrival on the phaser and the detachment from rings (R257), made once. -/
def arriveJob (s : State) (k : Nat) (j : Job) : State × Job :=
  if j.arrived then (s, j)
  else
    let (s, st) := if bitAt j.w0 10 && j.status != 1 then phArrive s j.run j.lkey (bits j.w0 31 24) j.bytes else (s, 0)
    let j := { j with arrived := true, status := if j.status = 0 then st else j.status }
    (settleInvals ((ringDetach s j.lkey (.job k) (j.status != 0)).modJob k (fun _ => j)), j)

/-- The index of a job is freed (R259), and the job is gone. -/
def freeJob (s : State) (k : Nat) (j : Job) : State :=
  let s := s.modCore j.core (fun c => { c with jobs := c.jobs.modify (portNum j.port * 16 + j.id % 16) (fun x =>
    if x.id = j.id then { x with status := j.status, busy := false } else x) })
  checkDone (wakeJobs { leaveQueue s (.job k) with jobs := s.jobs.erase k } j.core) j.run

/-- The report of a record that is not written (R261). -/
def recordReport (s : State) (k : Nat) (j : Job) (cause : Nat) : State :=
  postFault s
    { who := .nobody, svc := designated s (s.ctxPart (j.ctx k)) (shedDev (coreShed j.core)), run := j.run, core := j.core, slot := 0,
      eng := true, tag := j.tag, kind := 12, cause := cause, coord := j.coord,
      addr := BitVec.ofNat 64 (bits j.jobbase 51 12 * 4096 + 16 * bits j.w0 23 16), pcs := 0, value := BitVec.ofNat 64 j.id,
      args := [], st := 0, res1 := 0, res2 := 0 }

/-- R257, R264: a command that has ended, and whose record's write has met a fault that is not resumed: the faulting access is never made,
so that it completes without its record, as one that asked for none; it ends with FAULT, unless it had ended with an error, which it keeps
(log entry 113). -/
def Job.unrecorded (j : Job) (m : FaultMsg) : Job :=
  let j := { j with fault := none, killed := true, jobbase := j.jobbase &&& ~~~1#64 }
  if j.status = 0 then { j with status := 3, detail := faultDetail m.kind m.cause, value := m.addr.toNat } else j

/-- JOB_COMPLETION (R257, R259, R261): the arrival on the phaser, the detachment from rings, the record, and the freeing
of the index. A command of a killed run whose record has met a fault ends without it (R264). -/
def completeJob (s : State) (k : Nat) : State :=
  match s.jobs.get k with
  | some j =>
    if !j.ended || j.fault.isSome then s
    else if !unitRuns s j.run j.lkey j.core then s.post (.jobDone k)
    else
      let (s, j) := arriveJob s k j
      if bitAt j.jobbase 0 then
        match writeRecord s k j with
        | .written s => freeJob s k j
        | .failed cause => freeJob (recordReport s k j cause) k j
        | .moving f => (joinQueue s (.job k) f).post (.jobDone k)
        | .faulted kind cause a => if j.killed then freeJob s k j else stopJob s k (.fault kind cause a)
      else freeJob s k j
  | none => s

def execJobCompletion (j : Nat) (s : State) : Out := .next (completeJob s j)

/-! ### Submitting and observing (R258, R259, R263) -/

def execTcwl (ra rb : Src) (s : State) : Out :=
  asThread s (.tcwl ra rb) (fun tid _ => do
    let (u, a, b) ← op2 s ra rb
    .ok (u.modThread tid (fun t => { t with staged := some ⟨a, b, s.hart.pc⟩ })).advance)

/-- The jobs of a core outstanding at a port. -/
def outstanding (s : State) (core : Nat) (p : Port) : Nat :=
  ((s.core core).jobs.filter (fun x => x.1 / 16 == portNum p && x.2.busy)).length

/-- R259: the lowest free index, with its generation. -/
def allot (s : State) (core : Nat) (p : Port) : Nat × JobSlot :=
  let idx := ((List.range 16).find? (fun i => !((s.core core).jobs.get (portNum p * 16 + i)).any (fun x => x.busy))).getD 0
  let gen := match (s.core core).jobs.get (portNum p * 16 + idx) with
    | some x => x.gen
    | none => 0
  (idx, ⟨(gen + 1) % 64, portNum p * 2 ^ 13 + core % 8 * 2 ^ 10 + gen * 16 + idx, 0, .core, true⟩)

def execTcwh (p : Port) (rd : Reg) (ra rb : Src) (s : State) : Out :=
  asThread s (.tcwh p rd ra rb) (fun tid t => do
    match t.staged with
    | none => .error (illegalWord (Instr.tcwh p rd ra rb).word)
    | some g =>
      let (u, a, b) ← op2 s ra rb
      if 16 ≤ outstanding s t.core p then .error (.wait .port)
      let u := release u
      let (idx, slot) := allot s t.core p
      let j : Job :=
        { id := slot.id, port := p, core := t.core, w0 := g.w0, w1 := g.w1, w2 := a, w3 := b, jobbase := t.jobbase,
          run := t.run, coord := t.coord, thread := tid, started := false, prog := 0, ended := false, status := 0,
          detail := 0, flags := 0, value := 0, bytes := 0, reads := [], fault := none, killed := false, tag := 0, counts := [], hold := [],
          opA := none, opB := none, cursor := (0, 0, 0), todo := [], arrived := false }
      let k := u.nextKey
      let u := { u with nextKey := k + 1, jobs := u.jobs.set k j }
      let u := u.modCore t.core (fun c => { c with jobs := c.jobs.set (portNum p * 16 + idx) { slot with scope := j.scope } })
      let u := u.modThread tid (fun t => { t with staged := none, unseen := t.unseen ++ [j.id] })
      .ok (writeNext (u.post (.job k)) rd (BitVec.ofNat 64 slot.id)))

/-- The last allotment of the index that a job id names. -/
def jobSlot (s : State) (core id : Nat) : Option JobSlot := (s.core core).jobs.get (id / 2 ^ 13 % 8 * 16 + id % 16)

/-- A job has been observed complete (R174). -/
def observed (s : State) (tid id : Nat) : State :=
  s.modThread tid (fun t => { t with unseen := t.unseen.filter (fun x => x != id) })

def execJpoll (rd : Reg) (ra : Src) (s : State) : Out :=
  asThread s (.jpoll rd ra) (fun tid t => do
    let (u, a) ← op1 s ra
    let id := bits a 15 0
    if id / 2 ^ 10 % 8 ≠ t.core % 8 then .ok (writeNext u rd 2)
    else match (jobSlot s t.core id).filter (fun x => x.id == id) with
      | some x =>
        if x.busy then .ok (writeNext u rd 0)
        else .ok (writeNext (observed (acquire u x.scope) tid id) rd (BitVec.ofNat 64 (x.status * 256 + 1)))
      | none => .ok (writeNext (observed (acquire u .sys) tid id) rd 1))

def execJwait (ra : Src) (s : State) : Out :=
  asThread s (.jwait ra) (fun tid t => do
    let (u, a) ← op1 s ra
    let id := bits a 15 0
    if id / 2 ^ 10 % 8 ≠ t.core % 8 then .ok u.advance
    else match (jobSlot s t.core id).filter (fun x => x.id == id) with
      | some x =>
        if x.busy then .error (.wait .job)
        else .ok (observed (acquire u x.scope) tid id).advance
      | none => .ok (observed (acquire u .sys) tid id).advance)

/-! ### The vector unit's queue (R278, R279) -/

/-- R297 to R299: the formats of a vector operation. -/
def vopFmtOk (op f : Nat) : Bool :=
  match op with
  | 0x01 | 0x02 | 0x03 | 0x04 | 0x05 | 0x06 | 0x07 | 0x13 | 0x10 | 0x11 | 0x12 => decide (1 ≤ f) && decide (f ≤ 4)
  | 0x08 => decide (1 ≤ f) && decide (f ≤ 14)
  | 0x09 => decide (2 ≤ f) && decide (f ≤ 4)
  | 0x14 | 0x20 | 0x21 => decide (f ≤ 6) || f == 8 || (decide (15 ≤ f) && decide (f ≤ 17))
  | 0x22 => f == 1 || f == 2
  | 0x23 => f == 0
  | 0x24 => decide (15 ≤ f) && decide (f ≤ 17)
  | 0x25 => decide (f ≤ 18)
  | _ => false

/-- R72: a ring handle with bits 14:5 set. -/
def handleBad (h : Nat) : Bool := decide (2 ^ 15 ≤ h) && h / 32 % 1024 != 0

/-- R73: what vop checks when it issues. -/
def vopBad (a b : Word) : Bool :=
  bits a 63 40 != 0 || bits a 15 14 != 0 || !vopFmtOk (bits a 7 0) (bits a 13 8) ||
    handleBad (bits b 15 0) || handleBad (bits b 31 16) || handleBad (bits b 47 32)

/-- The vector commands of a core that have not finished, with keys below a limit. -/
def vBusy (s : State) (core upto : Nat) : Nat := (s.vcmds.filter (fun p => p.2.core == core && decide (p.1 < upto) && isResident s p.2.lkey)).length

def execVop (ra rb : Src) (s : State) : Out :=
  asThread s (.vop ra rb) (fun tid t => do
    let (u, a, b) ← op2 s ra rb
    if vopBad a b then .error (illegalWord (Instr.vop ra rb).word)
    if 8 ≤ vBusy s t.core s.nextKey then .error (.wait .vector)
    let k := s.nextKey
    let v : VCmd := { core := t.core, run := t.run, coord := t.coord, thread := tid, word := (Instr.vop ra rb).word, opw := a, opd := b, ended := false,
                      status := 0, flags := 0, fault := none, killed := false, tag := 0, points := none, held := none }
    let u := release u
    .ok ({ u with nextKey := k + 1, vcmds := u.vcmds.set k v }.post (.vcmd k)).advance)

def execVbusy (rd : Reg) (s : State) : Out :=
  asThread s (.vbusy rd) (fun tid t => do
    let u ← sources s []
    let w := t.vErr * 2 ^ 16 + t.vFlags.toNat * 2 ^ 8 + b2n (decide (0 < vBusy s t.core s.nextKey))
    .ok (writeNext (u.modThread tid (fun t => { t with vErr := 0, vFlags := 0 })) rd (BitVec.ofNat 64 w)))

/-- R279: vfence parks until the core's earlier vector commands have finished, and then acquires at shed scope. -/
def execVfence (s : State) : Out :=
  asThread s .vfence (fun tid t => do
    let u ← sources s []
    if vBusy s t.core s.nextKey = 0 then .ok (acquire u .shed).advance
    else .ok (u.modThread tid (fun t => { t with park := .vfence s.nextKey })))

/-- A vector command of a core has finished: the parked vfences and stalled vops of its resident threads go on, and the rsrings of
its shed that wait for it (R139). -/
def wakeVector (s : State) (core : Nat) : State :=
  let done := s.threads.filter (fun p => p.2.core == core && isResident s p.2.lkey && (match p.2.park with
    | .vfence upto => vBusy s core upto == 0
    | _ => false))
  let s := done.foldl (fun s p =>
    acquireT (s.modThread p.1 (fun t => { t with hart := { t.hart with pc := t.hart.pc + 4 }, park := .none })) p.1 .shed) s
  wakeRetry (wakeRetry s (fun t => coreShed t.core == coreShed core && isResident s t.lkey) .vector)
    (fun t => t.core == core && isResident s t.lkey) .save

/-! ### The work queue (R280, R295) -/

/-- The word of ftile for the tile at the cursor (R280). -/
def tileWord (x : Tiling) : Word :=
  let nr := cdiv x.rows x.trows
  let nc := cdiv x.cols x.tcols
  if nr * nc ≤ x.cursor then BitVec.ofNat 64 (2 ^ 63)
  else
    let r := if x.colMajor then x.cursor % nr else x.cursor / nc
    let c := if x.colMajor then x.cursor / nr else x.cursor % nc
    BitVec.ofNat 64 (r * 2 ^ 42 + c * 2 ^ 28 + min x.trows (x.rows - r * x.trows) * 2 ^ 14 + min x.tcols (x.cols - c * x.tcols))

def execFtile (rd : Reg) (ra : Src) (s : State) : Out :=
  asThread s (.ftile rd ra) (fun _ t => do
    let (u, a) ← op1 s ra
    match (s.lsheds.get t.lkey).bind (fun x => x.tilings.get (bits a 3 0)) with
    | none => .ok (writeNext u rd (BitVec.ofNat 64 (2 ^ 62)))
    | some x =>
      let u := u.modLShed t.lkey (fun l => { l with tilings := l.tilings.set (bits a 3 0) { x with cursor := x.cursor + 1 } })
      .ok (writeNext u rd (tileWord x)))

/-- R295: the field limits. -/
def wqBad (j : Job) : Bool :=
  let rows := bits j.w1 63 32
  let cols := bits j.w1 31 0
  let tr := bits j.w2 27 14
  let tc := bits j.w2 13 0
  bits j.w0 63 36 != 0 || bits j.w0 15 13 != 0 || bits j.w2 63 28 != 0 || j.w3 != 0 ||
    rows == 0 || cols == 0 || tr == 0 || tc == 0 ||
    decide (16384 < cdiv rows tr) || decide (16384 < cdiv cols tc)

/-- wqdef (R295). -/
def wqBody (k : Nat) (s : State) (j : Job) : State :=
  let x : Tiling := ⟨bitAt j.w0 12, bits j.w1 63 32, bits j.w1 31 0, bits j.w2 27 14, bits j.w2 13 0, 0⟩
  finishJob (s.modLShed j.lkey (fun l => { l with tilings := l.tilings.set (bits j.w0 35 32) x })) k 0 0 0

def execWqdef (j : Nat) (s : State) : Out := .next (runJob s j 0x38 (fun _ x => if wqBad x then 1 else 0) (wqBody j))

end Sys2Proof.Machine
end

