-- ==== Sys2Proof/Machine/Tiles.lean ====
section
/-! DEFINITION. The matrix engine's sums and commands (R276, R277, R283 to R289), the copy unit's commands (R291, R292) and the loader's and storer's (R274, R275, R293). -/

namespace Sys2Proof.Machine

/-! ### Elements in memory (R118, R282) -/

/-- The bytes of n elements of a format. -/
def elemBytes (code n : Nat) : Nat := if code = 14 then cdiv n 8 * 2 else cdiv (n * fmtBits code 8) 8

/-- The raw bits of element i of an array. -/
def loadElem (s : State) (c : Ctx) (base code i : Nat) : JM (State × Nat) := do
  let b := fmtBits code 8
  if code = 14 then
    let a ← jAddr s base (i / 8 * 2)
    let (s, bs) ← jLoadBytes s c a 2
    .ok (s, leVal bs)
  else if b = 4 then
    let a ← jAddr s base (i / 2)
    let (s, bs) ← jLoadBytes s c a 1
    .ok (s, leVal bs / 16 ^ (i % 2) % 16)
  else
    let a ← jAddr s base (i * (b / 8))
    let (s, bs) ← jLoadBytes s c a (b / 8)
    .ok (s, leVal bs)

/-- The store of the raw bits of element i of an array; the other nibble of a byte is left unchanged (R118). The contiguous
destination that it belongs to has `len` bytes from `lo` on. -/
def elemPut (s : State) (base code i v lo len : Nat) : JM Put := do
  let b := fmtBits code 8
  let _ ← jAddr s base (i * b / 8)
  .ok ⟨base, i * b, b, v, lo, len⟩

/-- The value of element i of a raw pattern under its scale. -/
def rawVal (fpctl code i raw scale : Nat) : FpVal := if code = 14 then lq2Val raw i scale else elemVal fpctl code raw scale

def State.fpctlOf (s : State) (run : Nat) : Nat :=
  match s.runs.get run with
  | some r => r.fpctl
  | none => 0

def State.seedOf (s : State) (run : Nat) : Seed :=
  match s.runs.get run with
  | some r => r.seed
  | none => ⟨0, 0⟩

/-- R122, R123: the mode that a code names: 0 RNE, 1 RZ, 2 SR of element i under a key. -/
def unitMode (sd : Seed) (m key i : Nat) : RMode :=
  match m with
  | 0 => .rne
  | 1 => .rz
  | _ => .sr (srUnit sd key i)

/-! ### Matrix sums (R276) -/

/-- An exact product; a NaN marked signalling sets NV: a signalling operand, or 0 × ∞. -/
def prodOf (a b : FpVal) : FpVal :=
  match a, b with
  | .nan x, .nan y => .nan (x || y)
  | .nan x, _ => .nan x
  | _, .nan y => .nan y
  | .inf _, .zero _ | .zero _, .inf _ => .nan true
  | .inf n, b => .inf (n != b.isNeg)
  | a, .inf n => .inf (a.isNeg != n)
  | .zero n, b => .zero (n != b.isNeg)
  | a, .zero n => .zero (a.isNeg != n)
  | .fin n m e, .fin n' m' e' => .fin (n != n') (m * m') (e + e')

/-- R276: the IEEE sum of the products kept aside. Infinities of both signs set NV, beside a quiet NaN too (log entry 121). -/
def keptSum (ps : List FpVal) : FpVal × FpFlags :=
  let pos := ps.any (fun p => match p with | .inf false => true | _ => false)
  let neg := ps.any (fun p => match p with | .inf true => true | _ => false)
  if ps.any FpVal.isSnan || (pos && neg) then (.nan false, FpFlags.invalid)
  else if ps.any FpVal.isNan then (.nan false, {})
  else (.inf neg, {})

/-- acc := rne32(acc + x), with the FP32 result-flush bit. -/
def accAdd (fl : Bool) (acc : Nat) (x : FpVal) : Nat × FpFlags := fpAdd fp32F .rne fl (fp32F.decode acc) x

/-- acc := rne32(acc + rne32(s × 2^(E − 23))). -/
def promote (fl : Bool) (acc : Nat) (sum e : Int) : Nat × FpFlags :=
  if sum = 0 then accAdd fl acc (.zero false)
  else
    let r := roundTo fp32F .rne fl ⟨decide (sum < 0), sum.natAbs, e - 23, false⟩
    let q := accAdd fl acc (fp32F.decode r.1)
    (q.1, r.2.or q.2)

/-- The signed window value w of a product. -/
def windowOf (e : Int) (p : FpVal) : Int :=
  match p with
  | .fin n m x =>
    let sh := 23 - e + x
    let w : Nat := if 0 ≤ sh then m * 2 ^ sh.toNat else m / 2 ^ (-sh).toNat
    if n then -(w : Int) else w
  | _ => 0

/-- One k-block of R276. -/
def blockSum (fl : Bool) (acc : Nat) (ps : List FpVal) : Nat × FpFlags :=
  let e : Int := match ps.filterMap FpVal.expo with
    | [] => 0
    | x :: xs => xs.foldl max x
  let kept := ps.filter (fun p => match p with | .nan _ | .inf _ => true | _ => false)
  let r := ps.foldl (fun (a : Nat × FpFlags × Int) p =>
    let w := windowOf e p
    if a.2.2 + w < -(2 ^ 27) || (2 ^ 27 : Int) - 1 < a.2.2 + w then
      let q := promote fl a.1 a.2.2 e
      (q.1, a.2.1.or q.2, w)
    else (a.1, a.2.1, a.2.2 + w)) (acc, {}, 0)
  match kept with
  | [] => if r.2.2 = 0 then (r.1, r.2.1) else
      let q := promote fl r.1 r.2.2 e
      (q.1, r.2.1.or q.2)
  | _ =>
    let x := keptSum kept
    let q := accAdd fl r.1 x.1
    (q.1, r.2.1.or (x.2.or q.2))

/-- R276: k-blocks of P products, in increasing k. -/
def dotSum (fl : Bool) (p : Nat) : Nat → Nat → List FpVal → Nat × FpFlags
  | 0, acc, _ => (acc, {})
  | n + 1, acc, ps =>
    match ps with
    | [] => (acc, {})
    | _ =>
      let r := blockSum fl acc (ps.take p)
      let q := dotSum fl p n r.1 (ps.drop p)
      (q.1, r.2.or q.2)

/-! ### Accumulator tiles (R283) -/

/-- The key of element (i, j) of a result of width n that starts at tile t0. -/
def accKey (t0 n i j : Nat) : Nat := (t0 + i / 32 * cdiv n 32 + j / 32) * 1024 + i % 32 * 32 + j % 32

/-- The last tile that a result uses. -/
def lastTile (t0 m n : Nat) : Nat := t0 + cdiv m 32 * cdiv n 32 - 1

def accGet (s : State) (l k : Nat) : Nat :=
  match s.lsheds.get l with
  | some x => (x.acc.getD k 0#32).toNat
  | none => 0

def accSet (s : State) (l k v : Nat) : State :=
  s.modLShed l (fun x => { x with acc := if v % 2 ^ 32 = 0 then x.acc.erase k else x.acc.set k (BitVec.ofNat 32 v) })

/-! ### Ring operands (R285 to R287) -/

def opRing (w : Word) : Nat := bits w 49 45
def opSeq (w : Word) : Nat := bits w 31 0

/-- R286: the groups of formats that pair. -/
def pairGroup (code : Nat) : Nat :=
  match code with
  | 4 => 1 | 3 => 2 | 5 | 6 => 3 | 10 | 11 => 4 | 13 => 5 | 8 => 6 | 7 => 7 | 12 | 14 => 8 | _ => 0

/-- R281: a ring that a command names is claimed and defined. -/
def ringOk (s : State) (j : Job) (q : Nat) : Bool := ringClaimed s j.run q && (ringGet s j.lkey q).st != 0

/-- R285: an operand word's limits; K is that of word 1. -/
def opBad (s : State) (j : Job) (w : Word) (k : Nat) : Bool :=
  bits w 53 50 != 0 || !ringOk s j (opRing w) ||
    (fmtOk (ptrFmt w) (ptrBlog w) && fmtScaled (ptrFmt w) && k % blockLen (ptrFmt w) (ptrBlog w) != 0)

/-- The bytes of a row or a column of K elements. -/
def rowBytes (w : Word) (k : Nat) : Nat := elemBytes (ptrFmt w) k

/-- R285: an operand of some rows fits one slot of its ring; one whose FMT gives no element size is measured at 8 bits an element (log
entry 86). -/
def opFits (s : State) (j : Job) (w : Word) (rows k : Nat) : Bool :=
  decide (rows * rowBytes w k ≤ (ringGet s j.lkey (opRing w)).slotBytes)

def fmtPair (a b : Word) : Bool :=
  fmtOk (ptrFmt a) (ptrBlog a) && fmtOk (ptrFmt b) (ptrBlog b) && pairGroup (ptrFmt a) != 0 &&
    pairGroup (ptrFmt a) == pairGroup (ptrFmt b)

/-- take() of R287, with the pairing of scales of R275, by the tag alone whoever filled the slot (log entry 124): the slot's bytes and its
scales. -/
def takeOp (s : State) (id : Nat) (j : Job) (w : Word) (rows k expect : Nat) : JM (State × Tile) := do
  let r := ringGet s j.lkey (opRing w)
  if r.st = 3 then halt s (.stop 5 0)
  if r.filled = 0 then halt s (if r.st = 2 then .stop 6 0 else .wait)
  let scaled := fmtScaled (ptrFmt w)
  let seq := r.seq.getD (r.head % r.slots) r.head
  if scaled && !(seq == expect && (match r.scales with
      | g :: _ => g.1 == expect
      | [] => false)) then halt s (.stop 9 (expect % 256))
  let (s, b) ← jLoadBytes s (j.ctx id) (r.slotAddr r.head) (rows * rowBytes w k)
  .ok (s, ⟨b, if scaled then (r.scales.headD (0, [])).2 else []⟩)

/-- A command ended with SCALE_SEQ breaks the ring (R275). -/
def breakOn (s : State) (j : Job) (w : Word) (e : JStop) : State :=
  match e.exc with
  | .stop 9 _ => ringSet s j.lkey (opRing w) { ringGet s j.lkey (opRing w) with st := 3 }
  | _ => s

/-- A tile is taken: HEAD moves on, and the scale group that it was paired with leaves the side band (R275, R287). -/
def popOp (s : State) (j : Job) (w : Word) : State :=
  let r := ringGet s j.lkey (opRing w)
  if r.filled = 0 then s
  else
    let seq := r.seq.getD (r.head % r.slots) r.head
    ringSet s j.lkey (opRing w) (if fmtScaled (ptrFmt w) then (r.consume 1).dropGroup seq else r.consume 1)

/-- Element k of row r of an operand's bytes (R118, R285). -/
def opElem (fpctl : Nat) (w : Word) (kk : Nat) (b : List Byte) (scales : List Nat) (r k : Nat) : FpVal :=
  let code := ptrFmt w
  let rb := rowBytes w kk
  let at_ (o n : Nat) : Nat := leVal ((b.drop (r * rb + o)).take n)
  let l := blockLen code (ptrBlog w)
  let sc := if fmtScaled code then scales.getD (r * cdiv kk l + k / l) 0 else 0
  let raw := if code = 14 then at_ (k / 8 * 2) 2
    else match fmtBits code 8 with
      | 4 => at_ (k / 2) 1 / 16 ^ (k % 2) % 16
      | n => at_ (k * (n / 8)) (n / 8)
  rawVal fpctl code k raw sc

/-- INT8 element k of row r. -/
def opInt (w : Word) (kk : Nat) (b : List Byte) (r k : Nat) : Int := sval (leVal ((b.drop (r * rowBytes w kk + k)).take 1)) 8

/-- The products of one result element for the n values of k from k0 on, added to its accumulator (R276): its new word and flags. -/
def accStep (fpctl : Nat) (wa wb : Word) (kk k0 n : Nat) (a b : Tile) (acc i j : Nat) : Nat × FpFlags :=
  let ks := range k0 n
  if ptrFmt wa = 8 then
    let v : Int := ks.foldl (fun v k => v + opInt wa kk a.bytes i k * opInt wb kk b.bytes j k) (acc : Int)
    ((v % 2 ^ 32).toNat, {})
  else
    blockSum (resFlush fpctl 2) acc (ks.map (fun k =>
      prodOf (opElem fpctl wa kk a.bytes a.scales i k) (opElem fpctl wb kk b.bytes b.scales j k)))

/-- One k-block of some rows of a result, added in the tiles of a logical shed: the n values of k from k0 on, rows i0 on of a
result of width nn at t0, from column j0 of B. -/
def accRows (s : State) (l : Nat) (fpctl : Nat) (zero : Bool) (t0 nn j0 : Nat) (wa wb : Word) (kk k0 n : Nat) (a b : Tile)
    (i0 rows : Nat) : State × FpFlags :=
  (List.range rows).foldl (fun x i =>
    (List.range nn).foldl (fun (x : State × FpFlags) c =>
      let key := accKey t0 nn (i0 + i) c
      let r := accStep fpctl wa wb kk k0 n a b (if zero && k0 == 0 then 0 else accGet x.1 l key) (i0 + i) (j0 + c)
      (accSet x.1 l key r.1, x.2.or r.2)) x) (s, {})

/-- R284: the promotion block. -/
def promBlock (pb : Nat) : Nat := match pb with | 0 => 32 | 1 => 16 | 2 => 64 | 3 => 128 | _ => 256

def Job.mg (j : Job) : Nat := bits j.w0 63 57 + 1
def Job.nn (j : Job) : Nat := bits j.w0 56 48 + 1
def Job.t0 (j : Job) : Nat := bits j.w0 47 43
def Job.pb (j : Job) : Nat := bits j.w0 42 40
def Job.kk (j : Job) : Nat := bits j.w1 44 32 + 1

/-- The k-blocks of a product (R276). -/
def Job.blocks (j : Job) : Nat := cdiv j.kk (promBlock j.pb)

/-- The values of k of block b: the first and their number. -/
def Job.block (j : Job) (b : Nat) : Nat × Nat := (b * promBlock j.pb, min (promBlock j.pb) (j.kk - b * promBlock j.pb))

/-- R277: the partner logical shed lies within GRID and the command comes from an even one. -/
def partnerOk (s : State) (j : Job) : Bool :=
  j.coord.ls % 2 == 0 && (match s.runs.get j.run with
    | some r => decide (j.coord.ls + 1 ≤ r.nls)
    | none => false)

/-- The checks of mmul (R281, R284 to R287): BADCMD, then PAIR, then BADFMT (log entry 122). -/
def mmulCheck (s : State) (j : Job) : Nat :=
  let pair := bitAt j.w0 13
  if bits j.w0 39 32 != 0 || bitAt j.w0 15 || bitAt j.w0 14 || decide (4 < j.pb) || j.w3 != 0 ||
      (decide (256 < j.nn) != pair) || decide (31 < lastTile j.t0 j.mg (min j.nn 256)) ||
      (pair && decide (31 < lastTile j.t0 j.mg (j.nn - 256))) ||
      j.kk % 32 != 0 || bits j.w2 44 32 != 0 || opBad s j j.w1 j.kk || opBad s j j.w2 j.kk ||
      !opFits s j j.w1 j.mg j.kk || !opFits s j j.w2 j.nn j.kk then 1
  else if pair && !partnerOk s j then 11
  else if !fmtPair j.w1 j.w2 then 2
  else 0

/-- One k-block of an mmul, in its own tiles and, for a pair, in the partner's (R277). -/
def mmulBlock (s : State) (j : Job) (a b : Tile) : State × FpFlags :=
  let x := j.block j.prog
  let r := accRows s j.lkey (s.fpctlOf j.run) (bitAt j.w0 12) j.t0 (min j.nn 256) 0 j.w1 j.w2 j.kk x.1 x.2 a b 0 j.mg
  if bitAt j.w0 13 then
    let q := accRows r.1 (lkey j.run j.coord.ly (j.coord.ls + 1)) (s.fpctlOf j.run) (bitAt j.w0 12) j.t0 (j.nn - 256) 256 j.w1 j.w2
      j.kk x.1 x.2 a b 0 j.mg
    (q.1, r.2.or q.2)
  else r

/-- An operand is not there yet, and its ring may still give it. -/
def opAwaited (s : State) (j : Job) (w : Word) : Bool :=
  let r := ringGet s j.lkey (opRing w)
  r.st == 1 && r.filled == 0

/-- mmul takes B, once A has been taken. -/
def mmulTakeB (k : Nat) (s : State) (j : Job) : State :=
  if opAwaited s j j.w2 then s.post (.job k)
  else match takeOp (s.reading j.reads) k j j.w2 j.nn j.kk (opSeq j.w2) with
    | .error e => haltJob (breakOn s j j.w2 e) k e
    | .ok (u, b) => ((u.readDone k).modJob k (fun x => { x with opB := some b })).post (.job k)

/-- mmul (R287): it takes A and then B, each when it is there, and then goes on k-block by k-block (R265). One ring for both advances
twice, where it has two filled slots (log entry 32). -/
def mmulBody (k : Nat) (s : State) (j : Job) : State :=
  match j.opA, j.opB with
  | some a, some b =>
    let r := mmulBlock s j a b
    let s := r.1.modJob k (fun x => { orJobFlags x r.2 with prog := j.prog + 1 })
    if j.prog + 1 < j.blocks then s.post (.job k) else finishJob (popOp (popOp s j j.w1) j j.w2) k 0 0 0
  | some _, none => mmulTakeB k s j
  | none, _ =>
    if opAwaited s j j.w1 then s.post (.job k)
    else match takeOp (s.reading j.reads) k j j.w1 j.mg j.kk (opSeq j.w1) with
    | .error e => haltJob (breakOn s j j.w1 e) k e
    | .ok (u, a) =>
      let j := { j with opA := some a, reads := [] }
      mmulTakeB k ((u.readDone k).modJob k (fun _ => j)) j

def execMmul (j : Nat) (s : State) : Out := .next (runJob s j 0x01 mmulCheck (mmulBody j))

/-- The checks of mmulg (R288). -/
def mmulgCheck (s : State) (j : Job) : Nat :=
  if bits j.w0 39 32 != 0 || bits j.w0 15 13 != 0 || decide (4 < j.pb) || decide (256 < j.nn) || ptrBad j.w3 ||
      j.kk % 32 != 0 || bits j.w2 44 32 != 0 || opBad s j j.w1 j.kk || opBad s j j.w2 j.kk ||
      !opFits s j j.w2 j.nn j.kk then 1
  else if !fmtPair j.w1 j.w2 || !ptrFmtOk j.w3 0 0 then 2
  else 0

/-- The count list of an mmulg. -/
def loadCounts (s : State) (c : Ctx) (base : Nat) : Nat → JM (State × List Nat)
  | 0 => .ok (s, [])
  | n + 1 => do
    let a ← jAddr s base 0
    let (s, b) ← jLoadBytes s c a 2
    let (s, r) ← loadCounts s c (base + 2) n
    .ok (s, leVal b :: r)

/-- The first group at which the rows pass the bound (R288). -/
def groupOver (j : Job) (ns : List Nat) : Option Nat :=
  (List.range ns.length).find? (fun g =>
    let m := (ns.take (g + 1)).foldl (· + ·) 0
    decide (128 < m) || (decide (0 < m) && decide (31 < lastTile j.t0 m j.nn)))

def groupRow (ns : List Nat) (g : Nat) : Nat := (ns.take g).foldl (· + ·) 0

/-- A group of no rows (R288): a slot of B that carries its number is passed over, unread. -/
def skipGroup (s : State) (j : Job) (seq : Nat) : State :=
  let r := ringGet s j.lkey (opRing j.w2)
  if 0 < r.filled && r.seq.getD (r.head % r.slots) r.head == seq then
    ringSet s j.lkey (opRing j.w2) { (r.consume 1).dropGroup seq with skips := r.skips.filter (fun x => x != seq) }
  else s

/-- The next step of an mmulg's groups (R288): step g × (k-blocks) + b is k-block b of group g, whose B operand is taken before its
first block and popped after its last. -/
def groupStep (k : Nat) (s : State) (j : Job) (a : Tile) : State :=
  let g := j.prog / j.blocks
  let b := j.prog % j.blocks
  let n := j.counts.getD g 0
  let seq := (opSeq j.w2 + g) % 2 ^ 32
  if n = 0 then ((skipGroup s j seq).modJob k (fun x => { x with prog := (g + 1) * j.blocks })).post (.job k)
  else match j.opB with
    | none =>
      match takeOp (s.reading j.reads) k j j.w2 j.nn j.kk seq with
      | .error e => haltJob (breakOn s j j.w2 e) k e
      | .ok (s, t) => ((s.readDone k).modJob k (fun x => { x with opB := some t })).post (.job k)
    | some t =>
      let r := accRows s j.lkey (s.fpctlOf j.run) (bitAt j.w0 12) j.t0 j.nn 0 j.w1 j.w2 j.kk (j.block b).1 (j.block b).2 a t
        (groupRow j.counts g) n
      let last := b + 1 == j.blocks
      let s := r.1.modJob k (fun x => { orJobFlags x r.2 with prog := j.prog + 1, opB := if last then none else x.opB })
      (if last then popOp s j j.w2 else s).post (.job k)

/-- mmulg (R288): first the counts, then the A slot, then group by group. -/
def mmulgBody (k : Nat) (s : State) (j : Job) : State :=
  if j.counts.isEmpty then
    match loadCounts (s.reading j.reads) (j.ctx k) (ptrAddr j.w3) j.mg with
    | .error e => haltJob s k e
    | .ok (s, ns) =>
      let s := s.readDone k
      match groupOver j ns with
      | some g => finishJob s k 10 (g % 256) 0
      | none =>
        if !opFits s j j.w1 (groupRow ns j.mg) j.kk then finishJob s k 1 0 0
        else
          let r := ringGet s j.lkey (opRing j.w2)
          let skips := ((List.range j.mg).filter (fun g => ns.getD g 0 == 0)).map (fun g => (opSeq j.w2 + g) % 2 ^ 32)
          let s := ringSet s j.lkey (opRing j.w2) { r with skips := r.skips ++ skips }
          (s.modJob k (fun x => { x with counts := ns })).post (.job k)
  else match j.opA with
    | none =>
      match takeOp (s.reading j.reads) k j j.w1 (groupRow j.counts j.mg) j.kk (opSeq j.w1) with
      | .error e => haltJob (breakOn s j j.w1 e) k e
      | .ok (s, a) => ((s.readDone k).modJob k (fun x => { x with opA := some a })).post (.job k)
    | some a => if j.prog < j.mg * j.blocks then groupStep k s j a else finishJob (popOp s j j.w1) k 0 0 0

def execMmulg (j : Nat) (s : State) : Out := .next (runJob s j 0x02 mmulgCheck (mmulgBody j))

/-! ### Moving accumulator tiles (R289) -/

def accLimits (j : Job) (pbMax : Nat) : Bool :=
  bits j.w0 39 32 != 0 || bitAt j.w0 15 || bits j.w0 13 12 != 0 || decide (pbMax < j.pb) || decide (256 < j.nn) ||
    decide (31 < lastTile j.t0 j.mg j.nn)

def acczBody (k : Nat) (s : State) (j : Job) : State :=
  let s := (List.range j.mg).foldl (fun s i => (List.range j.nn).foldl (fun s c => accSet s j.lkey (accKey j.t0 j.nn i c) 0) s) s
  finishJob s k 0 0 0

def execAccz (j : Nat) (s : State) : Out :=
  .next (runJob s j 0x03 (fun _ x => if accLimits x 0 || x.w1 != 0 || x.w2 != 0 || x.w3 != 0 then 1 else 0) (acczBody j))

/-- R289: the limits of words 1 to 3 of accld and accst. -/
def accPtrBad (j : Job) : Bool :=
  ptrBad j.w1 || bits j.w2 39 32 != 0 || bits j.w3 63 52 != 0 ||
    (j.w3 != 0 && !(decide (10 ≤ ptrFmt j.w1) && decide (ptrFmt j.w1 ≤ 13)))

/-- R289: the scale of element (i, c) of a row-blocked MX operand. -/
def rowScale (s : State) (id : Nat) (j : Job) (i c : Nat) : JM (State × Nat) := do
  let code := ptrFmt j.w1
  if fmtScaled code then
    let l := blockLen code (ptrBlog j.w1)
    let a ← jAddr s (bits j.w3 51 0) (i * cdiv j.nn l + c / l)
    let (s, b) ← jLoadBytes s (j.ctx id) a 1
    .ok (s, leVal b)
  else .ok (s, 0)

/-- accld of element e = i × N + j (R289). -/
def accldStep (id : Nat) (s : State) (j : Job) : JM (State × Job) := do
  let i := j.prog / j.nn
  let c := j.prog % j.nn
  let code := ptrFmt j.w1
  let key := accKey j.t0 j.nn i c
  let base ← jAddr s (ptrAddr j.w1) (i * bits j.w2 31 0)
  if code = 0 then
    let a ← jAddr s base (4 * c)
    let (s, b) ← jLoadBytes s (j.ctx id) a 4
    .ok (accSet s j.lkey key (leVal b), j)
  else
    let (s, raw) ← loadElem s (j.ctx id) base code c
    if bitAt j.w0 14 then .ok (accSet s j.lkey key (sval raw 8 % 2 ^ 32).toNat, j)
    else
      let (s, sc) ← rowScale s id j i c
      let r := convTo (s.fpctlOf j.run) 2 .rne (rawVal (s.fpctlOf j.run) code c raw sc)
      .ok (accSet s j.lkey key r.1, orJobFlags j r.2)

def accldCheck (_ : State) (j : Job) : Nat :=
  if accLimits j 0 || accPtrBad j then 1
  else if !ptrFmtOk j.w1 0 13 then 2
  else if bitAt j.w0 14 then (if ptrFmt j.w1 = 0 || ptrFmt j.w1 = 8 then 0 else 2)
  else if ptrFmt j.w1 = 0 then 2 else 0

def execAccld (j : Nat) (s : State) : Out :=
  .next (runJob s j 0x04 accldCheck (fun s x => loopJob s j x (x.mg * x.nn) none (fun y => decide (x.mg * x.nn ≤ y.prog)) (accldStep j)))

/-- The value that an accumulator word holds. -/
def accVal (s : State) (j : Job) (i c : Nat) : FpVal :=
  let w := accGet s j.lkey (accKey j.t0 j.nn i c)
  if bitAt j.w0 14 then FpVal.ofInt (sval w 32) 0 else fp32F.operand (opFlush (s.fpctlOf j.run) 2) w

/-- The stores of elements from i on, as raw bits (R127, R289). -/
def blockPuts (s : State) (base code lo len : Nat) (i : Nat) : List Nat → JM (List Put)
  | [] => .ok []
  | e :: r => do
    let p ← elemPut s base code i e lo len
    let ps ← blockPuts s base code lo len (i + 1) r
    .ok (p :: ps)

def Job.puts (j : Job) (ps : List Put) : Job := ps.foldl Job.put j

/-- A store of one byte. -/
def bytePut (a v : Nat) : Put := ⟨a, 0, 8, v, 0, 0⟩

/-- accst, one element, or one block of an MX row (R289). -/
def accstStep (s : State) (j : Job) : JM (State × Job) := do
  let n := j.prog
  let code := ptrFmt j.w1
  let sd := s.seedOf j.run
  let key := bits j.w2 63 40
  let fpctl := s.fpctlOf j.run
  if fmtScaled code then
    let l := blockLen code (ptrBlog j.w1)
    let nb := cdiv j.nn l
    let i := n / nb
    let b := n % nb
    let len := min l (j.nn - b * l)
    let base ← jAddr s (ptrAddr j.w1) (i * bits j.w2 31 0)
    let q := mxQuantise code (fun x => unitMode sd j.pb key (i * j.nn + b * l + x))
      ((List.range len).map (fun x => accVal s j i (b * l + x)))
    let ps ← blockPuts s base code base (elemBytes code j.nn) (b * l) q.2.1
    let a ← jAddr s (bits j.w3 51 0) (i * nb + b)
    .ok (s, (orJobFlags j q.2.2).puts (ps ++ [bytePut a q.1]))
  else
    let i := n / j.nn
    let c := n % j.nn
    let base ← jAddr s (ptrAddr j.w1) (i * bits j.w2 31 0)
    let r := convTo fpctl code (unitMode sd j.pb key n) (accVal s j i c)
    let p ← elemPut s base code c r.1 base (elemBytes code j.nn)
    .ok (s, (orJobFlags j r.2).put p)

def accstCheck (_ : State) (j : Job) : Nat :=
  if accLimits j 2 || accPtrBad j then 1 else if !ptrFmtOk j.w1 1 13 then 2 else 0

def accstSteps (j : Job) : Nat :=
  j.mg * (if fmtScaled (ptrFmt j.w1) then cdiv j.nn (blockLen (ptrFmt j.w1) (ptrBlog j.w1)) else j.nn)

def execAccst (j : Nat) (s : State) : Out :=
  .next (runJob s j 0x05 accstCheck (fun s x => loopJob s j x (accstSteps x) none (fun y => decide (accstSteps x ≤ y.prog)) accstStep))

/-! ### The copy unit (R291, R292) -/

/-- copy, byte i; bytes that belong to a whole line being replaced end its error (R379). -/
def copyStep (id : Nat) (s : State) (j : Job) : JM (State × Job) := do
  let a ← jAddr s (ptrAddr j.w1) j.prog
  let d ← jAddr s (ptrAddr j.w2) j.prog
  let (s, v) ← jLoad s (j.ctx id) a 1
  .ok (s, j.put ⟨d, 0, 8, v, ptrAddr j.w2, bits j.w3 39 0⟩)

/-- The steps of the copy unit that reach its next 64-byte line (R265), for steps of some bits: the lines are those of word 2, the
destination, for every command of the unit, scat among them (log entry 97). -/
def lineSteps (j : Job) (n : Nat) : Nat := max 1 (cdiv (512 - (ptrAddr j.w2 * 8 + j.prog * n) % 512) (max 1 n))

/-- Where that line begins: what a step stores from there on is stored after the boundary. -/
def lineEnd (j : Job) (n : Nat) : Option Nat := some (((ptrAddr j.w2 * 8 + j.prog * n) / 512 + 1) * 64)

/-- R291, R129: any valid format, and LQ2 for the source alone (log entry 100). -/
def copyCheck (_ : State) (j : Job) : Nat :=
  if bits j.w0 63 32 != 0 || bits j.w0 15 12 != 0 || bits j.w3 63 40 != 0 || ptrBad j.w1 || ptrBad j.w2 then 1
  else if !ptrFmtOk j.w1 0 18 || !ptrFmtOk j.w2 0 18 || ptrFmt j.w2 == 14 then 2 else 0

def execCopy (j : Nat) (s : State) : Out :=
  .next (runJob s j 0x10 copyCheck (fun s x => loopJob s j x (lineSteps x 8) (lineEnd x 8) (fun y => decide (bits x.w3 39 0 ≤ y.prog)) (copyStep j)))

/-- R291: the formats of gath and scat. -/
def idxFmt (c : Nat) : Bool := decide (c ≤ 6) || c == 8 || (decide (15 ≤ c) && decide (c ≤ 17))

def idxCheck (_ : State) (j : Job) : Nat :=
  if bits j.w0 15 12 != 0 || ptrBad j.w1 || ptrBad j.w2 || ptrBad j.w3 then 1
  else if !ptrFmtOk j.w1 0 18 || !ptrFmtOk j.w2 0 18 || !ptrFmtOk j.w3 0 0 || !idxFmt (ptrFmt j.w1) ||
      ptrFmt j.w1 != ptrFmt j.w2 then 2 else 0

/-- gath and scat, element i (R291). -/
def idxStep (scat : Bool) (id : Nat) (s : State) (j : Job) : JM (State × Job) := do
  let i := j.prog
  let sz := fmtBits (ptrFmt j.w1) 8 / 8
  let p ← jAddr s (ptrAddr j.w3) (4 * i)
  let (s, b) ← jLoadBytes s (j.ctx id) p 4
  let x := leVal b
  let a ← if scat then jAddr s (ptrAddr j.w1) (i * sz) else jAddrAligned s (ptrAddr j.w1) (x * sz) sz
  let d ← if scat then jAddrAligned s (ptrAddr j.w2) (x * sz) sz else jAddr s (ptrAddr j.w2) (i * sz)
  let (s, v) ← jLoadBytes s (j.ctx id) a sz
  .ok (s, j.put (if scat then ⟨d, 0, 8 * sz, leVal v, 0, 0⟩ else ⟨d, 0, 8 * sz, leVal v, ptrAddr j.w2, bits j.w0 63 32 * sz⟩))

/-- The loop of gath and scat. -/
def idxBody (scat : Bool) (k : Nat) (s : State) (j : Job) : State :=
  let n := fmtBits (ptrFmt j.w1) 8
  loopJob s k j (lineSteps j n) (if scat then none else lineEnd j n) (fun y => decide (bits j.w0 63 32 ≤ y.prog)) (idxStep scat k)

def execGath (j : Nat) (s : State) : Out :=
  .next (runJob s j 0x11 idxCheck (idxBody false j))

def execScat (j : Nat) (s : State) : Out :=
  .next (runJob s j 0x12 idxCheck (idxBody true j))

/-- R282: the scale array of n elements in memory. -/
def scaleBase (w : Word) (n : Nat) : Nat := roundUp (ptrAddr w + elemBytes (ptrFmt w) n) 64

/-- The value of element i of a memory operand of n elements, with its scale (R282). -/
def loadVal (s : State) (c : Ctx) (fpctl : Nat) (w : Word) (n i : Nat) : JM (State × FpVal) := do
  let code := ptrFmt w
  let (s, raw) ← loadElem s c (ptrAddr w) code i
  if fmtScaled code then
    let a ← jAddr s (scaleBase w n) (i / blockLen code (ptrBlog w))
    let (s, b) ← jLoadBytes s c a 1
    .ok (s, rawVal fpctl code i raw (leVal b))
  else .ok (s, rawVal fpctl code i raw 0)

/-- The values of len elements from i on. -/
def loadVals (s : State) (c : Ctx) (fpctl : Nat) (w : Word) (n i : Nat) : Nat → JM (State × List FpVal)
  | 0 => .ok (s, [])
  | len + 1 => do
    let (s, v) ← loadVal s c fpctl w n i
    let (s, r) ← loadVals s c fpctl w n (i + 1) len
    .ok (s, v :: r)

/-- cvtb, one element, or one block of an MX destination (R291). -/
def cvtbStep (id : Nat) (s : State) (j : Job) : JM (State × Job) := do
  let m := j.prog
  let n := bits j.w3 39 0
  let code := ptrFmt j.w2
  let fpctl := s.fpctlOf j.run
  let mode (i : Nat) : RMode := unitMode (s.seedOf j.run) (bits j.w0 39 38) (bits j.w0 63 40) i
  if fmtScaled code then
    let l := blockLen code (ptrBlog j.w2)
    let len := min l (n - m * l)
    let (s, vs) ← loadVals s (j.ctx id) fpctl j.w1 n (m * l) len
    let q := mxQuantise code (fun x => mode (m * l + x)) vs
    let ps ← blockPuts s (ptrAddr j.w2) code (ptrAddr j.w2) (elemBytes code n) (m * l) q.2.1
    let a ← jAddr s (scaleBase j.w2 n) m
    .ok (s, (orJobFlags j q.2.2).puts (ps ++ [bytePut a q.1]))
  else
    let (s, v) ← loadVal s (j.ctx id) fpctl j.w1 n m
    let r := convTo fpctl code (mode m) v
    let p ← elemPut s (ptrAddr j.w2) code m r.1 (ptrAddr j.w2) (elemBytes code n)
    .ok (s, (orJobFlags j r.2).put p)

def cvtbCheck (_ : State) (j : Job) : Nat :=
  if bits j.w0 39 38 = 3 || bits j.w0 37 32 != 0 || bits j.w0 15 12 != 0 || bits j.w3 63 40 != 0 ||
      ptrBad j.w1 || ptrBad j.w2 then 1
  else if !ptrFmtOk j.w1 1 14 || !ptrFmtOk j.w2 1 13 then 2 else 0

def cvtbSteps (j : Job) : Nat :=
  let n := bits j.w3 39 0
  if fmtScaled (ptrFmt j.w2) then cdiv n (blockLen (ptrFmt j.w2) (ptrBlog j.w2)) else n

/-- The bits of the destination that a step of cvtb fills: an element, or a block of an MX destination. -/
def cvtbBits (j : Job) : Nat :=
  (if fmtScaled (ptrFmt j.w2) then blockLen (ptrFmt j.w2) (ptrBlog j.w2) else 1) * fmtBits (ptrFmt j.w2) 8

def execCvtb (j : Nat) (s : State) : Out :=
  .next (runJob s j 0x13 cvtbCheck (fun s x => loopJob s j x (lineSteps x (cvtbBits x)) (lineEnd x (cvtbBits x))
    (fun y => decide (cvtbSteps x ≤ y.prog)) (cvtbStep j)))

/-! ### The loader and the storer (R274, R275, R293) -/

def Job.tiles (j : Job) : Nat := bits j.w0 55 32 + 1

/-- The ring of a sub or a drain as it stands. -/
def jobRing (s : State) (j : Job) : Ring := ringGet s j.lkey j.ringOf

/-- R293: the scales of a tile of Z bytes. -/
def tileScales (j : Job) (z : Nat) : Nat :=
  let code := ptrFmt j.w1
  if fmtScaled code then cdiv (z * 8) (fmtBits code 8 * blockLen code (ptrBlog j.w1)) else 0

def subCheck (s : State) (j : Job) : Nat :=
  if bits j.w0 58 56 != 0 || bits j.w0 15 12 != 0 || ptrBad j.w1 || isNear (ptrAddr j.w1) || bits j.w3 63 52 != 0 ||
      (j.w3 != 0 && !fmtScaled (ptrFmt j.w1)) || !ringOk s j j.ringOf then 1
  else if !ptrFmtOk j.w1 0 18 then 2 else 0

/-- A destination pointer: LQ2 is no destination (R129). -/
def destFmtOk (w : Word) : Bool := ptrFmtOk w 0 18 && ptrFmt w != 14

/-- The checks of a drain (R274). -/
def drainCheck (s : State) (j : Job) : Nat :=
  if bits j.w0 58 56 != 0 || bits j.w0 15 12 != 0 || ptrBad j.w1 || isNear (ptrAddr j.w1) || bits j.w2 31 0 != 0 ||
      j.w3 != 0 || !ringOk s j j.ringOf then 1
  else if !destFmtOk j.w1 then 2 else 0

/-- SUBSCRIPTION (R268, R274): the sub starts, and attaches to its ring while that is open (log entry 84). -/
def execSubscription (j : Nat) (s : State) : Out :=
  .next (runJob s j 0x20 subCheck (fun s x =>
    if x.prog = 0 && (jobRing s x).st == 1 && !(jobRing s x).att.contains (.job j) then
      (s.modLShed x.lkey (fun l => { l with rings := l.rings.set x.ringOf ((jobRing s x).attach (.job j)) })).post (.job j)
    else s.post (.job j)))

/-- The stores of the bytes of a whole slot, line by line. -/
def slotPuts (ea : Nat) (b : List Byte) : List Put := [⟨ea, 0, 8 * b.length, leVal b, ea, b.length⟩]

/-- Make the stores of a slot, and then what follows them; the stores before one that stops stand. -/
def flushSlot (k : Nat) (s : State) (j : Job) (after : State → Job → State) : State :=
  match flushPuts (j.ctx k) s j none with
  | (u, x, some e) => stopJob { u with jobs := u.jobs.set k x } k e
  | (u, x, none) => after { u with jobs := u.jobs.set k x } x

/-- The tile of a sub has been written to its slot: the tile joins the ring, with its scale group (R275, R293). -/
def subTileEnd (k : Nat) (s : State) (j : Job) : State :=
  let r := jobRing s j
  let seq := (bits j.w2 31 0 + j.prog) % 2 ^ 32
  let sc := j.opA.elim [] (fun t => t.scales)
  let r' : Ring := { r with
    seq := r.seq.set (r.tail % r.slots) seq, tail := (r.tail + 1) % 2 ^ 32
    scales := if sc.isEmpty then r.scales else r.scales ++ [(seq, sc)] }
  ((ringSet (settleInvals s) j.lkey j.ringOf r').modJob k (fun x => { x with prog := x.prog + 1, opA := none })).post (.job k)

/-- SUB_TILE (R274, R275, R293): the next tile of a sub. -/
def subTileBody (k : Nat) (s : State) (j : Job) : State :=
  if !j.todo.isEmpty then flushSlot k s j (subTileEnd k)
  else if j.tiles ≤ j.prog then finishJob s k 0 0 j.bytes
  else
    let r := jobRing s j
    let z := r.slotBytes
    let seq := (bits j.w2 31 0 + j.prog) % 2 ^ 32
    if r.skips.contains seq then
      (ringSet s j.lkey j.ringOf { r with skips := r.skips.erase seq }).modJob k (fun x => { x with prog := x.prog + 1 })
        |>.post (.job k)
    else if r.st = 3 then stopJob s k (.stop 5 0)
    else if r.st = 2 then stopJob s k (.stop 6 0)
    else if r.slots ≤ r.filled || (fmtScaled (ptrFmt j.w1) && decide (64 ≤ r.scales.length)) then s.post (.job k)
    else
      let go : JM (State × Job) := do
        let a ← jAddr s (ptrAddr j.w1) (j.prog * bits j.w2 63 32)
        let (s, b) ← jLoadBytes (s.reading j.reads) (j.ctx k) a z
        let n := tileScales j z
        let p ← jAddr s (bits j.w3 51 0) (j.prog * n)
        let (s, sc) ← jLoadBytes s (j.ctx k) p n
        .ok (s, { j with opA := some ⟨[], sc.map (fun (x : Byte) => x.toNat)⟩, reads := [] }.puts (slotPuts (r.slotAddr r.tail) b))
      match go with
      | .error e => haltJob s k e
      | .ok (s, x) => flushSlot k (s.reading []) x (subTileEnd k)

/-- A command's body has begun. -/
def jobStarted (s : State) (k : Nat) : Bool :=
  match s.jobs.get k with
  | some j => j.started
  | none => false

def execSubTile (j : Nat) (s : State) : Out :=
  .next (if jobStarted s j then runJob s j 0x20 subCheck (subTileBody j) else s)

/-- DRAIN (R274): the drain starts. -/
def execDrain (j : Nat) (s : State) : Out := .next (runJob s j 0x28 drainCheck (fun s _ => s.post (.job j)))

/-- The slot of a drain has been written: HEAD moves on, and the scale group of the slot is dropped (R275, R293). -/
def drainTileEnd (k : Nat) (s : State) (j : Job) : State :=
  let r := jobRing s j
  let seq := r.seq.getD (r.head % r.slots) r.head
  ((ringSet (settleInvals s) j.lkey j.ringOf ((r.consume 1).dropGroup seq)).modJob k (fun x => { x with prog := x.prog + 1 })).post
    (.job k)

/-- DRAIN_TILE (R274, R275, R293): the next tile of a drain. -/
def drainTileBody (k : Nat) (s : State) (j : Job) : State :=
  if !j.todo.isEmpty then flushSlot k s j (drainTileEnd k)
  else if j.tiles ≤ j.prog then finishJob s k 0 0 j.bytes
  else
    let r := jobRing s j
    let z := r.slotBytes
    if r.st = 3 then stopJob s k (.stop 5 0)
    else if r.filled = 0 then (if r.st = 2 then stopJob s k (.stop 6 0) else s.post (.job k))
    else
      let go : JM (State × Job) := do
        let a ← jAddr s (ptrAddr j.w1) (j.prog * bits j.w2 63 32)
        let _ ← jAddr s a (z - 1)
        let (s, b) ← jLoadBytes (s.reading j.reads) (j.ctx k) (r.slotAddr r.head) z
        .ok (s, { j with reads := [] }.puts (slotPuts a b))
      match go with
      | .error e => haltJob s k e
      | .ok (s, x) => flushSlot k (s.reading []) x (drainTileEnd k)

def execDrainTile (j : Nat) (s : State) : Out :=
  .next (if jobStarted s j then runJob s j 0x28 drainCheck (drainTileBody j) else s)

end Sys2Proof.Machine
end

