-- ==== Sys2Proof/Machine/Sparse.lean ====
section
/-! DEFINITION. The sparse pattern compiler (R290, R294, R300 to R311): tiles, the paths of spmm and spcol, the loft and its watches, ploft and pevict. -/

namespace Sys2Proof.Machine

/-! ### Descriptors (R300, R301) -/

/-- The eight dwords of a descriptor. -/
abbrev Desc := List Word

def descOf (b : List Byte) : Desc := (List.range 8).map (fun i => BitVec.ofNat 64 (leVal ((b.drop (8 * i)).take 8)))

def Desc.dw (d : Desc) (i : Nat) : Word := List.getD d i 0
def Desc.nnz (d : Desc) : Nat := bits (Desc.dw d 0) 14 0
def Desc.gen (d : Desc) : Nat := bits (Desc.dw d 0) 63 32
def Desc.rows (d : Desc) : Nat := bits (Desc.dw d 1) 15 8 + 1
def Desc.cols (d : Desc) : Nat := bits (Desc.dw d 1) 7 0 + 1
def Desc.uops (d : Desc) : Nat := Desc.nnz d + Desc.rows d + Desc.cols d

/-- A pointer of a descriptor: a plain address in global memory. -/
def descPtrBad (w : Word) (align : Nat) : Bool := bits w 63 52 != 0 || isNear w.toNat || w.toNat % align != 0

/-- The start check of R301 fails. -/
def Desc.bad (d : Desc) : Bool :=
  bits (Desc.dw d 0) 31 15 != 0 || decide (16384 < Desc.nnz d) || bits (Desc.dw d 1) 63 16 != 0 ||
    descPtrBad (Desc.dw d 2) 2 || descPtrBad (Desc.dw d 3) 1 || descPtrBad (Desc.dw d 4) 4 ||
    Desc.dw d 5 != 0 || Desc.dw d 6 != 0 || Desc.dw d 7 != 0

/-- R303: dense for spmm. -/
def Desc.dense (d : Desc) : Bool := decide (Desc.rows d * Desc.cols d ≤ 4 * Desc.nnz d)

/-- R301: the structure is well formed. -/
def structOk (d : Desc) (rowp cols : List Nat) : Bool :=
  rowp.getD 0 1 == 0 && (List.range (Desc.rows d)).all (fun r => decide (rowp.getD r 0 ≤ rowp.getD (r + 1) 0)) &&
    rowp.getD (Desc.rows d) 0 == Desc.nnz d && cols.all (fun c => decide (c < Desc.cols d))

/-! ### The loft (R302, R305, R306) -/

def LoftEntry.size (e : LoftEntry) : Nat := 8 * e.uops + 2 * e.cols + 64

/-- R302: the entry or compile is for an identity. -/
def LoftEntry.is (e : LoftEntry) (pa gen : Nat) : Bool := e.addr == pa && e.gen == gen

/-- Drop loft entries and compiles for which `p` holds, and the watches that only they needed. -/
def dropLoft (s : State) (h : Nat) (p : LoftEntry → Bool) : State :=
  let x := s.shed h
  let dead := x.loft.filter p ++ x.compiles.filter p
  unwatch (s.setShed h { x with loft := x.loft.filter (fun e => !p e), compiles := x.compiles.filter (fun e => !p e) }) h
    (dead.flatMap (fun e => e.lines))

/-- R305: queue a compile; the one that is being made is one of the 16 (log entry 78). -/
def queueCompile (s : State) (h pa gen run part va uops : Nat) : State :=
  let x := s.shed h
  if x.loft.any (fun e => e.is pa gen) || x.compiles.any (fun e => e.is pa gen) || decide (16 ≤ x.compiles.length) ||
      decide (4096 < uops) then s
  else (s.setShed h { x with compiles := x.compiles ++ [⟨pa, gen, run, part, va, [], false, false, uops, 0, 0, [], []⟩] }).post
    (.patternCompile h)

/-- R302: install an entry; the least recently used leave. -/
def trimLoft : Nat → List LoftEntry → List LoftEntry
  | 0, l => l
  | n + 1, l => if 524288 < l.foldl (fun a e => a + e.size) 0 then trimLoft n l.tail else l

def installEntry (s : State) (h : Nat) (e : LoftEntry) : State :=
  let x := s.shed h
  let all := x.loft ++ [e]
  let kept := trimLoft all.length all
  let gone := all.take (all.length - kept.length)
  unwatch (s.setShed h { x with loft := kept }) h (gone.flatMap (fun e => e.lines))

/-- A used entry becomes the most recently used. -/
def touchEntry (s : State) (h : Nat) (e : LoftEntry) : State :=
  s.modShed h (fun x => { x with loft := x.loft.filter (fun y => y != e) ++ [e] })

/-- The context of a shed's compiler (R305). -/
def LoftEntry.ctx (h : Nat) (e : LoftEntry) : Ctx := .unit e.run ⟨0, 0, 0, 0⟩ (h * 8) .nobody

/-- The watch table of a line's home is full (R306). -/
def watchFull (s : State) (line : Nat) : Bool :=
  let home (l : Nat) : Nat := l / 2 ^ 33 * 128 + homeSlice (l * 64)
  decide (2048 ≤ (s.watches.filter (fun w => home w.1 == home line)).length)

/-- List a shed's loft in the watch of a line (R306); none where the line lists eight others, or finds no room. -/
def addWatch (s : State) (h line : Nat) : Option State :=
  match s.watches.get line with
  | some w =>
    if w.contains h then some s
    else if 8 ≤ w.length then none
    else some { s with watches := s.watches.set line (w ++ [h]) }
  | none => if watchFull s line then none else some { s with watches := s.watches.set line [h] }

/-- What comes of reading a line for a compile (R305). -/
inductive Watched where
  | watched (s : State) (line : Nat)
  | abandoned
  /-- The line's frame is being moved, and the read waits (R239). -/
  | moving

/-- R305: read a line at its home and register a watch on it; a line of near space does not translate (R222). -/
def watchLine (s : State) (h : Nat) (e : LoftEntry) (va : Nat) : Watched :=
  if isNear va then .abandoned
  else match place s (e.ctx h) .read va with
  | .ok (s, p) =>
    if p.ms then .abandoned
    else if frameBusy s .nobody p.key then .moving
    else match addWatch s h (p.key / 64) with
      | some s => .watched s (p.key / 64)
      | none => .abandoned
  | .error _ => .abandoned

/-- A compile lists a line that it watches. -/
def LoftEntry.watching (e : LoftEntry) (l : Nat) : LoftEntry := { e with lines := if e.lines.contains l then e.lines else e.lines ++ [l] }

/-- Watch the lines at some addresses for a compile: what it lists, and how it ended when it did not watch all. -/
def watchLines (h : Nat) : List Nat → State → LoftEntry → State × LoftEntry × Option Watched
  | [], s, e => (s, e, none)
  | va :: r, s, e =>
    match watchLine s h e va with
    | .watched s l => watchLines h r s (e.watching l)
    | o => (s, e, some o)

/-- The lines of n bytes at va. -/
def lineAddrs (va n : Nat) : List Nat := if n = 0 then [] else (range (va / 64) ((va + n - 1) / 64 - va / 64 + 1)).map (· * 64)

/-- Read n bytes at va for a compile, whose lines are watched. -/
def compilerBytes (s : State) (h : Nat) (e : LoftEntry) (va n : Nat) : List Byte :=
  (List.range n).map (fun i => match placeData s (e.ctx h) .read (va + i) with
    | .ok (s, p) => s.byte p.key
    | .error _ => 0)

/-- The compile at the head of a shed's queue leaves it (R305). -/
def endCompile (s : State) (h : Nat) : State :=
  let x := s.shed h
  let s := unwatch (s.setShed h { x with compiles := x.compiles.tail }) h ((x.compiles.take 1).flatMap (fun e => e.lines))
  if (s.shed h).compiles.isEmpty then s else s.post (.patternCompile h)

/-- Whether a watch of a compile has fired: its invalidation has come, or is on its way (R305, R306). -/
def LoftEntry.hasFired (s : State) (h : Nat) (e : LoftEntry) : Bool :=
  e.fired || s.invals.any (fun p => p.1 == h && e.lines.contains p.2)

/-- The reads of a compile: its descriptor, which must still be that of its identity (log entry 72), and then its structure;
each line is watched as it is read. -/
def readTile (s : State) (h : Nat) (e : LoftEntry) : State × LoftEntry × Option Watched :=
  match watchLine s h e e.va with
  | .watched s l =>
    let e := e.watching l
    let d := descOf (compilerBytes s h e e.va 64)
    if Desc.bad d || decide (4096 < Desc.uops d) || Desc.gen d != e.gen || l != e.addr / 64 then (s, e, some .abandoned)
    else
      match watchLines h (lineAddrs (Desc.dw d 2).toNat (2 * (Desc.rows d + 1)) ++ lineAddrs (Desc.dw d 3).toNat (Desc.nnz d)) s e with
      | (s, e, none) =>
        let rb := compilerBytes s h e (Desc.dw d 2).toNat (2 * (Desc.rows d + 1))
        let rowp := (List.range (Desc.rows d + 1)).map (fun i => leVal ((rb.drop (2 * i)).take 2))
        let cols := (compilerBytes s h e (Desc.dw d 3).toNat (Desc.nnz d)).map (fun x => x.toNat)
        if structOk d rowp cols then
          (s, { e with compiling := true, uops := Desc.uops d, cols := Desc.cols d, vals := (Desc.dw d 4).toNat, rowp := rowp,
                       colIdx := cols }, none)
        else (s, e, some .abandoned)
      | r => r
  | o => (s, e, some o)

/-- PATTERN_COMPILE (R305): the head of the queue first reads and watches its lines, and in a later step, when no watch has
fired, is installed; the compiler of a device that has stopped waits (R395). -/
def execPatternCompile (h : Nat) (s : State) : Out :=
  match (s.shed h).compiles with
  | [] => .next s
  | e :: r =>
    if !deviceIssues s (shedDev h) then .next (s.post (.patternCompile h))
    else if e.compiling then
      if e.hasFired s h then .next (endCompile s h)
      else
        let s := installEntry (s.setShed h { s.shed h with compiles := r }) h { e with compiling := false }
        .next (if r.isEmpty then s else s.post (.patternCompile h))
    else
      let a := readTile s h e
      let s := a.1.setShed h { a.1.shed h with compiles := a.2.1 :: r }
      .next (match a.2.2 with
        | some .abandoned => endCompile s h
        | _ => s.post (.patternCompile h))

/-- LOFT_INVALIDATION (R306). -/
def execLoftInvalidation (h line : Nat) (s : State) : Out :=
  .next (if s.invals.contains (h, line) then invalidate s h line else s)

/-! ### spmm and spcol (R290, R303, R304) -/

def Job.desc (j : Job) : Desc := descOf j.hold

/-- How a command runs, once its path is chosen: 0 interpreted, 1 compiled, 2 dense; the address of the values and the rows
and columns of the structure that it uses; and, on the paths that read it whole, its row offsets and its column indices. -/
def Job.path (j : Job) : Nat := j.counts.headD 0
def Job.valsAt (j : Job) : Nat := j.counts.getD 1 0
def Job.tileRows (j : Job) : Nat := j.counts.getD 2 0
def Job.tileCols (j : Job) : Nat := j.counts.getD 3 0

/-- Row offset r. -/
def rowOff (s : State) (id : Nat) (j : Job) (r : Nat) : JM (State × Nat) := do
  if j.path = 0 then
    let a ← jAddr s (Desc.dw j.desc 2).toNat (2 * r)
    let (s, b) ← jLoadBytes s (j.ctx id) a 2
    .ok (s, leVal b)
  else .ok (s, j.counts.getD (4 + r) 0)

/-- The entries of row r: its first and the one past its last; the interpreted path checks the offsets as it reads them (R301). -/
def rowSpan (s : State) (id : Nat) (j : Job) (r : Nat) : JM (State × Nat × Nat) := do
  let (s, a) ← rowOff s id j r
  if j.path = 0 ∧ r = 0 ∧ a ≠ 0 then halt s (.stop 1 1)
  let (s, b) ← rowOff s id j (r + 1)
  if j.path = 0 ∧ (b < a ∨ (r + 1 = j.tileRows ∧ b ≠ Desc.nnz j.desc)) then halt s (.stop 1 1)
  .ok (s, a, b)

/-- The column index of entry e, checked as it is read on the interpreted path. -/
def colOf (s : State) (id : Nat) (j : Job) (e : Nat) : JM (State × Nat) := do
  if j.path = 0 then
    let a ← jAddr s (Desc.dw j.desc 3).toNat e
    let (s, b) ← jLoadBytes s (j.ctx id) a 1
    if j.tileCols ≤ leVal b then halt s (.stop 1 2)
    .ok (s, leVal b)
  else .ok (s, j.counts.getD (4 + (j.tileRows + 1) + e) 0)

def loadF32 (s : State) (c : Ctx) (base i : Nat) : JM (State × Nat) := do
  let a ← jAddr s base (4 * i)
  let (s, b) ← jLoadBytes s c a 4
  .ok (s, leVal b)

/-- fma32 of R290. -/
def fma32 (fpctl : Nat) (a b c : Nat) : Nat × FpFlags :=
  let v (x : Nat) : FpVal := fp32F.operand (opFlush fpctl 2) x
  fpFma fp32F .rne (resFlush fpctl 2) (v a) (v b) (v c)

/-- Entries e to e + n − 1 of a row folded into v, for column j of B. -/
def sparseRow (s : State) (id : Nat) (j : Job) (n c e : Nat) : Nat → Nat → FpFlags → JM (State × Nat × FpFlags)
  | 0, v, f => .ok (s, v, f)
  | m + 1, v, f => do
    let (s, k) ← colOf s id j e
    let (s, x) ← loadF32 s (j.ctx id) j.valsAt e
    let (s, y) ← loadF32 s (j.ctx id) (ptrAddr j.w2) (k * n + c)
    let r := fma32 (s.fpctlOf j.run) x y v
    sparseRow s id j n c (e + 1) m r.1 (f.or r.2)

/-- R303: element (r, k) of the dense form: the values of its entries summed in stored order. -/
def denseRow (s : State) (id : Nat) (j : Job) (e : Nat) : Nat → Map Nat → FpFlags → JM (State × Map Nat × FpFlags)
  | 0, row, f => .ok (s, row, f)
  | m + 1, row, f => do
    let (s, k) ← colOf s id j e
    let (s, x) ← loadF32 s (j.ctx id) j.valsAt e
    let fl := s.fpctlOf j.run
    let v (x : Nat) : FpVal := fp32F.operand (opFlush fl 2) x
    match row.get k with
    | some y =>
      let r := fpAdd fp32F .rne (resFlush fl 2) (v y) (v x)
      denseRow s id j (e + 1) m (row.set k r.1) (f.or r.2)
    | none => denseRow s id j (e + 1) m (row.set k x) f

/-- The products of a dense row with column c of B. -/
def denseProds (s : State) (id : Nat) (j : Job) (n c : Nat) (row : Map Nat) : Nat → Nat → JM (State × List FpVal)
  | 0, _ => .ok (s, [])
  | m + 1, k => do
    let (s, y) ← loadF32 s (j.ctx id) (ptrAddr j.w2) (k * n + c)
    let fl := s.fpctlOf j.run
    let v (x : Nat) : FpVal := fp32F.operand (opFlush fl 2) x
    let (s, r) ← denseProds s id j n c row m (k + 1)
    .ok (s, prodOf (v (row.getD k 0)) (v y) :: r)

/-- The store of an FP32 element of an array. -/
def f32Put (s : State) (base i v : Nat) : JM Put := do
  let _ ← jAddr s base (4 * i)
  .ok ⟨base, 32 * i, 32, v, 0, 0⟩

/-- spmm, the next result element (R290). -/
def spmmStep (id : Nat) (s : State) (j : Job) : JM (State × Job) := do
  let n := bits j.w0 55 48 + 1
  let r := j.prog / n
  let c := j.prog % n
  let (s, a, b) ← rowSpan s id j r
  let (s, v) ← loadF32 s (j.ctx id) (ptrAddr j.w3) (r * n + c)
  let (s, v', f) ← if j.path = 2 then do
      let (s, row, f) ← denseRow s id j a (b - a) [] {}
      let (s, ps) ← denseProds s id j n c row j.tileCols 0
      let q := dotSum (resFlush (s.fpctlOf j.run) 2) 32 (cdiv j.tileCols 32) v ps
      pure (s, q.1, f.or q.2)
    else sparseRow s id j n c a (b - a) v {}
  let p ← f32Put s (ptrAddr j.w3) (r * n + c) v'
  .ok (s, (orJobFlags j f).put p)

/-- spcol has passed its last row. -/
def spcolDone (j : Job) : Bool := decide (j.tileRows ≤ j.cursor.1) && decide (j.cursor.2.2 ≤ j.cursor.2.1)

/-- spcol (R290), the next entry of the row that it has begun, folded into y[r] when it is of column c; or the next row's span. -/
def spcolStep (id : Nat) (s : State) (j : Job) : JM (State × Job) := do
  let (r, e, b) := j.cursor
  if e < b then
    let (s, k) ← colOf s id j e
    let j := { j with cursor := (r, e + 1, b) }
    if k = bits j.w0 63 56 then
      let (s, x) ← loadF32 s (j.ctx id) j.valsAt e
      let (s, y) ← loadF32 s (j.ctx id) (ptrAddr j.w2) (r - 1)
      let q := fma32 (s.fpctlOf j.run) x (bits j.w3 31 0) y
      let p ← f32Put s (ptrAddr j.w2) (r - 1) q.1
      .ok (s, (orJobFlags j q.2).put p)
    else .ok (s, j)
  else
    let (s, a, b) ← rowSpan s id j r
    .ok (s, { j with cursor := (r + 1, a, b) })

/-- Row offsets and column indices of a whole structure, for the dense path. -/
def loadStruct (s : State) (id : Nat) (j : Job) (d : Desc) : JM (State × List Nat × List Nat) := do
  let a ← jAddr s (Desc.dw d 2).toNat 0
  let (s, rb) ← jLoadBytes s (j.ctx id) a (2 * (Desc.rows d + 1))
  let (s, cb) ← jLoadBytes s (j.ctx id) (Desc.dw d 3).toNat (Desc.nnz d)
  .ok (s, (List.range (Desc.rows d + 1)).map (fun i => leVal ((rb.drop (2 * i)).take 2)), cb.map (fun x => x.toNat))

/-- The first n bytes of a command's descriptor, whose address is its identity's (R302). -/
def readDesc (s : State) (k : Nat) (j : Job) (n : Nat) : JM (State × Nat × List Byte) := do
  let (s, p) ← jPlace (s.reading j.reads) (j.ctx k) .read (ptrAddr j.w1) false
  let (s, v) ← jLoad s (j.ctx k) (ptrAddr j.w1) n
  .ok (s, p.key, leBytes n v)

/-- The start of spmm and spcol (R301, R303): the descriptor is read and checked and the path is chosen; then `go` runs. A command
looks its program up once, and keeps it (R302). -/
def sparseBody (k : Nat) (spmm : Bool) (go : State → Job → State) (s : State) (j : Job) : State :=
  if !j.hold.isEmpty then go s j
  else
    match readDesc s k j 64 with
    | .error e => haltJob s k e
    | .ok (s, pa, b) =>
      let d := descOf b
      let h := coreShed j.core
      let start (s : State) (path vals rows cols : Nat) (rest : List Nat) : State :=
        let s := s.readDone k
        let j := { j with reads := [], hold := b, counts := path :: vals :: rows :: cols :: rest }
        go (s.modJob k (fun _ => j)) j
      let own (s : State) (path : Nat) (rest : List Nat) : State :=
        start s path (Desc.dw d 4).toNat (Desc.rows d) (Desc.cols d) rest
      if Desc.bad d || (!spmm && decide (Desc.cols d ≤ bits j.w0 63 56)) then finishJob (s.readDone k) k 1 0 0
      else if spmm && Desc.dense d then
        match loadStruct s k j d with
        | .error e => haltJob (s.reading []) k e
        | .ok (s, rowp, cols) =>
          let s := s.readDone k
          if structOk d rowp cols then own s 2 (rowp ++ cols)
          else finishJob (takeFree s).1 k 1 ((takeFree s).2.toNat % 256) 0
      else if 4096 < Desc.uops d then own s 0 []
      else match (s.shed h).loft.find? (fun e => e.is pa (Desc.gen d) && e.run == j.run) with
        | some e => start (touchEntry s h e) 1 e.vals (e.rowp.length - 1) e.cols (e.rowp ++ e.colIdx)
        | none => own (queueCompile s h pa (Desc.gen d) j.run (s.ctxPart (j.ctx k)) (ptrAddr j.w1) (Desc.uops d)) 0 []

/-- R301: the command's own descriptor pointer. -/
def descPtrOk (w : Word) : Bool := !ptrBad w && w.toNat % 64 == 0 && !isNear (ptrAddr w)

/-- The checks of spmm, whose words 1 and 2 are the pointers of R290 (log entry 85), with the codes that log entry 123 gives. -/
def spmmCheck (_ : State) (j : Job) : Nat :=
  if bits j.w0 63 56 != 0 || bits j.w0 47 32 != 0 || bits j.w0 15 12 != 0 || !descPtrOk j.w1 || ptrBad j.w2 || ptrBad j.w3 then 1
  else if !ptrFmtOk j.w1 0 0 || !ptrFmtOk j.w2 0 18 || !destFmtOk j.w3 then 2 else 0

def execSpmm (j : Nat) (s : State) : Out :=
  .next (runJob s j 0x06 spmmCheck (sparseBody j true (fun s x =>
    loopJob s j x (bits x.w0 55 48 + 1) none (fun y => decide (y.tileRows * (bits y.w0 55 48 + 1) ≤ y.prog)) (spmmStep j))))

def spcolCheck (_ : State) (j : Job) : Nat :=
  if bits j.w0 55 32 != 0 || bits j.w0 15 12 != 0 || !descPtrOk j.w1 || ptrBad j.w2 || bits j.w3 63 32 != 0 then 1
  else if !ptrFmtOk j.w1 0 0 || !destFmtOk j.w2 then 2 else 0

def execSpcol (j : Nat) (s : State) : Out :=
  .next (runJob s j 0x07 spcolCheck (sparseBody j false (fun s x =>
    loopJob s j x 256 none spcolDone (spcolStep j))))

/-! ### pfill, ploft and pevict (R294, R309, R310) -/

def pfillBody (k : Nat) (s : State) (j : Job) : State :=
  match readDesc s k j 16 with
  | .error e => haltJob s k e
  | .ok (s, pa, b) =>
    let s := s.readDone k
    let d := descOf b
    finishJob (queueCompile s (coreShed j.core) pa (Desc.gen d) j.run (s.ctxPart (j.ctx k)) (ptrAddr j.w1) (Desc.uops d)) k 0 0 0

def execPfill (j : Nat) (s : State) : Out :=
  .next (runJob s j 0x30 (fun _ x =>
    if bits x.w0 63 32 != 0 || bits x.w0 15 12 != 0 || x.w2 != 0 || x.w3 != 0 || !descPtrOk x.w1 then 1
    else if !ptrFmtOk x.w1 0 0 then 2 else 0) (pfillBody j))

/-- The descriptor that ploft and pevict read: its physical address and its 64 bytes, fresh, after the thread's own pending accesses of them
(R190). -/
def loadDesc (s : State) (ea : Nat) : M (State × Nat × Desc) := do
  let (s, p) ← place s s.ctx .read ea
  openFrame s p.key
  let (s, b) := loadBytes (beforeLoad s p.key 64) p false 64
  .ok (s, p.key, descOf b)

/-- The word of ploft (R309). -/
def ploftWord (x : Shed) (pa : Nat) (d : Desc) : Word :=
  let path := if Desc.bad d then 3 else if Desc.dense d then 1 else if 4096 < Desc.uops d then 2 else 0
  let loft := if x.loft.any (fun e => e.is pa (Desc.gen d)) then 3
    else match x.compiles.find? (fun e => e.is pa (Desc.gen d)) with
      | some e => if e.compiling then 2 else 1
      | none => 0
  BitVec.ofNat 64 ((if path = 3 then 0 else Desc.uops d) * 2 ^ 16 + path * 16 + loft)

def execPloft (rd : Reg) (ra : Src) (s : State) : Out :=
  asThread s (.ploft rd ra) (fun _ t => do
    let (u, a) ← op1 s ra
    let ea ← effAddr a 0 64
    if isNear ea then .ok (writeNext u rd 0x30)
    else
      let (u, pa, d) ← loadDesc u ea
      .ok (writeNext u rd (ploftWord (u.shed (coreShed t.core)) pa d)))

def execPevict (rd : Reg) (ra : Src) (s : State) : Out :=
  asThread s (.pevict rd ra) (fun _ t => do
    let (u, a) ← op1 s ra
    let ea ← effAddr a 0 64
    if isNear ea then .ok (writeNext u rd 0)
    else
      let (u, pa, d) ← loadDesc u ea
      let h := coreShed t.core
      let p (e : LoftEntry) : Bool := e.is pa (Desc.gen d)
      let any := (u.shed h).loft.any p || (u.shed h).compiles.any p
      .ok (writeNext (dropLoft u h p) rd (boolWord any)))

end Sys2Proof.Machine
end

