-- ==== Sys2Proof/Machine/RealSets.lean ====
section
/-! DEFINITION. The real-set instructions (R133 to R149): slots, their run-wide records and their tables in each shed. -/

namespace Sys2Proof.Machine

def VCmd.op (v : VCmd) : Nat := bits v.opw 7 0
def VCmd.vflags (v : VCmd) : Nat := bits v.opw 39 32

/-- The key of a slot's tables in a shed. -/
def zkey (run z : Nat) : Nat := run * 8 + z

/-- R135: the run claims the slot; a slot outside the mask is a privilege fault. -/
def needClaim (s : State) (z : Nat) (i : Instr) : M Unit :=
  match s.curRun with
  | some r => if r.zclaim / 2 ^ z % 2 == 1 then .ok () else .error (wordFault 1 i)
  | none => .ok ()

/-- R138: what a definition's dwords say: BADTYPE, BADPOINT, or its points. -/
def defPoints (h : Word) (ps : List Word) : Nat × List Word :=
  if bits h 63 2 ≠ 0 || bits h 1 0 = 3 then (1, [])
  else
    let ps := ps.map RealSet.normPoint
    if RealSet.pointsOk ps then (0, ps) else (2, [])

/-- The points that a header names. -/
def pointCount (h : Word) : Nat := 8 * 2 ^ bits h 1 0 - 1

/-- n dwords from an address on, read at their homes by a shed's unit, so that no copy of its device stays older (R195). -/
def unitDwords (s : State) (c : Ctx) (ea : Nat) : Nat → M (State × List Word)
  | 0 => .ok (s, [])
  | n + 1 => do
    let (s, p) ← placeData s c .read ea
    let v := BitVec.ofNat 64 (s.value p.key 8)
    let (s, vs) ← unitDwords (dropUnit s c p) c (ea + 8) n
    .ok (s, v :: vs)

/-- The definition at an address as a shed's unit reads it: BADTYPE, BADPOINT, or its points (R138). -/
def readDefinition (s : State) (c : Ctx) (ea : Nat) : M (State × Nat × List Word) := do
  let (s, hd) ← unitDwords s c ea 1
  let (s, ps) ← unitDwords s c (ea + 8) (pointCount (hd.headD 0))
  .ok (s, defPoints (hd.headD 0) ps)

/-- R139, R140: the tables of a loaded slot in a shed, rebuilt from the recorded address when they are older than the run-wide record; a
rebuild that fails leaves the slot empty. One that meets a machine check (R379) is still to be made. -/
def slotTables (s : State) (run h z : Nat) : M (State × Option (List Word)) :=
  match (s.runs.get run).bind (fun r => r.zslots.get z) with
  | some rec =>
    if rec.status ≠ 0 then .ok (s, none)
    else match ((s.shed h).tables.get (zkey run z)).filter (fun t => t.1 == rec.version) with
      | some t => .ok (s, some t.2)
      | none =>
        let empty := s.modRun run (fun r => { r with zslots := r.zslots.set z { rec with status := 2 } })
        match readDefinition s (.unit run rec.coord (8 * h) .nobody) rec.addr with
        | .ok (s, 0, ps) => .ok (s.modShed h (fun x => { x with tables := x.tables.set (zkey run z) (rec.version, ps) }), some ps)
        | .error (.fault 8 cause a) => .error (.fault 8 cause a)
        | _ => .ok (empty, none)
  | none => .ok (s, none)

/-- An rsring of a thread in a shed is building the shed's copy of a slot (R139). -/
def slotBuilding (s : State) (run h z : Nat) : Bool :=
  s.threads.any (fun p => p.2.run == run && coreShed p.2.core == h && (match p.2.park with
    | .table y .. => y == z
    | _ => false))

/-- The points of a slot that an instruction of a thread names; it waits while the shed's copy is being built (R139), and an empty slot is
an RS_SLOT fault (R135). -/
def needSlot (s : State) (t : Thread) (z : Nat) (i : Instr) : M (State × List Word) := do
  if slotBuilding s t.run (coreShed t.core) z then .error (.wait .build)
  match ← slotTables s t.run (coreShed t.core) z with
  | (s, some ps) => .ok (s, ps)
  | (_, none) => .error (wordFault 11 i)

/-- A real-set form of a thread that names slot z. Where it ends in the RS_SLOT fault, a rebuild that failed has emptied the slot
(R140). -/
def asSet (s : State) (i : Instr) (z : Nat) (f : Nat → Thread → M State) : Out :=
  let r := onThread s i f
  complete (match r, s.curThread with
    | .error e, some t => if e = wordFault 11 i then (match slotTables s t.run (coreShed t.core) z with
        | .ok (u, _) => u
        | .error _ => s) else s
    | _, _ => s) r

/-- A request to the shed's copy of the slot (R149): the thread issues nothing until REAL_SET_RESULT brings the result. -/
def requestSet (s : State) (tid : Nat) (rd : Reg) (v : Nat) : State :=
  (s.modThread tid (fun t => { t with park := .result true rd (BitVec.ofNat 64 v) 0 })).post (.realSetResult tid)

/-- REAL_SET_RESULT (R149). -/
def execRealSetResult (t : Nat) (s : State) : Out := .next (deliverResult s true t)

/-- A binary form whose result comes from the shed's copy of the slot. -/
def setBinary (s : State) (i : Instr) (z : BitVec 3) (rd : Reg) (ra rb : Src) (f : List Word → Word → Word → Nat) : Out :=
  asSet s i z.toNat (fun tid t => do
    needClaim s z.toNat i
    let (u, a, b) ← op2 s ra rb
    let (u, ps) ← needSlot u t z.toNat i
    .ok (requestSet u tid rd (f ps a b)))

def setUnary (s : State) (i : Instr) (z : BitVec 3) (rd : Reg) (ra : Src) (f : List Word → Word → Nat) : Out :=
  asSet s i z.toNat (fun tid t => do
    needClaim s z.toNat i
    let (u, a) ← op1 s ra
    let (u, ps) ← needSlot u t z.toNat i
    .ok (requestSet u tid rd (f ps a)))

/-- The mask that a register holds in a slot (R133). -/
def maskOf (ps : List Word) (v : Word) : Nat := v.toNat % 2 ^ RealSet.width ps

def execRsadd (z : BitVec 3) (rd : Reg) (ra rb : Src) (s : State) : Out :=
  setBinary s (.rsadd z rd ra rb) z rd ra rb (fun ps a b => RealSet.binary ps .add (maskOf ps a) (maskOf ps b))
def execRssub (z : BitVec 3) (rd : Reg) (ra rb : Src) (s : State) : Out :=
  setBinary s (.rssub z rd ra rb) z rd ra rb (fun ps a b => RealSet.binary ps .sub (maskOf ps a) (maskOf ps b))
def execRsmul (z : BitVec 3) (rd : Reg) (ra rb : Src) (s : State) : Out :=
  setBinary s (.rsmul z rd ra rb) z rd ra rb (fun ps a b => RealSet.binary ps .mul (maskOf ps a) (maskOf ps b))
def execRsdiv (z : BitVec 3) (rd : Reg) (ra rb : Src) (s : State) : Out :=
  setBinary s (.rsdiv z rd ra rb) z rd ra rb (fun ps a b => RealSet.binary ps .div (maskOf ps a) (maskOf ps b))
def execRslt (z : BitVec 3) (rd : Reg) (ra rb : Src) (s : State) : Out :=
  setBinary s (.rslt z rd ra rb) z rd ra rb (fun ps a b => RealSet.less ps (maskOf ps a) (maskOf ps b))
/-- rsfi sets no flag, for a signalling NaN either (R137, R144, log entry 105). -/
def execRsfi (z : BitVec 3) (rd : Reg) (ra rb : Src) (s : State) : Out :=
  setBinary s (.rsfi z rd ra rb) z rd ra rb (fun ps a b => RealSet.ofInterval ps (s.fpOperand .fp64 a) (s.fpOperand .fp64 b))
def execRsneg (z : BitVec 3) (rd : Reg) (ra : Src) (s : State) : Out :=
  setUnary s (.rsneg z rd ra) z rd ra (fun ps a => RealSet.unary ps .neg (maskOf ps a))
def execRsinv (z : BitVec 3) (rd : Reg) (ra : Src) (s : State) : Out :=
  setUnary s (.rsinv z rd ra) z rd ra (fun ps a => RealSet.unary ps .inv (maskOf ps a))
def execRssq (z : BitVec 3) (rd : Reg) (ra : Src) (s : State) : Out :=
  setUnary s (.rssq z rd ra) z rd ra (fun ps a => RealSet.unary ps .sq (maskOf ps a))
def execRslo (z : BitVec 3) (rd : Reg) (ra : Src) (s : State) : Out :=
  setUnary s (.rslo z rd ra) z rd ra (fun ps a => RealSet.bound ps false (maskOf ps a))
def execRshi (z : BitVec 3) (rd : Reg) (ra : Src) (s : State) : Out :=
  setUnary s (.rshi z rd ra) z rd ra (fun ps a => RealSet.bound ps true (maskOf ps a))
/-- rsf sets no flag, for a signalling NaN either (R137, R143, log entry 105). -/
def execRsf (z : BitVec 3) (rd : Reg) (ra : Src) (s : State) : Out :=
  setUnary s (.rsf z rd ra) z rd ra (fun ps a => RealSet.ofVal ps (s.fpOperand .fp64 a))

/-- A form that completes in the core (R142, R147, R148): its result, and whether NX is set. -/
def setCore (s : State) (i : Instr) (z : BitVec 3) (rd : Reg) (as : List Src) (f : List Word → List Word → M (Nat × Bool)) : Out :=
  asSet s i z.toNat (fun _ t => do
    needClaim s z.toNat i
    let vs := as.map (fun a => s.reg a.r)
    let u ← sources s (as.map (fun a => a.r))
    let u := endSources u as
    let (u, ps) ← needSlot u t z.toNat i
    let (v, nx) ← f ps vs
    .ok (holdResult (writeNext (u.orFlags (BitVec.ofNat 5 (b2n nx))) rd (BitVec.ofNat 64 v))))

def execRsor (z : BitVec 3) (rd : Reg) (ra rb : Src) (s : State) : Out :=
  setCore s (.rsor z rd ra rb) z rd [ra, rb] (fun ps v => .ok (maskOf ps (v.getD 0 0 ||| v.getD 1 0), false))
def execRsand (z : BitVec 3) (rd : Reg) (ra rb : Src) (s : State) : Out :=
  setCore s (.rsand z rd ra rb) z rd [ra, rb] (fun ps v => .ok (maskOf ps (v.getD 0 0 &&& v.getD 1 0), false))
def execRsconn (z : BitVec 3) (rd : Reg) (ra : Src) (s : State) : Out :=
  setCore s (.rsconn z rd ra) z rd [ra] (fun ps v => .ok (RealSet.connected ps (maskOf ps (v.getD 0 0)), false))

def czBits (w : CzW) : Nat := match w with | .w8 => 8 | .w10 => 10 | .w12 => 12

/-- R148: the width fits the slot. -/
def needWidth (ps : List Word) (w : CzW) (i : Instr) : M Unit :=
  if RealSet.codeWidth ps = czBits w then .ok () else .error (wordFault 11 i)

def execRscz (w : CzW) (z : BitVec 3) (rd : Reg) (ra : Src) (s : State) : Out :=
  setCore s (.rscz w z rd ra) z rd [ra] (fun ps v => do
    needWidth ps w (.rscz w z rd ra)
    .ok (RealSet.compress ps (maskOf ps (v.getD 0 0))))
def execRsxz (w : CzW) (z : BitVec 3) (rd : Reg) (ra : Src) (s : State) : Out :=
  setCore s (.rsxz w z rd ra) z rd [ra] (fun ps v => do
    needWidth ps w (.rsxz w z rd ra)
    .ok (RealSet.expand ps ((v.getD 0 0).toNat % 2 ^ czBits w), false))

/-- The number of the last load of a run's slot. -/
def slotVersion (s : State) (run z : Nat) : Nat := ((s.runs.get run).bind (fun r => r.zslots.get z)).elim 0 (fun x => x.version)

/-- The record of a slot after an rsring (R139). -/
def recordSlot (s : State) (t : Thread) (z addr width status : Nat) : State :=
  s.modRun t.run (fun r =>
    { r with zslots := r.zslots.set z ⟨addr, t.coord, width, status, slotVersion s t.run z + 1⟩ })

/-- A vrs on a slot of a run, in flight in a shed with the slot's tables (R139). -/
def slotInUse (s : State) (run h z : Nat) : Bool :=
  s.vcmds.any (fun p => p.2.run == run && coreShed p.2.core == h && p.2.op == 0x24 && p.2.vflags % 8 == z &&
    p.2.points.isSome && !p.2.ended && isResident s p.2.lkey)

/-- rsring (R138): it waits for the vrs commands in flight on the slot in its shed, and for a build of the shed's copy (R139); a definition
that is not valid empties the slot; a valid one is recorded run-wide, and the thread waits for TABLE_BUILD. -/
def execRsring (z : BitVec 3) (rd : Reg) (ra : Src) (s : State) : Out :=
  asThread s (.rsring z rd ra) (fun tid t => do
    needClaim s z.toNat (.rsring z rd ra)
    let (u, a) ← op1 s ra
    let ea ← effAddr a 0 8
    if slotInUse u t.run (coreShed t.core) z.toNat then .error (.wait .vector)
    if slotBuilding u t.run (coreShed t.core) z.toNat then .error (.wait .build)
    let (u, h) ← loadFresh u ea 8
    let hd := BitVec.ofNat 64 h
    if bits hd 63 2 ≠ 0 || bits hd 1 0 = 3 then .ok (holdResult (writeNext (recordSlot (release u) t z.toNat ea 0 1) rd 1))
    else
      let (u, ps) ← loadDwords u (ea + 8) (pointCount hd)
      let d := defPoints hd ps
      if d.1 ≠ 0 then .ok (holdResult (writeNext (recordSlot (release u) t z.toNat ea 0 2) rd 2))
      else
        let u := recordSlot (release u) t z.toNat ea (RealSet.width d.2) 0
        .ok ((u.modThread tid (fun x => { x with park := .table z.toNat rd d.2 (slotVersion u t.run z.toNat) })).post (.tableBuild tid)))

/-- A copy of a slot's tables is filed in a shed, where none of a later load stands. -/
def fileTables (s : State) (h key v : Nat) (ps : List Word) : State :=
  if ((s.shed h).tables.get key).any (fun t => decide (v < t.1)) then s
  else s.modShed h (fun y => { y with tables := y.tables.set key (v, ps) })

/-- TABLE_BUILD (R138, R139): the local shed's copy, of the load that rsring recorded, is complete; rsring returns, and what waits for
the build goes on. While its device has stopped, it waits (R395). -/
def execTableBuild (t : Nat) (s : State) : Out :=
  match s.threads.get t with
  | some x =>
    match x.park with
    | .table z rd ps v =>
      if !coreWorks s x.core then .next (s.post (.tableBuild t))
      else
      let h := x.hart.setReg rd 0
      let s := s.setThread t { x with hart := { h with pc := h.pc + 4 }, park := .none, held := requested s x }
      .next (wakeBuild (fileTables s (coreShed x.core) (zkey x.run z) v ps) (coreShed x.core))
    | _ => .next s
  | none => .next s

end Sys2Proof.Machine
end

