-- ==== Sys2Proof/Machine/Vector.lean ====
section
/-! DEFINITION. The vector commands (R72, R278, R296 to R299): their checks, their operands, their elements and their completion. -/

namespace Sys2Proof.Machine

/-! ### The fields of a command (R71) -/

def VCmd.fmt (v : VCmd) : Nat := bits v.opw 13 8
def VCmd.count (v : VCmd) : Nat := bits v.opw 31 16
def VCmd.hd (v : VCmd) : Nat := bits v.opd 15 0
def VCmd.ha (v : VCmd) : Nat := bits v.opd 31 16
def VCmd.hb (v : VCmd) : Nat := bits v.opd 47 32
def VCmd.imm (v : VCmd) : Nat := bits v.opd 63 48

/-- R299: the operation of a vrs, and whether it has two sources. -/
def VCmd.rsOp (v : VCmd) : Nat := v.vflags / 8
def VCmd.rsBinary (v : VCmd) : Bool := decide (v.rsOp ≤ 6)

/-- R297 to R299: the bits of VFLAGS and IMM that an operation uses, and whether it uses HB. -/
def VCmd.uses (v : VCmd) : Nat × Nat × Bool :=
  match v.op with
  | 0x01 | 0x02 | 0x03 | 0x04 => (3, 0xFFFF, true)
  | 0x05 | 0x06 | 0x14 | 0x20 | 0x21 | 0x22 => (0, 0, true)
  | 0x08 => (0xFB, 0xFFFF, false)
  | 0x09 => (0, 0x3F, false)
  | 0x11 | 0x23 => (0, 0xFFFF, false)
  | 0x13 => (3, 0, true)
  | 0x24 => (0xFF, 0, v.rsBinary)
  | 0x25 => (if v.fmt = 18 then 3 else 0, 0, false)
  | _ => (0, 0, false)

def VCmd.rounds (v : VCmd) : Bool := (decide (1 ≤ v.op) && decide (v.op ≤ 4)) || v.op == 8

/-- R296: an unused field or handle is not zero, or a field has a value that gives BADCMD. -/
def VCmd.badFields (v : VCmd) : Bool :=
  let u := v.uses
  (v.vflags ||| u.1) != u.1 || (v.imm ||| u.2.1) != u.2.1 || (v.hb != 0 && !u.2.2) ||
    (v.rounds && v.vflags % 4 == 3) || (v.op == 9 && decide (12 ≤ v.imm)) ||
    (v.op == 0x25 && v.vflags == 3) ||
    (v.op == 0x24 && (decide (13 < v.rsOp) || v.rsOp == 7))

/-- R297: the destination format of a vcvt. -/
def VCmd.dstFmt (v : VCmd) : Nat := if v.op = 8 then v.vflags / 8 else v.fmt

/-- The width of the format-18 elements of a vcopy (R297), or of the codes of a vrs (R148). -/
def VCmd.w18 (v : VCmd) : Nat :=
  if v.op = 0x25 then 8 + 2 * v.vflags else match v.fmt with | 15 => 8 | 16 => 10 | _ => 12

/-- The bits of one element of HA, of HB and of HD, where an operation has one element of each for each i. -/
def VCmd.aBits (v : VCmd) : Nat := if v.op = 0x24 && v.rsOp = 13 then v.w18 else fmtBits v.fmt v.w18
def VCmd.bBits (v : VCmd) : Nat :=
  match v.op with
  | 0x14 => 1
  | 0x20 | 0x21 | 0x22 => 32
  | _ => fmtBits v.fmt v.w18
def VCmd.dBits (v : VCmd) : Nat :=
  match v.op with
  | 0x13 | 0x23 => 1
  | 0x24 => if v.rsOp = 12 then v.w18 else fmtBits v.fmt v.w18
  | _ => fmtBits v.dstFmt v.w18

/-- The bytes of n elements; LQ2 has two bytes for each eight weights (R128). -/
def vBytes (fmt b n : Nat) : Nat := if fmt = 14 then cdiv n 8 * 2 else cdiv (n * b) 8

/-- The bytes of each operand that a command reaches whatever an index says. -/
def VCmd.aSize (v : VCmd) : Nat := if v.op = 0x23 then 16 else vBytes v.fmt v.aBits v.count
def VCmd.bSize (v : VCmd) : Nat := vBytes 0 v.bBits v.count
/-- The destination's: where a vcvt names a code of no fixed element size, 12 bits an element for code 18 and 8 for another (log
entry 86). -/
def VCmd.dSize (v : VCmd) : Nat :=
  match v.op with
  | 0x10 => if v.fmt = 1 then 8 else 4
  | 0x11 => 16
  | _ => vBytes v.dstFmt v.dBits v.count

/-- The scales of an operand of a vcvt or vcopy (R297). -/
def VCmd.scales (v : VCmd) (fmt : Nat) : Nat :=
  if (v.op == 8 || v.op == 0x25) && fmtScaled fmt then cdiv v.count (blockLen fmt 0) else 0

/-! ### Operands -/

/-- R72: the shed window in interleaved mode. -/
def vWindow : Nat := 0x000F800000000000

def isRingHandle (h : Nat) : Bool := decide (2 ^ 15 ≤ h)

def windowLoc (h : Nat) : VLoc := ⟨vWindow + h * 64, vWindow, 2 ^ 21, none, 0⟩

/-- The address that an index forms (R298). -/
def VLoc.at (o : VLoc) (off : Nat) : Nat := o.origin + (o.base - o.origin + off) % o.lim

/-- The n bits from bit `off` of an operand on, least significant first (R118, R296). -/
def vLoad (s : State) (c : Ctx) (base off n : Nat) : JM (State × Nat) := do
  let (s, b) ← jLoadBytes s c (base + off / 8) (cdiv (off % 8 + n) 8)
  .ok (s, leVal b / 2 ^ (off % 8) % 2 ^ n)

/-- The store of n bits of an operand whose destination has some bytes. -/
def vPut (base len off n v : Nat) : Put := ⟨base, off, n, v % 2 ^ n, base, len⟩

/-- A step adds a store, as the accesses that it is made of. -/
def VRun.put (r : VRun) (p : Put) : VRun := { r with todo := r.todo ++ p.pieces (p.n + 1) }

/-- R296: a window operand of n bytes lies within the grid and the reservations, in scratchpads that are not released. -/
def vRange (s : State) (c : Ctx) (h n : Nat) : JM Unit :=
  (List.range (cdiv n 8)).foldl (fun r u => do
    r
    let _ ← jPlace s c .read (vWindow + h * 64 + 8 * u) false
    .ok ()) (.ok ())

/-- R296: a ring operand is claimed and defined, and fits its slot. -/
def vRingOk (s : State) (v : VCmd) (h n : Nat) : Bool :=
  !isRingHandle h ||
    (ringClaimed s v.run (h % 32) && (ringGet s v.lkey (h % 32)).st != 0 &&
      decide (n ≤ (ringGet s v.lkey (h % 32)).slotBytes))

/-- The operands that an operation has before it starts: handle, bytes and scales. -/
def VCmd.spans (v : VCmd) : List (Nat × Nat × Nat) :=
  [(v.ha, if v.op = 0x20 then 0 else v.aSize, v.scales v.fmt)] ++
    (if v.uses.2.2 then [(v.hb, v.bSize, 0)] else []) ++
    [(v.hd, if v.op = 0x21 || v.op = 0x22 then 0 else v.dSize, v.scales v.dstFmt)]

/-- R296: the window operands. -/
def vRanges (s : State) (k : Nat) (v : VCmd) : JM Unit :=
  v.spans.foldl (fun r x => do
    r
    if isRingHandle x.1 || x.2.1 = 0 then .ok ()
    else
      vRange s (v.ctx k) x.1 x.2.1
      if x.2.2 = 0 then .ok () else vRange s (v.ctx k) (x.1 + cdiv x.2.1 64) x.2.2) (.ok ())

/-- A source handle: a ring gives its oldest filled slot (R278, R296). -/
def vSource (s : State) (v : VCmd) (h : Nat) : JM VLoc :=
  if isRingHandle h then
    let r := ringGet s v.lkey (h % 32)
    if r.st = 3 then halt s (.stop 5 0)
    else if r.filled = 0 then halt s (if r.st = 2 then .stop 6 0 else .wait)
    else .ok ⟨r.slotAddr r.head, r.slotAddr r.head, r.slotBytes, some (h % 32), r.seq.getD (r.head % r.slots) r.head⟩
  else .ok (windowLoc h)

/-- A destination handle: a ring gives its next free slot; its sequence number is TAIL (R271, R275). One that carries scales waits while the
side band is full (log entry 120). -/
def vDest (s : State) (v : VCmd) : JM VLoc :=
  if isRingHandle v.hd then
    let r := ringGet s v.lkey (v.hd % 32)
    if r.st = 3 then halt s (.stop 5 0)
    else if r.st = 2 then halt s (.stop 6 0)
    else if r.slots ≤ r.filled || (v.scales v.dstFmt != 0 && decide (64 ≤ r.scales.length)) then halt s .wait
    else .ok ⟨r.slotAddr r.tail, r.slotAddr r.tail, r.slotBytes, some (v.hd % 32), r.tail⟩
  else .ok (windowLoc v.hd)

/-- R275, R282: the scales of a scaled ring source: the group paired with its slot, by its tag alone (log entry 124). -/
def ringScales (s : State) (v : VCmd) (o : VLoc) : JM (List Nat) :=
  match o.ring with
  | some q =>
    if v.scales v.fmt = 0 then .ok []
    else match (ringGet s v.lkey q).scales with
      | g :: _ => if g.1 = o.seq then .ok g.2 else halt s (.stop 9 (o.seq % 256))
      | [] => halt s (.stop 9 (o.seq % 256))
  | none => .ok []

/-! ### Elements -/

def vMode (o : VOps) (v : VCmd) (i : Nat) : RMode := unitMode o.seed (v.vflags % 4) v.imm i

/-- Element i of HA, of HB and of HD. -/
def vA (s : State) (k : Nat) (v : VCmd) (o : VOps) (i : Nat) : JM (State × Nat) := vLoad s (v.ctx k) o.a.base (i * v.aBits) v.aBits
def vB (s : State) (k : Nat) (v : VCmd) (o : VOps) (i : Nat) : JM (State × Nat) := vLoad s (v.ctx k) o.b.base (i * v.bBits) v.bBits
def vD (v : VCmd) (o : VOps) (i x : Nat) : Put := vPut o.d.base v.dSize (i * v.dBits) v.dBits x

/-- An operand of FMT 1 to 4 under its flush bit (R121). -/
def vVal (o : VOps) (v : VCmd) (raw : Nat) : FpVal := (elemFmt v.fmt).operand (opFlush o.fpctl v.fmt) raw

/-- vadd, vsub, vmul, vfma, vmin, vmax (R297): the result from the raw a, b and d. -/
def vArith (o : VOps) (v : VCmd) (i a b d : Nat) : Nat × FpFlags :=
  let f := elemFmt v.fmt
  let fl := resFlush o.fpctl v.fmt
  let m := vMode o v i
  let x := vVal o v a
  let y := vVal o v b
  match v.op with
  | 0x01 => fpAdd f m fl x y
  | 0x02 => fpAdd f m fl x y.negate
  | 0x03 => fpMul f m fl x y
  | 0x04 => fpFma f m fl x y (vVal o v d)
  | 0x05 => fpMinMax f false x y
  | _ => fpMinMax f true x y

/-- One element of an arithmetic operation of two sources (R297). -/
def arithStep (k : Nat) (v : VCmd) (o : VOps) (i : Nat) (s : State) (r : VRun) : JM (State × VRun) := do
  let (s, a) ← vA s k v o i
  let (s, b) ← vB s k v o i
  let (s, d) ← if v.op = 4 then vLoad s (v.ctx k) o.d.base (i * v.dBits) v.dBits else .ok (s, 0)
  let x := vArith o v i a b d
  .ok (s, ({ r with flags := r.flags.or x.2 } : VRun).put (vD v o i x.1))

/-- vabs (R297). -/
def absStep (k : Nat) (v : VCmd) (o : VOps) (i : Nat) (s : State) (r : VRun) : JM (State × VRun) := do
  let (s, a) ← vA s k v o i
  .ok (s, r.put (vD v o i (a % 2 ^ (v.aBits - 1))))

/-- vcmp (R297, R110). -/
def cmpStep (k : Nat) (v : VCmd) (o : VOps) (i : Nat) (s : State) (r : VRun) : JM (State × VRun) := do
  let (s, a) ← vA s k v o i
  let (s, b) ← vB s k v o i
  let p : FPred := match v.vflags with | 0 => .eq | 1 => .lt | 2 => .le | _ => .un
  let x := fpCmp p (vVal o v a) (vVal o v b)
  .ok (s, ({ r with flags := r.flags.or x.2 } : VRun).put (vD v o i (b2n x.1)))

/-- vsel (R297). -/
def selStep (k : Nat) (v : VCmd) (o : VOps) (i : Nat) (s : State) (r : VRun) : JM (State × VRun) := do
  let (s, m) ← vB s k v o i
  if m = 1 then
    let (s, a) ← vA s k v o i
    .ok (s, r.put (vD v o i a))
  else .ok (s, r)

/-- vsfn (R130). -/
def sfnElem (o : VOps) (v : VCmd) (fn : SfnFn) (raw : Nat) : Nat × FpFlags :=
  if v.fmt = 2 then Sfn.result fn (resFlush o.fpctl 2) (vVal o v raw)
  else
    let f := elemFmt v.fmt
    let x := Sfn.result fn false (vVal o v raw)
    let y := fpToFp f .rne (resFlush o.fpctl v.fmt) (fp32F.decode x.1)
    let small := match (fp32F.decode x.1).expo with
      | some e => decide (e < 1 - (f.bias : Int))
      | none => false
    let fl := x.2.or y.2
    (y.1, { fl with uf := fl.uf || (x.2.nx && small) })

def sfnStep (k : Nat) (v : VCmd) (o : VOps) (i : Nat) (s : State) (r : VRun) : JM (State × VRun) := do
  let (s, a) ← vA s k v o i
  match SfnFn.ofCode v.imm with
  | some fn =>
    let x := sfnElem o v fn a
    .ok (s, ({ r with flags := r.flags.or x.2 } : VRun).put (vD v o i x.1))
  | none => halt s (.stop 1 0)

/-- The scale array of a window operand, after its n element bytes (R282). -/
def vScaleBase (o : VLoc) (n : Nat) : Nat := o.base + cdiv n 64 * 64

/-- Scale number j of the source. -/
def srcScale (s : State) (k : Nat) (v : VCmd) (o : VOps) (j : Nat) : JM (State × Nat) :=
  match o.a.ring with
  | some _ => .ok (s, o.aScales.getD j 0)
  | none => vLoad s (v.ctx k) (vScaleBase o.a v.aSize) (8 * j) 8

/-- A scale of the destination: stored in the window, or gathered for the ring's side band. -/
def dstScale (v : VCmd) (o : VOps) (r : VRun) (j x : Nat) : VRun :=
  match o.d.ring with
  | some _ => { r with scales := r.scales ++ [x] }
  | none => r.put (vPut (vScaleBase o.d v.dSize) (v.scales v.dstFmt) (8 * j) 8 x)

/-- vcopy of an element (R297); LQ2 moves its 16-bit indices. -/
def copyElem (k : Nat) (v : VCmd) (o : VOps) (i : Nat) (s : State) (r : VRun) : JM (State × VRun) := do
  let (b, i) := if v.fmt = 14 then (16, i / 8) else (v.aBits, i)
  let (s, x) ← vLoad s (v.ctx k) o.a.base (i * b) b
  .ok (s, r.put (vPut o.d.base v.dSize (i * b) b x))

/-- vcopy (R297), one element; with an MX or LQ2 format each block's elements are followed by its scale. -/
def vcopyStep (k : Nat) (v : VCmd) (o : VOps) (n : Nat) (s : State) (r : VRun) : JM (State × VRun) :=
  if fmtScaled v.fmt then
    let l := blockLen v.fmt 0
    let b := n / (l + 1)
    if n % (l + 1) < l then
      if b * l + n % (l + 1) < v.count then copyElem k v o (b * l + n % (l + 1)) s r else .ok (s, r)
    else do
      let (s, x) ← srcScale s k v o b
      .ok (s, dstScale v o r b x)
  else copyElem k v o n s r

/-- The values of len elements of a vcvt's source from i on. -/
def srcVals (k : Nat) (v : VCmd) (o : VOps) (s : State) (i : Nat) : Nat → JM (State × List FpVal)
  | 0 => .ok (s, [])
  | n + 1 => do
    let (s, raw) ← if v.fmt = 14 then vLoad s (v.ctx k) o.a.base (i / 8 * 16) 16 else vA s k v o i
    let (s, sc) ← if fmtScaled v.fmt then srcScale s k v o (i / blockLen v.fmt 0) else .ok (s, 0)
    let (s, r) ← srcVals k v o s (i + 1) n
    .ok (s, rawVal o.fpctl v.fmt i raw sc :: r)

/-- The stores of elements from i on. -/
def putVals (v : VCmd) (o : VOps) (i : Nat) : List Nat → VRun → VRun
  | [], r => r
  | x :: xs, r => putVals v o (i + 1) xs (r.put (vD v o i x))

/-- vcvt of element n, or of block n of an MX destination (R297, R124, R127). -/
def vcvtStep (k : Nat) (v : VCmd) (o : VOps) (n : Nat) (s : State) (r : VRun) : JM (State × VRun) :=
  if fmtScaled v.dstFmt then do
    let l := blockLen v.dstFmt 0
    let (s, vs) ← srcVals k v o s (n * l) (min l (v.count - n * l))
    let q := mxQuantise v.dstFmt (fun x => vMode o v (n * l + x)) vs
    .ok (s, dstScale v o (putVals v o (n * l) q.2.1 { r with flags := r.flags.or q.2.2 }) n q.1)
  else do
    let (s, vs) ← srcVals k v o s n 1
    let q := convTo o.fpctl v.dstFmt (vMode o v n) (vs.headD (.zero false))
    .ok (s, ({ r with flags := r.flags.or q.2 } : VRun).put (vD v o n q.1))

/-- The elements of a vsum, added to its lanes (R298). -/
def laneAdd (o : VOps) (v : VCmd) (x y : FpVal) : FpVal × FpFlags :=
  let c := if v.fmt = 1 then 1 else 2
  let q := fpAdd (elemFmt c) .rne (resFlush o.fpctl c) x y
  ((elemFmt c).decode q.1, q.2)

/-- The lanes combine pairwise: l with l + 16, then + 8, + 4, + 2 and + 1. -/
def laneTree (o : VOps) (v : VCmd) (lanes : List FpVal) (fl : FpFlags) : List Nat → FpVal × FpFlags
  | [] => (lanes.headD (.zero false), fl)
  | h :: hs =>
    let q := (List.range h).map (fun l => laneAdd o v (lanes.getD l (.zero false)) (lanes.getD (l + h) (.zero false)))
    laneTree o v (q.map (fun p => p.1)) (q.foldl (fun f p => f.or p.2) fl) hs

/-- vsum (R298): an element a step, added to its lane; the last step combines the lanes. -/
def sumStep (k : Nat) (v : VCmd) (o : VOps) (i : Nat) (s : State) (r : VRun) : JM (State × VRun) :=
  if i < v.count then do
    let (s, a) ← vA s k v o i
    match r.lanes.get (i % 32) with
    | none => .ok (s, { r with lanes := r.lanes.set (i % 32) (vVal o v a) })
    | some x =>
      let q := laneAdd o v x (vVal o v a)
      .ok (s, { r with lanes := r.lanes.set (i % 32) q.1, flags := r.flags.or q.2 })
  else
    let t := laneTree o v ((List.range 32).map (fun l => r.lanes.getD l (.zero false))) r.flags [16, 8, 4, 2, 1]
    let c := if v.fmt = 1 then 1 else 2
    .ok (s, ({ r with flags := t.2 } : VRun).put (vPut o.d.base v.dSize 0 (fmtBits c 8) ((elemFmt c).codeOf t.1)))

/-- vscan (R298): d(i − 1) is carried, and read as an operand under the operand-flush bit (log entry 73). -/
def scanStep (k : Nat) (v : VCmd) (o : VOps) (i : Nat) (s : State) (r : VRun) : JM (State × VRun) := do
  let (s, a) ← vA s k v o i
  let q := fpAdd (elemFmt v.fmt) .rne (resFlush o.fpctl v.fmt) (vVal o v r.acc) (vVal o v a)
  .ok (s, ({ r with flags := r.flags.or q.2, acc := q.1 } : VRun).put (vD v o i q.1))

/-- vmaxi (R298, R320): an element a step against the largest so far and its index, ties by the least hash; the last step stores
them. -/
def maxStep (k : Nat) (v : VCmd) (o : VOps) (i : Nat) (s : State) (r : VRun) : JM (State × VRun) :=
  if i < v.count then do
    let (s, a) ← vA s k v o i
    let x := vVal o v a
    if x.isNan then .ok (s, r)
    else match r.merged.head? with
      | none => .ok (s, { r with merged := [(a, i)] })
      | some (b, j) =>
        let y := vVal o v b
        if y.ltSigned x || (!x.ltSigned y && (tieHash o.seed v.imm i).ult (tieHash o.seed v.imm j)) then
          .ok (s, { r with merged := [(a, i)] })
        else .ok (s, r)
  else
    let w := r.merged.headD (2 ^ 64 - 1, 2 ^ 64 - 1)
    .ok (s, (r.put (vPut o.d.base v.dSize 0 64 w.1)).put (vPut o.d.base v.dSize 64 64 w.2))

/-- vgath and vscat (R298). -/
def gathStep (k : Nat) (v : VCmd) (o : VOps) (i : Nat) (s : State) (r : VRun) : JM (State × VRun) := do
  let (s, x) ← vB s k v o i
  let (s, a) ← vLoad s (v.ctx k) (o.a.at (x * (v.aBits / 8))) 0 v.aBits
  .ok (s, r.put (vD v o i a))

def scatStep (k : Nat) (v : VCmd) (o : VOps) (i : Nat) (s : State) (r : VRun) : JM (State × VRun) := do
  let (s, x) ← vB s k v o i
  let (s, a) ← vA s k v o i
  .ok (s, r.put (vPut (o.d.at (x * (v.aBits / 8))) 0 0 v.aBits a))

/-- vscad (R298): its first COUNT steps merge the contributions of each index, and as many more add the merged sums, in
the order in which their indices first appear. A merged sum is read as an operand under the operand-flush bit (log entry 73). -/
def scadStep (k : Nat) (v : VCmd) (o : VOps) (i : Nat) (s : State) (r : VRun) : JM (State × VRun) :=
  let f := elemFmt v.fmt
  let fl := resFlush o.fpctl v.fmt
  if i < v.count then do
    let (s, x) ← vB s k v o i
    let (s, a) ← vA s k v o i
    match r.merged.find? (fun p => p.1 == x) with
    | some p =>
      let q := fpAdd f .rne fl (vVal o v p.2) (vVal o v a)
      .ok (s, { r with flags := r.flags.or q.2, merged := r.merged.map (fun m => if m.1 = x then (x, q.1) else m) })
    | none => .ok (s, { r with merged := r.merged ++ [(x, a)] })
  else match r.merged[i - v.count]? with
    | some (x, m) => do
      let at_ := o.d.at (x * (v.aBits / 8))
      let (s, d) ← vLoad s (v.ctx k) at_ 0 v.aBits
      let q := fpAdd f .rne fl (vVal o v d) (vVal o v m)
      .ok (s, ({ r with flags := r.flags.or q.2 } : VRun).put (vPut at_ 0 0 v.aBits q.1))
    | none => .ok (s, r)

/-- vbern (R299): the two dwords are read first; step i + 1 sets bit i. -/
def bernStep (k : Nat) (v : VCmd) (o : VOps) (n : Nat) (s : State) (r : VRun) : JM (State × VRun) :=
  match n with
  | 0 => do
    let (s, c) ← vLoad s (v.ctx k) o.a.base 0 64
    let (s, w) ← vLoad s (v.ctx k) o.a.base 64 64
    if 2 ^ 32 ≤ w || !programStream w then halt s (.stop 1 0)
    .ok (s, { r with merged := [(c, w)] })
  | i + 1 => do
    let p := r.merged.headD (0, 0)
    .ok (s, r.put (vD v o i (b2n (bernoulli o.seed p.2 (BitVec.ofNat 64 (p.1 + i)) v.imm))))

/-- R299: the result of a real-set operation on raw elements, and whether NX is set. -/
def rsElem (ps : List Word) (op a b : Nat) : Nat × Bool :=
  match op with
  | 0 => (RealSet.binary ps .add a b, false)
  | 1 => (RealSet.binary ps .sub a b, false)
  | 2 => (RealSet.binary ps .mul a b, false)
  | 3 => (RealSet.binary ps .div a b, false)
  | 4 => (a ||| b, false)
  | 5 => (a &&& b, false)
  | 6 => (RealSet.less ps a b, false)
  | 8 => (RealSet.unary ps .neg a, false)
  | 9 => (RealSet.unary ps .inv a, false)
  | 10 => (RealSet.unary ps .sq a, false)
  | 11 => (RealSet.connected ps a, false)
  | 12 => RealSet.compress ps a
  | _ => (RealSet.expand ps a, false)

def rsStep (k : Nat) (v : VCmd) (o : VOps) (i : Nat) (s : State) (r : VRun) : JM (State × VRun) := do
  let (s, a) ← vA s k v o i
  let (s, b) ← if v.rsBinary then vB s k v o i else .ok (s, 0)
  let q := rsElem o.points v.rsOp a b
  .ok (s, ({ r with flags := { r.flags with nx := r.flags.nx || q.2 } } : VRun).put (vD v o i q.1))

/-! ### The command -/

/-- The body of a vector command ends: VECTOR_COMMAND_COMPLETION follows. -/
def finishVCmd (s : State) (k status : Nat) (fl : BitVec 5) : State :=
  ((leaveQueue s (.vcmd k)).modVCmd k (fun v => { v with ended := true, status := status, flags := fl })).post (.vcmdDone k)

/-- The flags that a command has found so far. -/
def VCmd.found (v : VCmd) : BitVec 5 := v.held.elim 0 (fun h => h.2.2.flags.toBits)

/-- R264, R278: a fault of a vector command, posted on behalf of its thread's run. A vector command has no job id: the
VALUE of its message is not stated, and free (log entry 6). -/
def faultVCmd (s : State) (k kind cause : Nat) (addr : Word) : State :=
  match s.vcmds.get k with
  | some v =>
    let f := s.faults.fresh
    let fr := takeFree s
    let msg : FaultMsg :=
      { who := .vcmd k, svc := designated s (s.ctxPart (v.ctx k)) (shedDev (coreShed v.core)), run := v.run, core := v.core,
        slot := 0, eng := true, tag := v.tag, kind := kind, cause := cause, coord := v.coord, addr := addr,
        pcs := 0, value := fr.2, args := [], st := 0, res1 := 0, res2 := 0 }
    postFault (fr.1.modVCmd k (fun v => { v with fault := some f, tag := (v.tag + 1) % 256 })) msg
  | none => s

/-- What stops a vector command; where it waits or faults, `held` is where it goes on. -/
def stopVCmd (s : State) (k : Nat) (fl : FpFlags) (held : Option (VOps × Nat × VRun)) (e : JExc) : State :=
  let v := s.vcmds.get k
  let u := s.modVCmd k (fun v => { v with held := held })
  match e with
  | .stop st _ => finishVCmd s k st fl.toBits
  | .fault kind cause a =>
    faultVCmd (meetLink u (v.elim 0 (fun v => shedDev (coreShed v.core))) (.fault kind cause 0)) k kind cause (BitVec.ofNat 64 a)
  | .wait => u.post (.vcmd k)
  | .frame f => (joinQueue u (.vcmd k) f).post (.vcmd k)

/-- The element loop over steps i to i + n − 1: the stores of a step are made before the next step. Where it stops, the step that
it stands at and what it has found, with the loads that the step has made (R264). -/
def vLoop (c : Ctx) (step : Nat → State → VRun → JM (State × VRun)) : Nat → Nat → State → VRun → State × Nat × VRun × Option JExc
  | n, i, s, r =>
    match makePuts c r.todo (s.reading r.reads) 0 with
    | (u, ps, _, some e) => (u.reading [], i, { r with todo := ps, reads := u.reads.all }, some e)
    | (u, _, _, none) =>
      let r := { r with todo := [], reads := [] }
      match n with
      | 0 => (u.reading [], i, r, none)
      | n + 1 =>
        match step i u r with
        | .ok (s', r') => vLoop c step n (i + 1) (s'.reading []) r'
        | .error e => (u.reading [], i, { r with reads := e.reads }, some e.exc)

/-- A source ring's HEAD moves on, and the scales of a scaled operand's slot leave the side band (R275, R278). -/
def vConsume (s : State) (v : VCmd) (o : VLoc) : State :=
  match o.ring with
  | some q =>
    let r := ringGet s v.lkey q
    ringSet s v.lkey q (if v.scales v.fmt = 0 then r.consume 1 else (r.consume 1).dropGroup o.seq)
  | none => s

/-- The destination ring's TAIL moves on, with the scale group of the slot (R275, R297). -/
def vProduce (s : State) (v : VCmd) (o : VLoc) (sc : List Nat) : State :=
  match o.ring with
  | some q =>
    let r := (ringGet s v.lkey q).produce 1
    ringSet s v.lkey q (if sc.isEmpty then r else { r with scales := r.scales ++ [(o.seq, sc)] })
  | none => s

/-- R275: a command that ends with SCALE_SEQ breaks its source ring. -/
def vScaleBreak (s : State) (v : VCmd) (o : VLoc) : State :=
  match o.ring with
  | some q => ringSet s v.lkey q { ringGet s v.lkey q with st := 3 }
  | none => s

/-- The operands, taken in order (R296). -/
def vTake (s : State) (v : VCmd) : JM (VLoc × VLoc × VLoc) := do
  let a ← vSource s v v.ha
  let b ← if v.uses.2.2 then vSource s v v.hb else .ok (windowLoc 0)
  let d ← vDest s v
  .ok (a, b, d)

/-- The command's element loop from step i on, and its ring advances. -/
def vBody (s : State) (k : Nat) (v : VCmd) (o : VOps) (i n : Nat) (r : VRun)
    (step : Nat → VCmd → VOps → Nat → State → VRun → JM (State × VRun)) : State :=
  match vLoop (v.ctx k) (step k v o) (n - i) i s r with
  | (u, i, r, some e) => stopVCmd u k r.flags (some (o, i, r)) e
  | (u, _, r, none) =>
    let u := settleInvals u
    let u := vConsume u v o.a
    let u := if v.uses.2.2 && o.b.ring != o.a.ring then vConsume u v o.b else u
    finishVCmd (vProduce u v o.d r.scales) k 0 r.flags.toBits

/-- The steps of an operation. -/
def VCmd.steps (v : VCmd) : Nat :=
  match v.op with
  | 0x08 => if fmtScaled v.dstFmt then cdiv v.count (blockLen v.dstFmt 0) else v.count
  | 0x25 => if fmtScaled v.fmt then cdiv v.count (blockLen v.fmt 0) * (blockLen v.fmt 0 + 1) else v.count
  | 0x10 | 0x11 | 0x23 => v.count + 1
  | 0x22 => 2 * v.count
  | _ => v.count

/-- R299: the tables of a vrs, which keeps those that it started with (R139); none where its slot is empty or unclaimed. -/
def vPoints (s : State) (v : VCmd) : M (State × Option (List Word)) :=
  if v.op ≠ 0x24 then .ok (s, some [])
  else match v.points with
    | some ps => .ok (s, some ps)
    | none =>
      let z := v.vflags % 8
      match s.runs.get v.run with
      | some r => if r.zclaim / 2 ^ z % 2 = 1 then slotTables s v.run (coreShed v.core) z else .ok (s, none)
      | none => .ok (s, none)

/-- A vrs that has not started waits while its shed's copy of the slot is being built (R139). -/
def vBuilding (s : State) (v : VCmd) : Bool :=
  v.op == 0x24 && v.points.isNone && slotBuilding s v.run (coreShed v.core) (v.vflags % 8)

/-- R296: the hart of a vector command, with the element step of its operation: its checks in the model's order, that of the scale tag last,
once every ring has given its slot (log entry 87), and the attachment to an open destination ring (log entry 84). -/
def vHart (s : State) (k : Nat) (v : VCmd) (step : Nat → VCmd → VOps → Nat → State → VRun → JM (State × VRun)) : State :=
  if v.badFields || !(v.spans.all (fun x => vRingOk s v x.1 x.2.1)) then finishVCmd s k 1 0
  else if v.op = 8 && (v.dstFmt = 0 || 13 < v.dstFmt) then finishVCmd s k 2 0
  else if vBuilding s v then s.post (.vcmd k)
  else match vPoints s v with
    | .error (.fault kind cause a) => faultVCmd (meetLink s (shedDev (coreShed v.core)) (.fault kind cause a)) k kind cause a
    | .error _ => s.post (.vcmd k)
    | .ok (s, none) => faultVCmd s k 2 11 (v.word.setWidth 64)
    | .ok (s, some ps) =>
      if v.op = 0x24 && RealSet.width ps ≠ fmtBits v.fmt 8 then finishVCmd s k 2 0
      else
        let s := s.modVCmd k (fun v => { v with points := some ps })
        match vRanges s k v with
        | .error e => stopVCmd s k {} none e.exc
        | .ok _ =>
          let s := if isRingHandle v.hd && (ringGet s v.lkey (v.hd % 32)).st = 1 then
              s.modLShed v.lkey (fun x => { x with
                rings := x.rings.set (v.hd % 32) ((ringGet s v.lkey (v.hd % 32)).attach (.vcmd k)) })
            else s
          match vTake s v with
          | .error e => stopVCmd s k {} none e.exc
          | .ok (a, b, d) =>
            match ringScales s v a with
            | .error e => stopVCmd (vScaleBreak s v a) k {} none e.exc
            | .ok sc => vBody s k v ⟨a, b, d, sc, s.fpctlOf v.run, s.seedOf v.run, ps⟩ 0 v.steps VRun.begin step

/-- R278: the commands of a shed run one at a time, in the order in which they came. -/
def vTurn (s : State) (k : Nat) (v : VCmd) : Bool :=
  !(s.vcmds.any (fun p => decide (p.1 < k) && coreShed p.2.core == coreShed v.core && !p.2.ended &&
    isResident s p.2.lkey))

/-- A vector command with operation code c, if it is enabled. -/
def runVCmd (s : State) (k c : Nat) (step : Nat → VCmd → VOps → Nat → State → VRun → JM (State × VRun)) : State :=
  match s.vcmds.get k with
  | some v =>
    if v.ended || v.fault.isSome || v.op != c then s
    else if v.killed then finishVCmd s k 3 v.found
    else if !unitRuns s v.run v.lkey v.core || !vTurn s k v then s.post (.vcmd k)
    else if v.count = 0 then finishVCmd s k 0 0
    else match v.held with
      | some (o, i, r) => vBody s k v o i v.steps r step
      | none => vHart s k v step
  | none => s

def execVadd (v : Nat) (s : State) : Out := .next (runVCmd s v 0x01 arithStep)
def execVsub (v : Nat) (s : State) : Out := .next (runVCmd s v 0x02 arithStep)
def execVmul (v : Nat) (s : State) : Out := .next (runVCmd s v 0x03 arithStep)
def execVfma (v : Nat) (s : State) : Out := .next (runVCmd s v 0x04 arithStep)
def execVmin (v : Nat) (s : State) : Out := .next (runVCmd s v 0x05 arithStep)
def execVmax (v : Nat) (s : State) : Out := .next (runVCmd s v 0x06 arithStep)
def execVabs (v : Nat) (s : State) : Out := .next (runVCmd s v 0x07 absStep)
def execVcvt (v : Nat) (s : State) : Out := .next (runVCmd s v 0x08 vcvtStep)
def execVsfn (v : Nat) (s : State) : Out := .next (runVCmd s v 0x09 sfnStep)
def execVcmp (v : Nat) (s : State) : Out := .next (runVCmd s v 0x13 cmpStep)
def execVsel (v : Nat) (s : State) : Out := .next (runVCmd s v 0x14 selStep)
def execVcopy (v : Nat) (s : State) : Out := .next (runVCmd s v 0x25 vcopyStep)
def execVsum (v : Nat) (s : State) : Out := .next (runVCmd s v 0x10 sumStep)
def execVscan (v : Nat) (s : State) : Out := .next (runVCmd s v 0x12 scanStep)
def execVmaxi (v : Nat) (s : State) : Out := .next (runVCmd s v 0x11 maxStep)
def execVgath (v : Nat) (s : State) : Out := .next (runVCmd s v 0x20 gathStep)
def execVscat (v : Nat) (s : State) : Out := .next (runVCmd s v 0x21 scatStep)
def execVscad (v : Nat) (s : State) : Out := .next (runVCmd s v 0x22 scadStep)
def execVbern (v : Nat) (s : State) : Out := .next (runVCmd s v 0x23 bernStep)
def execVrs (v : Nat) (s : State) : Out := .next (runVCmd s v 0x24 rsStep)

/-- VECTOR_COMMAND_COMPLETION (R279, R296): status and flags go into the thread's vbusy word, but for a command of COUNT 0;
the command detaches from its rings, and parked vfences and stalled vops go on. As a job's completion does, it waits while the units do not
run (R265, R377, R395). -/
def execVectorCommandCompletion (v : Nat) (s : State) : Out :=
  match s.vcmds.get v with
  | some x =>
    if !x.ended then .next s
    else if !unitRuns s x.run x.lkey x.core then .next (s.post (.vcmdDone v))
    else
      let s := if x.count = 0 then s else s.modThread x.thread (fun t => { t with
        vErr := if t.vErr = 0 then x.status else t.vErr, vFlags := t.vFlags ||| x.flags })
      let s := ringDetach s x.lkey (.vcmd v) (x.status != 0)
      .next (checkDone (wakeVector { s with vcmds := s.vcmds.erase v } x.core) x.run)
  | none => .next s

end Sys2Proof.Machine
end

