-- ==== Sys2Proof/Machine/Queues.lean ====
section
/-! DEFINITION. The random-bit instructions (R317, R347) and the priority queues (R333, R348). -/

namespace Sys2Proof.Machine

/-! ### Random bits (R347) -/

/-- R318: the stream of rngb and rbern. -/
def needStream (a : Word) (i : Instr) : M Unit :=
  if programStream (bits a 31 0) then .ok () else .error (wordFault 28 i)

def execRngb (rd : Reg) (ra rb : Src) (s : State) : Out :=
  asThread s (.rngb rd ra rb) (fun _ _ => do
    let (u, a, b) ← op2 s ra rb
    needStream a (.rngb rd ra rb)
    .ok (writeNext u rd (mixLow s.seed (bits a 31 0) b)))

/-- The 64 bits of an rbern. -/
def rbernWord (sd : Seed) (st : Nat) (c : Word) (p : Nat) : Nat :=
  (List.range 64).foldl (fun acc i => if bernoulli sd st (c + BitVec.ofNat 64 i) p then acc + 2 ^ i else acc) 0

def execRbern (rd : Reg) (ra rb : Src) (s : State) : Out :=
  asThread s (.rbern rd ra rb) (fun _ _ => do
    let (u, a, b) ← op2 s ra rb
    needStream a (.rbern rd ra rb)
    if bits a 47 32 ≠ 0 then .error (wordFault 28 (.rbern rd ra rb))
    .ok (writeNext u rd (BitVec.ofNat 64 (rbernWord s.seed (bits a 31 0) b (bits a 63 48)))))

def execThash (rd : Reg) (ra rb : Src) (s : State) : Out :=
  asThread s (.thash rd ra rb) (fun _ _ => do
    let (u, a, b) ← op2 s ra rb
    .ok (writeNext u rd (tieHash s.seed (bits a 21 0) (bits b 41 0))))

/-! ### Priority queues (R333, R348) -/

/-- The order of entries: by key, then by the hash of the value, then by the value. -/
def pqLt (sd : Seed) (a b : Word × Word) : Bool :=
  a.1.ult b.1 || (a.1 == b.1 &&
    (let x := mixLow sd 0xFFFFFFF5 a.2
     let y := mixLow sd 0xFFFFFFF5 b.2
     x.ult y || (x == y && a.2.ult b.2)))

/-- Insert an entry in order. -/
def pqInsert (sd : Seed) (e : Word × Word) : List (Word × Word) → List (Word × Word)
  | [] => [e]
  | x :: xs => if pqLt sd e x then e :: x :: xs else x :: pqInsert sd e xs

def pqGet (s : State) (t : Thread) (k : Nat) : List (Word × Word) :=
  match s.lsheds.get t.lkey with
  | some x => x.pqs.getD k []
  | none => []

def pqSet (s : State) (t : Thread) (k : Nat) (q : List (Word × Word)) : State :=
  s.modLShed t.lkey (fun x => { x with pqs := x.pqs.set k q })

def execPqpush (k : BitVec 4) (rd : Reg) (ra rb : Src) (s : State) : Out :=
  asThread s (.pqpush k rd ra rb) (fun _ t => do
    let (u, a, b) ← op2 s ra rb
    let u := release u
    let q := pqGet u t k.toNat
    if 2 ^ 20 ≤ q.length then .ok (writeNext u rd 1)
    else .ok (writeNext (pqSet u t k.toNat (pqInsert s.seed (a, b) q)) rd 0))

/-- R348: the destination of a pqpop is near space of the logical shed. -/
def pqDest (t : Thread) (ea : Nat) : Bool :=
  isNear ea && (match nearTarget t.coord ea with
    | some (ly, ls, _, _) => ly == t.coord.ly && ls == t.coord.ls
    | none => true)

/-- pqpop (R348): its two stores are logged like a thread's other stores (log entry 109). -/
def execPqpop (k : BitVec 4) (rd : Reg) (ra : Src) (s : State) : Out :=
  asThread s (.pqpop k rd ra) (fun _ t => do
    let (u, a) ← op1 s ra
    let ea ← effAddr a 0 16
    if !pqDest t ea then .error (accessFault 29 ea)
    let (u, p) ← place u u.ctx .write ea
    let (u, q) ← place u u.ctx .write (ea + 8)
    match pqGet u t k.toNat with
    | [] => .ok (writeNext u rd 1)
    | e :: rest =>
      let u ← store u p ea (leBytes 8 e.1.toNat) .atOnce
      let u ← store u q (ea + 8) (leBytes 8 e.2.toNat) .atOnce
      .ok (writeNext (acquire (pqSet u t k.toNat rest) .shed) rd 0))

def execPqmin (k : BitVec 4) (rd : Reg) (s : State) : Out :=
  asThread s (.pqmin k rd) (fun _ t => do
    let u ← sources s []
    .ok (writeNext u rd (match pqGet s t k.toNat with
      | [] => BitVec.allOnes 64
      | e :: _ => e.1)))

def execPqlen (k : BitVec 4) (rd : Reg) (s : State) : Out :=
  asThread s (.pqlen k rd) (fun _ t => do
    let u ← sources s []
    .ok (writeNext u rd (BitVec.ofNat 64 (pqGet s t k.toNat).length)))

end Sys2Proof.Machine
end

