-- ==== Sys2Proof/Machine/Regions.lean ====
section
/-! DEFINITION. The event machine (R312 to R332, R335 to R346, R349, R352 to R355): regions, their steps, messages, checkpoints, rollback, marks and images. -/

namespace Sys2Proof.Machine

/-! ### Keys (R320) -/

def Key.lt (a b : Key) : Bool :=
  if b.start then false
  else if a.start then true
  else if a.time ≠ b.time then decide (a.time < b.time)
  else if a.tie ≠ b.tie then decide (a.tie < b.tie)
  else if a.id ≠ b.id then decide (a.id < b.id)
  else if a.ord ≠ b.ord then decide (a.ord < b.ord)
  else decide (a.sub < b.sub)

def Key.le (a b : Key) : Bool := !b.lt a

/-- The least key of a list. -/
def leastKey : List Key → Option Key
  | [] => none
  | k :: r => match leastKey r with
    | some j => some (if k.lt j then k else j)
    | none => some k

/-! ### Region records -/

/-- R312. -/
def regionId (c : Coord) (k : Nat) : Nat := c.ly * 2 ^ 10 + c.ls * 16 + k

/-- The logical shed of a region of a run. -/
def regionShed (run id : Nat) : Nat := run * 2 ^ 18 + id / 16

def regionOf (s : State) (l k : Nat) : Option Region := (s.lsheds.get l).bind (fun x => x.regions.get k)

def setRegion (s : State) (l k : Nat) (g : Region) : State := s.modLShed l (fun x => { x with regions := x.regions.set k g })

/-- Q (R314). -/
def Region.total (g : Region) : Nat := g.leaves.foldl (fun n p => n + p.2) 0

def setLeaf (m : Map Nat) (i q : Nat) : Map Nat := if q = 0 then m.erase i else m.set i q

/-- R335: the tree is claimed. -/
def needTree (s : State) (k : Nat) (i : Instr) : M Unit :=
  match s.curRun with
  | some r => if r.trees / 2 ^ k % 2 == 1 then .ok () else .error (wordFault 18 i)
  | none => .ok ()

/-- R335: the region is DEFINED. -/
def needRegion (s : State) (t : Thread) (k : Nat) (i : Instr) : M Region :=
  match regionOf s t.lkey k with
  | some g => if g.st = 1 then .ok g else .error (wordFault 19 i)
  | none => .error (wordFault 19 i)

/-- A region instruction with no source (R335); its thread counts at its result (R373). -/
def onRegion (s : State) (i : Instr) (k : BitVec 4) (f : State → Nat → Thread → Region → M State) : Out :=
  asThread s i (fun tid t => do
    needTree s k.toNat i
    let u ← sources s []
    let g ← needRegion s t k.toNat i
    (f u tid t g).map holdResult)

/-- A region instruction with one source. -/
def onRegion1 (s : State) (i : Instr) (k : BitVec 4) (ra : Src) (f : State → Nat → Thread → Region → Word → M State) : Out :=
  asThread s i (fun tid t => do
    needTree s k.toNat i
    let (u, a) ← op1 s ra
    let g ← needRegion s t k.toNat i
    (f u tid t g a).map holdResult)

/-- A region instruction with two sources. REGION_UNDEF comes after the register reads and before the checks of operand values (R335, log
entry 110). -/
def onRegion2 (s : State) (i : Instr) (k : BitVec 4) (ra rb : Src) (f : State → Nat → Thread → Region → Word → Word → M State) : Out :=
  asThread s i (fun tid t => do
    needTree s k.toNat i
    let (u, a, b) ← op2 s ra rb
    let g ← needRegion s t k.toNat i
    (f u tid t g a b).map holdResult)

/-- ULOG_FULL of an instruction for which R356 names no address: the ADDR is free (log entry 6). -/
def logFault (s : State) (k : Nat) : Exc := .fault 5 k (Config.freeWord s.free)

/-! ### Boundary messages (R323, R324, R328, R353) -/

/-- The scope of a bsend and of the step that delivers it (R332). -/
def regionScope (a b : Nat) : Scope := if a / 16 = b / 16 then .shed else if a / 1024 = b / 1024 then .dev else .sys

/-- The sender learns that its message has entered the target's queue (R323): at once within one logical shed (R353). -/
def acknowledge (s : State) (m : Nat) (b : BMsg) : State :=
  if b.key.id / 16 = b.target / 16 then { s with bmsgs := s.bmsgs.erase m }
  else { s with bmsgs := s.bmsgs.set m { b with st := 2 } }.post (.arrivalAcknowledgement m)

/-- A message is held before the target's queue. -/
def holdMsg (s : State) (m : Nat) (b : BMsg) : State := { s with bmsgs := s.bmsgs.set m { b with st := 1 } }

/-- The report of R324: it parks no thread. -/
def reportFull (s : State) (l k : Nat) : State :=
  match s.lsheds.get l with
  | some x =>
    let core := x.shed * 8
    postFault s
      { who := .nobody, svc := designated s (s.ctxPart (.run x.run ⟨x.ly, x.ls, 0, 0⟩ core)) (shedDev x.shed), run := x.run,
        core := core, slot := 0, eng := false, tag := 0, kind := 5, cause := k, coord := ⟨x.ly, x.ls, 0, 0⟩, addr := 0,
        pcs := 0, value := 0, args := [], st := 0, res1 := 0, res2 := 0 }
  | none => s

/-- Once a region has room again, the next arrival that is held is reported (R324). -/
def Region.noteRoom (g : Region) : Region := if g.room 64 then { g with reported := false } else g

/-- A message or anti-message is offered to its region: whether it has been taken. Each takes an entry of the log area, which an
anti-message gives back with the message that it annihilates (R324, R328). -/
def takeIn (s : State) (m : Nat) (b : BMsg) : State × Bool :=
  let l := regionShed b.run b.target
  let k := b.target % 16
  match (regionOf s l k).filter (fun g => g.st == 1) with
  | none => (holdMsg s m b, false)
  | some g =>
    if g.room 64 then
      let q := if b.kind = 2 && g.inq.any (fun x => x.kind != 2 && x.key == b.key) then
          g.inq.eraseP (fun x => x.kind != 2 && x.key == b.key)
        else g.inq ++ [b]
      (acknowledge (setRegion s l k { g with inq := q, reported := false }) m b, true)
    else
      let s := holdMsg s m b
      (if g.reported then s else reportFull (setRegion s l k { g with reported := true }) l k, false)

/-- Offer messages in order; one that is held holds the later ones of its sender (R323). -/
def admitAll (s : State) (blocked : List Nat) : List (Nat × BMsg) → State
  | [] => s
  | (m, b) :: r =>
    if blocked.contains b.key.id then admitAll s blocked r
    else
      let a := takeIn s m b
      admitAll a.1 (if a.2 then blocked else b.key.id :: blocked) r

/-- The held messages of a region, in the order sent. -/
def heldFor (s : State) (run id : Nat) : List (Nat × BMsg) :=
  s.bmsgs.filter (fun p => p.2.run == run && p.2.target == id && p.2.st == 1)

/-- R324: held arrivals are offered again. -/
def offerHeld (s : State) (run id : Nat) : State := admitAll s [] (heldFor s run id)

/-- Insert in key order, after equal keys. -/
def insertMsg (p : Nat × BMsg) : List (Nat × BMsg) → List (Nat × BMsg)
  | [] => [p]
  | x :: xs => if p.2.key.lt x.2.key then p :: x :: xs else x :: insertMsg p xs

/-- R336: held messages are admitted in key order. -/
def admitHeld (s : State) (run id : Nat) : State :=
  admitAll s [] ((heldFor s run id).foldl (fun l p => insertMsg p l) [])

/-- An earlier message of the same sender to the same target has not entered. -/
def behind (s : State) (m : Nat) (b : BMsg) (st : Nat) : Bool :=
  s.bmsgs.any (fun p => decide (p.1 < m) && p.2.run == b.run && p.2.key.id == b.key.id && p.2.target == b.target && p.2.st == st)

/-- A message or anti-message reaches its target region (R322, R323). -/
def arriveBoundary (s : State) (m : Nat) (b : BMsg) : State :=
  if b.st ≠ 0 then s
  else if (s.lsheds.get (regionShed b.run b.target)).isNone then { s with bmsgs := s.bmsgs.erase m }
  else if behind s m b 1 then holdMsg s m b
  else if behind s m b 0 || !shedWorks s (regionShed b.run b.target) then
    s.post (if b.kind = 2 then .antiMessageArrival m else .boundaryMessageArrival m)
  else (takeIn s m b).1

/-- BOUNDARY_MESSAGE_ARRIVAL (R322). -/
def execBoundaryMessageArrival (m : Nat) (s : State) : Out :=
  match s.bmsgs.get m with
  | some b => .next (if b.kind = 2 then s else arriveBoundary s m b)
  | none => .next s

/-- ANTI_MESSAGE_ARRIVAL (R328). -/
def execAntiMessageArrival (m : Nat) (s : State) : Out :=
  match s.bmsgs.get m with
  | some b => .next (if b.kind = 2 then arriveBoundary s m b else s)
  | none => .next s

/-- ARRIVAL_ACKNOWLEDGEMENT (R323). -/
def execArrivalAcknowledgement (m : Nat) (s : State) : Out :=
  match s.bmsgs.get m with
  | some b => .next (if b.st = 2 then { s with bmsgs := s.bmsgs.erase m } else s)
  | none => .next s

/-- A message leaves its sender: within one logical shed it arrives at once (R353). -/
def sendMsg (s : State) (b : BMsg) : State :=
  let m := s.bmsgs.fresh
  let s := { s with bmsgs := s.bmsgs.set m b }
  if b.key.id / 16 = b.target / 16 then (if behind s m b 1 then holdMsg s m b else (takeIn s m b).1)
  else s.post (if b.kind = 2 then .antiMessageArrival m else .boundaryMessageArrival m)

/-- The message of a logged send, where it is still held before its target. -/
def heldSend (s : State) (b : BMsg) : Option (Nat × BMsg) :=
  s.bmsgs.find? (fun p => p.2.run == b.run && p.2.key == b.key && p.2.kind != 2 && p.2.st == 1)

/-- R327: the anti-messages for logged sends, oldest first; a message that is still held before its target goes with its entry and
needs none, and those behind it are offered again. -/
def sendAntis (s : State) (bs : List BMsg) : State :=
  let held := bs.filterMap (heldSend s)
  let sent := bs.filter (fun b => (heldSend s b).isNone)
  let s := held.foldl (fun s p => { s with bmsgs := s.bmsgs.erase p.1 }) s
  let s := sent.foldl (fun s b => sendMsg s { b with kind := 2, orig := b.kind, st := 0 }) s
  held.foldl (fun s p => if shedWorks s (regionShed p.2.run p.2.target) then offerHeld s p.2.run p.2.target else s) s

/-! ### Definition (R313, R336) -/

/-- The dwords of a descriptor pass R336. -/
def regionDescOk (d : List Word) : Bool :=
  let w (i : Nat) : Word := d.getD i 0
  bits (w 0) 63 31 == 0 && [1, 2, 3].all (fun i => bits (w i) 63 52 == 0 && !isNear (w i).toNat) && bits (w 4) 63 40 == 0 &&
    [5, 6, 7].all (fun i => w i == 0) && (w 1).toNat % 64 == 0 && (w 3).toNat % 65536 == 0 && w 4 != 0 &&
    (w 4).toNat % 65536 == 0

/-- The region at definition (R312). -/
def Region.define (desc : Nat) (d : List Word) (evctl table : Word) : Region :=
  { st := 1, desc := desc, scale := sval (bits (d.getD 0 0) 30 24) 7, nl := bits (d.getD 0 0) 23 0 + 1,
    back := (d.getD 1 0).toNat, disp := (d.getD 2 0).toNat, log := (d.getD 3 0).toNat, logsz := (d.getD 4 0).toNat,
    t := bits evctl 5 0, tab := bitAt evctl 6, rbz := bitAt evctl 7, table := table, leaves := [], clock := 0, ord := 0,
    count := 0, last := Key.begin, sub := 0, sat := false, lost := false, replay := Key.begin, cur := 0, curV := false,
    bnd := false, strag := 0, digest := 0, inq := [], recv := [], sends := [], undo := [],
    ckpts := [⟨Key.begin, 0, 0, 0, false, false, 0⟩], epoch := 0, marks := [], got := none, reported := false }

/-- ktree (R336). -/
def execKtree (k : BitVec 4) (ra : Src) (s : State) : Out :=
  asThread s (.ktree k ra) (fun _ t => do
    needTree s k.toNat (.ktree k ra)
    let (u, a) ← op1 s ra
    if (regionOf s t.lkey k.toNat).any (fun g => g.st != 0) then .error (wordFault 20 (.ktree k ra))
    let ea ← effAddr a 0 64
    let (u, d) ← loadDwords u ea 8
    if !regionDescOk d then .error (accessFault 21 ea)
    match s.lsheds.get t.lkey with
    | some x =>
      let u := setRegion u t.lkey k.toNat (Region.define ea d x.evctl x.drawtab)
      .ok (holdResult (admitHeld u t.run (regionId t.coord k.toNat)).advance)
    | none => .ok u.advance)

/-! ### Leaves and items (R314, R337, R338) -/

/-- R314: the leaf of a rate, and whether SAT and LOST are set; none is RATE_BAD. -/
def quantise (g : Region) (r : FpVal) : Option (Nat × Bool × Bool) :=
  let bad : Option (Nat × Bool × Bool) := if g.rbz then some (0, false, true) else none
  match r with
  | .nan _ => bad
  | .zero _ => some (0, false, false)
  | .inf n => if n then bad else some (2 ^ 48 - 1, true, false)
  | .fin n m e =>
    if n then bad
    else
      let q := (roundAt .rne ⟨false, m, e - g.scale, false⟩ 0).1
      if 2 ^ 48 ≤ q then some (2 ^ 48 - 1, true, false) else some (q, false, q == 0)

/-- R326, R337: a leaf is written, its old value logged on its first update of an epoch. -/
def writeLeaf (s : State) (t : Thread) (k : Nat) (g : Region) (i : Word) (q : Nat) (sat lost : Bool) (ins : Instr) : M State :=
  if g.nl ≤ i.toNat then .error (wordFault 23 ins)
  else
    let logged := g.undo.any (fun u => match u with
      | .leaf e j _ => e == g.epoch && j == i.toNat
      | _ => false)
    if !logged && !g.room 16 then .error (.fault 5 k i)
    else
      let undo := if logged then g.undo else .leaf g.epoch i.toNat (g.leaves.getD i.toNat 0) :: g.undo
      .ok (setRegion s t.lkey k { g with
        undo := undo, leaves := setLeaf g.leaves i.toNat q, sat := g.sat || sat, lost := g.lost || lost }).advance

def execKset (k : BitVec 4) (ra rb : Src) (s : State) : Out :=
  onRegion2 s (.kset k ra rb) k ra rb (fun u _ t g i r =>
    match quantise g (s.fpOperand .fp64 r) with
    | none => .error (.trap 6 0 r)
    | some (q, sat, lost) => writeLeaf u t k.toNat g i q sat lost (.kset k ra rb))

def execKseti (k : BitVec 4) (ra rb : Src) (s : State) : Out :=
  onRegion2 s (.kseti k ra rb) k ra rb (fun u _ t g i q =>
    if 2 ^ 48 ≤ q.toNat then writeLeaf u t k.toNat g i (2 ^ 48 - 1) true false (.kseti k ra rb)
    else writeLeaf u t k.toNat g i q.toNat false false (.kseti k ra rb))

/-- R338, item 4. -/
def Region.flagWord (g : Region) : Nat :=
  b2n g.lost + 2 * b2n g.sat + 4 * b2n (g.replay != Key.begin) + 8 * b2n g.tab + 16 * b2n g.rbz + 32 * b2n g.bnd + 256 * g.t

/-- R338: the items of a region. -/
def Region.item (g : Region) (n : Nat) : Option Nat :=
  match n with
  | 0 => some g.clock
  | 1 => some g.ord
  | 2 => some g.count
  | 3 => some (b2n g.curV * 2 ^ 63 + g.cur)
  | 4 => some g.flagWord
  | 5 => some g.strag
  | 6 => some g.nl
  | 7 => some (g.total % 2 ^ 64)
  | 8 => some (g.total / 2 ^ 64 % 256)
  | _ => none

def execKget (k : BitVec 4) (rd : Reg) (ra : Src) (s : State) : Out :=
  onRegion1 s (.kget k rd ra) k ra (fun u _ _ g a =>
    let v : Option Nat :=
      if bitAt a 63 then (if bits a 62 4 = 0 then g.item (bits a 3 0) else none)
      else if a.toNat < g.nl then some (g.leaves.getD a.toNat 0) else none
    match v with
    | some n => .ok (writeNext u rd (BitVec.ofNat 64 n))
    | none => .error (wordFault 23 (.kget k rd ra)))

/-- R338: RNE(Q × 2^S). -/
def execKtot (k : BitVec 4) (rd : Reg) (s : State) : Out :=
  onRegion s (.ktot k rd) k (fun u _ _ g =>
    .ok (writeNext u rd (BitVec.ofNat 64 (roundTo fp64F .rne false ⟨false, g.total, g.scale, false⟩).1)))

/-! ### The step (R319, R321, R339) -/

/-- The keys of R321 that make a step a straggler. -/
def Region.stragglers (g : Region) : List Key :=
  (g.inq.filter (fun m => m.key.lt g.last || (m.kind == 2 && m.key.le g.last))).map (fun m => m.key)

/-- The undelivered message of least key. -/
def Region.head (g : Region) : Option BMsg :=
  (leastKey ((g.inq.filter (fun m => m.kind != 2)).map (fun m => m.key))).bind (fun k =>
    g.inq.find? (fun m => m.kind != 2 && m.key == k))

/-- R316, R319: the fraction f and the variate E of the draw at COUNT. -/
def draw (s : State) (g : Region) (id : Nat) : M (State × Nat × FpVal) :=
  if g.tab then do
    let ea ← effAddr 0 (bits g.table 51 4 * 16 + 16 * (g.count % 2 ^ bits g.table 57 52) : Nat) 8
    let (s, f) ← loadFresh s ea 8
    let (s, e) ← loadFresh s (ea + 8) 8
    match fp64F.decode e with
    | .zero n => .ok (s, f, .zero n)
    | .fin false m x => .ok (s, f, .fin false m x)
    | _ => .error (accessFault 30 ea)
  else
    let sd := s.seedOf (match s.curThread with
      | some t => t.run
      | none => 0)
    let d := mix sd.lo sd.hi id (BitVec.ofNat 64 g.count)
    .ok (s, d.1.toNat, fp64F.decode (Sfn.negLogU (bits d.2 63 11)))

/-- The leaf with q(0) + … + q(i − 1) ≤ x < q(0) + … + q(i). -/
def selectLeaf (x : Nat) : Map Nat → Nat
  | [] => 0
  | (i, q) :: r => if x < q then i else selectLeaf (x - q) r

/-- The ticks of a waiting time (R321). -/
def waitTicks (g : Region) (q : Nat) (e : FpVal) : Nat :=
  let rate := fp64F.decode (roundTo fp64F .rne false ⟨false, q, 0, false⟩).1
  match fp64F.decode (fpDiv fp64F .rne false e rate).1 with
  | .fin _ m x => (roundAt .rne ⟨false, m, x + g.t - g.scale, false⟩ 0).1
  | _ => 0

/-- R321, R339: one step of region k: the state and the status. -/
def stepRegion (s : State) (t : Thread) (k : Nat) (g : Region) : M (State × Nat) := do
  let id := regionId t.coord k
  match leastKey g.stragglers with
  | some y => .ok (setRegion s t.lkey k { g with strag := y.time }, 3)
  | none =>
    let q := g.total
    if q = 0 && g.head.isNone then .ok (s, 2)
    else
      let (s, cand) ← (if q = 0 then .ok (s, none) else do
        let (s, f, e) ← draw s g id
        let ticks := waitTicks g q e
        let time := min (g.clock + ticks) (2 ^ 64 - 1)
        let key : Key := ⟨false, time, (tieHash (s.seedOf t.run) id g.ord).toNat, id, g.ord, 0⟩
        .ok (s, some (selectLeaf (f * q / 2 ^ 64) g.leaves, key)) : M (State × Option (Nat × Key)))
      let g := { g with count := (g.count + 1) % 2 ^ 64 }
      let fin (g : Region) : Region := { g with
        ord := (g.ord + 1) % 2 ^ 64, sub := 0, replay := if g.last.lt g.replay then g.replay else Key.begin }
      match g.head, cand with
      | some h, c =>
        if (match c with
            | some (_, e) => h.key.lt e
            | none => true) then
          let g := fin { g with
            inq := g.inq.eraseP (fun m => m.kind != 2 && m.key == h.key), recv := h :: g.recv, clock := h.key.time,
            last := h.key, curV := false, bnd := true, got := some h }
          let s := acquire (setRegion s t.lkey k g) (regionScope h.key.id id)
          .ok (offerHeld s t.run id, 1)
        else match c with
          | some (i, e) => .ok (setRegion s t.lkey k (fin { g with clock := e.time, last := e, cur := i, curV := true, bnd := false }), 0)
          | none => .ok (s, 2)
      | none, some (i, e) =>
        .ok (setRegion s t.lkey k (fin { g with clock := e.time, last := e, cur := i, curV := true, bnd := false }), 0)
      | none, none => .ok (s, 2)

def execEvnext (k : BitVec 4) (rd : Reg) (s : State) : Out :=
  onRegion s (.evnext k rd) k (fun u _ t g => do
    let (u, st) ← stepRegion u t k.toNat g
    .ok (writeNext u rd (BitVec.ofNat 64 st)))

/-- evdisp (R339). -/
def execEvdisp (k : BitVec 4) (s : State) : Out :=
  asThread s (.evdisp k) (fun _ t => do
    needTree s k.toNat (.evdisp k)
    let g ← needRegion s t k.toNat (.evdisp k)
    if !g.curV then .error (wordFault 24 (.evdisp k))
    let ea ← effAddr (BitVec.ofNat 64 g.disp) (8 * g.cur : Nat) 8
    let (u, a) ← loadFresh s ea 8
    if 2 ^ 52 ≤ a || a % 4 ≠ 0 then .error (accessFault 25 ea)
    .ok (holdResult (u.setHart { u.hart with pc := BitVec.ofNat 52 a })))

/-- LOW (R329): unacknowledged sends, messages and anti-messages alike, are those that the machine still holds. -/
def lowMark (s : State) (run id : Nat) (g : Region) : Nat :=
  let n := g.inq.foldl (fun n m => min n m.key.time) g.clock
  (s.bmsgs.filter (fun p => p.2.run == run && p.2.key.id == id)).foldl (fun n p => min n p.2.key.time) n

def execClkget (k : BitVec 4) (rd : Reg) (s : State) : Out :=
  onRegion s (.clkget k rd) k (fun u _ t g =>
    .ok (writeNext u rd (BitVec.ofNat 64 (lowMark s t.run (regionId t.coord k.toNat) g))))

/-! ### Sending and reading messages (R340, R341) -/

/-- R340: the target word is malformed, or names no region of the run. -/
def badTarget (r : Run) (a : Word) : Bool :=
  bits a 63 40 != 0 || bits a 37 22 != 0 || decide (2 ≤ bits a 39 38) || decide (r.nly < bits a 21 10) ||
    decide (r.nls < bits a 9 4) || r.trees / 2 ^ bits a 3 0 % 2 == 0

def sameSend (a b : BMsg) : Bool := a.target == b.target && a.kind == b.kind && a.p0 == b.p0 && a.p1 == b.p1

def execBsend (k : BitVec 4) (rd : Reg) (ra rb : Src) (s : State) : Out :=
  onRegion2 s (.bsend k rd ra rb) k ra rb (fun u _ t g a b => do
    let r ← curRunOr s (.bsend k rd ra rb)
    if g.last == Key.begin then .ok (writeNext u rd 3)
    else if badTarget r a then .ok (writeNext u rd 2)
    else if g.sub = 65535 then .ok (writeNext u rd 1)
    else
      let ea ← effAddr b 0 16
      let (u, p0) ← loadFresh u ea 8
      let (u, p1) ← loadFresh u (ea + 8) 8
      if !g.room 64 then .error (logFault s k.toNat)
      let u := release u
      let id := regionId t.coord k.toNat
      let key : Key := ⟨false, g.last.time, g.last.tie, id, g.last.ord, g.sub + 1⟩
      let m : BMsg := ⟨t.run, key, g.last, bits a 39 38, 0, bits a 21 0, BitVec.ofNat 64 p0, BitVec.ofNat 64 p1, 0⟩
      let old := if g.last.lt g.replay then g.sends.find? (fun x => x.key == key) else none
      let g := { g with sub := g.sub + 1 }
      match old with
      | some x =>
        if sameSend x m then .ok (writeNext (setRegion u t.lkey k.toNat g) rd 0)
        else
          let u := setRegion u t.lkey k.toNat { g with sends := g.sends.eraseP (fun y => y.key == key) ++ [m] }
          .ok (writeNext (sendMsg (sendAntis u [x]) m) rd 0)
      | none =>
        let u := setRegion u t.lkey k.toNat { g with sends := g.sends ++ [m] }
        .ok (writeNext (sendMsg u m) rd 0))

/-- The dwords of a message record (R323). -/
def recordWords (m : BMsg) : List Nat :=
  [m.key.time, m.key.tie, m.key.sub * 2 ^ 48 + m.kind * 2 ^ 38 + m.key.id, m.key.ord, m.p0.toNat, m.p1.toNat]

/-- Place n dwords from an address on. -/
def placeDwords (s : State) (ea : Nat) : Nat → M (State × List Place)
  | 0 => .ok (s, [])
  | n + 1 => do
    let (s, p) ← place s s.ctx .write ea
    openFrame s p.key
    let (s, r) ← placeDwords s (ea + 8) n
    .ok (s, p :: r)

/-- Ordinary stores of dwords in increasing address order. -/
def storeDwords (s : State) (ea : Nat) : List Place → List Nat → M State
  | p :: ps, v :: vs => do
    let s ← store s p ea (leBytes 8 v) .atOnce
    storeDwords s (ea + 8) ps vs
  | _, _ => .ok s

/-- The first region whose log cannot supply the entries of stores to several dwords. -/
def logFullAll (s : State) (l : Nat) (ps : List Place) : Option Nat :=
  match s.lsheds.get l with
  | some x => (x.regions.find? (fun g =>
      let lines := ((ps.flatMap (fun p => g.2.touched x p.key 8)).map (fun y => y.1)).eraseDups
      !(g.2.room (80 * lines.length)))).map (fun p => p.1)
  | none => none

def execBmsg (k : BitVec 4) (rd : Reg) (ra : Src) (s : State) : Out :=
  onRegion1 s (.bmsg k rd ra) k ra (fun u _ t g a =>
    match (if g.bnd then g.got else none) with
    | none => .ok (writeNext u rd 1)
    | some m => do
      let ea ← effAddr a 0 16
      let (u, ps) ← placeDwords u ea 6
      match logFullAll u t.lkey ps with
      | some j => .error (.fault 5 j (BitVec.ofNat 64 ea))
      | none =>
        let u := (ps.zip (recordWords m)).foldl (fun u p => storeNow u p.1 (leBytes 8 p.2)) u
        .ok (writeNext u rd 0))

/-! ### Checkpoints and rollback (R325, R327, R342) -/

def execCkpt (k : BitVec 4) (rd : Reg) (s : State) : Out :=
  onRegion s (.ckpt k rd) k (fun u _ t g =>
    if (g.ckpts.head?).any (fun c => c.key == g.last) then .ok (writeNext u rd 1)
    else if !g.room 64 then .error (logFault s k.toNat)
    else
      let c : Ckpt := ⟨g.last, g.clock, g.ord, g.count, g.sat, g.lost, g.epoch + 1⟩
      .ok (writeNext (setRegion u t.lkey k.toNat { g with epoch := g.epoch + 1, ckpts := c :: g.ckpts }) rd 0))

def Undo.epochOf : Undo → Nat
  | .line e .. => e
  | .leaf e .. => e
  | .mark e .. => e
  | .unmark e .. => e

/-- Write back a line's dwords: stores for every purpose but undo logging (R332). -/
def restoreLine (s : State) (x : LShed) (keys : List Nat) (bs : List Byte) : State :=
  let keys := keys.map x.phys
  let s := match keys with
    | k :: _ => mendLine s (k / 64)
    | [] => s
  (keys.zip (List.range keys.length)).foldl (fun s p =>
    writeHome (if p.1 < 2 ^ 49 then dropMine s p.1 else s) p.1 ((bs.drop (8 * p.2)).take 8)) s

/-- R327: undo entries restored, newest first. -/
def undoAll (s : State) (x : LShed) (g : Region) : List Undo → State × Region
  | [] => (s, g)
  | u :: us => match u with
    | .line _ _ keys bs => undoAll (restoreLine s x keys bs) x g us
    | .leaf _ i q => undoAll s x { g with leaves := setLeaf g.leaves i q } us
    | .mark _ m d => undoAll s x { g with marks := g.marks.filter (fun x => x != m), digest := g.digest - d } us
    | .unmark _ m d _ => undoAll s x { g with marks := g.marks ++ [m], digest := g.digest + d } us

/-- R328: a requeued message and its anti-message vanish together. -/
def returnMsg (q : List BMsg) (m : BMsg) : List BMsg :=
  if q.any (fun x => x.kind == 2 && x.key == m.key) then q.eraseP (fun x => x.kind == 2 && x.key == m.key) else q ++ [m]

/-- The pending stores of a logical shed's threads are performed, so that none escapes the log. -/
def drainShed (s : State) (l : Nat) : State :=
  (s.threads.filter (fun p => p.2.lkey == l)).foldl (fun s p => drain s p.1) s

/-- The keys of the lines that undo entries restore. -/
def undoKeys (x : LShed) (us : List Undo) : List Nat :=
  us.flatMap (fun u => match u with
    | .line _ _ keys _ => keys.map x.phys
    | _ => [])

/-- The undo entries of a region from an epoch on. -/
def Region.undoFrom (g : Region) (e : Nat) : List Undo := g.undo.filter (fun u => decide (e ≤ u.epochOf))

/-- The frame of a line that undo entries restore which is closed to a party (R239). -/
def undoBusy (s : State) (w : Waiter) (x : LShed) (us : List Undo) : Option Nat :=
  ((undoKeys x us).find? (frameBusy s w)).map (· / 2 ^ 16)

/-- rollb to checkpoint c with straggler y (R327). -/
def rollTo (s : State) (x : LShed) (t : Thread) (k : Nat) (g : Region) (c : Ckpt) (y : Key) : State :=
  let r := undoAll s x g (g.undoFrom c.epoch)
  let back := g.recv.filter (fun m => c.key.lt m.key)
  let antis := g.sends.filter (fun m => y.lt m.key)
  let g' := { r.2 with
    undo := g.undo.filter (fun u => decide (u.epochOf < c.epoch)), clock := c.clock, ord := c.ord, count := c.count,
    last := c.key, sat := c.sat, lost := c.lost, epoch := c.epoch,
    ckpts := g.ckpts.filter (fun x => decide (x.epoch ≤ c.epoch)), recv := g.recv.filter (fun m => !c.key.lt m.key),
    inq := back.reverse.foldl returnMsg g.inq, sends := g.sends.filter (fun m => !y.lt m.key), replay := y, curV := false,
    bnd := false, got := none }
  let s := sendAntis (setRegion r.1 t.lkey k g'.noteRoom) antis
  offerHeld s t.run (regionId t.coord k)

def execRollb (k : BitVec 4) (rd : Reg) (s : State) : Out :=
  onRegion s (.rollb k rd) k (fun u tid t g =>
    match leastKey g.stragglers with
    | none => .ok (writeNext u rd 1)
    | some y =>
      match g.ckpts.find? (fun c => c.key.lt y) with
      | none => .error (.fault 6 k.toNat (BitVec.ofNat 64 y.time))
      | some c => match s.lsheds.get t.lkey with
        | some x => match undoBusy u (.thread tid) x (g.undoFrom c.epoch) with
          | some f => .error (.wait (.frame f))
          | none => .ok (writeNext (rollTo (drainShed u t.lkey) x t k.toNat g c y) rd 0)
        | none => .ok (writeNext u rd 1))

/-! ### Marks (R343, R354) and digests (R331) -/

/-- The hash of a line at its home. -/
def hashLine (s : State) (x : LShed) (sd : Seed) (ln : Nat × List Nat) : Word :=
  lineHash sd ln.1 (ln.2.map (fun d => BitVec.ofNat 64 (s.value (x.phys d) 8)))

def markHashes (s : State) (l : Nat) (sd : Seed) (m : Mark) : List Word :=
  match s.lsheds.get l with
  | some x => m.lines.map (hashLine s x sd)
  | none => []

def sumWords (ws : List Word) : Word := ws.foldl (· + ·) 0

/-- The eight dwords of a line to be marked; a range is checked line by line (log entry 81). -/
def markLine (s : State) (t : Thread) (base ea : Nat) : M (State × (Nat × List Nat)) := do
  if isNear ea then
    match nearTarget t.coord ea with
    | some (ly, ls, _, _) => if ly ≠ t.coord.ly || ls ≠ t.coord.ls then .error (accessFault 26 base)
    | none => .ok ()
  let (s, p) ← place s s.ctx .read ea
  openFrame s p.key
  if p.ms then .error (accessFault 26 base)
  let k := match (if p.near then nearTarget t.coord ea else none) with
    | some (_, _, lc, l) => 2 ^ 60 + lc * 2 ^ 19 + l
    | none => p.key
  .ok (s, (ea, (List.range 8).map (fun j => k + 8 * j)))

/-- The lines of a mark are read at their homes: whether one of them meets an error (R379), or a frame that is being moved (R239). -/
def readLines (s : State) (x : LShed) : List (Nat × List Nat) → M Unit
  | [] => .ok ()
  | ln :: r => do
    let k := x.phys (ln.2.headD 0)
    openFrame s k
    errorCheck s s.ctx k false
    readLines s x r

def markLines (s : State) (t : Thread) (base ea : Nat) : Nat → M (State × List (Nat × List Nat))
  | 0 => .ok (s, [])
  | n + 1 => do
    let (s, l) ← markLine s t base ea
    let (s, r) ← markLines s t base (ea + 64) n
    .ok (s, l :: r)

/-- R343, R354: the range of a mark: aligned, in the address space, not partly in near space, and not in mode 0 or 2. -/
def badRange (a n : Word) : Bool :=
  let ea := bits a 51 0
  bits a 53 52 != 0 || ea % 64 != 0 || n == 0 || n.toNat % 64 != 0 || decide (2 ^ 52 < ea + n.toNat) ||
    isNear ea != isNear (ea + n.toNat - 1) || (isNear ea && ea / 2 ^ 46 % 2 == 0)

/-- A mark of logical shed x and one of logical shed y share a byte. -/
def Mark.overlaps (x y : LShed) (m n : Mark) : Bool :=
  m.lines.any (fun a => n.lines.any (fun b => a.2.any (fun d => b.2.any (fun e => x.phys d == y.phys e))))

/-- The marked ranges of a physical shed. -/
def shedMarks (s : State) (h : Nat) : Nat :=
  s.lsheds.foldl (fun n x => if x.2.shed == h && x.2.resident then x.2.regions.foldl (fun n g => n + g.2.marks.length) n else n) 0

def hostShed (s : State) (l : Nat) : Nat :=
  match s.lsheds.get l with
  | some x => x.shed
  | none => 0

def execMark (k : BitVec 4) (ra rb : Src) (s : State) : Out :=
  onRegion2 s (.mark k ra rb) k ra rb (fun u _ t g a n => do
    let ea := bits a 51 0
    if badRange a n then .error (accessFault 26 ea)
    let (u, lines) ← markLines u t ea ea (n.toNat / 64)
    let m : Mark := ⟨ea, n.toNat, lines⟩
    if s.lsheds.any (fun y => y.2.regions.any (fun r => r.2.marks.any (fun n => match s.lsheds.get t.lkey with
        | some x => Mark.overlaps x y.2 m n
        | none => false))) then .error (accessFault 26 ea)
    if 64 ≤ shedMarks s (hostShed s t.lkey) then .error (accessFault 27 ea)
    if !g.room 32 then .error (logFault s k.toNat)
    let u := drainShed u t.lkey
    let d := sumWords (markHashes u t.lkey (s.seedOf t.run) m)
    .ok (setRegion u t.lkey k.toNat { g with
      marks := g.marks ++ [m], digest := g.digest + d, undo := .mark g.epoch m d :: g.undo }).advance)

/-- unmark (R343) reads the lines that it withdraws, as mark does. -/
def execUnmark (k : BitVec 4) (ra rb : Src) (s : State) : Out :=
  onRegion2 s (.unmark k ra rb) k ra rb (fun u _ t g a n =>
    let ea := bits a 51 0
    match g.marks.find? (fun m => m.addr == ea && m.len == n.toNat && bits a 53 52 == 0) with
    | none => .error (accessFault 26 ea)
    | some m =>
      if !g.room 32 then .error (logFault s k.toNat)
      else do
        (s.lsheds.get t.lkey).elim (.ok ()) (fun x => readLines u x m.lines)
        let u := drainShed u t.lkey
        let hs := markHashes u t.lkey (s.seedOf t.run) m
        .ok (setRegion u t.lkey k.toNat { g with
          marks := g.marks.filter (fun x => x != m), digest := g.digest - sumWords hs,
          undo := .unmark g.epoch m (sumWords hs) hs :: g.undo }).advance)

/-- What was marked and what each line and leaf held, going back through undo entries, newest first: the lines' hashes by
line address, and the leaves. -/
def digestBack (sd : Seed) (ls : List (Nat × Word)) (lv : Map Nat) : List Undo → List (Nat × Word) × Map Nat
  | [] => (ls, lv)
  | u :: us => match u with
    | .line _ va _ bs =>
      let h := lineHash sd va ((List.range 8).map (fun j => BitVec.ofNat 64 (leVal ((bs.drop (8 * j)).take 8))))
      digestBack sd (ls.map (fun p => if p.1 = va then (va, h) else p)) lv us
    | .leaf _ i q => digestBack sd ls (setLeaf lv i q) us
    | .mark _ m _ => digestBack sd (ls.filter (fun p => !m.lines.any (fun l => l.1 == p.1))) lv us
    | .unmark _ m _ hs => digestBack sd (ls ++ (m.lines.map (fun l => l.1)).zip hs) lv us

/-- R331: the digest of the state at a checkpoint. It makes no access (log entry 111). -/
def digestAt (s : State) (l : Nat) (sd : Seed) (g : Region) (c : Ckpt) : Word :=
  let now := g.marks.flatMap (fun m => (m.lines.map (fun y => y.1)).zip (markHashes s l sd m))
  let r := digestBack sd now g.leaves (g.undo.filter (fun u => decide (c.epoch ≤ u.epochOf)))
  sumWords (r.1.map (fun p => p.2)) + sumWords (r.2.map (fun p => leafHash sd p.1 p.2))

/-- An undo entry whose DIGEST term a fossil has set anew. -/
def Undo.settled : Undo → Undo
  | .mark e m _ => .mark e m 0
  | .unmark e m _ hs => .unmark e m 0 hs
  | u => u

/-- fossil (R330, R344). -/
def execFossil (k : BitVec 4) (ra : Src) (s : State) : Out :=
  onRegion1 s (.fossil k ra) k ra (fun u _ t g a =>
    match g.ckpts.find? (fun c => c.key.start || decide (c.key.time < a.toNat)) with
    | some c =>
      if g.ckpts.getLast? = some c then .ok u.advance
      else
        let g' : Region := { g with
          ckpts := g.ckpts.filter (fun x => decide (c.epoch ≤ x.epoch))
          undo := (g.undo.filter (fun x => decide (c.epoch ≤ x.epochOf))).map Undo.settled
          sends := g.sends.filter (fun m => c.key.lt m.key), recv := g.recv.filter (fun m => c.key.lt m.key)
          digest := digestAt s t.lkey (s.seedOf t.run) g c }
        .ok (offerHeld (setRegion u t.lkey k.toNat g'.noteRoom) t.run (regionId t.coord k.toNat)).advance
    | none => .ok u.advance)

def execDgst (k : BitVec 4) (rd : Reg) (s : State) : Out :=
  onRegion s (.dgst k rd) k (fun u _ _ g => .ok (writeNext u rd g.digest))

/-! ### Images (R345, R346) -/

def Key.words (k : Key) : List Nat :=
  [k.time, k.tie, k.sub * 2 ^ 48 + b2n k.start * 2 ^ 32 + k.id, k.ord]

def Region.image (g : Region) (id : Nat) : List Nat :=
  [g.desc, g.sub * 2 ^ 48 + id, g.clock, g.ord, g.count, g.flagWord, b2n g.curV * 2 ^ 63 + g.cur, g.table.toNat] ++
    g.last.words ++ g.replay.words ++ [g.digest.toNat, g.strag] ++ List.replicate 14 0 ++
    (List.range g.nl).map (fun i => g.leaves.getD i 0)

/-- The key under which a log area's contents stand. -/
def logKey (s : State) (t : Thread) (log : Nat) : Nat := s.ctxPart (.run t.run t.coord t.core) * 2 ^ 52 + log

def execRgnsave (k : BitVec 4) (ra : Src) (s : State) : Out :=
  onRegion1 s (.rgnsave k ra) k ra (fun u _ t g a => do
    let ea ← effAddr a 0 64
    let im := g.image (regionId t.coord k.toNat)
    if 2 ^ 52 < ea + 8 * im.length then .error (.trap 4 0 a)
    let (u, ps) ← placeDwords u ea im.length
    let u ← storeDwords u ea ps im
    let g := { (regionOf u t.lkey k.toNat).getD g with st := 2 }
    let u := setRegion u t.lkey k.toNat g
    .ok { u with logAreas := u.logAreas.set (logKey s t g.log) g }.advance)

/-- A key of an image, and whether its res0 fields are zero. -/
def keyOfWords (w : List Word) : Key × Bool :=
  let x := w.getD 2 0
  let k : Key := ⟨false, (w.getD 0 0).toNat, (w.getD 1 0).toNat, bits x 21 0, (w.getD 3 0).toNat, bits x 63 48⟩
  (if bitAt x 32 then Key.begin else k, bits x 47 33 == 0 && bits x 31 22 == 0)

/-- The res0 fields of an image's first 256 bytes. -/
def imageOk (w : List Word) : Bool :=
  let x (i : Nat) : Word := w.getD i 0
  bits (x 0) 63 52 == 0 && bits (x 1) 47 22 == 0 && bits (x 5) 63 14 == 0 && bits (x 6) 62 24 == 0 &&
    (keyOfWords (w.drop 8)).2 && (keyOfWords (w.drop 12)).2 && (w.drop 18).all (fun y => y == 0)

/-- A message of a restored log is one of the run that has loaded the image (R346): what it is undone by and what it sends go to that
run's sheds. -/
def BMsg.ofRun (run : Nat) (b : BMsg) : BMsg := { b with run := run }

/-- The region of a run that an image, a descriptor and the log area's contents give. -/
def Region.ofImage (run : Nat) (w : List Word) (d : List Word) (lv : List Word) (logs : Option Region) : Region :=
  let x (i : Nat) : Word := w.getD i 0
  let g := Region.define (bits (x 0) 51 0) d 0 (x 7)
  let last := (keyOfWords (w.drop 8)).1
  let g := { g with
    sub := bits (x 1) 63 48, clock := (x 2).toNat, ord := (x 3).toNat, count := (x 4).toNat, lost := bitAt (x 5) 0,
    sat := bitAt (x 5) 1, tab := bitAt (x 5) 3, rbz := bitAt (x 5) 4, bnd := bitAt (x 5) 5, t := bits (x 5) 13 8,
    curV := bitAt (x 6) 63, cur := bits (x 6) 23 0, last := last, replay := (keyOfWords (w.drop 12)).1, digest := x 16,
    strag := (x 17).toNat
    leaves := (lv.zip (List.range lv.length)).foldl (fun (m : Map Nat) (p : Word × Nat) => setLeaf m p.2 p.1.toNat) [] }
  match logs with
  | some y => { g with
      inq := y.inq.map (BMsg.ofRun run), recv := y.recv.map (BMsg.ofRun run), sends := y.sends.map (BMsg.ofRun run), undo := y.undo,
      ckpts := y.ckpts, epoch := y.epoch, marks := y.marks, got := y.got.map (BMsg.ofRun run), reported := y.reported }
  | none => { g with ckpts := [] }

def execRgnload (k : BitVec 4) (ra : Src) (s : State) : Out :=
  asThread s (.rgnload k ra) (fun _ t => do
    needTree s k.toNat (.rgnload k ra)
    let (u, a) ← op1 s ra
    if (regionOf s t.lkey k.toNat).any (fun g => g.st == 1) then .error (wordFault 20 (.rgnload k ra))
    let ea ← effAddr a 0 64
    let (u, w) ← loadDwords u ea 32
    if !imageOk w || bits (w.getD 1 0) 21 0 ≠ regionId t.coord k.toNat || bits (w.getD 0 0) 5 0 ≠ 0 then .error (accessFault 22 ea)
    let (u, d) ← loadDwords u (bits (w.getD 0 0) 51 0) 8
    let nl := bits (d.getD 0 0) 23 0 + 1
    let lk := logKey s t (d.getD 3 0).toNat
    if !regionDescOk d || ((regionOf s t.lkey k.toNat).orElse (fun _ => s.logAreas.get lk)).any (fun g => g.nl != nl) then
      .error (accessFault 22 ea)
    if 2 ^ 52 < ea + 256 + 8 * nl then .error (.trap 4 0 a)
    let (u, lv) ← loadDwords u (ea + 256) nl
    if lv.any (fun x => bits x 63 48 != 0) then .error (accessFault 22 ea)
    -- the saved marks come into force: no store that was made before them escapes the log (R326)
    let u := setRegion (drainShed u t.lkey) t.lkey k.toNat (Region.ofImage t.run w d lv (s.logAreas.get lk))
    .ok (holdResult (admitHeld { u with logAreas := u.logAreas.erase lk } t.run (regionId t.coord k.toNat)).advance))

end Sys2Proof.Machine
end

