-- ==== Sys2Proof/Machine/Runs.lean ====
section
/-! DEFINITION. Runs: the dispatcher's validation, conditions and placement (R150 to R155, R159, R160, R181), launches by the host (R383), the end of runs (R176), pre-emption, deschedule and restore (R160, R372 to R375), the watchdog (R377), and the scheduling happenings of threads (R25, R175, R183). -/

namespace Sys2Proof.Machine

/-! ### The dispatcher's reads -/

/-- A dword that the dispatcher of a partition reads at its home, so that no copy of its device stays older (R195); none where it cannot
be translated. -/
def dispatchRead (s : State) (p va : Nat) : Option (State × Word) :=
  if 2 ^ 52 ≤ va then none
  else match placeData s (.disp p (partDev s p)) .read va with
    | .ok (s', q) => some (dropUnit s' (.disp p (partDev s p)) q, BitVec.ofNat 64 (s'.value q.key 8))
    | .error _ => none

/-- An uncorrectable error that a read of the dispatcher meets is posted (R379). -/
def dispatchCheck (s : State) (p run va : Nat) : State :=
  match place s (.disp p (partDev s p)) .read va with
  | .ok _ => s
  | .error e => unitCheck (meetLink s (partDev s p) e) p (partDev s p) run e

/-- n dwords from an address on. -/
def dispatchReads (s : State) (p va : Nat) : Nat → Option (State × List Word)
  | 0 => some (s, [])
  | n + 1 =>
    match dispatchRead s p va with
    | some (s, w) => (dispatchReads s p (va + 8) n).map (fun r => (r.1, w :: r.2))
    | none => none

/-! ### Validation (R150 to R155) -/

/-- The bits of header dword i that are not res0, or that must be zero (R37, R150 to R155, log entry 83). -/
def headerMask (i : Nat) : Nat :=
  match i with
  | 0 => 0xEE0E
  | 1 => 0xFFFFC7
  | 2 => 0xFFFFFF000000007F
  | 5 => 0xFFFFFFFFFFFFD
  | 10 => 0xFFFFFFFFFF001
  | 3 | 4 | 6 | 7 | 8 | 9 | 13 => 0xFFFFFFFFFFFFFFFF
  | 14 => 0xFFFFFFFF
  | 16 | 18 | 20 | 22 => 0xEFFFFFFFFFFFF8
  | 17 | 19 | 21 | 23 => 0xFFFFFFFFFFFFFFFF
  | _ => 0

/-- The comparison of a wait condition (R155). -/
def condCmp (n : Nat) : WCmp := match n with | 0 => .eq | 1 => .ne | 2 => .lt | _ => .ge

/-- What a header's dwords say. -/
def Run.ofHeader (r : Run) (d : List Word) : Run :=
  let w (i : Nat) : Word := d.getD i 0
  { r with
    nstage := bits (w 0) 11 9, drt := bitAt (w 0) 3, pers := bitAt (w 0) 2, det := bitAt (w 0) 1
    nly := bits (w 1) 23 12, nls := bits (w 1) 11 6, nlc := bits (w 1) 2 0
    zclaim := bits (w 2) 63 56, trees := bits (w 2) 55 40, spad := bits (w 2) 6 0
    htab := bits (w 3) 51 0, hcount := bits (w 3) 63 52 + 1, sptab := bits (w 4) 51 0, spcount := bits (w 4) 63 52
    utvec := w 5, fpctl := bits (w 6) 13 0, seed := ⟨w 7, w 8⟩, beat := (w 9).toNat, jobbase := w 10
    rings := bits (w 14) 31 0
    conds := ((List.range 4).filter (fun k => bitAt (w (16 + 2 * k)) 55)).map (fun k =>
      (condCmp (bits (w (16 + 2 * k)) 54 53), bits (w (16 + 2 * k)) 52 0, w (17 + 2 * k))) }

/-- The sheds of a partition. -/
def partSheds (s : State) (p : Nat) : List Nat := (s.part p).sheds.flatMap (fun x => range x.1 x.2)

/-- The devices of a partition, in the order of its sheds. -/
def partDevs (s : State) (p : Nat) : List Nat := ((partSheds s p).map shedDev).eraseDups

/-- R154 cause 2: the logical yards that the partition's devices can host, each on one device (R381), at one logical shed for each
physical shed, whether or not it could be time-sliced (log entry 24). -/
def yardsFit (s : State) (p nls : Nat) : Nat :=
  (partDevs s p).foldl (fun n d => n + ((partSheds s p).filter (fun h => shedDev h == d)).length / (nls + 1)) 0

/-- The first of n dwords that the dispatcher cannot read. -/
def badRead (s : State) (p va n : Nat) : Nat :=
  va + 8 * ((List.range n).find? (fun i => (dispatchReads s p va (i + 1)).isNone)).getD 0

/-- R154: the checks of a header in their order; 0 when all pass. A read that meets an uncorrectable error rejects the run with CAUSE 7, as
one that cannot be translated does (log entry 90). -/
def validate (s : State) (r : Run) (id : Nat) : State × Run × Nat :=
  let unread (s : State) (va n : Nat) : State × Run × Nat := (dispatchCheck s r.part id (badRead s r.part va n), r, 7)
  if r.hdr % 256 ≠ 0 then (s, r, 8)
  else match dispatchReads s r.part r.hdr 32 with
    | none => unread s r.hdr 32
    | some (s, d) =>
      let r' := r.ofHeader d
      if r.stale || (List.range 32).any (fun i => (d.getD i 0).toNat % 2 ^ 64 &&& (2 ^ 64 - 1 - headerMask i) != 0) then (s, r, 1)
      else if bits (d.getD 6 0) 63 14 ≠ 0 then (s, r, 6)
      else if 126 < r'.spad then (s, r, 3)
      else if r'.pers && r'.beat == 0 then (s, r, 5)
      else match dispatchReads s r.part r'.htab r'.hcount with
        | none => unread s r'.htab r'.hcount
        | some (s, t) =>
          if r'.hcount < r'.nstage + 1 || t.any (fun e => bits e 63 52 != 0 || bits e 1 0 != 0) then (s, r, 4)
          else match dispatchReads s r.part r'.sptab (2 * r'.spcount) with
            | none => unread s r'.sptab (2 * r'.spcount)
            | some (s, _) => if yardsFit s r.part r'.nls < r'.nly + 1 then (s, r, 2) else (s, r', 0)

/-- R120: CR.FPCTL is loaded again from the header's flush word, at the placement of a run and at its restore. A res0 bit that is set
there by then is dropped, and a word that cannot be read leaves the register as it stands (log entry 75). -/
def loadFlush (s : State) (r : Nat) : State :=
  match s.runs.get r with
  | some x => match dispatchRead s x.part (x.hdr + 0x30) with
    | some (s', w) => s'.setRun r { x with fpctl := bits w 13 0 }
    | none => dispatchCheck s x.part r (x.hdr + 0x30)
  | none => s

/-- R181 step 4: what placement loads from the header beside the flush word: the seed and the groups' CR.UTVEC. Where one of these words
cannot be read, all keep the values of the validation, and a res0 bit of the UTVEC word set since then is dropped (log entry 89). -/
def loadSeeds (s : State) (r : Nat) : State :=
  match s.runs.get r with
  | some x => match dispatchRead s x.part (x.hdr + 0x28), dispatchReads s x.part (x.hdr + 0x38) 2 with
    | some (_, v), some (s', [lo, hi]) => s'.setRun r { x with utvec := v &&& 0xFFFFFFFFFFFFD#64, seed := ⟨lo, hi⟩ }
    | _, _ => [x.hdr + 0x28, x.hdr + 0x38, x.hdr + 0x40].foldl (fun s va => dispatchCheck s x.part r va) s
  | none => s

/-- The CR.RUNCTL writes that concern a run, with an OP that f names, are no longer in progress (R380). -/
def endCtl (s : State) (x : Run) (f : Nat → Bool) : State :=
  (x.requester.filter (fun q => f q.2)).foldl (fun s q => s.modSvc q.1 (fun v => { v with inCtl := false })) s

/-- Their outcome is OK (R366), and they wait for it no longer. -/
def answerCtl (s : State) (r : Nat) (f : Nat → Bool) : State :=
  match s.runs.get r with
  | some x => (x.requester.filter (fun q => f q.2)).foldl (fun s q => s.modSvc q.1 (fun v => { v with svstat := 0 }))
      (s.setRun r { x with requester := x.requester.filter (fun q => !f q.2) })
  | none => s

/-- Whatever the dispatcher keeps of a run goes. -/
def eraseRun (s : State) (r : Nat) : State :=
  match s.runs.get r with
  | some x =>
    let s := { s with runs := s.runs.erase r, waits := s.waits.filter (fun e => e.2.who != Waiter.run r) }
    let s := endCtl s x (fun _ => true)
    s.modPart x.part (fun p => { p with queues := p.queues.mapVals (fun _ q => q.filter (fun y => y != r)) })
  | none => s

/-- R154: the run is rejected with a cause, and none of its groups is placed. -/
def rejectRun (s : State) (r cause : Nat) : State :=
  eraseRun (runStatus (s.modRun r (fun x => { x with cause := cause })) r 5) r

/-- R370: a run that is queued, or that waits, is dropped, with STATE 6. -/
def removeRun (s : State) (r : Nat) : State := eraseRun (runStatus s r 6) r

/-! ### Wait conditions (R155, R181) -/

/-- The present conditions that do not hold, with their places; none where one does not translate. Each is an acquire read of its home
(R181), after which no copy of the dispatcher's device is older (R195). -/
def failingConds (s : State) (p : Nat) : List (WCmp × Nat × Word) → Option (State × List (Wait × Place))
  | [] => some (s, [])
  | (c, va, v) :: rest =>
    match placeData s (.disp p (partDev s p)) .read va with
      | .ok (s, q) =>
        (failingConds s p rest).map (fun r =>
          let e : Wait := ⟨q.key, 8, 2 ^ 64 - 1, c, v.toNat, true, .nobody, q.ms⟩
          (dropUnit r.1 (.disp p (partDev s p)) q, if e.holds s then r.2 else (e, q) :: r.2))
      | .error _ => none

/-- The dispatcher's entry for a condition, or, when the wait table is full, a re-check (R181). -/
def waitCond (r : Nat) (s : State) (e : Wait × Place) : State :=
  if waitFull s e.2 then s.post (.conditionRecheck r) else insertWait s { e.1 with who := .run r }

/-- R181 step 3: the conditions of a waiting run are checked; a read that meets an uncorrectable error rejects the run (log entry 90). -/
def checkConds (s : State) (r : Nat) : State :=
  match s.runs.get r with
  | some x =>
    if x.state = 2 && !x.ready then
      let s := { s with waits := s.waits.filter (fun e => e.2.who != .run r) }
      match failingConds s x.part x.conds with
      | none => rejectRun ((x.conds.map (fun c => c.2.1)).foldl (fun s va => dispatchCheck s x.part r va) s) r 7
      | some (s, []) => s.modRun r (fun x => { x with ready := true })
      | some (s, fs) => fs.foldl (waitCond r) s
    else s
  | none => s

/-! ### Finding sheds (R159, R160, R135) -/

/-- A logical shed is placed: those of a descheduled run are not (R374). -/
def LShed.placed (s : State) (x : LShed) : Bool :=
  x.resident || !(match s.runs.get x.run with
    | some r => r.descheduled
    | none => true)

/-- The logical sheds that a physical shed hosts. -/
def hostsOf (s : State) (h : Nat) : List (Nat × LShed) := s.lsheds.filter (fun p => p.2.shed == h && p.2.placed s)

/-- A shed on which groups may be placed (R395, R396). -/
def shedUsable (s : State) (h : Nat) : Bool :=
  let d := s.device (shedDev h)
  !(s.shed h).maint && !d.maint && !d.stopped && !d.failed

/-- The number of bits set in a claim mask. -/
def claims (m : Nat) : Nat := ((List.range 32).filter (fun i => m / 2 ^ i % 2 == 1)).length

/-- The windows that stand in physical core lc of a shed, as base and length (R160). -/
def windowsOf (s : State) (h lc : Nat) : List (Nat × Nat) :=
  (hostsOf s h).filterMap (fun p =>
    match s.runs.get p.2.run with
    | some r => if p.2.resident && lc ≤ r.nlc then some (p.2.bases.getD lc 0, r.spad * 4096) else none
    | none => none)

/-- R160: a base for a window of n bytes: the lowest that overlaps no other. -/
def findBase (ws : List (Nat × Nat)) (n : Nat) : Option Nat :=
  (0 :: ws.map (fun w => w.1 + w.2)).foldl (fun best b =>
    if b + n ≤ 0x7E000 && ws.all (fun w => decide (b + n ≤ w.1) || decide (w.1 + w.2 ≤ b)) then
      (match best with
        | some a => some (min a b)
        | none => some b)
    else best) none

/-- The bases of a run's windows in a shed. -/
def findBases (s : State) (h : Nat) (r : Run) : Option (Map Nat) :=
  (List.range (r.nlc + 1)).mapM (fun lc => (findBase (windowsOf s h lc) (r.spad * 4096)).map (fun b => (lc, b)))

/-- The phaser records that logical shed l brings with it: two at its placement, and at its restore those that it has (R160, R208). -/
def recordsOf (s : State) (l : Nat) : Nat :=
  match s.lsheds.get l with
  | some x => shedRecords s l x
  | none => 2

/-- R160, R135: what logical shed l of a run claims fits beside what those that are resident in a shed claim. -/
def claimsFit (s : State) (h id l : Nat) (r : Run) : Bool :=
  let hosts := (hostsOf s h).filter (fun p => p.2.resident)
  let of (f : Run → Nat) : Nat := hosts.foldl (fun n p => n + (match s.runs.get p.2.run with
    | some x => f x
    | none => 0)) 0
  decide (of (fun x => claims x.rings) + claims r.rings ≤ 32) &&
    decide (of (fun x => claims x.trees) + claims r.trees ≤ 16) &&
    decide (engineRecords s h + recordsOf s l ≤ 64) &&
    hosts.all (fun p => p.2.run == id || (match s.runs.get p.2.run with
      | some x => x.zclaim &&& r.zclaim == 0
      | none => true))

/-- R160: whether logical shed l of a run can share a shed with those it hosts. -/
def sharedFits (s : State) (h id l : Nat) (r : Run) : Bool :=
  (hostsOf s h).all (fun p => p.2.resident && p.2.mode != 2) && (findBases s h r).isSome && claimsFit s h id l r

/-- R160: a shed of a device for one more logical shed of a run, and its mode: a free one, else one to share, else one
that hosts none that share. -/
def chooseShed (s : State) (d id l : Nat) (r : Run) : Option (Nat × Nat) :=
  let sheds := (partSheds s r.part).filter (fun h => shedDev h == d && shedUsable s h)
  match sheds.find? (fun h => (hostsOf s h).isEmpty) with
  | some h => some (h, 0)
  | none =>
    match sheds.find? (fun h => sharedFits s h id l r) with
    | some h => some (h, 1)
    | none => (sheds.find? (fun h => (hostsOf s h).all (fun p => p.2.mode != 1))).map (fun h => (h, 2))

/-! ### Placement (R159, R181, R209, R225) -/

/-- Byte keys lo to lo + n − 1 read zero. -/
def zeroRange (s : State) (lo n : Nat) : State :=
  { s with mem := s.mem.filter (fun c => !(decide (lo ≤ c.1) && decide (c.1 < lo + n))) }

/-- R96, R198: the cores of a placed logical shed start with empty caches. -/
def placeCores (s : State) (l h nlc : Nat) : State :=
  { (List.range (nlc + 1)).foldl (fun s lc => dropL1 s (h * 8 + lc)) s with icaches := s.icaches.set l [] }

/-! ### The remap table (R159) -/

/-- A remap entry: valid, its mode, and the physical shed. -/
def remapWord (mode h : Nat) : Word := BitVec.ofNat 64 (2 ^ 63 + mode * 2 ^ 61 + shedDev h * 2 ^ 42 + shedYard h * 2 ^ 40 + h % 64 * 2 ^ 34)

/-- The entry of logical shed (ly, ls) of a run. -/
def Run.entry (r : Run) (ly ls : Nat) : Nat := r.block + ly * (r.nls + 1) + ls

/-- The entries that a run's block has. -/
def Run.entries (r : Run) : Nat := (r.nly + 1) * (r.nls + 1)

/-- The blocks of the placed runs of a partition, as first entry and number. -/
def blocksOf (s : State) (p : Nat) : List (Nat × Nat) :=
  (s.runs.filter (fun r => r.2.part == p && (r.2.state == 3 || r.2.state == 6))).map (fun r => (r.2.block, r.2.entries))

/-- The lowest block of n entries that are all free. -/
def freeBlock (bs : List (Nat × Nat)) (n : Nat) : Nat :=
  let free (b : Nat) : Bool := bs.all (fun e => decide (b + n ≤ e.1) || decide (e.1 + e.2 ≤ b))
  ((0 :: bs.map (fun e => e.1 + e.2)).filter free).foldl (fun best b => match best with
    | some a => some (min a b)
    | none => some b) none |>.getD 0

/-- Where entry e of a partition's remap table stands, in the memory of the dispatcher's device (log entry 74). -/
def remapKey (s : State) (p e : Nat) : Nat := dataKey s (partDev s p * 2 ^ 39 + (s.part p).remapAt + p * 2 ^ 26 + 8 * e)

/-- The machine check of an access to entry e that meets an uncorrectable error (R379). -/
def remapCheck (s : State) (p e : Nat) : Option Exc :=
  if s.badLines.contains (remapKey s p e / 64) then some (machineCheck (remapKey s p e)) else none

/-- Entry e of a partition's remap table is written; a write that meets an uncorrectable error has no effect, and is posted (R379,
log entry 98). -/
def putRemap (s : State) (p e : Nat) (w : Word) : State :=
  match remapCheck s p e with
  | some x => unitCheck s p (partDev s p) 0 x
  | none => writeHome s (remapKey s p e) (leBytes 8 w.toNat)

/-- The remap entry of a logical shed names the shed that hosts it. -/
def writeRemap (s : State) (x : LShed) : State :=
  match s.runs.get x.run with
  | some r => putRemap s r.part (r.entry x.ly x.ls) (remapWord x.mode x.shed)
  | none => s

/-- The entries of a run's block become free. -/
def freeRemap (s : State) (x : Run) : State := (range x.block x.entries).foldl (fun s e => putRemap s x.part e 0) s

/-- The mode and the physical shed that a logical shed's remap entry names, where it is valid and can be read; its res0 bits are not looked
at (log entry 74). -/
def remapOf (s : State) (x : LShed) : Option (Nat × Nat) :=
  (s.runs.get x.run).bind (fun r =>
    let e := r.entry x.ly x.ls
    let w := BitVec.ofNat 64 (s.value (remapKey s r.part e) 8)
    if (remapCheck s r.part e).isNone && bitAt w 63 && bits w 62 61 != 3 then some (bits w 62 61, bits w 51 42 * 256 + bits w 41 40 * 64 + bits w 39 34) else none)

/-- The logical sheds of a shed take its mode, and their remap entries name it. -/
def setModes (s : State) (h mode : Nat) : State :=
  let s := { s with lsheds := s.lsheds.mapVals (fun _ x => if x.shed == h && mode != 0 then { x with mode := mode } else x) }
  (hostsOf s h).foldl (fun s p => writeRemap s p.2) s

/-- R160: while several logical sheds share a shed in turn, the resident one's slice ends. -/
def postSlices (s : State) (h : Nat) : State :=
  ((hostsOf s h).filter (fun p => p.2.resident && p.2.mode == 2)).foldl (fun s p => s.post (.timeSlice p.1)) s

/-- The groups of a logical shed. -/
def shedGroups (r : Run) (ly ls : Nat) : List Coord :=
  (List.range (r.nlc + 1)).flatMap (fun lc => (List.range (r.nstage + 1)).map (fun st => ⟨ly, ls, lc, st⟩))

/-- The key under which the dispatcher of a partition sends first threads. -/
def dispatcherCore (p : Nat) : Nat := 2 ^ 40 + p

/-- R181 step 5, R209: the first thread of a group, registered before any thread of the run issues. -/
def placeGroup (r l : Nat) (s : State) (c : Coord) : State :=
  match s.runs.get r with
  | some x =>
    let tid := s.nextKey
    let s := { s with nextKey := tid + 1, groups := s.groups.set (gkey r c) ⟨x.utvec, true⟩ }
    let s := (phJoin s r l 0 tid .both).1
    let s := (phJoin s r l 63 tid .both).1
    let k := dispatcherCore x.part
    let mid := (s.core k).outbox.fresh
    let hdr := BitVec.ofNat 64 (c.st * 2 ^ 48 + c.bits)
    let m : OutMsg := ⟨r, hdr, [BitVec.ofNat 64 x.hdr, BitVec.ofNat 64 c.bits], 0, l, some tid, false, k, s.clock⟩
    (s.modCore k (fun y => { y with outbox := y.outbox.set mid m })).post (.activeMessageArrival k mid)
  | none => s

/-- The first thread of a group is sent before its logical shed stands anywhere, so the record stands first. -/
def placeShed (r : Nat) (d ly : Nat) (s : State) (ls : Nat) : Option State :=
  match s.runs.get r with
  | some x =>
    match chooseShed s d r (lkey r ly ls) x with
    | some (h, mode) =>
      let here := mode != 2
      match (if here then findBases s h x else some []) with
      | some bases =>
        let l := lkey r ly ls
        let y : LShed :=
          { run := r, ly := ly, ls := ls, shed := h, mode := mode, resident := here, bases := bases, released := [],
            evctl := 0, drawtab := 0, phasers := [], rings := [], acc := [], tilings := [], regions := [], pqs := [],
            dog := x.beat, since := s.clock, slicing := false, jobTabs := [] }
        let s := { s with lsheds := s.lsheds.set l y }
        let s := setModes s h mode
        let s := (List.range (x.nlc + 1)).foldl (fun s lc => zeroRange s (y.window lc) (x.spad * 4096)) s
        let s := if here then placeCores s l h x.nlc else postSlices s h
        some ((shedGroups x ly ls).foldl (placeGroup r l) s)
      | none => none
    | none => none
  | none => none

/-- R381: a logical yard stands on one device. -/
def placeYard (f : Nat → Nat → State → Nat → Option State) (nls : Nat) (devs : List Nat) (s : State) (ly : Nat) : Option State :=
  devs.findSome? (fun d => (List.range (nls + 1)).foldlM (f d ly) s)

/-- R181 steps 4 and 5: the run is placed, if sheds can be found. -/
def placeRun (s : State) (r : Nat) : Option State :=
  match s.runs.get r with
  | some x =>
    let s := loadSeeds (loadFlush s r) r
    let s := s.modRun r (fun x => { x with state := 3, block := freeBlock (blocksOf s x.part) x.entries })
    ((List.range (x.nly + 1)).foldlM (placeYard (placeShed r) x.nls (partDevs s x.part)) s).map (fun s =>
      let s := runStatus s r 3
      if x.preempt then (s.lsheds.filter (fun p => p.2.run == r)).foldl (fun s p => s.post (.deschedule p.1)) s else s)
  | none => none

/-- Insert a run id by priority, oldest first. -/
def insertRun (s : State) (id : Nat) : List Nat → List Nat
  | [] => [id]
  | j :: rest =>
    let pr (i : Nat) : Nat := match s.runs.get i with
      | some x => x.prio
      | none => 0
    if pr j < pr id || (pr j == pr id && decide (id < j)) then id :: j :: rest else j :: insertRun s id rest

/-- The ready runs of a partition, highest level first, oldest first. -/
def readyRuns (s : State) (p : Nat) : List Nat :=
  (s.runs.filter (fun x => x.2.part == p && x.2.state == 2 && x.2.ready)).foldl (fun l x => insertRun s x.1 l) []

/-- R181: the clock since which a run has been the oldest ready one of the highest level. -/
def markOldest (s : State) (p : Nat) : State :=
  let first := (readyRuns s p).head?
  { s with runs := s.runs.mapVals (fun id x =>
      if x.part == p then { x with oldest := if first == some id then some (x.oldest.getD s.clock) else none } else x) }

/-- R181: every ready run that fits is placed; a run that has waited 1 ms as the oldest of the highest level goes first. -/
def placeReady (s : State) (p : Nat) : State :=
  let s := markOldest s p
  let rec go (s : State) : List Nat → State
    | [] => s
    | id :: rest =>
      match placeRun s id with
      | some s => go s rest
      | none =>
        match s.runs.get id with
        | some x => if (x.oldest.map (fun c => decide (c + 2000000 ≤ s.clock))).getD false then s else go s rest
        | none => go s rest
  markOldest (go s (readyRuns s p)) p

/-! ### Slots of a logical shed that comes back (R375) -/

/-- Every slot of a core, in the order in which a thread that comes back takes one. -/
def anySlot (c : Cls) : List Nat := clsSlots c ++ (List.range 64).filter (fun i => !(clsSlots c).contains i)

/-- R375: a thread parked at safe point n starts at its restore routine, with INTRAP set and x7 and x8 as at the trap. -/
def startRestore (s : State) (tid : Nat) : State :=
  match s.threads.get tid with
  | some t =>
    match t.park with
    | .safepoint n =>
      let pc := safeRoutine s t n true
      let s := postTableCheck s (.run t.run t.coord t.core) t.run (safeEntry s t n true)
      let h := (t.hart.setReg 7 t.utcause).setReg 8 t.utval
      { s with free := s.free + 1 }.setThread tid
        { t with park := .none, restoring := true, hart := { h with intrap := true, pc := pc },
                 save7 := t.hart.regs.get 7, save8 := t.hart.regs.get 8 }
    | _ => s
  | none => s

/-- A thread of a restored logical shed takes a slot; one whose wait on a ring is not over resumes it, and another that waits re-executes
what it waits in (R375); a phaser wait whose phase has completed is answered (phDeliver). On another device it acquires
at system scope, so that no copy there is older than what it has seen (R192, R195). -/
def reseat (old new : Nat) (o : Option State) (tid : Nat) : Option State :=
  match o with
  | some s =>
    match s.threads.get tid with
    | some t =>
      let core := if coreShed t.core = old then new * 8 + t.core % 8 else t.core
      match (freeSlots s core (anySlot t.cls)).head? with
      | some sl =>
        let park := match t.park with
          | .retry (.ring q n filled) => if (ringGet s t.lkey q).meets n filled then .none else t.park
          | .retry _ => .none
          | p => p
        let s := s.setThread tid { t with core := core, slot := sl, park := park, held := false }
        some (phDeliver (acquireT (startRestore s tid) tid (if shedDev (coreShed core) = shedDev (coreShed t.core) then .dev else .sys)) tid)
      | none => none
    | none => some s
  | none => none

/-- A logical core's outbox moves with it (R374): the refusal queues that hold its messages name them by their new place. They still hold
back the messages that their core has sent later, and those that stood behind them in its outbox alone are sent (R169). An outbox that
takes in more than 32 messages so holds them all (log entry 93). -/
def moveOutbox (s0 : State) (l c c' : Nat) : State :=
  if c = c' then s0
  else
    let ms := (s0.core c).outbox.filter (fun m => m.2.home == l)
    let base := (s0.core c').outbox.fresh
    let re (mid : Nat) : Option Nat := (ms.findIdx? (fun m => m.1 == mid)).map (base + ·)
    let fix (e : Refused) : Refused := match e with
      | .msg k mid rep => if k = c then (match re mid with
          | some n => .msg c' n rep
          | none => e)
        else e
      | .mig _ => e
    let u := s0.modCore c (fun x => { x with outbox := x.outbox.filter (fun m => m.2.home != l) })
    let u := ms.foldl (fun s m => match re m.1 with
      | some n =>
        let s := s.modCore c' (fun x => { x with outbox := x.outbox.set n m.2 })
        if m.2.queued then s else s.post (.activeMessageArrival c' n)
      | none => s) u
    let s := sendFreed s0 u c
    { s with cores := s.cores.mapVals (fun _ x => { x with
        refused := x.refused.map fix, holds := x.holds.mapVals (fun _ h => (fix h.1, h.2)) }) }

/-- What is kept by the keys lo to lo + n − 1 stands at dst on, where nothing of it is kept any longer. -/
def moveKeys {α : Type} (lo dst n : Nat) (m : Map α) : Map α :=
  let inside (a : Nat) (r : Nat × α) : Bool := decide (a ≤ r.1) && decide (r.1 < a + n)
  (m.filter (inside lo)).foldl (fun m r => m.set (dst + (r.1 - lo)) r.2) (m.filter (fun r => !inside lo r && !inside dst r))

/-- Move the bytes at keys lo to lo + n − 1, with what is known of the records among them (R199), and with the errors of their lines (R379, log
entry 37). -/
def moveRange (s : State) (lo dst n : Nat) : State :=
  let inside (c : Host.Cell) : Bool := decide (lo ≤ c.1) && decide (c.1 < lo + n)
  let cells := s.mem.filter inside
  let m := cells.foldl (fun m c => Memory.put m (dst + (c.1 - lo)) c.2) ((zeroRange (zeroRange s lo n) dst n).mem)
  let line (a l : Nat) : Bool := decide (a / 64 ≤ l) && decide (l < (a + n) / 64)
  { s with
    mem := m
    records := moveKeys lo dst n s.records
    badLines := s.badLines.filter (fun l => !line dst l) ++ (s.badLines.filter (line lo)).map (fun l => l - lo / 64 + dst / 64) }

/-- The threads of a logical shed. -/
def shedThreads (s : State) (l : Nat) : List Nat := (s.threads.filter (fun p => p.2.lkey == l)).map (fun p => p.1)

/-- A job index of a logical shed that comes back to a shed is taken there by another's job. -/
def indexTaken (s : State) (x : LShed) (h : Nat) : Bool :=
  x.jobTabs.any (fun e => e.2.busy && ((s.core (h * 8 + e.1 / 96)).jobs.get (e.1 % 96)).any (fun y => y.busy))

/-- The job indices of a logical shed that comes back (R374): each keeps its id, and the counter of the index is its core's (R259). -/
def restoreTables (s : State) (x : LShed) (h : Nat) : State :=
  x.jobTabs.foldl (fun s e => s.modCore (h * 8 + e.1 / 96) (fun c => { c with
    jobs := c.jobs.set (e.1 % 96) { e.2 with gen := (c.jobs.get (e.1 % 96)).elim 0 (fun y => y.gen) } })) s

/-- The accesses of a run's threads are performed before a window of it moves (R225, R374). -/
def drainRun (s : State) (run : Nat) : State := s.threads.foldl (fun s p => if p.2.run == run then drain s p.1 else s) s

/-- R375: the vfences of a restored logical shed resume their wait on the cores where its threads now stand; one that has nothing
left to wait for ends. -/
def rearm (s : State) (l : Nat) : State :=
  (((shedThreads s l).map (fun t => (s.threads.get t).elim 0 (fun t => t.core))).eraseDups).foldl wakeVector s

/-- The real-set slots of a run are rebuilt in a shed (R140); a machine check that a rebuild meets is posted from nobody (R379). -/
def rebuildSlots (s : State) (run part h : Nat) : State :=
  (List.range 8).foldl (fun s z => match slotTables s run h z with
    | .ok (u, _) => u
    | .error e => unitCheck (meetLink s (shedDev h) e) part (shedDev h) run e) s

/-- No core of a shed holds a line in its L1. -/
def dropShedL1 (s : State) (h : Nat) : State :=
  { s with cores := s.cores.mapVals (fun c x => if coreShed c == h then { x with l1 := [] } else x) }

/-- R375: a descheduled logical shed stands in shed h again, if its claims, its records, its jobs and its threads find room. A run none of whose
logical sheds stands takes its flush bits from its header again (R120). Whatever comes to run there, a handler of one of its messages
included, finds no copy of a line that is older than what the logical shed has seen (R192, R195). -/
def bringIn (s : State) (l h mode : Nat) : Option State :=
  match s.lsheds.get l with
  | some x =>
    match s.runs.get x.run with
    | some r =>
      if indexTaken s x h || (mode == 1 && !claimsFit s h x.run l r) then none
      else match findBases s h r with
      | some bases =>
        let s := dropShedL1 (drainRun s x.run) h
        let s := if shedDev h = shedDev x.shed then s else dropSlices s (shedDev h)
        let s := if r.descheduled || s.lsheds.any (fun p => p.2.run == x.run && p.2.resident) then s else loadFlush s x.run
        let y := { x with shed := h, mode := mode, bases := bases, resident := true, slicing := false, dog := r.beat,
                          since := s.clock, jobTabs := [] }
        let s := { s with lsheds := s.lsheds.set l y }
        let s := setModes s h mode
        let s := placeCores s l h r.nlc
        let s := (List.range (r.nlc + 1)).foldl (fun s lc => moveRange s (x.window lc) (y.window lc) (r.spad * 4096)) s
        let s := restoreTables s x h
        let home (c : Nat) : Nat := if coreShed c = x.shed then h * 8 + c % 8 else c
        let s := { s with
          jobs := s.jobs.mapVals (fun _ j => if j.lkey == l then { j with core := home j.core } else j)
          vcmds := s.vcmds.mapVals (fun _ v => if v.lkey == l then { v with
            core := home v.core, held := v.held.map (fun o => ({ o.1 with fpctl := s.fpctlOf x.run }, o.2)) } else v) }
        let s := (List.range 8).foldl (fun s c => moveOutbox s l (x.shed * 8 + c) (h * 8 + c)) s
        let s := rebuildSlots s x.run r.part h
        ((shedThreads s l).foldl (reseat x.shed h) (some s)).map (fun s =>
          let s := rearm s l
          if mode = 2 then s.post (.timeSlice l) else s)
      | none => none
    | none => none
  | none => none

/-- The device of a partition's dispatcher has stopped (R395), and has not been found failed (R394). -/
def dispatcherStopped (s : State) (p : Nat) : Bool := (s.device (partDev s p)).stopped && !(s.device (partDev s p)).failed

/-- R160, R374, R375: the logical sheds that a shed could bring in: those that wait, of runs that are not asked to stop. -/
def waitingHosts (s : State) (h : Nat) : List (Nat × LShed) :=
  (hostsOf s h).filter (fun p => !p.2.resident && (match s.runs.get p.2.run with
    | some r => !r.preempt && !r.descheduled && r.state == 3 && !dispatcherStopped s r.part
    | none => false))

/-- A logical shed that is not resident is mapped to another shed or in another mode: what it has of cores goes with it (R374), and on
another device no slice copy is older than what its threads have seen (R192, R195). -/
def relocate (s : State) (l : Nat) (x : LShed) (h mode : Nat) : State :=
  let home (c : Nat) : Nat := if coreShed c = x.shed then h * 8 + c % 8 else c
  let s := { s with
    lsheds := s.lsheds.set l { x with shed := h, mode := mode, slicing := false }
    threads := s.threads.mapVals (fun _ t => if t.lkey == l then { t with core := home t.core } else t)
    jobs := s.jobs.mapVals (fun _ j => if j.lkey == l then { j with core := home j.core } else j)
    vcmds := s.vcmds.mapVals (fun _ v => if v.lkey == l then { v with core := home v.core } else v) }
  let s := if shedDev h = shedDev x.shed then s else dropSlices s (shedDev h)
  let s := (List.range 8).foldl (fun s c => moveOutbox s l (x.shed * 8 + c) (h * 8 + c)) s
  postSlices (writeRemap (setModes s h mode) { x with shed := h, mode := mode }) h

/-- R159: a logical shed that waits goes where its remap entry, which a service core may have changed, names a shed of the partition (log
entry 74); a read of the entry that meets an uncorrectable error is posted (R379), and the logical shed waits (log entry 98). -/
def followRemap (s : State) (p : Nat × LShed) : State :=
  match s.runs.get p.2.run, remapOf s p.2 with
  | some r, none => ((remapCheck s r.part (r.entry p.2.ly p.2.ls)).elim s (fun e => unitCheck s r.part (partDev s r.part) p.2.run e))
  | some r, some (mode, h) =>
    if (h != p.2.shed || mode != p.2.mode) && shedOwned s r.part h then (relocate s p.1 p.2 h mode).post (.dispatch r.part) else s
  | _, _ => s

def longest (l : List (Nat × LShed)) : Option (Nat × LShed) :=
  l.foldl (fun b p => match b with
    | some q => if p.2.since < q.2.since then some p else b
    | none => some p) none

/-- Logical sheds that wait for a usable shed come back to it, as its mode allows and their remap entries name it, the one that has
waited longest first; one that finds no room yet is tried again at the next DISPATCH. -/
def fillShed (s : State) (h : Nat) : State :=
  let rec go (s : State) : Nat → State
    | 0 => s
    | n + 1 =>
      match longest ((waitingHosts s h).filter (fun p => shedUsable s h && (remapOf s p.2).isSome)) with
      | some (l, x) =>
        if (hostsOf s h).all (fun p => !p.2.resident || (p.2.mode == 1 && x.mode == 1)) then
          match bringIn s l h x.mode with
          | some s => go s n
          | none => (s.runs.get x.run).elim s (fun r => s.post (.dispatch r.part))
        else s
      | none => s
  let s := (waitingHosts s h).foldl followRemap s
  go s (waitingHosts s h).length

/-! ### The dispatcher's happenings -/

/-- The next queued run of a partition (R181 step 1). -/
def nextQueued (s : State) (p : Nat) : Option Nat :=
  (List.range 8).reverse.findSome? (fun l => (queueOf s p l).head?)

/-- R181 steps 1 to 3 for one run. A run that has been taken, and waits, has no place in its queue (R180, log entry 107). -/
def takeQueued (s : State) (p r : Nat) : State :=
  let s := s.modPart p (fun x => { x with queues := x.queues.mapVals (fun _ q => q.filter (fun y => y != r)) })
  match s.runs.get r with
  | some x =>
    match validate s x r with
    | (s, x', 0) => checkConds (runStatus (s.setRun r { x' with state := 2 }) r 2) r
    | (s, _, cause) => rejectRun s r cause
  | none => s

/-- A happening of a partition's dispatcher, which waits while its device has stopped (R395). -/
def dispatched (s : State) (p : Nat) (e : Event) (go : State → State) : Out :=
  .next (if dispatcherStopped s p then s.post e else go s)

/-- DISPATCH (R181); logical sheds that have waited for room come back first (R375). -/
def execDispatch (p : Nat) (s : State) : Out := dispatched s p (.dispatch p) (fun s =>
  let s := (partSheds s p).foldl fillShed s
  match nextQueued s p with
  | some r =>
    let s := takeQueued s p r
    placeReady (if (nextQueued s p).isSome then s.post (.dispatch p) else s) p
  | none => placeReady s p)

/-- The dispatcher re-checks a waiting run, and places it when its conditions hold. -/
def recheckRun (s : State) (r : Nat) : State :=
  match s.runs.get r with
  | some x => placeReady (checkConds s r) x.part
  | none => s

/-- The partition of a run. -/
def runPart (s : State) (r : Nat) : Nat := (s.runs.get r).elim 0 (fun x => x.part)

/-- CONDITION_WAKE (R181). -/
def execConditionWake (r : Nat) (s : State) : Out := dispatched s (runPart s r) (.conditionWake r) (fun s => recheckRun s r)

/-- CONDITION_RECHECK (R181). -/
def execConditionRecheck (r : Nat) (s : State) : Out := dispatched s (runPart s r) (.conditionRecheck r) (fun s => recheckRun s r)

/-- LAUNCH_DOORBELL (R180, R383): the host enqueues the header at hdr into its partition; a full queue takes nothing. -/
def execLaunchDoorbell (p hdr : Nat) (s : State) : Out := dispatched s p (.launchDoorbell p hdr) (fun s =>
  let prio := match dispatchRead s p hdr with
    | some (_, w) => bits w 15 13
    | none => 0
  if 256 ≤ (queueOf s p prio).length then s
  else
    let stale := match dispatchRead s p (hdr + 0x68) with
      | some (_, w) => bits w 2 0 != 0
      | none => false
    let (s, id) := enqueueRun (dispatchCheck (dispatchCheck s p 0 hdr) p 0 (hdr + 0x68)) p prio hdr stale
    runStatus s id 1)

/-! ### Deschedule (R374) -/

/-- A thread of a logical shed leaves its slot: its wait-table entry is removed, and it re-executes waita at the restore
(R244). -/
def unseat (s : State) (tid : Nat) : State :=
  match s.threads.get tid with
  | some t =>
    let s := { s with waits := s.waits.filter (fun e => e.2.who != Waiter.thread tid) }
    let park := match t.park with
      | .waita .. => Park.retry .slot
      | p => p
    offerSlot (leaveQueue (s.setThread tid { t with slot := 64, park := park }) (.thread tid)) t.core t.slot
  | none => s

/-- Whether an index of a core's port belongs to a job of another logical shed. -/
def othersJob (s : State) (l core k : Nat) (x : JobSlot) : Bool :=
  x.busy && s.jobs.any (fun j => j.2.core == core && j.2.id == x.id && portNum j.2.port == k / 16 && j.2.lkey != l)

/-- R374: the job indices of a logical shed's cores are saved; they are free from then on, and their counters stay (R259). -/
def saveTables (s : State) (l h : Nat) : State :=
  let alone := (hostsOf s h).all (fun p => p.1 == l || !p.2.resident)
  (List.range 8).foldl (fun s c =>
    let core := h * 8 + c
    let mine := (s.core core).jobs.filter (fun e => !othersJob s l core e.1 e.2)
    let s := s.modLShed l (fun x => { x with jobTabs := mine.foldl (fun m e => m.set (c * 96 + e.1) e.2) x.jobTabs })
    s.modCore core (fun x => { x with jobs := x.jobs.mapVals (fun k e =>
      if mine.any (fun m => m.1 == k) && (alone || e.busy) then { e with busy := false, id := 2 ^ 16 } else e) })) s

/-- R374: the refused arrivals of a descheduled logical shed wait in their senders' outboxes. -/
def releaseRefused (s : State) (l core : Nat) : State :=
  let mine (e : Refused) : Bool := match e with
    | .msg c mid _ => match (s.core c).outbox.get mid with
      | some m => lkey m.run (coordOf m.hdr).ly (coordOf m.hdr).ls == l
      | none => true
    | .mig _ => false
  let out := (s.core core).refused.filter mine
  let s := s.modCore core (fun x => { x with refused := x.refused.filter (fun e => !mine e) })
  out.foldl (fun s e => match e with
    | .msg c mid _ => match (s.core c).outbox.get mid with
      | some m => (s.modCore c (fun x => { x with outbox := x.outbox.set mid { m with queued := false } })).post (.messageRetry c mid)
      | none => s
    | .mig _ => s) s

/-- The suspended commands of a logical shed leave the queues of frames that are being moved; they ask again once it is back. -/
def leaveAll (s : State) (l : Nat) : State :=
  let s := (s.jobs.filter (fun j => j.2.lkey == l)).foldl (fun s j => leaveQueue s (.job j.1)) s
  (s.vcmds.filter (fun v => v.2.lkey == l)).foldl (fun s v => leaveQueue s (.vcmd v.1)) s

/-- A shed hosts a resident logical shed of a run. -/
def hostsRun (s : State) (run h : Nat) : Bool := s.lsheds.any (fun p => p.2.run == run && p.2.resident && p.2.shed == h)

/-- R374: one logical shed is descheduled: the copies of its run's slots go from its sheds and from those where no logical shed of the run
is left (R140), and what waits for the units of its shed asks again. -/
def descheduleShed (s : State) (l : Nat) (x : LShed) (r : Run) : State :=
  let s := drainRun s x.run
  let s := leaveAll s l
  let s := saveTables s l x.shed
  let y := { x with resident := false, since := s.clock }
  let s := (List.range (r.nlc + 1)).foldl (fun s lc => moveRange s (x.window lc) (y.window lc) (r.spad * 4096)) s
  let s := s.modLShed l (fun z => { z with resident := false, since := s.clock })
  let stood := x.shed :: (shedThreads s l).map (fun t => coreShed ((s.threads.get t).elim 0 (fun t => t.core)))
  let s := { s with
    icaches := s.icaches.erase l
    sheds := s.sheds.mapVals (fun h y => if stood.contains h || !hostsRun s x.run h then
      { y with tables := y.tables.filterKV (fun k _ => k / 8 != x.run) } else y) }
  let s := (List.range 8).foldl (fun s c => releaseRefused s l (x.shed * 8 + c)) s
  let s := (shedThreads s l).foldl unseat s
  (List.range 8).foldl (fun s c => wakeVector (wakeJobs s (x.shed * 8 + c)) (x.shed * 8 + c)) s

/-- R374: once every logical shed of a run is out, the request is answered and the sheds are free for others. -/
def settleDeschedule (s : State) (r : Nat) : State :=
  match s.runs.get r with
  | some x =>
    let mine := s.lsheds.filter (fun p => p.2.run == r)
    if x.preempt && !x.descheduled && mine.all (fun p => !p.2.resident) then
      let s := answerCtl (s.modRun r (fun x => { x with descheduled := true })) r (· == 0)
      (mine.foldl (fun s p => fillShed s p.2.shed) s).post (.dispatch x.part)
    else s
  | none => s

/-- DESCHEDULE (R374): a logical shed whose threads all count. -/
def execDeschedule (l : Nat) (s : State) : Out :=
  match s.lsheds.get l with
  | some x =>
    match s.runs.get x.run with
    | some r =>
      if !x.resident then .next (settleDeschedule s x.run)
      else if !(r.preempt || x.slicing) then .next s
      else if r.frozen || !deviceIssues s (shedDev x.shed) || !((shedThreads s l).all (fun t => match s.threads.get t with
          | some t => t.counts
          | none => true)) then .next (s.post (.deschedule l))
      else
        let s := descheduleShed s l x r
        .next (settleDeschedule (fillShed s x.shed) x.run)
    | none => .next s
  | none => .next s

/-- TIME_SLICE (R160): the slice of the resident logical shed, of 100 µs at least, has run out. -/
def execTimeSlice (l : Nat) (s : State) : Out :=
  match s.lsheds.get l with
  | some x =>
    if !x.resident || x.mode != 2 || x.slicing || (waitingHosts s x.shed).isEmpty then .next s
    else if s.clock < x.since + 200000 then .next (s.post (.timeSlice l))
    else
      let s := s.modLShed l (fun x => { x with slicing := true })
      .next (((shedThreads s l).foldl holdThread s).post (.deschedule l))
  | none => .next s

/-! ### Requests of service cores (R372, R375, R380) -/

/-- PREEMPT_REQUEST (R372): the request reaches every shed of the run. -/
def execPreemptRequest (r : Nat) (s : State) : Out :=
  match s.runs.get r with
  | some x =>
    let s := endCtl s x (· == 0)
    if x.preempt then .next (if x.descheduled then answerCtl s r (· == 0) else s)
    else
      let s := s.setRun r { x with preempt := true }
      let s := (s.threads.filter (fun p => p.2.run == r)).foldl (fun s p => holdThread s p.1) s
      let mine := s.lsheds.filter (fun p => p.2.run == r)
      if mine.isEmpty then .next (answerCtl s r (· == 0))
      else .next (mine.foldl (fun s p => s.post (.deschedule p.1)) s)
  | none => .next s

/-- A thread that stands and is asked no longer to stop goes on (R375). -/
def releaseHeld (s : State) (tid : Nat) : State :=
  match s.threads.get tid with
  | some t =>
    if requested s t || t.slot == 64 then s else startRestore (s.setThread tid { t with held := false }) tid
  | none => s

/-- PREEMPT_CANCEL (R375): the cancelled request waits for no outcome. -/
def execPreemptCancel (r : Nat) (s : State) : Out :=
  match s.runs.get r with
  | some x =>
    let s := answerCtl (endCtl s x (· == 1)) r (· == 1)
    if !x.preempt || x.descheduled then .next s
    else
      let s := s.modRun r (fun x => { x with preempt := false, requester := x.requester.filter (fun q => q.2 != 0) })
      let s := (s.threads.filter (fun p => p.2.run == r)).foldl (fun s p => releaseHeld s p.1) s
      .next ((s.lsheds.filter (fun p => p.2.run == r)).foldl (fun s p => postSlices (fillShed s p.2.shed) p.2.shed) s)
  | none => .next s

/-- A logical shed of a run that is restored finds a shed. -/
def restoreShed (r : Nat) (d ly : Nat) (s : State) (ls : Nat) : Option State :=
  match s.runs.get r with
  | some x =>
    let l := lkey r ly ls
    match chooseShed s d r l x with
    | some (h, 2) => (s.lsheds.get l).map (fun y => relocate s l y h 2)
    | some (h, mode) => bringIn s l h mode
    | none => none
  | none => none

/-- RESTORE (R375): the run is placed anew; its flush bits are read again from its header (R120, log entry 75). -/
def execRestore (r : Nat) (s : State) : Out :=
  match s.runs.get r with
  | some x =>
    if !x.descheduled then .next s
    else if dispatcherStopped s x.part then .next (s.post (.restore r))
    else
      let s' := (loadFlush s r).modRun r (fun x => { x with preempt := false })
      match (List.range (x.nly + 1)).foldlM (placeYard (restoreShed r) x.nls (partDevs s x.part)) s' with
      | some s' => .next (answerCtl (endCtl (s'.modRun r (fun x => { x with descheduled := false })) x (· == 2)) r (· == 2))
      | none => .next (s.post (.restore r))
  | none => .next s

/-! ### The end of a run, the watchdog, and the scheduler's happenings -/

/-- RUN_DONE (R176, R154, R370): the dispatcher writes STATE 4, or 6 for a killed run, and the run's sheds are free. -/
def execRunDone (r : Nat) (s : State) : Out :=
  match s.runs.get r with
  | some x =>
    if dispatcherStopped s x.part then .next (s.post (.runDone r))
    else if (x.state == 3 || x.state == 6) && runIdle s r then
      let s := runStatus (settleInvals s) r (if x.state = 6 then 6 else 4)
      let mine := s.lsheds.filter (fun p => p.2.run == r)
      let sheds := (mine.map (fun p => p.2.shed)).eraseDups
      let s := { s with
        lsheds := s.lsheds.filter (fun p => p.2.run != r)
        groups := s.groups.filter (fun g => g.1 / 2 ^ 24 != r)
        bmsgs := s.bmsgs.filter (fun m => m.2.run != r) }
      let s := s.sheds.foldl (fun s h => dropLoft s h.1 (fun e => e.run == r)) s
      let s := { s with sheds := s.sheds.mapVals (fun _ h => { h with tables := h.tables.filterKV (fun k _ => k / 8 != r) }) }
      let s := { s with icaches := s.icaches.filterKV (fun k _ => k / 2 ^ 18 != r) }
      let s := sheds.foldl fillShed (freeRemap s x)
      .next ((eraseRun s r).post (.dispatch x.part))
    else .next s
  | none => .next s

/-- WATCHDOG (R377): the counter of a persistent run in shed h has reached zero, at which the run froze; the expiry is reported. -/
def execWatchdog (r h : Nat) (s : State) : Out :=
  match s.runs.get r with
  | some x =>
    if x.pers && x.frozen then
      .next (postFault s
        { who := .run r, svc := designated s x.part (shedDev h), run := r, core := h * 8, slot := 0, eng := false, tag := 0,
          kind := 7, cause := 0, coord := ⟨0, 0, 0, 0⟩, addr := BitVec.ofNat 64 (shedYard h * 64 + h % 64), pcs := 0,
          value := 0, args := [], st := 0, res1 := 0, res2 := 0 })
    else .next s
  | none => .next s

/-- THREAD_AGED (R183): a thread that has been ready in 92 cycles, of two issue slots each, is urgent until it issues. -/
def execThreadAged (t : Nat) (s : State) : Out :=
  match s.threads.get t with
  | some x => .next (if 184 ≤ x.ready then s.setThread t { x with urgent := true } else s)
  | none => .next s

/-- REGISTER_FILL (R22, R25): a filled thread has its spilled values back; no program sees more than the time. -/
def execRegisterFill (_t : Nat) (s : State) : Out := .next s

/-- UTVEC_WRITE (R37, R175): every core that hosts a member holds the new value, and the write completes. While the thread's device has
stopped, it waits (R395). -/
def execUtvecWrite (t : Nat) (v : Word) (s : State) : Out :=
  match s.threads.get t with
  | some x =>
    if x.park == .utvec v then
      if !coreWorks s x.core then .next (s.post (.utvecWrite t v))
      else
      let k := gkey x.run x.coord
      let w := v &&& 0xFFFFFFFFFFFFD#64
      let s := { s with groups := s.groups.modify k (fun g => { g with utvec := w }) }
      .next (s.setThread t { x with park := .none, hart := { x.hart with pc := x.hart.pc + 4 } })
    else .next s
  | none => .next s

end Sys2Proof.Machine
end

