-- ==== Sys2Proof/Machine/System.lean ====
section
/-! DEFINITION. Service cores and the system instructions (R35, R40, R67, R68, R356 to R371, R396): control registers, the fault buffer and its replies, kill, the translation caches, the maintenance form, and a word that is no instruction (R74). -/

namespace Sys2Proof.Machine

/-- ILLEGAL (R74). -/
def execIllegal (w : BitVec 32) (s : State) : Out := complete s (.error (illegalWord w))

/-! ### sys, brk, eret and hvc (R40, R45, R367, R371) -/

/-- R45, R371: x1 to x6 are read into the message, and the thread waits for the reply. A service core enters H mode, and at the last word it
is not checked for that (log entry 112); so with brk. -/
def execSys (n : BitVec 16) (s : State) : Out :=
  complete s (do
    if s.isSvc then .error (.call 10 n.toNat [])
    let rs := (range 1 6).map (Fin.ofNat 16)
    let u ← sources s rs
    .ok (takeExc (release u) (.call 10 n.toNat (rs.map s.reg))))

def execBrk (n : BitVec 16) (s : State) : Out :=
  complete s (do
    if s.isSvc then .error (.call 11 n.toNat [])
    let u ← sources s []
    .ok (takeExc u (.call 11 n.toNat [])))

/-- R40, R367, R372. A thread that leaves a save routine first waits for its jobs and vector commands: the instruction is
executed again. -/
def execEret (s : State) : Out :=
  complete s (match s.cur, s.curThread with
    | .thread tid, some t =>
      if !t.hart.intrap then .error (illegalWord Instr.eret.word)
      else if t.inSave && requested s t then
        if s.jobs.any (fun j => j.2.thread == tid) || s.vcmds.any (fun v => v.2.thread == tid) then .error (.wait .save)
        else .ok (s.setThread tid { trapReturn t with park := .safepoint t.utval.toNat })
      else .ok (s.setThread tid (trapReturn t))
    | .svc n, _ =>
      let x := s.svc n
      if x.hmode then
        .ok (s.setSvc n { x with hmode := bitAt x.hvepc 63, hart := { x.hart with pc := BitVec.ofNat 52 (bits x.hvepc 51 2 * 4) } })
      else .error (privFault .eret)
    | _, _ => .ok s)

/-- R364: in S mode it enters H mode, as sys and brk of a service core do, and so does not continue sequentially (R100, log entry 112); in
H mode it has no effect and does. -/
def execHvc (ra : Src) (s : State) : Out :=
  complete s (do
    needSvc s (.hvc ra)
    if (s.svc s.curSvc).hmode then
      let (u, _) ← op1 s ra
      .ok u.advance
    else
      let (u, _) ← opJ s [ra]
      .ok (takeExc u (.call 13 (s.reg ra.r).toNat [])))

/-! ### Control registers (R32, R33, R35, R67, R365 to R368) -/

/-- The service-only control registers (R365). -/
def serviceCrs : List Nat :=
  [0x800, 0x801, 0x802, 0x803, 0x804, 0x810, 0x811, 0x812, 0x820, 0x821, 0x822, 0x830]

/-- The cycles of the n steps from a clock on: each step takes a number of cycles that the spec does not state (log entry 5). -/
def cyclesIn (since : Nat) : Nat → Nat
  | 0 => 0
  | n + 1 => cyclesIn since n + Config.stepCycles (since + n)

/-- R33: the cycles counted since a reset at the clock `since`. -/
def cyclesSince (s : State) (since : Nat) : Word := BitVec.ofNat 64 (cyclesIn since (s.clock - since))

def threadCr (s : State) (t : Thread) (cr : Nat) : Word :=
  let run (f : Run → Word) : Word := (s.runs.get t.run).elim 0 f
  let shed (f : LShed → Word) : Word := (s.lsheds.get t.lkey).elim 0 f
  match cr with
  | 0x000 => statusRead s.hart
  | 0x001 => (s.groups.getD (gkey t.run t.coord) ⟨0, false⟩).utvec
  | 0x002 => t.utcause
  | 0x003 => t.utval
  | 0x004 => t.utepc
  | 0x005 => run (fun r => BitVec.ofNat 64 r.fpctl)
  | 0x010 => cyclesSince s (s.shed (coreShed t.core)).since
  | 0x011 => BitVec.ofNat 64 (s.core t.core).retired
  | 0x020 => run (fun r => r.seed.lo)
  | 0x021 => run (fun r => r.seed.hi)
  | 0x022 => BitVec.ofNat 64 t.run
  | 0x023 => BitVec.ofNat 64 t.coord.bits
  | 0x030 => shed (fun x => x.evctl)
  | 0x031 => shed (fun x => x.drawtab)
  | 0x040 => t.jobbase
  | _ => BitVec.ofNat 64 (s.feat (shedDev (coreShed t.core)))

/-- CR.FBSTAT (R366). -/
def Svc.fbstat (x : Svc) : Word :=
  BitVec.ofNat 64 (b2n x.ovf * 2 ^ 63 + x.retry % 2 ^ 32 * 2 ^ 18 + x.tail % 512 * 2 ^ 9 + x.head % 512)

/-- R366, R368: a control register as service core n reads it. -/
def serviceCr (s : State) (n : Nat) (cr : Nat) : Word :=
  let x := s.svc n
  let p := s.part x.part
  match cr with
  | 0x000 => statusRead x.hart
  | 0x010 => cyclesSince s (s.device (svcDev n)).since
  | 0x011 => BitVec.ofNat 64 x.retired
  | 0x0F0 => BitVec.ofNat 64 (s.feat (svcDev n))
  | 0x800 => boolWord x.hmode
  | 0x801 => x.hvvec
  | 0x802 => x.hvepc
  | 0x803 => x.hvcause
  | 0x804 => x.hvval
  | 0x810 => p.ptroot
  | 0x811 => BitVec.ofNat 64 x.part
  | 0x812 => p.grant
  | 0x820 => x.fbbase
  | 0x821 => x.fbstat
  | 0x822 => BitVec.ofNat 64 x.svstat
  | _ => 0

/-- R67, R357, R365: the number names a register of this core. -/
def needCr (s : State) (cr : Nat) (i : Instr) : M Unit :=
  if s.isSvc then
    if crListed.contains cr || serviceCrs.contains cr then .ok () else .error (illegalWord i.word)
  else if 0x800 ≤ cr then .error (privFault i)
  else if crListed.contains cr then .ok ()
  else .error (illegalWord i.word)

/-- A control register as the current hart reads it. -/
def readCr (s : State) (cr : Nat) : Word :=
  match s.cur, s.curThread with
  | .thread _, some t => threadCr s t cr
  | .svc n, _ => serviceCr s n cr
  | _, _ => 0

/-- A service core's read of CR.FBSTAT is an acquire at system scope (R360, R368). -/
def crAcquire (s : State) (cr : Nat) : State := if s.isSvc && cr == 0x821 then acquire s .sys else s

/-- R35: a thread's write of a control register, and whether the instruction has completed: a write of CR.UTVEC completes
by UTVEC_WRITE (R175). -/
def writeThreadCr (s : State) (tid : Nat) (t : Thread) (cr : Nat) (v : Word) : State × Bool :=
  match cr with
  | 0x000 => (s.setHart (statusWrite s.hart v), true)
  | 0x001 => ((s.modThread tid (fun x => { x with park := .utvec v })).post (.utvecWrite tid v), false)
  | 0x004 => (s.modThread tid (fun x => { x with utepc := (x.utepc &&& ~~~0xFFFFFFFFFFFFC#64) ||| (v &&& 0xFFFFFFFFFFFFC#64) }), true)
  | 0x030 =>
    (s.modLShed t.lkey (fun x => { x with
      evctl := BitVec.ofNat 64 (bits v 7 6 * 64 + (if bits v 5 0 ≤ 48 then bits v 5 0 else bits x.evctl 5 0)) }), true)
  | 0x031 =>
    (s.modLShed t.lkey (fun x => { x with
      drawtab := BitVec.ofNat 64 ((if bits v 57 52 ≤ 40 then bits v 57 52 else bits x.drawtab 57 52) * 2 ^ 52 + bits v 51 4 * 16) }), true)
  | 0x040 => (s.modThread tid (fun x => { x with jobbase := v &&& 0xFFFFFFFFFF001#64 }), true)
  | _ => (s, true)

/-- R238, R360: a freed entry is offered to the oldest queued sender, which retries. -/
def offerFreed (s : State) (n : Nat) : Nat → State
  | 0 => s
  | m + 1 =>
    match (s.svc n).refused with
    | f :: rest =>
      let s := s.modSvc n (fun x => { x with refused := rest })
      let s := { s with faults := s.faults.modify f (fun g => { g with st := 2 }) }
      offerFreed (s.post (.faultRetry f)) n m
    | [] => s

/-- R360, R366, R368: a write of CR.FBSTAT. -/
def writeFbstat (s : State) (n : Nat) (v : Word) : State :=
  let x := s.svc n
  let left (h : Nat) : Nat := (x.tail + 512 - h % 512) % 512
  let head := if left (bits v 8 0) ≤ left x.head then bits v 8 0 else x.head
  let freed := left x.head - left head
  offerFreed (s.setSvc n { x with ovf := x.ovf && !bitAt v 63, retry := bits v 49 18, head := head }) n freed

/-- FBSTAT_WRITE (R360). -/
def execFbstatWrite (sv : Nat) (v : Word) (s : State) : Out := .next (writeFbstat s sv v)

/-- R366, R372, R375, R380: a write of CR.RUNCTL starts the operation that OP names. Until a request has its outcome the
spec states no value of CR.SVSTAT, and it is free (log entry 6). -/
def writeRunctl (s : State) (n : Nat) (v : Word) : State :=
  let op := bits v 63 62
  let id := bits v 31 0
  let stat (k : Nat) : State := s.modSvc n (fun x => { x with svstat := k })
  if op = 3 then stat 2
  else match s.runs.get id with
    | some r =>
      if r.part ≠ (s.svc n).part then stat 3
      else if (op = 0 && (r.preempt || s.agenda.contains (.preemptRequest id))) || (op = 2 && !r.descheduled) then stat 5
      else
        let f := takeFree s
        let s := f.1.modSvc n (fun x => { x with inCtl := true, svstat := f.2.toNat % 256 })
        let s := s.setRun id { r with requester := r.requester.filter (fun q => q.1 != n) ++ [(n, op)] }
        s.post (match op with | 0 => .preemptRequest id | 1 => .preemptCancel id | _ => .restore id)
    | none => stat 3

/-- R365: a register that only H mode writes. -/
def hOnly (cr : Nat) : Bool := cr == 0x801 || cr == 0x802 || cr == 0x812

/-- R366, R368: a service core's write of a control register; RO fields and other registers ignore it. -/
def writeServiceCr (s : State) (n cr : Nat) (v : Word) : State :=
  let x := s.svc n
  match cr with
  | 0x000 => s.setHart (statusWrite s.hart v)
  | 0x801 => s.setSvc n { x with hvvec := v &&& 0xFFFFFFFFFFFFC#64 }
  | 0x802 => s.setSvc n { x with hvepc := v &&& 0x800FFFFFFFFFFFFC#64 }
  | 0x810 => s.modPart x.part (fun p => { p with ptroot := v &&& 0x7FFFFF0001#64 })
  | 0x812 => s.modPart x.part (fun p => { p with grant := v &&& 0xFFFFFFFF00000#64 })
  | 0x820 => s.setSvc n { x with fbbase := v &&& 0xFFFFFFFFF8000#64 }
  | 0x821 => writeFbstat s n v
  | 0x830 => writeRunctl s n v
  | _ => s

/-- Write a control register and complete. -/
def writeCr (u : State) (cr : Nat) (v : Word) : State :=
  match u.cur, u.curThread with
  | .thread tid, some t =>
    let r := writeThreadCr u tid t cr v
    if r.2 then r.1.advance else r.1
  | .svc n, _ => (writeServiceCr u n cr v).advance
  | _, _ => u.advance

/-- R365, R380: the checks of a write. -/
def needCrWrite (s : State) (cr : Nat) (i : Instr) : M Unit := do
  needCr s cr i
  match s.cur with
  | .svc n =>
    if hOnly cr && !(s.svc n).hmode then .error (privFault i)
    if cr = 0x830 && (s.svc n).inCtl then .error (.wait .slot)
  | .thread _ => .ok ()

def execCrr (cr : BitVec 12) (rd : Reg) (s : State) : Out :=
  complete s (do
    needCr s cr.toNat (.crr cr rd)
    let u ← sources s []
    .ok (writeNext (crAcquire u cr.toNat) rd (readCr u cr.toNat)))

def execCrw (cr : BitVec 12) (ra : Src) (s : State) : Out :=
  complete s (do
    needCrWrite s cr.toNat (.crw cr ra)
    let (u, a) ← op1 s ra
    .ok (writeCr u cr.toNat a))

/-- crs and crc (R35): the old value goes to rd, and the new one into the register. -/
def swapCr (i : Instr) (cr : BitVec 12) (rd : Reg) (ra : Src) (f : Word → Word → Word) (s : State) : Out :=
  complete s (do
    needCrWrite s cr.toNat i
    let (u, a) ← op1 s ra
    let old := readCr u cr.toNat
    .ok (writeCr ((crAcquire u cr.toNat).setReg rd old) cr.toNat (f old a)))

def execCrs (cr : BitVec 12) (rd : Reg) (ra : Src) (s : State) : Out :=
  swapCr (.crs cr rd ra) cr rd ra (fun old a => old ||| a) s

def execCrc (cr : BitVec 12) (rd : Reg) (ra : Src) (s : State) : Out :=
  swapCr (.crc cr rd ra) cr rd ra (fun old a => old &&& ~~~a) s

/-! ### The fault buffer (R238, R359 to R361) -/

/-- The 16 dwords of an entry (R359). -/
def FaultMsg.words (f : FaultMsg) : List Nat :=
  let h := coreShed f.core
  [f.run % 2 ^ 32 * 2 ^ 32 + shedDev h * 2 ^ 22 + shedYard h * 2 ^ 20 + h % 64 * 2 ^ 14 + f.core % 8 * 2 ^ 11 + f.slot % 64 * 2 ^ 5 +
      b2n f.eng * 16,
    f.tag * 2 ^ 48 + f.cause % 256 * 2 ^ 40 + f.coord.bits + f.kind,
    f.addr.toNat, f.pcs.toNat, f.value.toNat, 0] ++
    (List.range 6).map (fun i => (f.args.getD i 0).toNat) ++ [0, 0, 0, 0]

/-- Whether someone waits for the reply to message f. -/
def faultWaits (s : State) (f : Nat) (m : FaultMsg) : Bool :=
  match m.who with
  | .thread t => match s.threads.get t with
    | some x => x.park == .mailbox f
    | none => false
  | .job j => match s.jobs.get j with
    | some x => x.fault == some f
    | none => false
  | .vcmd v => match s.vcmds.get v with
    | some x => x.fault == some f
    | none => false
  | .run r => match s.runs.get r with
    | some x => x.frozen
    | none => false
  | _ => false

/-- The place of buffer entry e of service core n: its partition's translation (log entry 36). The entry is written whole, so an
uncorrectable error in either of its two lines keeps it out (R379). -/
def bufferPlace (s : State) (n e : Nat) : M (State × Place) := do
  let x := s.svc n
  let ea := x.fbbase.toNat + 128 * (e % 256)
  let (s, p) ← place s (.disp x.part (svcDev n)) .write ea
  let _ ← place s (.disp x.part (svcDev n)) .write (ea + 64)
  if frameBusy s .nobody p.key then .error (.wait (.frame (p.key / 2 ^ 16)))
  .ok (s, p)

/-- R379: a write of the fault buffer that meets an uncorrectable error is posted, once while the report is on its way. -/
def bufferCheck (s : State) (n : Nat) (m : FaultMsg) (e : Exc) : State :=
  if m.kind == 8 || s.faults.any (fun p => p.2.who == .nobody && p.2.kind == 8 && p.2.st != 3) then s
  else unitCheck (meetLink s (svcDev n) e) (s.svc n).part (svcDev n) m.run e

/-- R360: the entry is written whole, and TAIL advances; a parked service core goes on (R361). -/
def enterFault (s : State) (f : Nat) (m : FaultMsg) : State :=
  match bufferPlace s m.svc (s.svc m.svc).tail with
  | .ok (s, p) =>
    let s := writeHome s p.key (m.words.flatMap (leBytes 8))
    let s := s.modSvc m.svc (fun x => { x with tail := (x.tail + 1) % 512, idle := false })
    if faultWaits s f m then { s with faults := s.faults.set f { m with st := 3 } } else { s with faults := s.faults.erase f }
  | .error e => (bufferCheck s m.svc m e).post (.faultBufferEntry f)

/-- R238: a message that finds the buffer full is refused; the sender is queued, or tries again later. -/
def refuseFault (s : State) (f : Nat) (m : FaultMsg) : State :=
  let s := s.modSvc m.svc (fun x => { x with ovf := true })
  if (s.svc m.svc).refused.length < 64 then
    { s.modSvc m.svc (fun x => { x with refused := x.refused ++ [f] }) with faults := s.faults.set f { m with st := 1 } }
  else { s with faults := s.faults.set f { m with st := 2 } }.post (.faultRetry f)

def fbFull (s : State) (n : Nat) : Bool := ((s.svc n).tail + 512 - (s.svc n).head) % 512 == 256

/-- A message reaches the service core. -/
def arriveFault (s : State) (f : Nat) (m : FaultMsg) : State := if fbFull s m.svc then refuseFault s f m else enterFault s f m

/-- FAULT_BUFFER_ENTRY (R360). -/
def execFaultBufferEntry (f : Nat) (s : State) : Out :=
  match s.faults.get f with
  | some m => .next (if m.st = 0 || m.st = 2 then arriveFault s f m else s)
  | none => .next s

/-- FAULT_RETRY (R238): each retry counts. -/
def execFaultRetry (f : Nat) (s : State) : Out :=
  match s.faults.get f with
  | some m =>
    if m.st = 2 then
      .next (arriveFault (s.modSvc m.svc (fun x => { x with retry := min (2 ^ 32 - 1) (x.retry + 1) })) f m)
    else .next s
  | none => .next s

/-- R361: the service core waits until the buffer is not empty. -/
def execIdle (s : State) : Out :=
  complete s (do
    needSvc s .idle
    let u ← sources s []
    let x := s.svc s.curSvc
    .ok (u.modSvc s.curSvc (fun y => { y with idle := x.tail == x.head })).advance)

/-! ### Kills (R370) -/

/-- First threads that are still on their way to a group, or to a run, go with it. -/
def killFirst (s : State) (p : OutMsg → Bool) : State :=
  let ms := s.cores.flatMap (fun c => (c.2.outbox.filter (fun m => m.2.first.isSome && p m.2)).map (fun m => m.2))
  let s := dropMessages s (fun m => m.first.isSome && p m)
  ms.foldl (fun s m =>
    let c := coordOf m.hdr
    settleGroup (phLeaveAll s m.run (lkey m.run c.ly c.ls) (m.first.getD 0)) m.run c) s

def killGroup (s : State) (run : Nat) (c : Coord) : State :=
  let ts := s.threads.filter (fun p => p.2.run == run && p.2.coord == c)
  let s := ts.foldl (fun s p => endThread s p.1 true) s
  checkDone (killFirst s (fun m => m.run == run && coordOf m.hdr == c)) run

/-- R264: the command ends with FAULT; where it met a fault, that fault's code and address. -/
def killRunJob (s : State) (k : Nat) : State :=
  match s.jobs.get k with
  | some j =>
    if !isResident s j.lkey then { leaveQueue s (.job k) with jobs := s.jobs.erase k }
    else if j.ended then
      match j.fault.bind s.faults.get with
      | some m => (s.modJob k (fun j => j.unrecorded m)).post (.jobDone k)
      | none => s
    else match j.fault.bind s.faults.get with
      | some m => finishJob (s.modJob k (fun j => { j with fault := none })) k 3 (faultDetail m.kind m.cause) m.addr.toNat
      | none => s.modJob k (fun j => { j with killed := true })
  | none => s

def killRunVCmd (s : State) (k : Nat) : State :=
  match s.vcmds.get k with
  | some v =>
    if !isResident s v.lkey then { leaveQueue s (.vcmd k) with vcmds := s.vcmds.erase k }
    else if v.ended then s
    else if v.fault.isSome then finishVCmd (s.modVCmd k (fun v => { v with fault := none })) k 3 v.found
    else s.modVCmd k (fun v => { v with killed := true })
  | none => s

/-- R370: a kill of a run; it overrides every pre-empt request. -/
def killRun (s : State) (r : Nat) : State :=
  match s.runs.get r with
  | some x =>
    if x.state = 1 || x.state = 2 then removeRun s r
    else
      let s := endCtl (s.setRun r { x with state := 6, preempt := false, frozen := false, requester := [] }) x (fun _ => true)
      let s := { s with lsheds := s.lsheds.mapVals (fun _ y => if y.run == r then { y with slicing := false } else y) }
      let s := killFirst s (fun m => m.run == r)
      let s := dropMessages s (fun m => m.run == r)
      let s := (s.threads.filter (fun p => p.2.run == r)).foldl (fun s p => endThread s p.1 true) s
      let s := (s.jobs.filter (fun p => p.2.run == r)).foldl (fun s p => killRunJob s p.1) s
      let s := (s.vcmds.filter (fun p => p.2.run == r)).foldl (fun s p => killRunVCmd s p.1) s
      checkDone s r
  | none => s

/-- The coordinate of a kill word (R370). -/
def killCoord (w : Word) : Coord := ⟨bits w 29 18, bits w 17 12, bits w 11 9, bits w 8 6⟩

def setSvstat (s : State) (k : Nat) : State := s.modSvc s.curSvc (fun x => { x with svstat := k })

/-- R380: frep, tlbinv and kill wait for a CR.RUNCTL write or a tlbinv of the same core. -/
def needIdle (s : State) : M Unit :=
  if (s.svc s.curSvc).inCtl || (s.svc s.curSvc).busy then .error (.wait .slot) else .ok ()

/-- R370. -/
def killBody (u : State) (a : Word) : State :=
  let run := bits a 63 32
  if bitAt a 31 || bits a 5 0 != 0 || (!bitAt a 30 && bits a 29 6 != 0) then setSvstat u 2
  else match (u.runs.get run).filter (fun r => r.part == (u.svc u.curSvc).part) with
    | none => setSvstat u 3
    | some _ =>
      if bitAt a 30 then
        if (u.groups.getD (gkey run (killCoord a)) ⟨0, false⟩).alive then setSvstat (killGroup u run (killCoord a)) 0
        else setSvstat u 3
      else setSvstat (killRun u run) 0

def execKill (ra : Src) (s : State) : Out :=
  complete s (do
    needSvc s (.kill ra)
    needIdle s
    let (u, a) ← op1 s ra
    .ok (killBody u a).advance)

/-! ### Replies (R43 to R45, R362, R363) -/

/-- A reply reaches a parked thread: what it does to its registers. -/
def resumeThread (s : State) (t : Nat) (m : FaultMsg) (goal : Option (BitVec 52)) : State :=
  match s.threads.get t with
  | some x =>
    let h := match goal with
      | some pc => { x.hart with pc := pc }
      | none =>
        let h := if m.kind = 10 then (x.hart.setReg 1 m.res1).setReg 2 m.res2 else x.hart
        if m.kind = 10 || m.kind = 11 then { h with pc := h.pc + 4 } else h
    let s := s.setThread t { x with hart := h, park := .none, urgent := true }
    acquireT s t (if svcDev m.svc = shedDev (coreShed x.core) then .dev else .sys)
  | none => s

/-- The effect of a reply on a thread. -/
def replyThread (s : State) (t : Nat) (m : FaultMsg) (a : Reply) : State :=
  match s.threads.get t with
  | some x =>
    match a with
    | .resume => resumeThread s t m none
    | .resumeAt pc => resumeThread s t m (some pc)
    | .killThread => endThread s t true
    | .killGroup => killGroup s x.run x.coord
    | .killRun => killRun s x.run
  | none => s

/-- A reply that goes on. -/
def goesOn (a : Reply) : Bool := match a with | .resume | .resumeAt _ => true | _ => false

/-- FAULT_REPLY (R43): a reply reaches the party that waits; one for a descheduled thread takes effect on restore (R44),
and one on which a thread goes on waits while the thread's device has stopped (R395). -/
def execFaultReply (f : Nat) (a : Reply) (s : State) : Out :=
  match s.faults.get f with
  | some m =>
    if !faultWaits s f m then .next { s with faults := s.faults.erase f }
    else
      let gone : State := { s with faults := s.faults.erase f }
      match m.who with
      | .thread t =>
        match s.threads.get t with
        | some x =>
          if isResident s x.lkey && (coreWorks s x.core || !goesOn a) then .next (replyThread gone t m a) else .next (s.post (.faultReply f a))
        | none => .next gone
      | .job j =>
        let u := gone.modJob j (fun x => { x with fault := none })
        let ended := (s.jobs.get j).any (fun x => x.ended)
        .next (if ended then (if goesOn a then u else u.modJob j (fun x => x.unrecorded m)).post (.jobDone j)
          else if goesOn a then u.post (.job j) else finishJob u j 3 (faultDetail m.kind m.cause) m.addr.toNat)
      | .vcmd v =>
        let u := gone.modVCmd v (fun x => { x with fault := none })
        .next (if goesOn a then u.post (.vcmd v)
          else finishVCmd u v 3 ((s.vcmds.get v).elim 0 VCmd.found))
      | .run r =>
        if goesOn a then
          let beat := (s.runs.get r).elim 0 (fun x => x.beat)
          .next { gone.modRun r (fun x => { x with frozen := false }) with
            lsheds := s.lsheds.mapVals (fun _ x => if x.run == r then { x with dog := beat } else x) }
        else .next (killRun gone r)
      | _ => .next gone
  | none => .next s

/-- R362: the action of a reply word; none for BADREPLY. -/
def replyAction (w : Word) : Option Reply :=
  let dest := bits w 51 0
  if bitAt w 60 || dest % 4 != 0 then none
  else match bits w 63 61 with
    | 1 => some (.resumeAt (BitVec.ofNat 52 dest))
    | 0 => if dest = 0 then some .resume else none
    | 2 => if dest = 0 then some .killThread else none
    | 3 => if dest = 0 then some .killGroup else none
    | 4 => if dest = 0 then some .killRun else none
    | _ => none

/-- R362: the message that an entry's dwords name and that someone waits on; outside the fault buffer only an exact copy of a live
entry names it (R380). -/
def findFault (s : State) (e : List Word) (tag : Nat) (outside : Bool) : Option Nat :=
  (s.faults.find? (fun p =>
    let w := p.2.words
    p.2.st != 4 && (!outside || (p.2.st == 3 && w == e.map (fun x => x.toNat))) && faultWaits s p.1 p.2 && p.2.tag == tag && bits (e.getD 1 0) 55 48 == tag &&
      w.getD 0 0 == (e.getD 0 0).toNat && bits (e.getD 1 0) 7 0 == p.2.kind &&
      (!p.2.eng || bits (e.getD 4 0) 15 0 == p.2.value.toNat % 2 ^ 16))).map (fun p => p.1)

/-- R362. -/
def frepBody (u : State) (e : List Word) (b : Word) (outside : Bool) : State :=
  match replyAction b with
  | none => setSvstat u 2
  | some a =>
    match findFault u e (bits b 59 52) outside with
    | none => setSvstat u 1
    | some f =>
      let u := release u
      let u := { u with faults := u.faults.modify f (fun m => { m with st := 4, svc := u.curSvc, res1 := e.getD 6 0, res2 := e.getD 7 0 }) }
      setSvstat (u.post (.faultReply f a)) 0

/-- An address outside the service core's fault buffer (R359), by the places of both, whatever errors stand in their lines: in H mode the
address is physical, and the buffer's is its partition's translation (log entry 36). -/
def outsideBuffer (s : State) (ea : Nat) : Bool :=
  let x := s.svc s.curSvc
  match placeAny s s.ctx .read ea, placeAny s (.disp x.part (svcDev s.curSvc)) .read x.fbbase.toNat with
  | .ok (_, p), .ok (_, q) => decide (p.key < q.key) || decide (q.key + 32768 ≤ p.key)
  | _, _ => true

def execFrep (ra rb : Src) (s : State) : Out :=
  complete s (do
    needSvc s (.frep ra rb)
    needIdle s
    let (u, a, b) ← op2 s ra rb
    let ea ← effAddr a 0 8
    let (u, e) ← loadDwords u ea 16
    .ok (frepBody u e b (outsideBuffer u ea)).advance)

/-! ### Translations (R236, R239, R308, R369) -/

/-- The frames that the translations found since the page's last invalidation and the table's leaf name for it, as first byte and
length (R236). -/
def pageFrames (s : State) (p dev va : Nat) : List (Nat × Nat) :=
  let of (e : Word) (l : Nat) : Nat × Nat := (leafAddr e l 0, 2 ^ levelShift l)
  let held := (s.tlbs.flatMap (fun b => b.2.filter (·.maps p va))).map (fun e => of e.leaf e.level)
  (held ++ (match walk s p dev va with
    | .leaf e l => [of e l]
    | _ => [])).eraseDups

/-- R369: drop the translations of a page from every TLB, and, with an invalidation, what walks have found for it (R236). -/
def dropPage (s : State) (p va : Nat) : State :=
  { s with tlbs := s.tlbs.mapVals (fun _ b => b.filter (fun e => !e.maps p va)) }

/-- R369: drop the translations of a page from every TLB: what they named is still to be invalidated (R236). -/
def dropTlbs (s : State) (p va : Nat) : State :=
  { s with tlbs := s.tlbs.mapVals (fun k b => if k < 2 ^ 62 then b.filter (fun e => !e.maps p va) else b) }

/-- R308: the watches on the lines of a range of physical memory fire. -/
def fireRange (s : State) (lo n : Nat) : State :=
  settleInvals ((s.watches.filter (fun w => decide (lo ≤ w.1 * 64) && decide (w.1 * 64 < lo + n))).foldl
    (fun s w => fireWatches s (w.1 * 64) 64) s)

/-- The L1 copies of a frame's lines in a partition go (R236). -/
def dropFrameL1 (s : State) (p lo n : Nat) : State :=
  { s with cores := s.cores.mapVals (fun k c =>
      if shedOwned s p (coreShed k) then
        { c with l1 := c.l1.filter (fun l => !(decide (lo ≤ l.1 * 64) && decide (l.1 * 64 < lo + n))) }
      else c) }

/-- The pending accesses of a partition's threads are performed. -/
def drainPart (s : State) (p : Nat) : State :=
  s.threads.foldl (fun s t => if (s.runs.get t.2.run).any (fun r => r.part == p) then drain s t.1 else s) s

/-- R369: the last steps of an invalidation: nothing of the frames is still to be performed through the old translations, and no L1 copy of
them is left (R236). -/
def endInvalidation (s : State) (p : Nat) (frames : List (Nat × Nat)) : State :=
  frames.foldl (fun s f => fireRange (dropFrameL1 s p f.1 f.2) f.1 f.2) (drainRanges s frames)

/-- R369 OP 1: every translation, every access made through one, every L1 copy, and the watches of the partition's lofts. -/
def invalidateAll (s : State) (p : Nat) : State :=
  let s := drainPart s p
  let s := { s with tlbs := s.tlbs.mapVals (fun _ b => b.filter (fun e => e.part != p)) }
  let s := { s with cores := s.cores.mapVals (fun k c => if shedOwned s p (coreShed k) then { c with l1 := [] } else c) }
  settleInvals ((s.watches.filter (fun w => w.2.any (shedOwned s p))).foldl (fun s w => fireWatches s (w.1 * 64) 64) s)

/-- R369: the word is valid. -/
def tlbWordOk (w : Word) : Bool :=
  bits w 63 62 != 3 && bits w 61 49 == 0 && bits w 15 0 == 0 && (bits w 63 62 == 2 || bits w 48 16 == 0)

/-- R239, R240: an access of the page that has been made through the new leaf and is still to be performed at M0 is performed at the old home
before it, as one through the old leaf (R236, log entry 59): none is performed at the new home before M1. -/
def recallFrame (s : State) (old new : Nat) : State :=
  let home (k : Nat) : Nat := if k / 2 ^ 16 = new then old * 2 ^ 16 + k % 2 ^ 16 else k
  { s with threads := s.threads.mapVals (fun _ t => { t with
      pending := t.pending.map (fun p => { p with key := home p.key })
      loads := t.loads.map (fun l => { l with key := home l.key }) }) }

/-- R369 OP 2: the migration is refused, with SVSTAT 4, or starts (R239, M0): from here on accesses to the old frame wait, and those performed before stand;
tlbinv completes with PAGE_MIGRATION. -/
def startMigration (s : State) (n p va old : Nat) : M State :=
  let dev := svcDev n
  let refuse : M State := .ok (s.modSvc n (fun x => { x with svstat := 4 }))
  if s.feat dev / 4 % 2 = 0 then refuse
  else match walk s p dev va with
    | .leaf e 0 =>
      let m := s.pageMigs.fresh
      let g : PageMig := ⟨p, va, old / 2 ^ 16, leafAddr e 0 0 / 2 ^ 16, n, false, []⟩
      let s := drainRanges (recallFrame s g.old g.new) [(old, 2 ^ 16)]
      .ok (({ s with pageMigs := s.pageMigs.set m g }.modSvc n (fun x => { x with busy := true })).post (.pageMigration m))
    | .error k => .error (machineCheck k)
    | _ => refuse

/-- A tlbinv on the page of a migration that is in progress waits for it (R369). -/
def pageMoving (s : State) (p va : Nat) : Bool := s.pageMigs.any (fun g => g.2.part == p && g.2.va / 2 ^ 16 == va / 2 ^ 16)

def tlbinvBody (u : State) (n : Nat) (a b : Word) : M State :=
  let p := (u.svc n).part
  let va := bits a 51 0
  if !tlbWordOk b then .ok (setSvstat u 2)
  else if bits b 63 62 ≠ 1 ∧ pageMoving u p va = true then .error (.wait .slot)
  else
    let u := release u
    match bits b 63 62 with
    | 1 => .ok (acquire (setSvstat (invalidateAll u p) 0) .sys)
    | 2 => startMigration (dropTlbs u p va) n p va (bits b 48 16 * 2 ^ 16)
    | _ =>
      let fs := pageFrames u p (svcDev n) va
      .ok (acquire (setSvstat (endInvalidation (dropPage u p va) p fs) 0) .sys)

def execTlbinv (ra rb : Src) (s : State) : Out :=
  complete s (do
    needSvc s (.tlbinv ra rb)
    needIdle s
    let (u, a, b) ← op2 s ra rb
    let u ← tlbinvBody u s.curSvc a b
    .ok u.advance)

/-! ### The maintenance form (R396) -/

/-- The form is legal: a service core in H mode of a device in the maintenance state; that of one shed alone does not make it so (log entry
117). -/
def needMaint (s : State) (i : Instr) : M Unit :=
  match s.cur with
  | .svc n => if (s.svc n).hmode && (s.device (svcDev n)).maint then .ok () else .error (illegalWord i.word)
  | .thread _ => .error (illegalWord i.word)

/-- The size of an access in bytes. -/
def msizeBytes (sz : MSize) : Nat := match sz with | .b => 1 | .h => 2 | .w => 4 | .d => 8

/-- The physical address of the form, and its checks. -/
def maintAddr (sz : MSize) (a b : Word) (off : BitVec 8) : M Nat :=
  let n := msizeBytes sz
  let pa := a + BitVec.ofNat 64 (bits b 31 0 * n) + BitVec.ofInt 64 (off.toInt * n)
  if bits pa 63 49 ≠ 0 then .error (.fault 2 7 pa)
  else if pa.toNat % n ≠ 0 then .error (.trap 5 (Nat.log2 n) pa)
  else .ok pa.toNat

def execMld (sz : MSize) (rd : Reg) (ra rb : Src) (off : BitVec 8) (s : State) : Out :=
  complete s (do
    needMaint s (.mld sz rd ra rb off)
    let (u, a, b) ← op2 s ra rb
    let pa ← maintAddr sz a b off
    let (u, p) ← place u u.ctx .read pa
    openFrame u p.key
    let (u, v) := loadBytes u p false (msizeBytes sz)
    .ok (writeNext u rd (BitVec.ofNat 64 (leVal v))))

def execMst (sz : MSize) (rd : Reg) (ra rb : Src) (off : BitVec 8) (s : State) : Out :=
  complete s (do
    needMaint s (.mst sz rd ra rb off)
    let (u, d, a, b) ← op2d s rd ra rb
    let pa ← maintAddr sz a b off
    let (u, p) ← place u u.ctx .write pa
    openFrame u p.key
    .ok (storeNow u p (leBytes (msizeBytes sz) d.toNat)).advance)

end Sys2Proof.Machine
end

