-- ==== Sys2Proof/Machine/Devices.lean ====
section
/-! DEFINITION. What happens around the cores: page migration (R239, R240, R308), the host (R384), features (R388), links (R385, R386), resets and the maintenance state (R33, R396), limits (R395), and mirrors, the safe tier, rewind and recovery (R391 to R394). -/

namespace Sys2Proof.Machine

/-! ### Page migration (R239, R240) -/

/-- A byte key of a moved frame at its new home. -/
def movedKey (g : PageMig) (k : Nat) : Nat := g.new * 2 ^ 16 + k % 2 ^ 16

/-- R244: a wait-table entry goes with its frame, and keeps its age (log entry 118); where the new home has no room its waiter returns
RETRY. -/
def moveWait (g : PageMig) (s : State) (p : Nat × Wait) : State :=
  let e := { p.2 with key := movedKey g p.2.key }
  let s := { s with waits := s.waits.erase p.1 }
  if waitFull s ⟨e.key, false, e.ms, false, 0⟩ then wakeWaiter s e 3 else { s with waits := s.waits.set p.1 e }

/-- R308: a watch goes with its frame, and the entries built from its line with it; where the new home has no room it fires. -/
def moveWatch (g : PageMig) (s : State) (w : Nat × List Nat) : State :=
  let line := movedKey g (w.1 * 64) / 64
  if watchFull s line then fireWatches s (w.1 * 64) 64
  else
    let name (e : LoftEntry) : LoftEntry := { e with lines := e.lines.map (fun l => if l = w.1 then line else l) }
    { s with
      watches := (s.watches.erase w.1).set line w.2
      sheds := s.sheds.mapVals (fun h x =>
        if w.2.contains h then { x with loft := x.loft.map name, compiles := x.compiles.map name } else x) }

/-- R240: what a region keeps by the place of a line (R326, R343) goes with the line. -/
def moveRegion (g : PageMig) (r : Region) : Region :=
  let key (k : Nat) : Nat := if k / 2 ^ 16 = g.old then movedKey g k else k
  let mark (m : Mark) : Mark := { m with lines := m.lines.map (fun l => (l.1, l.2.map key)) }
  let undo (u : Undo) : Undo := match u with
    | .line e va ks bs => .line e va (ks.map key) bs
    | .mark e m d => .mark e (mark m) d
    | .unmark e m d hs => .unmark e (mark m) d hs
    | .leaf .. => u
  { r with marks := r.marks.map mark, undo := r.undo.map undo }

/-- The regions' marks and undo logs, the completion records (R199), and what the instruction caches hold of code that has been stored to
(R96), go with a frame. -/
def moveKept (g : PageMig) (s : State) : State :=
  { s with
    lsheds := s.lsheds.mapVals (fun _ x => { x with regions := x.regions.mapVals (fun _ r => moveRegion g r) })
    logAreas := s.logAreas.mapVals (fun _ r => moveRegion g r)
    records := moveKeys (g.old * 2 ^ 16) (g.new * 2 ^ 16) (2 ^ 16) s.records
    icaches := s.icaches.mapVals (fun _ c => moveKeys (g.old * 2 ^ 16) (g.new * 2 ^ 16) (2 ^ 16) c) }

/-- The parties that wait for a frame execute their instructions again. -/
def wakeFrame (s : State) (f : Nat) : State := wakeRetry s (fun t => t.slot != 64) (.frame f)

/-- The physical shed in which a queued requester stands; the host has no translations. -/
def requesterShed (s : State) : Waiter → Option Nat
  | .thread t => (s.threads.get t).map (fun x => coreShed x.core)
  | .job j => (s.jobs.get j).map (fun x => coreShed x.core)
  | .vcmd v => (s.vcmds.get v).map (fun x => coreShed x.core)
  | .svc n => some (svcDev n * 256)
  | _ => none

/-- No L1 and no slice holds a copy of a frame that it has kept from what the frame was before (R195). -/
def dropFrameCopies (s : State) (lo n : Nat) : State :=
  let inside (line : Nat) : Bool := decide (lo ≤ line * 64) && decide (line * 64 < lo + n)
  { s with
    slices := s.slices.filterKV (fun k _ => !inside (k % 2 ^ 43))
    cores := s.cores.mapVals (fun _ c => { c with l1 := c.l1.filter (fun l => !inside l.1) }) }

/-- M1: the new home holds every line, no copy of it is older, and the frame's wait-table entries and watches go with it; the queued requests go on in
their order, and every requester that was queued or refused gets a redirect notice. -/
def moveFrame (s : State) (m : Nat) (g : PageMig) : State :=
  let cells := s.mem.filter (fun c => c.1 / 2 ^ 16 == g.old)
  let s := fireRange s (g.new * 2 ^ 16) (2 ^ 16)
  let mem := cells.foldl (fun mem c => Memory.put mem (movedKey g c.1) c.2) (zeroRange s (g.new * 2 ^ 16) (2 ^ 16)).mem
  let s := { s with
    mem := mem
    badLines := (s.badLines.filter (fun l => l / 1024 != g.new)) ++
      ((s.badLines.filter (fun l => l / 1024 == g.old)).map (fun l => g.new * 1024 + l % 1024)) }
  let s := (s.waits.filter (fun p => p.2.key / 2 ^ 16 == g.old)).foldl (moveWait g) s
  let s := settleInvals ((s.watches.filter (fun w => w.1 / 1024 == g.old)).foldl (moveWatch g) s)
  let asked := ((s.threads.filter (fun p => p.2.park == .retry (.frame g.old))).map (fun p => coreShed p.2.core)) ++
    g.queue.filterMap (requesterShed s)
  let s := dropFrameCopies { moveKept g s with pageMigs := s.pageMigs.set m { g with moved := true } } (g.new * 2 ^ 16) (2 ^ 16)
  let s := wakeFrame s g.old
  let s := if g.queue.isEmpty then wakeFrame s g.new else s
  (asked.eraseDups.foldl (fun s h => s.post (.redirectNotice h m)) s).post (.pageMigration m)

/-- A queued requester can make its request now: it may issue or make a step, and waits for no reply. -/
def canAsk (s : State) : Waiter → Bool
  | .thread t => (s.threads.get t).any (fun x => isResident s x.lkey && coreWorks s x.core && !(s.shed (coreShed x.core)).held &&
      (s.runs.get x.run).any (fun r => !r.frozen))
  | .job j => (s.jobs.get j).any (fun x => x.fault.isNone && unitRuns s x.run x.lkey x.core)
  | .vcmd v => (s.vcmds.get v).any (fun x => x.fault.isNone && unitRuns s x.run x.lkey x.core)
  | .svc n => !(s.svc n).stopped && deviceIssues s (svcDev n)
  | .host _ => true
  | _ => false

/-- PAGE_MIGRATION (R239, R369): at M1 the old home forwards its queue; once the queued requests have been performed and the
invalidation of R236 is complete, it reports the migration done. A requester that can make no request by then has none in the queue (log
entry 59). -/
def execPageMigration (m : Nat) (s : State) : Out :=
  match s.pageMigs.get m with
  | some g =>
    if !g.moved then .next (moveFrame s m g)
    else if !g.queue.isEmpty then .next ((g.queue.filter (fun w => !canAsk s w)).foldl leaveQueue s |>.post (.pageMigration m))
    else
      let fs := pageFrames s g.part (svcDev g.svc) g.va ++ [(g.old * 2 ^ 16, 2 ^ 16), (g.new * 2 ^ 16, 2 ^ 16)]
      let s := endInvalidation (dropPage s g.part g.va) g.part fs
      let s := wakeFrame (wakeFrame { s with pageMigs := s.pageMigs.erase m } g.old) g.new
      .next (dropSlices (s.modSvc g.svc (fun x => { x with busy := false, svstat := 0 })) (svcDev g.svc))
  | none => .next s

/-- REDIRECT_NOTICE (R239): the requesters of a shed drop the page's translations, and their next request walks to the new home. -/
def execRedirectNotice (h m : Nat) (s : State) : Out :=
  match s.pageMigs.get m with
  | some g => .next (wakeRetry (dropPageAt s g.part g.va h) (fun t => t.slot != 64 && coreShed t.core == h) (.frame g.old))
  | none => .next s

/-! ### The host (R384, R388) -/

/-- R379: whether an access to bytes of physical memory meets an uncorrectable error; a write that replaces a whole line
does not meet its error. -/
def meetsBad (s : State) (k n : Nat) (write : Bool) : Bool :=
  s.badLines.any (fun l => decide (l * 64 < k + n) && decide (k < l * 64 + 64) &&
    !(write && decide (k ≤ l * 64) && decide (l * 64 + 64 ≤ k + n)))

/-- A request is discarded, and the management log records it (R387). -/
def discardRequest (s : State) : State := { s with mgmtLog := s.mgmtLog + 1 }

/-- R384: the 2 MiB granules that n bytes of a device's memory touch are exposed to the host. -/
def hostSees (s : State) (dev a n : Nat) : Bool :=
  s.feat dev % 2 == 1 && decide (dev < 1024) && decide (a + n ≤ 2 ^ 39) &&
    (range (a / 2 ^ 21) (cdiv (a % 2 ^ 21 + n) (2 ^ 21))).all (fun g => (s.device dev).exposed.contains g)

/-- The frames that n bytes at a key touch. -/
def framesOf (k n : Nat) : List Nat := range (k / 2 ^ 16) (cdiv (k % 2 ^ 16 + n) (2 ^ 16))

/-- R387: function 0 is the management driver's; function p + 1 reaches the frames of partition p. -/
def hostOwns (s : State) (fn dev k n : Nat) : Bool :=
  match fn with
  | 0 => true
  | p + 1 => (s.parts.get p).isSome && (framesOf k n).all (fun f => granted s p dev (f * 2 ^ 16))

/-- R379: a request of the host meets an uncorrectable error: it is discarded and posted. -/
def hostCheck (s : State) (fn dev k : Nat) : State :=
  discardRequest (match fn with
    | 0 => s
    | p + 1 => unitCheck s p dev 0 (machineCheck k))

/-- The pieces of a request for n bytes at a key, as keys and lengths: one for each frame where a frame of them has been moved, which the
old home forwards (R239), and else one. -/
def hostPieces (s : State) (k n : Nat) : List (Nat × Nat) :=
  if (framesOf k n).any (fun f => movedTo s (f * 2 ^ 16) != f * 2 ^ 16) then
    (framesOf k n).map (fun f => (movedTo s (max k (f * 2 ^ 16)), min (k + n) (f * 2 ^ 16 + 2 ^ 16) - max k (f * 2 ^ 16)))
  else [(k, n)]

/-- A write of the host is performed; the lines that it replaces whole have no error any longer (R379). -/
def hostWrite (s : State) (bs : List Byte) : List (Nat × Nat) → State
  | [] => s
  | (k, n) :: r =>
    hostWrite (writeHome { s with badLines := s.badLines.filter (fun l => !(decide (k ≤ l * 64) && decide (l * 64 + 64 ≤ k + n))) } k
      (bs.take n)) (bs.drop n) r

/-- A request of the host for n bytes of a device's memory: performed or discarded; while a frame of them is being moved it waits in the
old home's queue like any other, and is performed in its turn at the new home (R239, R240). -/
def hostRequest (op : HostOp) (fn dev a n : Nat) (write : Bool) (go : State → List (Nat × Nat) → State) (s : State) : Out :=
  let k := dev * 2 ^ 39 + a
  let u := leaveQueue s (.host op)
  if !hostSees s dev a n || !hostOwns s fn dev k n then .next (discardRequest u)
  else
    let at_ := hostPieces s k n
    let asked := at_.flatMap (fun p => framesOf p.1 p.2)
    if asked.any (fun f => frameBusy s (.host op) (f * 2 ^ 16)) then
      .next ((asked.foldl (fun s f => joinQueue s (.host op) f) s).post (.hostAccess op))
    else if at_.any (fun p => meetsBad s p.1 p.2 write) then .next (hostCheck u fn dev k)
    else .next (go u at_)

/-- HOST_ACCESS (R384): a request is performed at the home of its bytes, at one instant; without CXLMEM the host sees no
device memory (R388). The management driver names the granules that the host sees. -/
def execHostAccess (op : HostOp) (s : State) : Out :=
  match op with
  | .write fn dev a bs => hostRequest op fn dev a bs.length true (fun s at_ => hostWrite s bs at_) s
  | .read fn dev a n => hostRequest op fn dev a n false (fun s at_ =>
      { s with hostOut := s.hostOut ++ [at_.flatMap (fun p => s.bytes p.1 p.2)] }) s
  | .expose fn dev g on =>
    if fn ≠ 0 then .next (discardRequest s)
    else .next (s.modDevice dev (fun d => { d with
      exposed := if on then (if d.exposed.contains g then d.exposed else d.exposed ++ [g]) else d.exposed.filter (· != g) }))

/-- FEATURE_ACCEPT (R388): the driver accepts a subset of the offered word, once per device reset. -/
def execFeatureAccept (dev : Nat) (w : BitVec 128) (s : State) : Out :=
  let d := s.device dev
  .next (if d.accepted then s else s.setDevice dev { d with feat := d.offered &&& w, accepted := true })

/-! ### Machine checks that no thread meets, and links (R364, R379, R385, R386, R395) -/

/-- An MCHECK of a device goes to the service core of every partition that owns one there; no party waits for the reply. -/
def postMcheck (s : State) (dev cause : Nat) : State :=
  s.parts.foldl (fun s p =>
    if p.2.svcs.any (fun n => svcDev n == dev) then
      postFault s
        { who := .nobody, svc := designated s p.1 dev, run := 0, core := dev * 2048, slot := 0, eng := false, tag := 0, kind := 8,
          cause := cause, coord := ⟨0, 0, 0, 0⟩, addr := 0, pcs := 0, value := 0, args := [], st := 0, res1 := 0, res2 := 0 }
    else s) s

/-- FLIT_RETRY (R385): a flit of a port fails its CRC; whether it is the flit that failed last, and whether it carries an access or a
message, is not known to the model, and free (log entry 6). After eight retries the transfer has an error: the device's next access over
its links meets and posts it (R379), or else the reroute posts it, or, where no access is in the flit, it is posted at once; the port
goes down, and its traffic is rerouted. Each port's error is one of its own. -/
def execFlitRetry (dev port : Nat) (s : State) : Out :=
  let d := s.device dev
  let n := d.ports.getD port 0
  if 16 ≤ port || n = 9 then .next s
  else
    let f := takeFree s
    let n' := if bitAt f.2 0 then 1 else n + 1
    let access := bitAt f.2 1
    let s := f.1.setDevice dev { d with
      ports := d.ports.set port n', linkErrors := if n' = 9 ∧ access = true then d.linkErrors ++ [port] else d.linkErrors }
    .next (if n' = 9 then (if access then s else postMcheck s dev 2).post (.reroute dev port) else s)

/-- REROUTE (R386): the old routes have drained, and new routing tables are loaded. An error of the port that no access has met is
posted then (R385), and no access over the new route meets it. -/
def execReroute (dev port : Nat) (s : State) : Out :=
  let d := s.device dev
  let u := s.setDevice dev { d with routes := d.routes + 1, linkErrors := d.linkErrors.filter (· != port) }
  .next (if d.linkErrors.contains port then postMcheck u dev 2 else u)

/-- THERMAL_LIMIT (R395): the controller withholds a shed's issue slots, or gives them back. -/
def execThermalLimit (h : Nat) (withhold : Bool) (s : State) : Out := .next (s.modShed h (fun x => { x with held := withhold }))

/-- CRITICAL_LIMIT (R395): MCHECK of cause 3, and the device stops. -/
def execCriticalLimit (dev : Nat) (s : State) : Out :=
  .next (postMcheck (s.modDevice dev (fun d => { d with stopped := true })) dev 3)

/-! ### Resets and the maintenance state (R33, R396) -/

/-- The runs with a logical shed on a device, or whose dispatcher stands there. -/
def deviceRuns (s : State) (dev : Nat) : List Nat :=
  (s.runs.filter (fun r => partDev s r.2.part == dev || s.lsheds.any (fun l => l.2.run == r.1 && shedDev l.2.shed == dev))).map
    (fun r => r.1)

/-- Whatever belongs to a run is gone, with no word written. -/
def loseRun (s : State) (r : Nat) : State :=
  let s := dropMessages s (fun m => m.run == r)
  eraseRun { s with
    threads := s.threads.filter (fun t => t.2.run != r)
    waits := s.waits.filter (fun w => match w.2.who with
      | .thread t => match s.threads.get t with
        | some x => x.run != r
        | none => false
      | _ => true)
    lsheds := s.lsheds.filter (fun l => l.2.run != r)
    groups := s.groups.filter (fun g => g.1 / 2 ^ 24 != r)
    jobs := s.jobs.filter (fun j => j.2.run != r)
    vcmds := s.vcmds.filter (fun v => v.2.run != r)
    icaches := s.icaches.filterKV (fun k _ => k / 2 ^ 18 != r)
    pageMigs := s.pageMigs.mapVals (fun _ g => { g with queue := g.queue.filter (fun w => match w with
      | .thread t => (s.threads.get t).any (fun x => x.run != r)
      | .job j => (s.jobs.get j).any (fun x => x.run != r)
      | .vcmd v => (s.vcmds.get v).any (fun x => x.run != r)
      | _ => true) })
    bmsgs := s.bmsgs.filter (fun m => m.2.run != r) } r

/-- The device of a TLB's key (R235). -/
def tlbDev (k : Nat) : Nat :=
  if k < 2 ^ 40 then shedDev (coreShed (k / 2)) else if k < 2 ^ 50 then shedDev (k - 2 ^ 40) else (k - 2 ^ 50) / 128

/-- DEVICE_RESET (R33, R366, R388, R396): every shed of the device is reset, and its service cores are as at reset; the
device enters the maintenance state. -/
def execDeviceReset (dev : Nat) (s : State) : Out :=
  let s := (deviceRuns s dev).foldl loseRun s
  let cores := (range (dev * 2048) 2048)
  let d := s.device dev
  .next { s with
    cores := s.cores.filter (fun c => !cores.contains c.1)
    sheds := (range (dev * 256) 256).foldl (fun m h => m.set h { Shed.blank with since := s.clock }) s.sheds
    svcs := s.svcs.filterKV (fun n _ => svcDev n != dev)
    parts := s.parts.mapVals (fun _ p =>
      if p.svcs.any (fun n => svcDev n == dev) then { p with ptroot := 0, grant := 0 } else p)
    tlbs := s.tlbs.filterKV (fun k _ => tlbDev k != dev)
    faults := s.faults.filter (fun f => svcDev f.2.svc != dev)
    pageMigs := s.pageMigs.filter (fun g => svcDev g.2.svc != dev)
    waits := s.waits.filter (fun w => match w.2.who with
      | .svc n => svcDev n != dev
      | _ => true)
    watches := s.watches.filter (fun w => keyDev (w.1 * 64) != dev)
    slices := s.slices.filterKV (fun k _ => k / 2 ^ 43 != dev)
    devices := s.devices.set dev { d with
      feat := 0, accepted := false, maint := true, stopped := false, failed := false, linkErrors := [], ports := [],
      incoming := [], mirrors := [], exposed := [], since := s.clock } }

/-- SHED_RESET (R33): a shed in the maintenance state is reset. -/
def execShedReset (h : Nat) (s : State) : Out :=
  if ((s.shed h).maint || (s.device (shedDev h)).maint) && (hostsOf s h).isEmpty then
    let s := dropLoft s h (fun _ => true)
    let s := s.modShed h (fun x => { x with tables := [], since := s.clock })
    let s := { s with tlbs := s.tlbs.filterKV (fun k _ => !(decide (k < 2 ^ 40) && k / 16 == h) && k != 2 ^ 40 + h) }
    .next ((range (h * 8) 8).foldl (fun s c => s.setCore c { Core.blank with outbox := (s.core c).outbox }) s)
  else .next s

/-- MAINTENANCE_STATE (R396): a device or a shed with no run placed enters the maintenance state, or leaves it. -/
def execMaintenanceState (shed : Bool) (n : Nat) (enter : Bool) (s : State) : Out :=
  let busy := s.lsheds.any (fun l => (if shed then l.2.shed == n else shedDev l.2.shed == n) && l.2.placed s)
  if enter && busy then .next (s.post (.maintenanceState shed n enter))
  else
    let s := if shed then s.modShed n (fun x => { x with maint := enter }) else s.modDevice n (fun x => { x with maint := enter })
    .next (if enter then s else s.parts.foldl (fun s p => s.post (.dispatch p.1)) s)

/-! ### Mirrors, the safe tier, rewind and recovery (R391 to R394) -/

/-- The dwords of the marked ranges of the logical sheds that a device hosts, as the keys of their first bytes. -/
def markedDwords (s : State) (dev : Nat) : List Nat :=
  (s.lsheds.filter (fun l => shedDev l.2.shed == dev)).flatMap (fun l =>
    l.2.regions.flatMap (fun g => g.2.marks.flatMap (fun m => m.lines.flatMap (fun ln => ln.2.map l.2.phys))))

/-- The save areas of a logical shed that a device hosts, as first key and length (R374). -/
def saveAreas (s : State) (dev l : Nat) : List (Nat × Nat) :=
  match s.lsheds.get l with
  | some x => match s.runs.get x.run with
    | some r => if shedDev x.shed = dev then (List.range (r.nlc + 1)).map (fun lc => (x.window lc, r.spad * 4096)) else []
    | none => []
  | none => []

/-- R391: the mirrored bytes of a device's memory: the marked lines. -/
def mirroredCells (s : State) (dev : Nat) : List Host.Cell :=
  let keys := (markedDwords s dev).filter (fun k => decide (k < 2 ^ 49))
  s.mem.filter (fun c => keys.any (fun k => decide (k ≤ c.1) && decide (c.1 < k + 8)))

/-- The logical shed of a party that waits for a reply. -/
def waiterShed (s : State) : Waiter → Option Nat
  | .thread t => (s.threads.get t).map (fun x => x.lkey)
  | .job j => (s.jobs.get j).map (fun x => x.lkey)
  | .vcmd v => (s.vcmds.get v).map (fun x => x.lkey)
  | _ => none

/-- The reports to which a party of a logical shed awaits a reply. -/
def shedFaults (s : State) (l : Nat) : Map FaultMsg := s.faults.filter (fun f => faultWaits s f.1 f.2 && waiterShed s f.2.who == some l)

/-- R391: what R374 would save of a logical shed, with its regions and their logs (log entry 60). -/
def mirrorShed (s : State) (l : Nat) (x : LShed) : MirrorShed :=
  let u := match s.runs.get x.run with
    | some r => if x.resident then descheduleShed s l x r else s
    | none => s
  let y := (u.lsheds.get l).getD x
  let areas := saveAreas u (shedDev x.shed) l
  { shed := y, threads := u.threads.filter (fun t => t.2.lkey == l),
    groups := u.groups.filter (fun g => g.1 / 2 ^ 24 == x.run && g.1 / 2 ^ 12 % 2 ^ 12 == x.ly && g.1 / 64 % 64 == x.ls),
    phasers := Map.mapVals ((u.runs.get x.run).elim [] (fun r => r.phasers)) (fun _ p => { p with
      members := p.members.filter (fun m => m.2.lk == l), counters := p.counters.filter (fun c => c.1 == l) }),
    jobs := u.jobs.filter (fun j => j.2.lkey == l),
    vcmds := u.vcmds.filter (fun v => v.2.lkey == l),
    outbox := u.cores.flatMap (fun c => (c.2.outbox.filter (fun m => m.2.home == l)).map (fun m => (c.1, m.1, m.2))),
    faults := shedFaults u l,
    cells := u.mem.filter (fun c => areas.any (fun a => decide (a.1 ≤ c.1) && decide (c.1 < a.1 + a.2))) }

/-- A saved region's log area stands in a device's memory (R346). -/
def areaOn (s : State) (dev k : Nat) : Bool :=
  match walk s (k / 2 ^ 52) (partDev s (k / 2 ^ 52)) (k % 2 ^ 52) with
  | .leaf e l => keyDev (leafAddr e l (k % 2 ^ 52)) == dev
  | _ => false

def mirrorOf (s : State) (dev g : Nat) : Mirror :=
  ⟨g, mirroredCells s dev, (s.lsheds.filter (fun l => shedDev l.2.shed == dev)).map (fun l => (l.1, mirrorShed s l.1 l.2)),
    s.logAreas.filter (fun a => areaOn s dev a.1)⟩

/-- R389: a thread of a device has reported boundary g. -/
def boundaryReported (s : State) (dev g : Nat) : Bool :=
  s.faults.any (fun f => f.2.kind == 10 && f.2.addr == 0xFF00 && f.2.args.head? == some (BitVec.ofNat 64 g) && shedDev (coreShed f.2.core) == dev)

/-- MIRROR_STREAM (R391): at a reported boundary the device streams its mirrored state to its buddy; once the buddy has acknowledged it,
the boundary is recoverable. -/
def execMirrorStream (op : StreamOp) (s : State) : Out :=
  let ⟨dev, buddy, g⟩ := op
  .next (if s.feat dev / 64 % 2 = 0 || buddy = dev then s
    else match ((s.device buddy).incoming.get dev).filter (fun m => m.g == g) with
      | some m => s.modDevice buddy (fun d => { d with incoming := d.incoming.erase dev, mirrors := d.mirrors.set dev m })
      | none =>
        if boundaryReported s dev g then
          (s.modDevice buddy (fun d => { d with incoming := d.incoming.set dev (mirrorOf s dev g) })).post (.mirrorStream op)
        else s)

/-- R392: the partition's memory: its granted frames, and the save areas and log areas that stand there. -/
def safeCopy (s : State) (p dev : Nat) : SafeCopy :=
  { cells := s.mem.filter (fun c => decide (c.1 < 2 ^ 49) && granted s p dev c.1)
    sheds := (s.lsheds.filter (fun l => (s.runs.get l.2.run).any (fun r => r.part == p))).map (fun l => (l.1, mirrorShed s l.1 l.2))
    logAreas := s.logAreas.filter (fun a => a.1 / 2 ^ 52 == p) }

/-- SAFE_TIER_CHECKPOINT (R392): while its runs are descheduled, the partition's memory is copied to storage. -/
def execSafeTierCheckpoint (p : Nat) (s : State) : Out :=
  let dev := partDev s p
  if s.feat dev / 128 % 2 = 0 then .next s
  else if s.runs.any (fun r => r.2.part == p && r.2.state == 3 && !r.2.descheduled) then .next (s.post (.safeTierCheckpoint p))
  else .next (s.modPart p (fun x => { x with safe := safeCopy s p dev }))

/-- R393: the latest checkpoint of a region with a TIME below g. -/
def rewindTo (r : Region) (g : Nat) : Option Ckpt := r.ckpts.find? (fun c => c.key.start || decide (c.key.time < g))

/-- The lines that the rewind of a logical shed's regions restores stand in a frame that is being moved (R239). -/
def rewindBusy (s : State) (g : Nat) (x : LShed) : Bool :=
  x.regions.any (fun q => q.2.st == 1 && (rewindTo q.2 g).any (fun c => (undoBusy s .nobody x (q.2.undoFrom c.epoch)).isSome))

/-- R393: a region is restored to its latest checkpoint with a TIME below g; one that has none keeps its state. -/
def rewindRegion (g : Nat) (s : State) (p : Nat × Nat) : State :=
  match s.lsheds.get p.1, regionOf s p.1 p.2 with
  | some x, some r =>
    match rewindTo r g with
    | some c =>
      let u := undoAll s x r (r.undoFrom c.epoch)
      let back := r.recv.filter (fun m => c.key.lt m.key)
      setRegion u.1 p.1 p.2 (Region.noteRoom { u.2 with
        undo := r.undo.filter (fun e => decide (e.epochOf < c.epoch)), clock := c.clock, ord := c.ord, count := c.count,
        last := c.key, sat := c.sat, lost := c.lost, epoch := c.epoch,
        ckpts := r.ckpts.filter (fun y => decide (y.epoch ≤ c.epoch)), recv := r.recv.filter (fun m => !c.key.lt m.key),
        inq := r.inq ++ back.reverse, sends := r.sends.filter (fun m => !c.key.lt m.src), replay := Key.begin, curV := false,
        bnd := false, got := none })
    | none => s
  | _, _ => s

/-- R393: the event that sent a message lies above its sender's restored LAST. -/
def sentAbove (s : State) (run : Nat) (m : BMsg) : Bool :=
  match regionOf s (regionShed run m.key.id) (m.key.id % 16) with
  | some r => r.last.lt m.src
  | none => false

/-- A region's queue and receive log keep no message whose sending event is undone (R393); what goes leaves room (R324). -/
def unsend (s : State) (run : Nat) (q : Region) : Region :=
  let keep (m : BMsg) : Bool := !(m.run == run && sentAbove s run m)
  Region.noteRoom { q with inq := q.inq.filter keep, recv := q.recv.filter keep }

/-- REWIND (R393): every DEFINED region of a descheduled run, in one act; what it discards goes wherever it stands. -/
def execRewind (r g : Nat) (s : State) : Out :=
  match s.runs.get r with
  | some x =>
    let mine := s.lsheds.filter (fun l => l.2.run == r)
    if !x.descheduled then .next s
    else if mine.any (fun l => rewindBusy s g l.2) then .next (s.post (.rewind r g))
    else
      let rs := mine.flatMap (fun l => (l.2.regions.filter (fun q => q.2.st == 1)).map (fun q => (l.1, q.1)))
      let u := rs.foldl (rewindRegion g) s
      .next { u with
        bmsgs := u.bmsgs.filter (fun m => !(m.2.run == r && sentAbove u r m.2))
        logAreas := u.logAreas.mapVals (fun _ q => unsend u r q)
        lsheds := u.lsheds.mapVals (fun _ y => if y.run == r then { y with regions := y.regions.mapVals (fun _ q => unsend u r q) } else y) }
  | none => .next s

/-- R394: the buddy that holds a failed device's mirror. -/
def buddyOf (s : State) (dev : Nat) : Option Mirror :=
  (s.devices.filter (fun d => d.1 != dev && !d.2.failed)).findSome? (fun d => d.2.mirrors.get dev)

/-- A recovered thread's membership of a phaser as its mirror holds it. The phases that the phaser has completed since, and those that the
member had signalled, are past for it: it signals and observes them again, and the run waits for it in the present one (log entry 114). -/
def Phaser.recovered (p : Phaser) (tid : Nat) (m : Member) : Member :=
  { m with past := max ((p.members.get tid).elim m.past (fun x => max x.sig m.past)) ((p.phase : Int) - 1) }

/-- A run phaser with a logical shed's part of it as its mirror holds it. -/
def rejoin (l : Nat) (m : Map Phaser) (ps : Map Phaser) : Map Phaser :=
  m.foldl (fun ps e => match ps.get e.1 with
    | some p => ps.set e.1 { p with
        members := e.2.members.foldl (fun a x => a.set x.1 (p.recovered x.1 x.2)) (p.members.filter (fun x => x.2.lk != l))
        counters := e.2.counters.foldl (fun a x => a.set x.1 x.2) (p.counters.filter (fun c => c.1 != l)) }
    | none => if e.2.members.isEmpty then ps else ps.set e.1 e.2) ps

/-- A run's phasers after a recovery: a phase for which no member is left to signal completes (R211). -/
def settleRun (s : State) (run : Nat) : State :=
  (List.range 8).foldl (fun s i => match phGet s run 0 (56 + i) with
    | some p => phSettle s run 0 (56 + i) p
    | none => s) s

/-- A thread's memberships as a mirror holds them, in phasers whose other members stand as they did (log entry 114). -/
def rejoinThread (m : MirrorShed) (t : Thread) (tid : Nat) (s : State) : State :=
  (List.range 64).foldl (fun s ph =>
    let old := if isRunPhaser ph then m.phasers.get ph else m.shed.phasers.get ph
    let mine := old.bind (fun p => p.members.get tid)
    match phGet s t.run t.lkey ph, old, mine with
    | some p, _, some x => phSettle s t.run t.lkey ph { p with
        members := p.members.set tid (p.recovered tid x)
        counters := if (p.counters.get t.lkey).isSome then p.counters else p.counters.set t.lkey ⟨0, false, false⟩ }
    | some p, _, none => if (p.members.get tid).isSome then phLeave s t.run t.lkey ph tid else s
    | none, some p, some x => phSet s t.run t.lkey ph { p with members := [(tid, x)] }
    | none, _, _ => s) s

/-- A service core of a partition on a device that has not failed (R394). -/
def survivor (s : State) (p : Nat) : Nat :=
  designated s p (((partDevs s p).find? (fun d => !(s.device d).failed)).getD (partDev s p))

/-- A party's report is posted again under key g, to a service core that can reply to it (log entry 99). -/
def repost (s : State) (f g : Nat) (m : FaultMsg) (dev : Nat) : State :=
  let svc := if svcDev m.svc = dev then survivor s (s.ctxPart (.run m.run m.coord m.core)) else m.svc
  let s := match m.who with
    | .thread t => s.modThread t (fun x => if x.park == Park.mailbox f then { x with park := .mailbox g } else x)
    | .job j => s.modJob j (fun x => if x.fault == some f then { x with fault := some g } else x)
    | .vcmd v => s.modVCmd v (fun x => if x.fault == some f then { x with fault := some g } else x)
    | _ => s
  { s with faults := s.faults.set g { m with svc := svc, st := 0 } }.post (.faultBufferEntry g)

/-- A report of a recovered logical shed: where the machine still holds it the party awaits its reply, and else, having had one before the
failure, it is posted again. -/
def refile (dev : Nat) (s : State) (p : Nat × FaultMsg) : State :=
  if (s.faults.get p.1).any (fun m => m.who == p.2.who && m.tag == p.2.tag && m.kind == p.2.kind && m.args == p.2.args) then s
  else repost s p.1 s.faults.fresh p.2 dev

/-- What is to come of a thread's park, which is posted where it is not on its way. -/
def parkEvent (t : Nat) : Park → Option Event
  | .woken .. => some (.waitaWake t)
  | .result true .. => some (.realSetResult t)
  | .result false .. => some (.sfnResult t)
  | .table .. => some (.tableBuild t)
  | .pause _ => some (.pauseEnd t)
  | .migrating .. => some (.migrationArrival t)
  | .utvec v => some (.utvecWrite t v)
  | _ => none

/-- What is to come of a job, or of a vector command, that awaits no reply. -/
def jobEvent (j : Nat) (x : Job) : Option Event :=
  if x.fault.isSome then none else some (if x.ended then .jobDone j else .job j)
def vcmdEvent (v : Nat) (x : VCmd) : Option Event :=
  if x.fault.isSome then none else some (if x.ended then .vcmdDone v else .vcmd v)

/-- R394: what the threads and the commands of the machine wait for is on its way: that of a recovered one, where it has happened since the
boundary, happens again (log entry 106); a phaser wait has its answer when its thread is restored (phDeliver, log entry 114). A migrating thread that a core has refused waits in its queue (R168). -/
def resumeEvents (s : State) : State :=
  let queued (t : Nat) : Bool := s.cores.any (fun c => c.2.refused.contains (.mig t) || c.2.holds.any (fun h => h.2.1 == .mig t))
  let es := (s.threads.filter (fun t => !queued t.1)).filterMap (fun t => parkEvent t.1 t.2.park) ++ s.jobs.filterMap (fun j => jobEvent j.1 j.2) ++
    s.vcmds.filterMap (fun v => vcmdEvent v.1 v.2)
  { s with agenda := s.agenda ++ es.filter (fun e => !s.agenda.contains e) }

/-- A mirrored message stands in its core's outbox again, under a number that no other message has had, and is offered anew (R168, R169). -/
def restoreMsg (s : State) (o : Nat × Nat × OutMsg) : State :=
  let mid := (s.core o.1).outbox.fresh
  (s.modCore o.1 (fun c => { c with outbox := c.outbox.set mid { o.2.2 with queued := false } })).post (.messageRetry o.1 mid)

/-- A logical shed that is still lost with a failed device is what its mirror holds of it (R394). -/
def recoverShed (dev : Nat) (s : State) (p : Nat × MirrorShed) : State :=
  let l := p.1
  let m := p.2
  if !((s.lsheds.get l).any (fun x => shedDev x.shed == dev && !x.resident)) then s
  else
    let lost (c : Host.Cell) : Bool := (saveAreas s dev l).any (fun a => decide (a.1 ≤ c.1) && decide (c.1 < a.1 + a.2))
    let s := { s with
      lsheds := s.lsheds.set l m.shed
      threads := m.threads.foldl (fun t x => t.set x.1 x.2) (s.threads.filter (fun t => t.2.lkey != l))
      groups := m.groups.foldl (fun t x => t.set x.1 x.2) s.groups
      runs := s.runs.modify m.shed.run (fun r => { r with phasers := rejoin l m.phasers r.phasers })
      jobs := m.jobs.foldl (fun t x => t.set x.1 x.2) (s.jobs.filter (fun j => j.2.lkey != l))
      vcmds := m.vcmds.foldl (fun t x => t.set x.1 x.2) (s.vcmds.filter (fun v => v.2.lkey != l))
      mem := m.cells.foldl (fun a c => Memory.put a c.1 c.2) (s.mem.filter (fun c => !lost c)) }
    let s := dropRefused (m.faults.foldl (refile dev) s) (fun e => match e with
      | .mig t => (s.threads.get t).any (fun x => x.lkey == l)
      | .msg .. => false)
    m.outbox.foldl restoreMsg (dropMessages s (fun o => o.home == l))

/-- The mirrored state of a failed device, streamed by its buddy (R394). -/
def recoverDevice (s : State) (dev : Nat) : State :=
  match buddyOf s dev with
  | some m =>
    let keys := (markedDwords s dev).filter (fun k => decide (k < 2 ^ 49))
    let lost (c : Host.Cell) : Bool := keys.any (fun k => decide (k ≤ c.1) && decide (c.1 < k + 8))
    let s := { s with
      mem := m.cells.foldl (fun a c => Memory.put a c.1 c.2) (s.mem.filter (fun c => !lost c))
      logAreas := m.logAreas.foldl (fun a x => a.set x.1 x.2) (s.logAreas.filter (fun a => !areaOn s dev a.1)) }
    m.sheds.foldl (fun s p => settleRun s p.2.shed.run) (m.sheds.foldl (recoverShed dev) s)
  | none => s

/-- The core of a logical shed's own physical shed to which what stood on a failed device comes back (R394). -/
def homeCore (x : LShed) (c : Nat) : Nat := x.shed * 8 + c % 8

/-- Something of a logical shed stood on the failed device, away from the logical shed's physical shed. -/
def stranded (dev : Nat) (x : LShed) (c : Nat) : Bool := shedDev (coreShed c) == dev && coreShed c != x.shed

/-- What the mirror of a logical shed's device holds of it. -/
def mirroredShed (s : State) (x : LShed) (l : Nat) : Option MirrorShed := (buddyOf s (shedDev x.shed)).bind (fun m => m.sheds.get l)

/-- A thread as the mirror of its logical shed's device holds it, where it does, with its memberships (R216), and else as it stood; one of a
logical shed that the failed device hosted has come back with it. -/
def mirroredThread (dev : Nat) (s : State) (x : LShed) (tid : Nat) (t : Thread) : State × Thread :=
  match (mirroredShed s x t.lkey).bind (fun m => (m.threads.get tid).map (fun y => (m, y))) with
  | some (m, y) => if shedDev x.shed = dev then (s, y) else (rejoinThread m y tid s, y)
  | none => (s, t)

/-- A thread that stood on the failed device comes back to its logical shed, at a safe point (R373, R394, log entry 99), with an acquire at
system scope, so that no copy there is older than what it has seen (R192, R195); one that was on its way to the failed device stays where it
is (R173). -/
def bringHome (dev : Nat) (s : State) (p : Nat × Thread) : State :=
  match s.lsheds.get p.2.lkey with
  | some x =>
    if stranded dev x p.2.core then
      let s := leaveQueue (drain s p.1) (.thread p.1)
      let s := { s with waits := s.waits.filter (fun e => e.2.who != .thread p.1) }
      let (s, t) := mirroredThread dev s x p.1 ((s.threads.get p.1).getD p.2)
      let core := homeCore x t.core
      let park := match t.park with
        | .waita .. => .retry .slot
        | .migrating .. => .none
        | q => q
      let s := dropRefused s (· == .mig p.1)
      let s := acquireT (s.setThread p.1 { t with
        core := core, slot := if x.resident then (freeSlots s core (anySlot t.cls)).headD 64 else 64, park := park, held := true }) p.1 .sys
      if x.resident then phDeliver s p.1 else s
    else match p.2.park with
      | .migrating sheds _ access =>
        if sheds.any (fun h => shedDev h == dev) then
          dropRefused (s.modThread p.1 (fun t => { t with park := .none, moved := access })) (· == .mig p.1)
        else s
      | _ => s
  | none => s

/-- So with a command, and with its index where that is free there (R259). -/
def bringJob (dev : Nat) (s : State) (p : Nat × Job) : State :=
  match s.lsheds.get p.2.lkey with
  | some x =>
    if stranded dev x p.2.core then
      let core := homeCore x p.2.core
      let i := portNum p.2.port * 16 + p.2.id % 16
      let s := s.modJob p.1 (fun j => { j with core := core })
      match ((s.core p.2.core).jobs.get i).filter (fun e => e.id == p.2.id && !((s.core core).jobs.get i).any (fun e => e.busy)) with
      | some e => s.modCore core (fun c => { c with jobs := c.jobs.set i e })
      | none => s
    else s
  | none => s

def bringVCmd (dev : Nat) (s : State) (p : Nat × VCmd) : State :=
  match s.lsheds.get p.2.lkey with
  | some x => if stranded dev x p.2.core then s.modVCmd p.1 (fun v => { v with core := homeCore x p.2.core }) else s
  | none => s

/-- The messages in the outboxes of a failed device's cores stand in those of their logical sheds; no copy of a line there is older than what
their senders have seen (R192, R195). -/
def bringOutbox (dev : Nat) (s : State) (c : Nat) : State :=
  (((s.core c).outbox.map (fun m => m.2.home)).eraseDups).foldl (fun s l => match s.lsheds.get l with
    | some x => if stranded dev x c then dropSlices (dropL1 (moveOutbox s l c (homeCore x c)) (homeCore x c)) (shedDev x.shed) else s
    | none => s) s

/-- What stood on a failed device away from its logical shed's physical shed. -/
def bringStranded (s : State) (dev : Nat) : State :=
  let s := s.threads.foldl (bringHome dev) s
  let s := s.jobs.foldl (bringJob dev) s
  let s := s.vcmds.foldl (bringVCmd dev) s
  s.cores.foldl (fun s c => bringOutbox dev s c.1) s

/-- The reports in a failed device's service cores to which a party awaits a reply are posted again, to survivors. -/
def repostLost (s : State) (dev : Nat) : State :=
  (s.faults.filter (fun f => svcDev f.2.svc == dev && f.2.st != 4 && faultWaits s f.1 f.2)).foldl (fun s f => repost s f.1 f.1 f.2 dev) s

/-- DEVICE_FAILURE_DETECTION (R394): the device is failed; the logical sheds that it hosted are out, to be placed anew from
the mirrored state, with what else stood there; and every run of its partitions is asked to stop on the survivors. -/
def execDeviceFailureDetection (dev : Nat) (s : State) : Out :=
  let s := s.modDevice dev (fun d => { d with failed := true })
  let hit (p : Nat) : Bool := (s.part p).sheds.any (fun x => decide (x.1 < dev * 256 + 256) && decide (dev * 256 < x.1 + x.2))
  let lost := s.lsheds.filter (fun l => shedDev l.2.shed == dev && l.2.resident)
  let s := lost.foldl (fun s l => match s.runs.get l.2.run with
    | some r => descheduleShed s l.1 l.2 r
    | none => s) s
  let s := resumeEvents (repostLost (bringStranded (recoverDevice s dev) dev) dev)
  .next ((s.runs.filter (fun r => hit r.2.part && r.2.state == 3)).foldl (fun s r => s.post (.preemptRequest r.1)) s)

end Sys2Proof.Machine
end

