-- ==== Sys2Proof/Machine/Agenda.lean ====
section
/-! DEFINITION. A step of a unit: the happening at the head of the agenda, performed by the meaning of the instruction of the same name. -/

namespace Sys2Proof.Machine

/-- The command of a job, by its code (R70): a subscription or a drain starts once, and then moves one slot at a time. -/
def performJob (j : Nat) (s : State) : Out :=
  match s.jobs.get j with
  | some x =>
    match x.cmd with
    | 0x01 => execMmul j s
    | 0x02 => execMmulg j s
    | 0x03 => execAccz j s
    | 0x04 => execAccld j s
    | 0x05 => execAccst j s
    | 0x06 => execSpmm j s
    | 0x07 => execSpcol j s
    | 0x10 => execCopy j s
    | 0x11 => execGath j s
    | 0x12 => execScat j s
    | 0x13 => execCvtb j s
    | 0x20 => if x.started then execSubTile j s else execSubscription j s
    | 0x28 => if x.started then execDrainTile j s else execDrain j s
    | 0x30 => execPfill j s
    | 0x38 => execWqdef j s
    | _ => .next (badJob s j)
  | none => .next s

/-- The vector command v, by its operation (R73). -/
def performVCmd (v : Nat) (s : State) : Out :=
  match s.vcmds.get v with
  | some x =>
    match bits x.opw 7 0 with
    | 0x01 => execVadd v s
    | 0x02 => execVsub v s
    | 0x03 => execVmul v s
    | 0x04 => execVfma v s
    | 0x05 => execVmin v s
    | 0x06 => execVmax v s
    | 0x07 => execVabs v s
    | 0x08 => execVcvt v s
    | 0x09 => execVsfn v s
    | 0x10 => execVsum v s
    | 0x11 => execVmaxi v s
    | 0x12 => execVscan v s
    | 0x13 => execVcmp v s
    | 0x14 => execVsel v s
    | 0x20 => execVgath v s
    | 0x21 => execVscat v s
    | 0x22 => execVscad v s
    | 0x23 => execVbern v s
    | 0x24 => execVrs v s
    | 0x25 => execVcopy v s
    | _ => .next s
  | none => .next s

/-- A happening, performed. -/
def perform (e : Event) (s : State) : Out :=
  match e with
  | .job j => performJob j s
  | .jobDone j => execJobCompletion j s
  | .vcmd v => performVCmd v s
  | .vcmdDone v => execVectorCommandCompletion v s
  | .registerFill t => execRegisterFill t s
  | .faultBufferEntry f => execFaultBufferEntry f s
  | .faultRetry f => execFaultRetry f s
  | .faultReply f a => execFaultReply f a s
  | .fbstatWrite n v => execFbstatWrite n v s
  | .utvecWrite t v => execUtvecWrite t v s
  | .preemptRequest r => execPreemptRequest r s
  | .preemptCancel r => execPreemptCancel r s
  | .restore r => execRestore r s
  | .deschedule l => execDeschedule l s
  | .timeSlice l => execTimeSlice l s
  | .watchdog r h => execWatchdog r h s
  | .threadAged t => execThreadAged t s
  | .pauseEnd t => execPauseEnd t s
  | .activeMessageArrival c i => execActiveMessageArrival c i s
  | .contextFreeNotice c e => execContextFreeNotice c e s
  | .slotHoldExpiry c e => execSlotHoldExpiry c e s
  | .messageRetry c i => execMessageRetry c i s
  | .migrationArrival t => execMigrationArrival t s
  | .dispatch p => execDispatch p s
  | .conditionWake r => execConditionWake r s
  | .conditionRecheck r => execConditionRecheck r s
  | .launchDoorbell p h => execLaunchDoorbell p h s
  | .runDone r => execRunDone r s
  | .waitaWake t => execWaitaWake t s
  | .loftInvalidation h l => execLoftInvalidation h l s
  | .patternCompile h => execPatternCompile h s
  | .sfnResult t => execSfnResult t s
  | .realSetResult t => execRealSetResult t s
  | .tableBuild t => execTableBuild t s
  | .boundaryMessageArrival m => execBoundaryMessageArrival m s
  | .antiMessageArrival m => execAntiMessageArrival m s
  | .arrivalAcknowledgement m => execArrivalAcknowledgement m s
  | .pageMigration m => execPageMigration m s
  | .redirectNotice h m => execRedirectNotice h m s
  | .hostAccess op => execHostAccess op s
  | .featureAccept d w => execFeatureAccept d w s
  | .flitRetry d p => execFlitRetry d p s
  | .reroute d p => execReroute d p s
  | .deviceReset d => execDeviceReset d s
  | .shedReset h => execShedReset h s
  | .maintenanceState b n e => execMaintenanceState b n e s
  | .thermalLimit h b => execThermalLimit h b s
  | .criticalLimit d => execCriticalLimit d s
  | .mirrorStream op => execMirrorStream op s
  | .safeTierCheckpoint p => execSafeTierCheckpoint p s
  | .rewind r g => execRewind r g s
  | .deviceFailureDetection d => execDeviceFailureDetection d s
  | .accessPerformed t i => execAccessPerformed t i s

end Sys2Proof.Machine
end

