-- ==== Sys2Proof/Machine/Schedule.lean ====
section
/-! DEFINITION. Which hart issues next (R182, R183), the counters that a step of the machine moves (R33, R377), and the checks around an instruction (R76, R373). -/

namespace Sys2Proof.Machine

/-! ### Ready harts -/

/-- R182: a thread that may issue: it is not parked or held, stands in a slot, its run is not frozen (R377), and its shed's
issue slots are not withheld (R395). -/
def threadReady (s : State) (t : Thread) : Bool :=
  t.park == .none && !t.held && t.slot != 64 && isResident s t.lkey && deviceIssues s (shedDev (coreShed t.core)) &&
    !(s.shed (coreShed t.core)).held && (match s.runs.get t.run with
      | some r => !r.frozen
      | none => false)

/-- A service core that may issue (R361, R364, R369). -/
def svcReady (s : State) (n : Nat) : Bool :=
  let x := s.svc n
  x.park == .none && !x.stopped && !x.idle && !x.busy && deviceIssues s (svcDev n)

def partyReady (s : State) (p : Party) : Bool :=
  match p with
  | .thread t => match s.threads.get t with
    | some x => threadReady s x
    | none => false
  | .svc n => svcReady s n

/-! ### The next hart -/

/-- R183: a thread that has been ready in 92 cycles, of two issue slots each, since its last issue is aged. -/
def Thread.aged (t : Thread) : Bool := decide (184 ≤ t.ready)

/-- The issue class of a thread (R182): 0 urgent, 1 normal, 2 background. -/
def issueClass (t : Thread) : Nat :=
  if t.urgent || t.aged then 0 else match t.cls with | .reply => 0 | .normal => 1 | .background => 2

/-- The ready threads of a core. -/
def readyOn (s : State) (core : Nat) : List (Nat × Thread) := s.threads.filter (fun p => p.2.core == core && threadReady s p.2)

/-- The one of a class that is first in its round-robin order. -/
def firstOf (l : List (Nat × Thread)) : Option (Nat × Thread) :=
  l.foldl (fun b p => match b with
    | some q => if p.2.stamp < q.2.stamp then some p else b
    | none => some p) none

/-- R182: the thread that a core's next issue slot takes; after 16 slots given to urgent threads while a normal one was
ready, a normal one. -/
def pickThread (s : State) (core : Nat) : Option (Nat × Thread) :=
  let l := readyOn s core
  let cls (c : Nat) : Option (Nat × Thread) := firstOf (l.filter (fun p => issueClass p.2 == c))
  if 16 ≤ (s.core core).urgentRow then (cls 1).or ((cls 0).or (cls 2)) else (cls 0).or ((cls 1).or (cls 2))

/-- A ready thread that was passed over counts the slot; at the slot that makes it aged it is urgent (R183). -/
def passOver (s : State) (p : Nat × Thread) : State :=
  let s := s.setThread p.1 { p.2 with ready := p.2.ready + 1 }
  if p.2.ready + 1 = 184 then s.post (.threadAged p.1) else s

/-- The slot is given to a thread. -/
def giveSlot (s : State) (core : Nat) (p : Nat × Thread) : State :=
  let l := readyOn s core
  let row := if issueClass p.2 = 0 && l.any (fun q => issueClass q.2 == 1) then (s.core core).urgentRow + 1 else 0
  let s := (l.filter (fun q => q.1 != p.1)).foldl passOver s
  let s := s.modCore core (fun c => { c with urgentRow := row })
  { s.setThread p.1 { p.2 with stamp := s.clock, urgent := false, ready := 0 } with cur := .thread p.1 }

/-- The cores take turns: physical cores and service cores as one list of numbers. -/
def unitOf (s : State) : Party → Nat
  | .thread t => match s.threads.get t with
    | some x => x.core
    | none => 0
  | .svc n => 2 ^ 50 + n

/-- The service cores of the partitions. -/
def svcList (s : State) : List Nat := s.parts.flatMap (fun p => p.2.svcs)

/-- The next core in turn that has a ready hart. -/
def nextUnit (s : State) : Option Nat :=
  let us := (s.threads.filter (fun p => threadReady s p.2)).map (fun p => p.2.core) ++
    ((svcList s).filter (svcReady s)).map (2 ^ 50 + ·)
  let least (l : List Nat) : Option Nat := l.foldl (fun b u => match b with
    | some v => some (min u v)
    | none => some u) none
  (least (us.filter (fun u => decide (unitOf s s.cur < u)))).or (least us)

/-- The hart that issues at the next turn of the cores; with none ready the current one stays. -/
def schedule (s : State) : State :=
  match nextUnit s with
  | some u =>
    if 2 ^ 50 ≤ u then { s with cur := .svc (u - 2 ^ 50) }
    else match pickThread s u with
      | some p => giveSlot s u p
      | none => s
  | none => s

/-! ### What a step counts -/

/-- R377: a persistent run's counter in a shed counts unless every thread of the run there is parked or held; while the shed's device has
stopped issue it stands (R395). -/
def dogCounts (s : State) (x : LShed) : Bool :=
  x.resident && coreWorks s (x.shed * 8) && decide (0 < x.dog) && (match s.runs.get x.run with
    | some r => r.pers && !r.frozen
    | none => false) &&
    s.threads.any (fun p => p.2.run == x.run && coreShed p.2.core == x.shed && p.2.slot != 64 && p.2.park == .none && !p.2.held)

/-- R377: a counter that reaches zero freezes the whole run; the first one to expire is reported. -/
def freezeRun (s : State) (r h : Nat) : State :=
  match s.runs.get r with
  | some x => if x.frozen then s else (s.setRun r { x with frozen := true }).post (.watchdog r h)
  | none => s

/-- One cycle of the watchdogs. -/
def tickDogs (s : State) : State :=
  let hit := s.lsheds.filter (fun p => dogCounts s p.2)
  let s := { s with lsheds := s.lsheds.mapVals (fun _ x => if dogCounts s x then { x with dog := x.dog - 1 } else x) }
  (hit.filter (fun p => p.2.dog == 1)).foldl (fun s p => freezeRun s p.2.run p.2.shed) s

/-- Whether the instruction that a thread issued has retired: it is not to be executed again, and took no trap or fault; a waita that
waits retires when it is woken (WAITA_WAKE). -/
def threadRetired (s s' : State) (t : Nat) : Bool :=
  match s'.threads.get t with
  | some x =>
    (match x.park with
      | .mailbox f => (match s'.faults.get f with
        | some m => m.kind == 10 || m.kind == 11
        | none => false)
      | .retry _ | .waita .. => false
      | .migrating _ _ a => !a
      | _ => true) &&
    (!x.hart.intrap || (match s.threads.get t with
      | some y => y.hart.intrap
      | none => true))
  | none => true

/-- Whether a service core's instruction has retired: it is not to be executed again, and raised no exception, or it was
sys, brk or hvc. -/
def svcRetired (s s' : State) (n : Nat) : Bool :=
  let x := s'.svc n
  !x.again && !x.stopped && (match x.park with
    | .waita .. => false
    | _ => true) && (!x.hmode || (s.svc n).hmode || 10 ≤ bits x.hvcause 7 0)

/-- CR.RETIRED (R33). -/
def countRetired (s s' : State) : State :=
  match s.cur with
  | .thread t =>
    match s.threads.get t with
    | some x => if threadRetired s s' t then s'.modCore x.core (fun c => { c with retired := c.retired + 1 }) else s'
    | none => s'
  | .svc n => if svcRetired s s' n then s'.modSvc n (fun x => { x with retired := x.retired + 1 }) else s'

/-! ### Around an instruction -/

/-- R76: the staged words of a tcwl that no tcwh follows are discarded. -/
def discardStaged (s : State) : State := s.modCur (fun t => { t with staged := none })

/-- R76: a tcwl must be followed by a tcwh. -/
def pairBroken (s : State) (i : Instr) : Bool :=
  match s.curThread with
  | some t => t.staged.isSome && (match i with
    | .tcwh .. => false
    | _ => true)
  | none => false

/-- The current thread is held if it now counts at a safe point (R373). -/
def holdCur (s : State) : State :=
  match s.cur with
  | .thread t => holdThread s t
  | .svc _ => s

/-- The current hart waits for a frame that is being moved, and asks for it again (R239). -/
def asksFrame (s : State) : Bool :=
  match s.cur with
  | .thread t => (match s.threads.get t with
    | some x => (match x.park with
      | .retry (.frame _) => true
      | _ => false)
    | none => false)
  | .svc n => (s.svc n).again

/-- The current hart leaves the queues of moved frames, unless it still asks (R240). -/
def leaveCur (s : State) : State := if asksFrame s then s else leaveQueue s (curWaiter s)

/-- A service core's instruction that waits is executed again at its next turn. -/
def retryCur (s : State) : State :=
  match s.cur with
  | .svc n => if (s.svc n).again then s.modSvc n (fun x => { x with again := false }) else s
  | .thread _ => s

/-- After an instruction of the current hart: what is counted, and who issues next. -/
def afterIssue (s s' : State) : State :=
  schedule { tickDogs (holdCur (retryCur (leaveCur (countRetired s s')))) with turn := .unit, clock := s'.clock + 1 }

/-! ### Before an instruction (R182, R190) -/

/-- The registers of an instruction that may be executed before loads that are not yet performed: a load, or a form that works
on registers alone. -/
def passesLoads (i : Instr) : Option (List Reg) :=
  match i with
  | .ldacq _ _ rd ra _ | .ldB _ rd ra _ | .ldH _ rd ra _ | .ldW _ rd ra _ | .ldD _ rd ra _ | .ldBS _ rd ra _ | .ldHS _ rd ra _ | .ldWS _ rd ra _
  | .clz _ rd ra | .ctz _ rd ra | .popc _ rd ra | .sextB rd ra | .sextH rd ra | .sextW rd ra | .zextB rd ra | .zextH rd ra
  | .zextW rd ra | .addi rd ra _ | .andi rd ra _ | .ori rd ra _ | .xori rd ra _ | .shli _ rd ra _ | .shri _ rd ra _
  | .srai _ rd ra _ | .slti rd ra _ | .sltiu rd ra _ | .bfx rd ra _ _ | .bfi rd ra _ _ | .addai rd ra _ | .tagset rd ra _ _
  | .tagget rd ra | .tagclr rd ra | .jalr rd ra _ => some [rd, ra.r]
  | .add _ rd ra rb | .sub _ rd ra rb | .mul _ rd ra rb | .mulh rd ra rb | .mulhu rd ra rb | .div _ rd ra rb | .divu _ rd ra rb
  | .rem _ rd ra rb | .remu _ rd ra rb | .and rd ra rb | .or rd ra rb | .xor rd ra rb | .andn rd ra rb | .orn rd ra rb
  | .shl _ rd ra rb | .shr _ rd ra rb | .sra _ rd ra rb | .rotl _ rd ra rb | .rotr _ rd ra rb | .min rd ra rb | .max rd ra rb
  | .minu rd ra rb | .maxu rd ra rb | .slt rd ra rb | .sltu rd ra rb | .seq rd ra rb | .sel rd ra rb | .adda rd ra rb =>
    some [rd, ra.r, rb.r]
  | .beq ra rb _ | .bne ra rb _ | .blt ra rb _ | .bge ra rb _ | .bltu ra rb _ | .bgeu ra rb _ => some [ra.r, rb.r]
  | .bz ra _ | .bnz ra _ | .bltz ra _ | .bgez ra _ => some [ra.r]
  | .ldk rd _ _ | .ink rd _ _ | .jal rd _ => some [rd]
  | _ => none

/-- R182, R190: before an instruction that uses their registers, or that does not work on registers alone, the current thread's
pending loads, and its pending atomics that return a value, are performed; a load comes before every later store. -/
def settleLoads (s : State) (i : Instr) : State :=
  match s.cur, s.curThread with
  | .thread tid, some t =>
    match passesLoads i with
    | some rs =>
      let s := if t.loads.any (fun l => rs.contains l.rd) then performLoads s tid else s
      drainThose s tid (fun p => p.atom.any (fun a => a.rd.any rs.contains))
    | none => performReturns s tid
  | _, _ => s

/-- After a turn of the units. -/
def afterUnit (s : State) : State :=
  let s := { s with turn := .core, clock := s.clock + 1 }
  if partyReady s s.cur then s else schedule s

end Sys2Proof.Machine
end

