-- ==== Sys2Proof/Machine/Dispatch.lean ====
section
/-! DEFINITION. The dispatch: one arm per instruction, command and happening, each a call of its meaning. -/

namespace Sys2Proof.Machine

/-- The meaning of every instruction. -/
def exec (i : Instr) (s : State) : Host.Outcome State Fault Refusal :=
  match i with
  | .add w rd ra rb => Sys2Proof.Machine.execAdd w rd ra rb s
  | .sub w rd ra rb => Sys2Proof.Machine.execSub w rd ra rb s
  | .mul w rd ra rb => Sys2Proof.Machine.execMul w rd ra rb s
  | .mulh rd ra rb => Sys2Proof.Machine.execMulh rd ra rb s
  | .mulhu rd ra rb => Sys2Proof.Machine.execMulhu rd ra rb s
  | .div w rd ra rb => Sys2Proof.Machine.execDiv w rd ra rb s
  | .divu w rd ra rb => Sys2Proof.Machine.execDivu w rd ra rb s
  | .rem w rd ra rb => Sys2Proof.Machine.execRem w rd ra rb s
  | .remu w rd ra rb => Sys2Proof.Machine.execRemu w rd ra rb s
  | .and rd ra rb => Sys2Proof.Machine.execAnd rd ra rb s
  | .or rd ra rb => Sys2Proof.Machine.execOr rd ra rb s
  | .xor rd ra rb => Sys2Proof.Machine.execXor rd ra rb s
  | .andn rd ra rb => Sys2Proof.Machine.execAndn rd ra rb s
  | .orn rd ra rb => Sys2Proof.Machine.execOrn rd ra rb s
  | .shl w rd ra rb => Sys2Proof.Machine.execShl w rd ra rb s
  | .shr w rd ra rb => Sys2Proof.Machine.execShr w rd ra rb s
  | .sra w rd ra rb => Sys2Proof.Machine.execSra w rd ra rb s
  | .rotl w rd ra rb => Sys2Proof.Machine.execRotl w rd ra rb s
  | .rotr w rd ra rb => Sys2Proof.Machine.execRotr w rd ra rb s
  | .min rd ra rb => Sys2Proof.Machine.execMin rd ra rb s
  | .max rd ra rb => Sys2Proof.Machine.execMax rd ra rb s
  | .minu rd ra rb => Sys2Proof.Machine.execMinu rd ra rb s
  | .maxu rd ra rb => Sys2Proof.Machine.execMaxu rd ra rb s
  | .slt rd ra rb => Sys2Proof.Machine.execSlt rd ra rb s
  | .sltu rd ra rb => Sys2Proof.Machine.execSltu rd ra rb s
  | .seq rd ra rb => Sys2Proof.Machine.execSeq rd ra rb s
  | .sel rd ra rb => Sys2Proof.Machine.execSel rd ra rb s
  | .clz w rd ra => Sys2Proof.Machine.execClz w rd ra s
  | .ctz w rd ra => Sys2Proof.Machine.execCtz w rd ra s
  | .popc w rd ra => Sys2Proof.Machine.execPopc w rd ra s
  | .sextB rd ra => Sys2Proof.Machine.execSextB rd ra s
  | .sextH rd ra => Sys2Proof.Machine.execSextH rd ra s
  | .sextW rd ra => Sys2Proof.Machine.execSextW rd ra s
  | .zextB rd ra => Sys2Proof.Machine.execZextB rd ra s
  | .zextH rd ra => Sys2Proof.Machine.execZextH rd ra s
  | .zextW rd ra => Sys2Proof.Machine.execZextW rd ra s
  | .addi rd ra imm => Sys2Proof.Machine.execAddi rd ra imm s
  | .andi rd ra imm => Sys2Proof.Machine.execAndi rd ra imm s
  | .ori rd ra imm => Sys2Proof.Machine.execOri rd ra imm s
  | .xori rd ra imm => Sys2Proof.Machine.execXori rd ra imm s
  | .shli w rd ra amt => Sys2Proof.Machine.execShli w rd ra amt s
  | .shri w rd ra amt => Sys2Proof.Machine.execShri w rd ra amt s
  | .srai w rd ra amt => Sys2Proof.Machine.execSrai w rd ra amt s
  | .slti rd ra imm => Sys2Proof.Machine.execSlti rd ra imm s
  | .sltiu rd ra imm => Sys2Proof.Machine.execSltiu rd ra imm s
  | .bfx rd ra pos lenM1 => Sys2Proof.Machine.execBfx rd ra pos lenM1 s
  | .bfi rd ra pos lenM1 => Sys2Proof.Machine.execBfi rd ra pos lenM1 s
  | .fadd rnd f rd ra rb => Sys2Proof.Machine.execFadd rnd f rd ra rb s
  | .fsub rnd f rd ra rb => Sys2Proof.Machine.execFsub rnd f rd ra rb s
  | .fmul rnd f rd ra rb => Sys2Proof.Machine.execFmul rnd f rd ra rb s
  | .fdiv rnd f rd ra rb => Sys2Proof.Machine.execFdiv rnd f rd ra rb s
  | .fmin rnd f rd ra rb => Sys2Proof.Machine.execFmin rnd f rd ra rb s
  | .fmax rnd f rd ra rb => Sys2Proof.Machine.execFmax rnd f rd ra rb s
  | .fma rnd f rd ra rb => Sys2Proof.Machine.execFma rnd f rd ra rb s
  | .fms rnd f rd ra rb => Sys2Proof.Machine.execFms rnd f rd ra rb s
  | .fsqrt rnd f rd ra => Sys2Proof.Machine.execFsqrt rnd f rd ra s
  | .fneg f rd ra => Sys2Proof.Machine.execFneg f rd ra s
  | .fabs f rd ra => Sys2Proof.Machine.execFabs f rd ra s
  | .fclass f rd ra => Sys2Proof.Machine.execFclass f rd ra s
  | .fround rnd f rd ra => Sys2Proof.Machine.execFround rnd f rd ra s
  | .fcvt rnd dst src rd ra => Sys2Proof.Machine.execFcvt rnd dst src rd ra s
  | .fcmp f p rd ra rb => Sys2Proof.Machine.execFcmp f p rd ra rb s
  | .sfn fn rd ra => Sys2Proof.Machine.execSfn fn rd ra s
  | .adda rd ra rb => Sys2Proof.Machine.execAdda rd ra rb s
  | .addai rd ra imm => Sys2Proof.Machine.execAddai rd ra imm s
  | .tagset rd ra blog fmt => Sys2Proof.Machine.execTagset rd ra blog fmt s
  | .tagget rd ra => Sys2Proof.Machine.execTagget rd ra s
  | .tagclr rd ra => Sys2Proof.Machine.execTagclr rd ra s
  | .ldk rd imm idx => Sys2Proof.Machine.execLdk rd imm idx s
  | .ink rd imm idx => Sys2Proof.Machine.execInk rd imm idx s
  | .ldB q rd ra off => Sys2Proof.Machine.execLdB q rd ra off s
  | .ldH q rd ra off => Sys2Proof.Machine.execLdH q rd ra off s
  | .ldW q rd ra off => Sys2Proof.Machine.execLdW q rd ra off s
  | .ldD q rd ra off => Sys2Proof.Machine.execLdD q rd ra off s
  | .ldBS q rd ra off => Sys2Proof.Machine.execLdBS q rd ra off s
  | .ldHS q rd ra off => Sys2Proof.Machine.execLdHS q rd ra off s
  | .ldWS q rd ra off => Sys2Proof.Machine.execLdWS q rd ra off s
  | .stB q rd ra off => Sys2Proof.Machine.execStB q rd ra off s
  | .stH q rd ra off => Sys2Proof.Machine.execStH q rd ra off s
  | .stW q rd ra off => Sys2Proof.Machine.execStW q rd ra off s
  | .stD q rd ra off => Sys2Proof.Machine.execStD q rd ra off s
  | .pf q ra off => Sys2Proof.Machine.execPf q ra off s
  | .waita w all c rd ra rb => Sys2Proof.Machine.execWaita w all c rd ra rb s
  | .wakea ra => Sys2Proof.Machine.execWakea ra s
  | .wakeaAll ra => Sys2Proof.Machine.execWakeaAll ra s
  | .home rd ra => Sys2Proof.Machine.execHome rd ra s
  | .l1inv ra => Sys2Proof.Machine.execL1inv ra s
  | .aadd ret d sc o rd ra rb => Sys2Proof.Machine.execAadd ret d sc o rd ra rb s
  | .aand ret d sc o rd ra rb => Sys2Proof.Machine.execAand ret d sc o rd ra rb s
  | .aor ret d sc o rd ra rb => Sys2Proof.Machine.execAor ret d sc o rd ra rb s
  | .axor ret d sc o rd ra rb => Sys2Proof.Machine.execAxor ret d sc o rd ra rb s
  | .amin ret d sc o rd ra rb => Sys2Proof.Machine.execAmin ret d sc o rd ra rb s
  | .amax ret d sc o rd ra rb => Sys2Proof.Machine.execAmax ret d sc o rd ra rb s
  | .aminu ret d sc o rd ra rb => Sys2Proof.Machine.execAminu ret d sc o rd ra rb s
  | .amaxu ret d sc o rd ra rb => Sys2Proof.Machine.execAmaxu ret d sc o rd ra rb s
  | .aswp ret d sc o rd ra rb => Sys2Proof.Machine.execAswp ret d sc o rd ra rb s
  | .adecp ret d sc o rd ra => Sys2Proof.Machine.execAdecp ret d sc o rd ra s
  | .afadd ret d sc o rd ra rb => Sys2Proof.Machine.execAfadd ret d sc o rd ra rb s
  | .acas d sc o rd ra rb => Sys2Proof.Machine.execAcas d sc o rd ra rb s
  | .beq ra rb off => Sys2Proof.Machine.execBeq ra rb off s
  | .bne ra rb off => Sys2Proof.Machine.execBne ra rb off s
  | .blt ra rb off => Sys2Proof.Machine.execBlt ra rb off s
  | .bge ra rb off => Sys2Proof.Machine.execBge ra rb off s
  | .bltu ra rb off => Sys2Proof.Machine.execBltu ra rb off s
  | .bgeu ra rb off => Sys2Proof.Machine.execBgeu ra rb off s
  | .bz ra off => Sys2Proof.Machine.execBz ra off s
  | .bnz ra off => Sys2Proof.Machine.execBnz ra off s
  | .bltz ra off => Sys2Proof.Machine.execBltz ra off s
  | .bgez ra off => Sys2Proof.Machine.execBgez ra off s
  | .jal rd off => Sys2Proof.Machine.execJal rd off s
  | .jalr rd ra imm => Sys2Proof.Machine.execJalr rd ra imm s
  | .spawn rd ra n => Sys2Proof.Machine.execSpawn rd ra n s
  | .post rd ra => Sys2Proof.Machine.execPost rd ra s
  | .launch rd ra => Sys2Proof.Machine.execLaunch rd ra s
  | .migr ra => Sys2Proof.Machine.execMigr ra s
  | .coord rd => Sys2Proof.Machine.execCoord rd s
  | .exit => Sys2Proof.Machine.execExit s
  | .yield => Sys2Proof.Machine.execYield s
  | .oflush => Sys2Proof.Machine.execOflush s
  | .beat => Sys2Proof.Machine.execBeat s
  | .safept n => Sys2Proof.Machine.execSafept n s
  | .fence k sc => Sys2Proof.Machine.execFence k sc s
  | .ldacq w sc rd ra off => Sys2Proof.Machine.execLdacq w sc rd ra off s
  | .strel w sc rd ra off => Sys2Proof.Machine.execStrel w sc rd ra off s
  | .phreg m ph rd => Sys2Proof.Machine.execPhreg m ph rd s
  | .phdrop ph => Sys2Proof.Machine.execPhdrop ph s
  | .phsig ph => Sys2Proof.Machine.execPhsig ph s
  | .phsigv k ph ra => Sys2Proof.Machine.execPhsigv k ph ra s
  | .phwait ph rd => Sys2Proof.Machine.execPhwait ph rd s
  | .phnext ph rd => Sys2Proof.Machine.execPhnext ph rd s
  | .phexpect ph ra => Sys2Proof.Machine.execPhexpect ph ra s
  | .phread ph rd => Sys2Proof.Machine.execPhread ph rd s
  | .fget rd ra => Sys2Proof.Machine.execFget rd ra s
  | .ffill ra rb => Sys2Proof.Machine.execFfill ra rb s
  | .fclr ra => Sys2Proof.Machine.execFclr ra s
  | .pause => Sys2Proof.Machine.execPause s
  | .tcwl ra rb => Sys2Proof.Machine.execTcwl ra rb s
  | .tcwh p rd ra rb => Sys2Proof.Machine.execTcwh p rd ra rb s
  | .jpoll rd ra => Sys2Proof.Machine.execJpoll rd ra s
  | .jwait ra => Sys2Proof.Machine.execJwait ra s
  | .vbusy rd => Sys2Proof.Machine.execVbusy rd s
  | .vfence => Sys2Proof.Machine.execVfence s
  | .ftile rd ra => Sys2Proof.Machine.execFtile rd ra s
  | .vop ra rb => Sys2Proof.Machine.execVop ra rb s
  | .rdef q rd ra => Sys2Proof.Machine.execRdef q rd ra s
  | .rwaitf q rd ra => Sys2Proof.Machine.execRwaitf q rd ra s
  | .rwaite q rd ra => Sys2Proof.Machine.execRwaite q rd ra s
  | .radvh q ra => Sys2Proof.Machine.execRadvh q ra s
  | .radvt q ra => Sys2Proof.Machine.execRadvt q ra s
  | .rstat q rd => Sys2Proof.Machine.execRstat q rd s
  | .ktree k ra => Sys2Proof.Machine.execKtree k ra s
  | .kset k ra rb => Sys2Proof.Machine.execKset k ra rb s
  | .kseti k ra rb => Sys2Proof.Machine.execKseti k ra rb s
  | .kget k rd ra => Sys2Proof.Machine.execKget k rd ra s
  | .ktot k rd => Sys2Proof.Machine.execKtot k rd s
  | .evnext k rd => Sys2Proof.Machine.execEvnext k rd s
  | .evdisp k => Sys2Proof.Machine.execEvdisp k s
  | .clkget k rd => Sys2Proof.Machine.execClkget k rd s
  | .bsend k rd ra rb => Sys2Proof.Machine.execBsend k rd ra rb s
  | .bmsg k rd ra => Sys2Proof.Machine.execBmsg k rd ra s
  | .ckpt k rd => Sys2Proof.Machine.execCkpt k rd s
  | .rollb k rd => Sys2Proof.Machine.execRollb k rd s
  | .mark k ra rb => Sys2Proof.Machine.execMark k ra rb s
  | .unmark k ra rb => Sys2Proof.Machine.execUnmark k ra rb s
  | .fossil k ra => Sys2Proof.Machine.execFossil k ra s
  | .dgst k rd => Sys2Proof.Machine.execDgst k rd s
  | .rgnsave k ra => Sys2Proof.Machine.execRgnsave k ra s
  | .rgnload k ra => Sys2Proof.Machine.execRgnload k ra s
  | .rngb rd ra rb => Sys2Proof.Machine.execRngb rd ra rb s
  | .rbern rd ra rb => Sys2Proof.Machine.execRbern rd ra rb s
  | .thash rd ra rb => Sys2Proof.Machine.execThash rd ra rb s
  | .pqpush k rd ra rb => Sys2Proof.Machine.execPqpush k rd ra rb s
  | .pqpop k rd ra => Sys2Proof.Machine.execPqpop k rd ra s
  | .pqmin k rd => Sys2Proof.Machine.execPqmin k rd s
  | .pqlen k rd => Sys2Proof.Machine.execPqlen k rd s
  | .rsadd z rd ra rb => Sys2Proof.Machine.execRsadd z rd ra rb s
  | .rssub z rd ra rb => Sys2Proof.Machine.execRssub z rd ra rb s
  | .rsmul z rd ra rb => Sys2Proof.Machine.execRsmul z rd ra rb s
  | .rsdiv z rd ra rb => Sys2Proof.Machine.execRsdiv z rd ra rb s
  | .rsor z rd ra rb => Sys2Proof.Machine.execRsor z rd ra rb s
  | .rsand z rd ra rb => Sys2Proof.Machine.execRsand z rd ra rb s
  | .rslt z rd ra rb => Sys2Proof.Machine.execRslt z rd ra rb s
  | .rsfi z rd ra rb => Sys2Proof.Machine.execRsfi z rd ra rb s
  | .rsneg z rd ra => Sys2Proof.Machine.execRsneg z rd ra s
  | .rsinv z rd ra => Sys2Proof.Machine.execRsinv z rd ra s
  | .rssq z rd ra => Sys2Proof.Machine.execRssq z rd ra s
  | .rslo z rd ra => Sys2Proof.Machine.execRslo z rd ra s
  | .rshi z rd ra => Sys2Proof.Machine.execRshi z rd ra s
  | .rsconn z rd ra => Sys2Proof.Machine.execRsconn z rd ra s
  | .rsf z rd ra => Sys2Proof.Machine.execRsf z rd ra s
  | .rsring z rd ra => Sys2Proof.Machine.execRsring z rd ra s
  | .rscz w z rd ra => Sys2Proof.Machine.execRscz w z rd ra s
  | .rsxz w z rd ra => Sys2Proof.Machine.execRsxz w z rd ra s
  | .ploft rd ra => Sys2Proof.Machine.execPloft rd ra s
  | .pevict rd ra => Sys2Proof.Machine.execPevict rd ra s
  | .mld sz rd ra rb off => Sys2Proof.Machine.execMld sz rd ra rb off s
  | .mst sz rd ra rb off => Sys2Proof.Machine.execMst sz rd ra rb off s
  | .sys n => Sys2Proof.Machine.execSys n s
  | .brk n => Sys2Proof.Machine.execBrk n s
  | .crr cr rd => Sys2Proof.Machine.execCrr cr rd s
  | .crw cr ra => Sys2Proof.Machine.execCrw cr ra s
  | .crs cr rd ra => Sys2Proof.Machine.execCrs cr rd ra s
  | .crc cr rd ra => Sys2Proof.Machine.execCrc cr rd ra s
  | .eret => Sys2Proof.Machine.execEret s
  | .tlbinv ra rb => Sys2Proof.Machine.execTlbinv ra rb s
  | .frep ra rb => Sys2Proof.Machine.execFrep ra rb s
  | .hvc ra => Sys2Proof.Machine.execHvc ra s
  | .idle => Sys2Proof.Machine.execIdle s
  | .kill ra => Sys2Proof.Machine.execKill ra s
  | .mmul j => Sys2Proof.Machine.execMmul j s
  | .mmulg j => Sys2Proof.Machine.execMmulg j s
  | .accz j => Sys2Proof.Machine.execAccz j s
  | .accld j => Sys2Proof.Machine.execAccld j s
  | .accst j => Sys2Proof.Machine.execAccst j s
  | .spmm j => Sys2Proof.Machine.execSpmm j s
  | .spcol j => Sys2Proof.Machine.execSpcol j s
  | .copy j => Sys2Proof.Machine.execCopy j s
  | .gath j => Sys2Proof.Machine.execGath j s
  | .scat j => Sys2Proof.Machine.execScat j s
  | .cvtb j => Sys2Proof.Machine.execCvtb j s
  | .subscription j => Sys2Proof.Machine.execSubscription j s
  | .subTile j => Sys2Proof.Machine.execSubTile j s
  | .drain j => Sys2Proof.Machine.execDrain j s
  | .drainTile j => Sys2Proof.Machine.execDrainTile j s
  | .pfill j => Sys2Proof.Machine.execPfill j s
  | .wqdef j => Sys2Proof.Machine.execWqdef j s
  | .jobCompletion j => Sys2Proof.Machine.execJobCompletion j s
  | .vadd v => Sys2Proof.Machine.execVadd v s
  | .vsub v => Sys2Proof.Machine.execVsub v s
  | .vmul v => Sys2Proof.Machine.execVmul v s
  | .vfma v => Sys2Proof.Machine.execVfma v s
  | .vmin v => Sys2Proof.Machine.execVmin v s
  | .vmax v => Sys2Proof.Machine.execVmax v s
  | .vabs v => Sys2Proof.Machine.execVabs v s
  | .vcvt v => Sys2Proof.Machine.execVcvt v s
  | .vsfn v => Sys2Proof.Machine.execVsfn v s
  | .vcmp v => Sys2Proof.Machine.execVcmp v s
  | .vsel v => Sys2Proof.Machine.execVsel v s
  | .vcopy v => Sys2Proof.Machine.execVcopy v s
  | .vsum v => Sys2Proof.Machine.execVsum v s
  | .vscan v => Sys2Proof.Machine.execVscan v s
  | .vmaxi v => Sys2Proof.Machine.execVmaxi v s
  | .vgath v => Sys2Proof.Machine.execVgath v s
  | .vscat v => Sys2Proof.Machine.execVscat v s
  | .vscad v => Sys2Proof.Machine.execVscad v s
  | .vbern v => Sys2Proof.Machine.execVbern v s
  | .vrs v => Sys2Proof.Machine.execVrs v s
  | .registerFill t => Sys2Proof.Machine.execRegisterFill t s
  | .faultBufferEntry f => Sys2Proof.Machine.execFaultBufferEntry f s
  | .faultRetry f => Sys2Proof.Machine.execFaultRetry f s
  | .faultReply f a => Sys2Proof.Machine.execFaultReply f a s
  | .fbstatWrite sv v => Sys2Proof.Machine.execFbstatWrite sv v s
  | .utvecWrite t v => Sys2Proof.Machine.execUtvecWrite t v s
  | .preemptRequest r => Sys2Proof.Machine.execPreemptRequest r s
  | .preemptCancel r => Sys2Proof.Machine.execPreemptCancel r s
  | .restore r => Sys2Proof.Machine.execRestore r s
  | .deschedule l => Sys2Proof.Machine.execDeschedule l s
  | .timeSlice l => Sys2Proof.Machine.execTimeSlice l s
  | .watchdog r h => Sys2Proof.Machine.execWatchdog r h s
  | .threadAged t => Sys2Proof.Machine.execThreadAged t s
  | .pauseEnd t => Sys2Proof.Machine.execPauseEnd t s
  | .activeMessageArrival c m => Sys2Proof.Machine.execActiveMessageArrival c m s
  | .contextFreeNotice c e => Sys2Proof.Machine.execContextFreeNotice c e s
  | .slotHoldExpiry c sl => Sys2Proof.Machine.execSlotHoldExpiry c sl s
  | .messageRetry c m => Sys2Proof.Machine.execMessageRetry c m s
  | .migrationArrival t => Sys2Proof.Machine.execMigrationArrival t s
  | .dispatch p => Sys2Proof.Machine.execDispatch p s
  | .conditionWake r => Sys2Proof.Machine.execConditionWake r s
  | .conditionRecheck r => Sys2Proof.Machine.execConditionRecheck r s
  | .launchDoorbell p hdr => Sys2Proof.Machine.execLaunchDoorbell p hdr s
  | .runDone r => Sys2Proof.Machine.execRunDone r s
  | .waitaWake t => Sys2Proof.Machine.execWaitaWake t s
  | .loftInvalidation h line => Sys2Proof.Machine.execLoftInvalidation h line s
  | .patternCompile h => Sys2Proof.Machine.execPatternCompile h s
  | .sfnResult t => Sys2Proof.Machine.execSfnResult t s
  | .realSetResult t => Sys2Proof.Machine.execRealSetResult t s
  | .tableBuild t => Sys2Proof.Machine.execTableBuild t s
  | .boundaryMessageArrival m => Sys2Proof.Machine.execBoundaryMessageArrival m s
  | .antiMessageArrival m => Sys2Proof.Machine.execAntiMessageArrival m s
  | .arrivalAcknowledgement m => Sys2Proof.Machine.execArrivalAcknowledgement m s
  | .pageMigration m => Sys2Proof.Machine.execPageMigration m s
  | .redirectNotice h m => Sys2Proof.Machine.execRedirectNotice h m s
  | .hostAccess op => Sys2Proof.Machine.execHostAccess op s
  | .featureAccept dev w => Sys2Proof.Machine.execFeatureAccept dev w s
  | .flitRetry dev port => Sys2Proof.Machine.execFlitRetry dev port s
  | .reroute dev port => Sys2Proof.Machine.execReroute dev port s
  | .deviceReset dev => Sys2Proof.Machine.execDeviceReset dev s
  | .shedReset h => Sys2Proof.Machine.execShedReset h s
  | .maintenanceState shed n enter => Sys2Proof.Machine.execMaintenanceState shed n enter s
  | .thermalLimit h withhold => Sys2Proof.Machine.execThermalLimit h withhold s
  | .criticalLimit dev => Sys2Proof.Machine.execCriticalLimit dev s
  | .mirrorStream op => Sys2Proof.Machine.execMirrorStream op s
  | .safeTierCheckpoint p => Sys2Proof.Machine.execSafeTierCheckpoint p s
  | .rewind r g => Sys2Proof.Machine.execRewind r g s
  | .deviceFailureDetection dev => Sys2Proof.Machine.execDeviceFailureDetection dev s
  | .illegal w => Sys2Proof.Machine.execIllegal w s
  | .vectorCommandCompletion v => Sys2Proof.Machine.execVectorCommandCompletion v s
  | .accessPerformed t n => Sys2Proof.Machine.execAccessPerformed t n s

end Sys2Proof.Machine
end

