-- ==== Sys2Proof/Machine/Step.lean ====
section
/-! DEFINITION. One step of the machine: a happening of a unit, or one instruction of a hart; and where an instruction is placed so that the next step runs it. -/

namespace Sys2Proof.Machine

/-- What a hart does with a word that it has fetched (R74, R76, R190). After a tcwl a word of opcode 0x51 that is no valid tcwh is an
instruction that is none, and reports its own address (log entry 116). -/
def runWord (w : BitVec 32) (s : State) : Host.Outcome State Fault Refusal :=
  match decode w with
  | .ok i => if pairBroken s i then execIllegal w (discardStaged s) else exec i (settleLoads s i)
  | .error _ => execIllegal w (discardStaged s)

/-- The current hart fetches and runs one instruction. -/
def issue (s : State) : Host.Outcome State Fault Refusal :=
  match fetchWord s with
  | .ok (u, w) => runWord w u
  | .error e => complete s (.error e)

/-- Add to a next state what a step adds. -/
def andThen (o : Host.Outcome State Fault Refusal) (f : State → State) : Host.Outcome State Fault Refusal :=
  match o with
  | .next s => .next (f s)
  | .fault e => .fault e
  | .refused e => .refused e

/-- Every device has stopped (R395). -/
def allStopped (s : State) : Bool := !s.devices.isEmpty && s.devices.all (fun d => d.2.stopped)

/-- One step; where every device has stopped the happenings and inputs that are to come still come (R395). The units' turn performs the happening at the head of the agenda, the cores' turn one instruction. -/
def step (s : State) : Host.Outcome State Fault Refusal :=
  if allStopped s && s.agenda.isEmpty then .fault .deviceStopped
  else match s.turn with
    | .unit =>
      match s.agenda with
      | e :: rest => andThen (perform e { s with agenda := rest }) afterUnit
      | [] => .next (afterUnit s)
    | .core =>
      if partyReady s s.cur then andThen (issue s) (afterIssue s)
      else .next (schedule { s with turn := .unit, clock := s.clock + 1 })

/-- The word w stands where the current hart fetches next, and it is the cores' turn. -/
def State.withFetchWord (s : State) (nbits w : Nat) : State :=
  match place s s.ctx .fetch s.hart.pc.toNat with
  | .ok (u, p) =>
    let bs := bytesOfWord (BitVec.ofNat 32 (w % 2 ^ nbits))
    let u := match u.curThread with
      | some t => { u with icaches := u.icaches.modify t.lkey (fun c => c.filterKV (fun k _ => decide (k < p.key) || decide (p.key + 4 ≤ k))) }
      | none => u
    { u with mem := Memory.puts u.mem p.key bs, turn := .core }
  | .error _ => { s with turn := .core }

end Sys2Proof.Machine
end

