-- ==== Sys2Proof/Safety.lean ====
section
/-! DEFINITION. What a safe run is: no step of it ends in a fault or a refusal, and its states keep the canonical form of memory. -/

namespace Sys2Proof.Machine

/-- The invariant of every step: memory is in its canonical form (R186). -/
def State.Inv (s : State) : Prop := Memory.wf s.mem = true

/-- A step that goes on. -/
def SafeStep (s : State) : Prop := ∃ t, step s = .next t

/-- k steps that go on, in states that meet the invariant. -/
def SafeRun : Nat → State → Prop
  | 0, s => s.Inv
  | k + 1, s => s.Inv ∧ ∃ t, step s = .next t ∧ SafeRun k t

end Sys2Proof.Machine
end

