-- ==== Sys2Proof/Certificates/Slice0/Obligations.lean ====
section
/-! DEFINITION. The statements for the provers: each is a proposition about the machine, from the numbered rules of the specification. -/

namespace Sys2Proof.Claims
open Sys2Proof.Machine

/-! ### What the statements speak in -/

/-- The sources can be read: none is dead, or the run does not trap dead reads (R21). -/
abbrev CanRead (s : State) (rs : List Reg) : Prop := s.drt = false ∨ ∀ r ∈ rs, s.hart.isDead r = false

/-- The instruction does not stand at the last word of the address space (R100). -/
abbrev CanGoOn (s : State) : Prop := s.hart.pc ≠ 0xFFFFFFFFFFFFC#52

/-- The hart after its sources have been read: DEAD is set when one is dead (R21), and the marked ones end (R20). -/
def readHart (h : Hart) (as : List Src) (extra : List Reg) : Hart :=
  let h := if (as.map (fun a => a.r) ++ extra).any h.isDead then { h with dead := true } else h
  { h with regs := as.foldl (fun m a => if a.last then m.erase a.r.val else m) h.regs }

/-- The machine after the sources have been read. -/
def readState (s : State) (as : List Src) (extra : List Reg) : State := s.setHart (readHart s.hart as extra)

/-- rd takes a value, and becomes live; x0 takes nothing (R16, R20). -/
def putReg (h : Hart) (rd : Reg) (v : Word) : Hart := if rd = 0 then h else { h with regs := h.regs.set rd.val v }

/-- The machine after an instruction whose only effects are to read sources, to write rd, to OR flags and to move on: every
other field of the state is as before. -/
def wrote (s : State) (as : List Src) (extra : List Reg) (rd : Reg) (v : Word) (fl : BitVec 5) : State :=
  let h := putReg (readHart s.hart as extra) rd v
  s.setHart { h with flags := h.flags ||| fl, pc := h.pc + 4 }

/-- The machine after an instruction that a trap, a fault or a wait has stopped. -/
def stopped (s : State) (e : Exc) : State := { takeExc s e with free := (takeExc s e).free + 1 }

/-- No load of the thread, and no atomic that returns a value, is still to be performed (R190). -/
abbrev NoReturns (t : Thread) : Prop := t.loads = [] ∧ t.pending.all (fun p => (p.atom.bind (fun a => a.rd)).isNone) = true

/-- The current hart is thread tid, whose record is t; a thread that issues is not parked, and what returns a value to it has been
performed before it issues anything but a load or a form on registers (R182, R190). -/
abbrev Issues (s : State) (tid : Nat) (t : Thread) : Prop :=
  s.cur = .thread tid ∧ s.threads.get tid = some t ∧ t.park = .none ∧ NoReturns t

/-- The current hart is service core n. -/
abbrev IssuesSvc (s : State) (n : Nat) : Prop := s.cur = .svc n

/-! ### Integer results (R30, R31, R79 to R88) -/

/-- An integer as a register's value, or as the sign-extended low 32 bits in a word form (R30). -/
def narrowed (w : Bool) (n : Int) : Word := if w then BitVec.ofInt 64 (BitVec.ofInt 32 n).toInt else BitVec.ofInt 64 n

def signedOf (w : Bool) (a : Word) : Int := if w then (a.setWidth 32).toInt else a.toInt
def unsignedOf (w : Bool) (a : Word) : Nat := if w then a.toNat % 2 ^ 32 else a.toNat
def widthOf (w : Bool) : Nat := if w then 32 else 64

/-- The low n bits as a signed number. -/
def lowSigned (a n : Nat) : Int := ((a + 2 ^ (n - 1)) % 2 ^ n : Nat) - (2 ^ (n - 1) : Nat)

/-- What an integer instruction reads and writes, with registers given by x: marked sources, a register read without a mark,
the destination and its value. -/
def intResult (x : Reg → Word) : Instr → Option (List Src × List Reg × Reg × Word)
  | .add w rd ra rb => some ([ra, rb], [], rd, narrowed w (signedOf w (x ra.r) + signedOf w (x rb.r)))
  | .sub w rd ra rb => some ([ra, rb], [], rd, narrowed w (signedOf w (x ra.r) - signedOf w (x rb.r)))
  | .mul w rd ra rb => some ([ra, rb], [], rd, narrowed w (signedOf w (x ra.r) * signedOf w (x rb.r)))
  | .mulh rd ra rb => some ([ra, rb], [], rd, BitVec.ofInt 64 ((x ra.r).toInt * (x rb.r).toInt / 2 ^ 64))
  | .mulhu rd ra rb => some ([ra, rb], [], rd, BitVec.ofNat 64 ((x ra.r).toNat * (x rb.r).toNat / 2 ^ 64))
  | .div w rd ra rb => some ([ra, rb], [], rd, narrowed w
      (if unsignedOf w (x rb.r) = 0 then -1 else (signedOf w (x ra.r)).tdiv (signedOf w (x rb.r))))
  | .divu w rd ra rb => some ([ra, rb], [], rd, narrowed w
      (if unsignedOf w (x rb.r) = 0 then -1 else (unsignedOf w (x ra.r) / unsignedOf w (x rb.r) : Nat)))
  | .rem w rd ra rb => some ([ra, rb], [], rd, narrowed w
      (if unsignedOf w (x rb.r) = 0 then signedOf w (x ra.r) else (signedOf w (x ra.r)).tmod (signedOf w (x rb.r))))
  | .remu w rd ra rb => some ([ra, rb], [], rd, narrowed w
      (if unsignedOf w (x rb.r) = 0 then signedOf w (x ra.r) else (unsignedOf w (x ra.r) % unsignedOf w (x rb.r) : Nat)))
  | .and rd ra rb => some ([ra, rb], [], rd, x ra.r &&& x rb.r)
  | .or rd ra rb => some ([ra, rb], [], rd, x ra.r ||| x rb.r)
  | .xor rd ra rb => some ([ra, rb], [], rd, x ra.r ^^^ x rb.r)
  | .andn rd ra rb => some ([ra, rb], [], rd, x ra.r &&& ~~~(x rb.r))
  | .orn rd ra rb => some ([ra, rb], [], rd, x ra.r ||| ~~~(x rb.r))
  | .shl w rd ra rb => some ([ra, rb], [], rd, narrowed w (unsignedOf w (x ra.r) * 2 ^ ((x rb.r).toNat % widthOf w) : Nat))
  | .shr w rd ra rb => some ([ra, rb], [], rd, narrowed w (unsignedOf w (x ra.r) / 2 ^ ((x rb.r).toNat % widthOf w) : Nat))
  | .sra w rd ra rb => some ([ra, rb], [], rd, narrowed w (signedOf w (x ra.r) / 2 ^ ((x rb.r).toNat % widthOf w)))
  | .rotl w rd ra rb => let k := (x rb.r).toNat % widthOf w
    some ([ra, rb], [], rd, narrowed w
      (unsignedOf w (x ra.r) * 2 ^ k % 2 ^ widthOf w + unsignedOf w (x ra.r) / 2 ^ (widthOf w - k) : Nat))
  | .rotr w rd ra rb => let k := (x rb.r).toNat % widthOf w
    some ([ra, rb], [], rd, narrowed w
      (unsignedOf w (x ra.r) / 2 ^ k + unsignedOf w (x ra.r) * 2 ^ (widthOf w - k) % 2 ^ widthOf w : Nat))
  | .min rd ra rb => some ([ra, rb], [], rd, if (x ra.r).toInt ≤ (x rb.r).toInt then x ra.r else x rb.r)
  | .max rd ra rb => some ([ra, rb], [], rd, if (x rb.r).toInt ≤ (x ra.r).toInt then x ra.r else x rb.r)
  | .minu rd ra rb => some ([ra, rb], [], rd, if (x ra.r).toNat ≤ (x rb.r).toNat then x ra.r else x rb.r)
  | .maxu rd ra rb => some ([ra, rb], [], rd, if (x rb.r).toNat ≤ (x ra.r).toNat then x ra.r else x rb.r)
  | .slt rd ra rb => some ([ra, rb], [], rd, if (x ra.r).toInt < (x rb.r).toInt then 1 else 0)
  | .sltu rd ra rb => some ([ra, rb], [], rd, if (x ra.r).toNat < (x rb.r).toNat then 1 else 0)
  | .seq rd ra rb => some ([ra, rb], [], rd, if x ra.r = x rb.r then 1 else 0)
  | .sel rd ra rb => some ([ra, rb], [rd], rd, if x rd = 0 then x rb.r else x ra.r)
  | .clz w rd ra => let u := unsignedOf w (x ra.r)
    some ([ra], [], rd, BitVec.ofNat 64 (if u = 0 then widthOf w else widthOf w - 1 - u.log2))
  | .ctz w rd ra => let u := unsignedOf w (x ra.r)
    some ([ra], [], rd, BitVec.ofNat 64 (((List.range (widthOf w)).find? (fun i => u.testBit i)).getD (widthOf w)))
  | .popc w rd ra => let u := unsignedOf w (x ra.r)
    some ([ra], [], rd, BitVec.ofNat 64 ((List.range (widthOf w)).filter (fun i => u.testBit i)).length)
  | .sextB rd ra => some ([ra], [], rd, BitVec.ofInt 64 (lowSigned (x ra.r).toNat 8))
  | .sextH rd ra => some ([ra], [], rd, BitVec.ofInt 64 (lowSigned (x ra.r).toNat 16))
  | .sextW rd ra => some ([ra], [], rd, BitVec.ofInt 64 (lowSigned (x ra.r).toNat 32))
  | .zextB rd ra => some ([ra], [], rd, BitVec.ofNat 64 ((x ra.r).toNat % 2 ^ 8))
  | .zextH rd ra => some ([ra], [], rd, BitVec.ofNat 64 ((x ra.r).toNat % 2 ^ 16))
  | .zextW rd ra => some ([ra], [], rd, BitVec.ofNat 64 ((x ra.r).toNat % 2 ^ 32))
  | .addi rd ra imm => some ([ra], [], rd, BitVec.ofInt 64 ((x ra.r).toInt + imm.toInt))
  | .andi rd ra imm => some ([ra], [], rd, x ra.r &&& BitVec.ofNat 64 imm.toNat)
  | .ori rd ra imm => some ([ra], [], rd, x ra.r ||| BitVec.ofNat 64 imm.toNat)
  | .xori rd ra imm => some ([ra], [], rd, x ra.r ^^^ BitVec.ofNat 64 imm.toNat)
  | .shli w rd ra amt => some ([ra], [], rd, narrowed w (unsignedOf w (x ra.r) * 2 ^ (amt.toNat % widthOf w) : Nat))
  | .shri w rd ra amt => some ([ra], [], rd, narrowed w (unsignedOf w (x ra.r) / 2 ^ (amt.toNat % widthOf w) : Nat))
  | .srai w rd ra amt => some ([ra], [], rd, narrowed w (signedOf w (x ra.r) / 2 ^ (amt.toNat % widthOf w)))
  | .slti rd ra imm => some ([ra], [], rd, if (x ra.r).toInt < imm.toInt then 1 else 0)
  | .sltiu rd ra imm => some ([ra], [], rd, if (x ra.r).toNat < (BitVec.ofInt 64 imm.toInt).toNat then 1 else 0)
  | .bfx rd ra pos lenM1 => some ([ra], [], rd, BitVec.ofNat 64 ((x ra.r).toNat / 2 ^ pos.toNat % 2 ^ (lenM1.toNat + 1)))
  | .bfi rd ra pos lenM1 => let d := (x rd).toNat
    let e := pos.toNat + lenM1.toNat + 1
    some ([ra], [rd], rd, BitVec.ofNat 64
      (d / 2 ^ e * 2 ^ e + (x ra.r).toNat % 2 ^ (lenM1.toNat + 1) * 2 ^ pos.toNat + d % 2 ^ pos.toNat))
  | .ldk rd imm idx => some ([], [], rd, BitVec.ofNat 64 (imm.toNat * 2 ^ (16 * idx.toNat)))
  | .ink rd imm idx => let d := (x rd).toNat
    let k := 16 * idx.toNat
    some ([], [rd], rd, BitVec.ofNat 64 (d / 2 ^ (k + 16) * 2 ^ (k + 16) + imm.toNat * 2 ^ k + d % 2 ^ k))
  | .tagset rd ra blog fmt => some ([ra], [], rd,
      BitVec.ofNat 64 (fmt.toNat * 2 ^ 58 + blog.toNat * 2 ^ 54 + (x ra.r).toNat % 2 ^ 54))
  | .tagget rd ra => some ([ra], [], rd, BitVec.ofNat 64 ((x ra.r).toNat / 2 ^ 52))
  | .tagclr rd ra => some ([ra], [], rd, BitVec.ofNat 64 ((x ra.r).toNat % 2 ^ 52))
  | _ => none

/-! ### Floating-point results (R101 to R112) -/

/-- What a floating-point instruction of state s reads and writes: sources, a register read without a mark, the destination,
the result and its flags. -/
def fpResult (s : State) : Instr → Option (List Src × List Reg × Reg × Nat × BitVec 5)
  | .fadd n f rd ra rb => two (.fadd n f rd ra rb) n f rd ra rb (fun m a b => fpAdd (fmtOf f) m (s.resFlush f) a b)
  | .fsub n f rd ra rb => two (.fsub n f rd ra rb) n f rd ra rb (fun m a b => fpAdd (fmtOf f) m (s.resFlush f) a b.negate)
  | .fmul n f rd ra rb => two (.fmul n f rd ra rb) n f rd ra rb (fun m a b => fpMul (fmtOf f) m (s.resFlush f) a b)
  | .fdiv n f rd ra rb => two (.fdiv n f rd ra rb) n f rd ra rb (fun m a b => fpDiv (fmtOf f) m (s.resFlush f) a b)
  | .fmin n f rd ra rb => two (.fmin n f rd ra rb) n f rd ra rb (fun _ a b => fpMinMax (fmtOf f) false a b)
  | .fmax n f rd ra rb => two (.fmax n f rd ra rb) n f rd ra rb (fun _ a b => fpMinMax (fmtOf f) true a b)
  | .fma n f rd ra rb => three (.fma n f rd ra rb) n f rd ra rb (fun v => v)
  | .fms n f rd ra rb => three (.fms n f rd ra rb) n f rd ra rb FpVal.negate
  | .fsqrt n f rd ra => one (.fsqrt n f rd ra) n f rd ra (fun m a => fpSqrt (fmtOf f) m (s.resFlush f) a)
  | .fround n f rd ra => one (.fround n f rd ra) n f rd ra (fun m a => fpRound (fmtOf f) m (s.resFlush f) a)
  | .fneg f rd ra => let w := (fmtOf f).width
    some ([ra], [], rd, ((s.reg ra.r).toNat % 2 ^ w + 2 ^ (w - 1)) % 2 ^ w, 0)
  | .fabs f rd ra => some ([ra], [], rd, (s.reg ra.r).toNat % 2 ^ ((fmtOf f).width - 1), 0)
  | .fclass f rd ra => some ([ra], [], rd, fpClass (fmtOf f) (s.opFlush f) (fpBits f (s.reg ra.r)), 0)
  | .fcmp f p rd ra rb =>
    let r := fpCmp p (s.fpOperand f (s.reg ra.r)) (s.fpOperand f (s.reg rb.r))
    some ([ra, rb], [], rd, b2n r.1, r.2.toBits)
  | .fcvt n dst src rd ra =>
    let r := cvtResult s (scalarMode s (.fcvt n dst src rd ra) n (s.reg ra.r) 0 0) dst src (s.reg ra.r)
    some ([ra], [], rd, r.1, r.2.toBits)
  | _ => none
where
  one (i : Instr) (n : Rnd) (f : Fmt) (rd : Reg) (ra : Src) (g : RMode → FpVal → Nat × FpFlags) :=
    let r := g (scalarMode s i n (s.reg ra.r) 0 0) (s.fpOperand f (s.reg ra.r))
    some ([ra], [], rd, r.1, r.2.toBits)
  two (i : Instr) (n : Rnd) (f : Fmt) (rd : Reg) (ra rb : Src) (g : RMode → FpVal → FpVal → Nat × FpFlags) :=
    let r := g (scalarMode s i n (s.reg ra.r) (s.reg rb.r) 0) (s.fpOperand f (s.reg ra.r)) (s.fpOperand f (s.reg rb.r))
    some ([ra, rb], [], rd, r.1, r.2.toBits)
  three (i : Instr) (n : Rnd) (f : Fmt) (rd : Reg) (ra rb : Src) (g : FpVal → FpVal) :=
    let r := fpFma (fmtOf f) (scalarMode s i n (s.reg ra.r) (s.reg rb.r) (s.reg rd)) (s.resFlush f)
      (s.fpOperand f (s.reg ra.r)) (s.fpOperand f (s.reg rb.r)) (g (s.fpOperand f (s.reg rd)))
    some ([ra, rb], [rd], rd, r.1, r.2.toBits)

/-! ### Branches (R98, R99) -/

/-- A branch's sources, whether it is taken, and its offset in words. -/
def branchOf (x : Reg → Word) : Instr → Option (List Src × Bool × Int)
  | .beq ra rb off => some ([ra, rb], decide (x ra.r = x rb.r), off.toInt)
  | .bne ra rb off => some ([ra, rb], decide (x ra.r ≠ x rb.r), off.toInt)
  | .blt ra rb off => some ([ra, rb], decide ((x ra.r).toInt < (x rb.r).toInt), off.toInt)
  | .bge ra rb off => some ([ra, rb], decide ((x rb.r).toInt ≤ (x ra.r).toInt), off.toInt)
  | .bltu ra rb off => some ([ra, rb], decide ((x ra.r).toNat < (x rb.r).toNat), off.toInt)
  | .bgeu ra rb off => some ([ra, rb], decide ((x rb.r).toNat ≤ (x ra.r).toNat), off.toInt)
  | .bz ra off => some ([ra], decide (x ra.r = 0), off.toInt)
  | .bnz ra off => some ([ra], decide (x ra.r ≠ 0), off.toInt)
  | .bltz ra off => some ([ra], decide ((x ra.r).toInt < 0), off.toInt)
  | .bgez ra off => some ([ra], decide (0 ≤ (x ra.r).toInt), off.toInt)
  | _ => none

/-- The machine after a branch that goes to pc. -/
def jumped (s : State) (as : List Src) (rd : Reg) (link : Word) (pc : Nat) : State :=
  let h := putReg (readHart s.hart as []) rd link
  s.setHart { h with pc := BitVec.ofNat 52 pc }

/-! ### Frames -/

/-- The registers of a service core other than its hart (R365, R366). -/
def svcRegs (x : Svc) : Bool × Word × Word × Word × Word × Nat × Word × Word × Nat :=
  (x.hmode, x.hvvec, x.hvepc, x.hvcause, x.hvval, x.part, x.fbbase, x.fbstat, x.svstat)

/-- The exception registers and CR.JOBBASE of a thread (R32, R37). -/
def threadRegs (t : Thread) : Word × Word × Word × Option Word × Option Word × Word :=
  (t.utcause, t.utval, t.utepc, t.save7, t.save8, t.jobbase)

/-- The registers of a logical shed: CR.EVCTL, CR.DRAWTAB and the accumulators (R283, R315, R316). -/
def shedRegs (x : LShed) : Word × Word × Map (BitVec 32) := (x.evctl, x.drawtab, x.acc)

/-- What a run's header gives its threads to read (R32, R120, R157). -/
def runRegs (x : Run) : Nat × Nat × Seed × Bool × Bool × Word := (x.hdr, x.fpctl, x.seed, x.det, x.drt, x.jobbase)

/-- Every special register, exception register, accumulator and control register of the machine is as before, and the groups
and the devices with them. -/
def RegistersKept (s t : State) : Prop :=
  t.cur = s.cur ∧ t.groups = s.groups ∧ t.devices = s.devices ∧
  (∀ r, (t.runs.get r).map runRegs = (s.runs.get r).map runRegs) ∧
  (∀ n, svcRegs (t.svc n) = svcRegs (s.svc n)) ∧
  (∀ n, (t.threads.get n).map threadRegs = (s.threads.get n).map threadRegs) ∧
  (∀ l, (t.lsheds.get l).map shedRegs = (s.lsheds.get l).map shedRegs) ∧
  (∀ p, (t.part p).ptroot = (s.part p).ptroot ∧ (t.part p).grant = (s.part p).grant)

/-- Every hart but the current one is as before. -/
def OthersKept (s t : State) : Prop :=
  (∀ n, s.cur ≠ .thread n → (t.threads.get n).map (fun x => x.hart) = (s.threads.get n).map (fun x => x.hart)) ∧
  (∀ n, s.cur ≠ .svc n → (t.svc n).hart = (s.svc n).hart)

/-- The current hart of t is h. -/
def HartIs (s t : State) (h : Hart) : Prop := t.hart = (s.setHart h).hart

/-- t is s with the current hart changed to h, and, beside it, only memory and what holds copies of it or waits on it. -/
def OnlyHart (s t : State) (h : Hart) : Prop := HartIs s t h ∧ OthersKept s t ∧ RegistersKept s t

/-- Every byte of memory is as before. -/
def MemoryKept (s t : State) : Prop := ∀ k, t.byte k = s.byte k

/-- Every byte of memory but the n from key on is as before. -/
def MemoryKeptBut (key n : Nat) (s t : State) : Prop := ∀ k, (k < key ∨ key + n ≤ k) → t.byte k = s.byte k

/-- No access is still to be performed, and no invalidation is on its way. -/
abbrev Settled (s : State) : Prop := (∀ p ∈ s.threads, p.2.pending = [] ∧ p.2.loads = []) ∧ s.invals = []

/-- The schedule of R190 lets the next access of the current hart be performed at once; a service core's always is (log entry 8). -/
abbrev AtOnce (s : State) : Prop := s.isSvc = true ∨ s.defer.headD false = false

/-- The current thread reads the n bytes at a key as the value v from then on (R187). -/
def SeesStored (t : State) (key n v : Nat) : Prop :=
  ∀ th, t.curThread = some th → ∀ i, i < n → (seen th t.byte (key + i)).toNat = v / 256 ^ i % 256

/-- The hart that has read sources, written rd, ORed flags and moved on. -/
def doneHart (h : Hart) (as : List Src) (extra : List Reg) (rd : Reg) (v : Word) (fl : BitVec 5) : Hart :=
  let g := putReg (readHart h as extra) rd v
  { g with flags := g.flags ||| fl, pc := g.pc + 4 }

/-! ### Memory accesses -/

/-- R28: pointer a with a byte offset names the effective address ea of an n-byte access. -/
abbrev Names (a : Word) (off : Int) (n ea : Nat) : Prop :=
  a.toNat / 2 ^ 52 % 4 = 0 ∧ (ea : Int) = (a.toNat % 2 ^ 52 : Nat) + off ∧ ea < 2 ^ 52 ∧ ea % n = 0

/-- A load: qualifier, size in bytes, whether it extends the sign, rd, the base, and the byte offset. -/
def loadOf : Instr → Option (Qual × Nat × Bool × Reg × Src × Int)
  | .ldB q rd ra off => some (q, 1, false, rd, ra, off.toInt)
  | .ldH q rd ra off => some (q, 2, false, rd, ra, 2 * off.toInt)
  | .ldW q rd ra off => some (q, 4, false, rd, ra, 4 * off.toInt)
  | .ldD q rd ra off => some (q, 8, false, rd, ra, 8 * off.toInt)
  | .ldBS q rd ra off => some (q, 1, true, rd, ra, off.toInt)
  | .ldHS q rd ra off => some (q, 2, true, rd, ra, 2 * off.toInt)
  | .ldWS q rd ra off => some (q, 4, true, rd, ra, 4 * off.toInt)
  | _ => none

/-- A store: qualifier, size in bytes, the register stored, the base, and the byte offset. -/
def storeOf : Instr → Option (Qual × Nat × Src × Src × Int)
  | .stB q rd ra off => some (q, 1, rd, ra, off.toInt)
  | .stH q rd ra off => some (q, 2, rd, ra, 2 * off.toInt)
  | .stW q rd ra off => some (q, 4, rd, ra, 4 * off.toInt)
  | .stD q rd ra off => some (q, 8, rd, ra, 8 * off.toInt)
  | _ => none

/-- The value of n bytes as a load writes it (R91). -/
def extended (signed : Bool) (n v : Nat) : Word :=
  if signed then BitVec.ofInt 64 (lowSigned v (8 * n)) else BitVec.ofNat 64 (v % 2 ^ (8 * n))

/-- No region's log is full for a write of n bytes at key (R326). -/
abbrev LogRoom (s : State) (key n : Nat) : Prop := ∀ th ∈ s.curThread, logFull s th.lkey key n = none

/-- The scope, release and acquire sides of an atomic, whether a deterministic run forbids it outside the thread's own
scratchpad, its sources, an unmarked source, its width in bytes, and, from the old value: the new value if it writes, rd's
value if it returns, and the flags. -/
structure Atom where
  sc : Scope
  rel : Bool
  acq : Bool
  det : Bool
  as : List Src
  extra : List Reg
  n : Nat
  rd : Reg
  ret : Bool
  new : Nat → Option Nat
  res : Nat → Word
  fl : Nat → BitVec 5

def plainAtom (ret d : Bool) (sc : Scope) (o : AOrd) (rd : Reg) (ra rb : Src) (det : Bool) (new : Nat → Option Nat) : Atom :=
  { sc := sc, rel := o == .rel || o == .ar, acq := o == .acq || o == .ar, det := ret || det, as := [ra, rb], extra := [],
    n := if d then 8 else 4, rd := rd, ret := ret, new := new,
    res := fun m => BitVec.ofInt 64 (lowSigned m (if d then 64 else 32)), fl := fun _ => 0 }

/-- R203: what each atomic does. -/
def atomOf (s : State) : Instr → Option Atom
  | .aadd ret d sc o rd ra rb =>
    some (plainAtom ret d sc o rd ra rb false (fun m => some ((m + val d rb) % 2 ^ wid d)))
  | .aand ret d sc o rd ra rb => some (plainAtom ret d sc o rd ra rb false (fun m => some (m &&& val d rb)))
  | .aor ret d sc o rd ra rb => some (plainAtom ret d sc o rd ra rb false (fun m => some (m ||| val d rb)))
  | .axor ret d sc o rd ra rb => some (plainAtom ret d sc o rd ra rb false (fun m => some (m ^^^ val d rb)))
  | .amin ret d sc o rd ra rb => some (plainAtom ret d sc o rd ra rb false (fun m =>
      some (if lowSigned m (wid d) ≤ lowSigned (val d rb) (wid d) then m else val d rb)))
  | .amax ret d sc o rd ra rb => some (plainAtom ret d sc o rd ra rb false (fun m =>
      some (if lowSigned (val d rb) (wid d) ≤ lowSigned m (wid d) then m else val d rb)))
  | .aminu ret d sc o rd ra rb =>
    some (plainAtom ret d sc o rd ra rb false (fun m => some (if m ≤ val d rb then m else val d rb)))
  | .amaxu ret d sc o rd ra rb =>
    some (plainAtom ret d sc o rd ra rb false (fun m => some (if val d rb ≤ m then m else val d rb)))
  | .aswp ret d sc o rd ra rb => some (plainAtom ret d sc o rd ra rb true (fun _ => some (val d rb)))
  | .adecp ret d sc o rd ra =>
    some { plainAtom ret d sc o rd ra ra true (fun m => if 0 < lowSigned m (wid d) then some (m - 1) else none) with as := [ra] }
  | .acas d sc o rd ra rb =>
    some { plainAtom true d sc o rd ra rb true
      (fun m => if m = (s.reg rd).toNat % 2 ^ wid d then some (val d rb) else none) with extra := [rd] }
  | .afadd ret d sc o rd ra rb =>
    let f : Fmt := if d then .fp64 else .fp32
    let sum (m : Nat) := fpAdd (fmtOf f) .rne (s.resFlush f) ((fmtOf f).operand (s.opFlush f) m)
      ((fmtOf f).operand (s.opFlush f) (val d rb))
    some { plainAtom ret d sc o rd ra rb true (fun m => some (sum m).1) with
      res := fun m => BitVec.ofNat 64 m, fl := fun m => if ret then (sum m).2.toBits else 0 }
  | _ => none
where
  wid (d : Bool) : Nat := if d then 64 else 32
  val (d : Bool) (rb : Src) : Nat := (s.reg rb.r).toNat % 2 ^ wid d

/-- R205: a deterministic run allows the access. -/
abbrev DetAllows (s : State) (det : Bool) (ea : Nat) : Prop :=
  ∀ th ∈ s.curThread, ∀ r ∈ s.curRun, r.det = true → det = true → ownPad th ea = true

/-- The log of R326 has room for the writes of the two dwords of a future cell, which in interleaved near space lie apart. -/
abbrev CellRoom (s : State) (p q : Nat) : Prop :=
  if q = p + 8 then LogRoom s p 16
  else LogRoom s p 8 ∧ LogRoom s q 8 ∧ ∀ th ∈ s.curThread, touchesMark s th.lkey p 8 = false

/-- Every byte of memory but the two dwords at p and q is as before. -/
def CellKeptBut (p q : Nat) (s t : State) : Prop :=
  ∀ k, (k < p ∨ p + 8 ≤ k) → (k < q ∨ q + 8 ≤ k) → t.byte k = s.byte k

end Sys2Proof.Claims

open Sys2Proof Sys2Proof.Machine Sys2Proof.Claims

/-! ### Registers, results and flags -/

/-- R16: x0 reads as zero and is never dead, a write to it is discarded, and a last-use mark on it changes what no register reads
as, nor whether it is live. -/
def Obligations.ZeroRegister : Prop :=
  ∀ (h : Hart) (v : Word), h.reg 0 = 0 ∧ h.isDead 0 = false ∧ h.setReg 0 v = h ∧
    ∀ r : Reg, (h.endSrc ⟨0, true⟩).reg r = h.reg r ∧ (h.endSrc ⟨0, true⟩).isDead r = h.isDead r

/-- The result of every integer, immediate, constant and tag instruction, and its frame: only the hart changes, and of it only
the destination, the ended sources, DEAD and the program counter. -/
def Obligations.IntegerResults : Prop :=
  ∀ (i : Instr) (s : State) (as : List Src) (extra : List Reg) (rd : Reg) (v : Word),
    intResult s.reg i = some (as, extra, rd, v) → i.wellFormed = true →
    CanRead s (as.map (fun a => a.r) ++ extra) → CanGoOn s →
    exec i s = .next (wrote s as extra rd v 0)

/-- R31: division by zero, the most negative number over −1, and every other division. -/
def Obligations.DivisionCorners : Prop :=
  ∀ (w : Bool) (rd : Reg) (ra rb : Src) (s : State),
    CanRead s [ra.r, rb.r] → CanGoOn s →
    (unsignedOf w (s.reg rb.r) = 0 →
      exec (.div w rd ra rb) s = .next (wrote s [ra, rb] [] rd (BitVec.allOnes 64) 0) ∧
      exec (.divu w rd ra rb) s = .next (wrote s [ra, rb] [] rd (BitVec.allOnes 64) 0) ∧
      exec (.rem w rd ra rb) s = .next (wrote s [ra, rb] [] rd (narrowed w (signedOf w (s.reg ra.r))) 0) ∧
      exec (.remu w rd ra rb) s = .next (wrote s [ra, rb] [] rd (narrowed w (signedOf w (s.reg ra.r))) 0)) ∧
    (signedOf w (s.reg ra.r) = -(2 ^ (widthOf w - 1)) → signedOf w (s.reg rb.r) = -1 →
      exec (.div w rd ra rb) s = .next (wrote s [ra, rb] [] rd (narrowed w (-(2 ^ (widthOf w - 1)))) 0) ∧
      exec (.rem w rd ra rb) s = .next (wrote s [ra, rb] [] rd 0 0)) ∧
    (unsignedOf w (s.reg rb.r) ≠ 0 →
      exec (.divu w rd ra rb) s =
        .next (wrote s [ra, rb] [] rd (narrowed w (unsignedOf w (s.reg ra.r) / unsignedOf w (s.reg rb.r) : Nat)) 0) ∧
      exec (.remu w rd ra rb) s =
        .next (wrote s [ra, rb] [] rd (narrowed w (unsignedOf w (s.reg ra.r) % unsignedOf w (s.reg rb.r) : Nat)) 0) ∧
      (¬ (signedOf w (s.reg ra.r) = -(2 ^ (widthOf w - 1)) ∧ signedOf w (s.reg rb.r) = -1) →
        ∀ q : Int, q = (signedOf w (s.reg ra.r)).tdiv (signedOf w (s.reg rb.r)) →
          exec (.div w rd ra rb) s = .next (wrote s [ra, rb] [] rd (narrowed w q) 0) ∧
          exec (.rem w rd ra rb) s =
            .next (wrote s [ra, rb] [] rd (narrowed w (signedOf w (s.reg ra.r) - signedOf w (s.reg rb.r) * q)) 0)))

/-- Floating point: rd takes the result and the flags are ORed into PCS; nothing else changes (R101, R104). That the b of the SR key is 0
where there is no second source, and that the result flush does not act on fmin and fmax, are the model's readings (log entries 82
and 76). -/
def Obligations.FloatResults : Prop :=
  ∀ (i : Instr) (s : State) (as : List Src) (extra : List Reg) (rd : Reg) (v : Nat) (fl : BitVec 5),
    fpResult s i = some (as, extra, rd, v, fl) → CanRead s (as.map (fun a => a.r) ++ extra) → CanGoOn s →
    exec i s = .next (wrote s as extra rd (BitVec.ofNat 64 v) fl)

/-- R29: an address addition keeps the tag and adds to VA; one that leaves the address space traps, and has no effect. -/
def Obligations.PointerAdds : Prop :=
  ∀ (s : State) (rd : Reg) (ra rb : Src) (imm : BitVec 16),
    (CanRead s [ra.r, rb.r] → CanGoOn s →
      ∀ n : Int, n = ((s.reg ra.r).toNat % 2 ^ 52 : Nat) + (s.reg rb.r).toInt →
        (0 ≤ n ∧ n < 2 ^ 52 → exec (.adda rd ra rb) s =
          .next (wrote s [ra, rb] [] rd (BitVec.ofNat 64 ((s.reg ra.r).toNat / 2 ^ 52 * 2 ^ 52 + n.toNat)) 0)) ∧
        (n < 0 ∨ 2 ^ 52 ≤ n → exec (.adda rd ra rb) s = .next (stopped s (.trap 4 0 (s.reg ra.r))))) ∧
    (CanRead s [ra.r] → CanGoOn s →
      ∀ n : Int, n = ((s.reg ra.r).toNat % 2 ^ 52 : Nat) + imm.toInt →
        (0 ≤ n ∧ n < 2 ^ 52 → exec (.addai rd ra imm) s =
          .next (wrote s [ra] [] rd (BitVec.ofNat 64 ((s.reg ra.r).toNat / 2 ^ 52 * 2 ^ 52 + n.toNat)) 0)) ∧
        (n < 0 ∨ 2 ^ 52 ≤ n → exec (.addai rd ra imm) s = .next (stopped s (.trap 4 0 (s.reg ra.r)))))

/-- R98, R100: a taken branch goes to PC + 4 × offset, or traps when that leaves the address space; one not taken goes on. -/
def Obligations.Branches : Prop :=
  ∀ (i : Instr) (s : State) (as : List Src) (c : Bool) (off : Int),
    branchOf s.reg i = some (as, c, off) → CanRead s (as.map (fun a => a.r)) →
    (c = true → ∀ t : Int, t = (s.hart.pc.toNat : Int) + 4 * off →
      (0 ≤ t ∧ t < 2 ^ 52 → exec i s = .next (jumped s as 0 0 t.toNat)) ∧
      (t < 0 ∨ 2 ^ 52 ≤ t → exec i s = .next (stopped s (.trap 4 0 (s.hart.pc.setWidth 64))))) ∧
    (c = false → CanGoOn s → exec i s = .next (jumped s as 0 0 (s.hart.pc.toNat + 4))) ∧
    (c = false → ¬ CanGoOn s → exec i s = .next (stopped s (.trap 4 0 (s.hart.pc.setWidth 64))))

/-- R99: jal and jalr write the link word PC + 4 and go to their target; a link or a target outside the address space traps, and so
does a jalr whose target is no multiple of 4; a jump to x0 writes no link and checks none. The pc is a multiple of 4 (PcAligned). -/
def Obligations.Jumps : Prop :=
  ∀ (s : State) (rd : Reg) (ra : Src) (off : BitVec 21) (imm : BitVec 16) (pc link : Word),
    pc = s.hart.pc.setWidth 64 → link = BitVec.ofNat 64 (s.hart.pc.toNat + 4) → s.hart.pc.toNat % 4 = 0 → CanRead s [ra.r] →
    (rd ≠ 0 → ¬ CanGoOn s → exec (.jal rd off) s = .next (stopped s (.trap 4 0 pc)) ∧
      exec (.jalr rd ra imm) s = .next (stopped s (.trap 4 0 pc))) ∧
    ((rd ≠ 0 → CanGoOn s) →
      (∀ t : Int, t = (s.hart.pc.toNat : Int) + 4 * off.toInt →
        (0 ≤ t ∧ t < 2 ^ 52 → exec (.jal rd off) s = .next (jumped s [] rd link t.toNat)) ∧
        (t < 0 ∨ 2 ^ 52 ≤ t → exec (.jal rd off) s = .next (stopped s (.trap 4 0 pc)))) ∧
      (∀ t : Int, t = ((s.reg ra.r).toNat % 2 ^ 52 : Nat) + 4 * imm.toInt →
        (0 ≤ t ∧ t < 2 ^ 52 → t % 4 = 0 → exec (.jalr rd ra imm) s = .next (jumped s [ra] rd link t.toNat)) ∧
        (0 ≤ t ∧ t < 2 ^ 52 → t % 4 ≠ 0 → exec (.jalr rd ra imm) s = .next (stopped s (.trap 5 2 (BitVec.ofInt 64 t)))) ∧
        (t < 0 ∨ 2 ^ 52 ≤ t → exec (.jalr rd ra imm) s = .next (stopped s (.trap 4 0 (s.reg ra.r))))))

/-! ### Memory -/

/-- R28: an address with bits 53:52 set, one outside the address space and a misaligned one trap, and the load or store has no
effect. -/
def Sys2Proof.Claims.AddressTraps : Prop :=
  ∀ (i : Instr) (s : State) (n : Nat) (as : List Src) (a : Word) (off : Int),
    ((∃ q sg rd ra, loadOf i = some (q, n, sg, rd, ra, off) ∧ as = [ra] ∧ a = s.reg ra.r) ∨
      (∃ q rd ra, storeOf i = some (q, n, rd, ra, off) ∧ as = [ra, rd] ∧ a = s.reg ra.r)) →
    CanRead s (as.map (fun a => a.r)) → CanGoOn s →
    (a.toNat / 2 ^ 52 % 4 ≠ 0 → exec i s = .next (stopped s (.trap 4 1 a))) ∧
    (a.toNat / 2 ^ 52 % 4 = 0 → ∀ ea : Int, ea = (a.toNat % 2 ^ 52 : Nat) + off →
      (ea < 0 ∨ 2 ^ 52 ≤ ea → exec i s = .next (stopped s (.trap 4 0 a))) ∧
      (0 ≤ ea → ea < 2 ^ 52 → ea % n ≠ 0 → exec i s = .next (stopped s (.trap 5 n.log2 (BitVec.ofInt 64 ea)))))

/-- R28, R75: what stops a load or a store at its place: q = 3 outside near space (R91, R92), the checks of near space in their
order (R223), and those of a page and its frame (R233 to R237, R366). -/
def Sys2Proof.Claims.PlaceFaults : Prop :=
  ∀ (i : Instr) (s r : State) (q : Qual) (n : Nat) (acc : Acc) (as : List Src) (a : Word) (off : Int) (ea tid : Nat) (th : Thread)
    (run : Run) (c : Ctx),
    ((∃ sg rd ra, loadOf i = some (q, n, sg, rd, ra, off) ∧ as = [ra] ∧ a = s.reg ra.r ∧ acc = .read) ∨
      (∃ rd ra, storeOf i = some (q, n, rd, ra, off) ∧ as = [ra, rd] ∧ a = s.reg ra.r ∧ acc = .write)) →
    CanRead s (as.map (fun a => a.r)) → CanGoOn s → Names a off n ea → s.cur = .thread tid → s.threads.get tid = some th →
    s.runs.get th.run = some run →
    r = readState s as [] → c = .run th.run th.coord th.core →
    (q = .near → isNear ea = false → exec i s = .next (stopped s (.fault 2 2 (BitVec.ofNat 64 ea)))) ∧
    (isNear ea = true →
      (nearTarget th.coord ea = none → exec i s = .next (stopped s (.fault 2 3 (BitVec.ofNat 64 ea)))) ∧
      ∀ ly ls lc l, nearTarget th.coord ea = some (ly, ls, lc, l) →
        (s.lsheds.get (lkey th.run ly ls) = none ∨ run.nly < ly ∨ run.nls < ls ∨ run.nlc < lc →
          exec i s = .next (stopped s (.fault 2 4 (BitVec.ofNat 64 ea)))) ∧
        ∀ x, s.lsheds.get (lkey th.run ly ls) = some x → ly ≤ run.nly → ls ≤ run.nls → lc ≤ run.nlc →
          (x.released.contains lc = true → exec i s = .next (stopped s (.trap 2 0 (BitVec.ofNat 64 ea)))) ∧
          (x.released.contains lc = false → 0x7E000 ≤ l → exec i s = .next (stopped s (.fault 2 6 (BitVec.ofNat 64 ea)))) ∧
          (x.released.contains lc = false → l < 0x7E000 → run.spad * 4096 ≤ l →
            exec i s = .next (stopped s (.fault 2 3 (BitVec.ofNat 64 ea))))) ∧
    (isNear ea = false → q ≠ .near →
      ((lookup r c acc ea).2 = .absent → exec i s = .next (stopped s (.fault 3 1 (BitVec.ofNat 64 ea)))) ∧
      ((lookup r c acc ea).2 = .bad → exec i s = .next (stopped s (.fault 3 2 (BitVec.ofNat 64 ea)))) ∧
      ∀ e l, (lookup r c acc ea).2 = .leaf e l →
        (acc = .write → bitAt e 61 = false → exec i s = .next (stopped s (.fault 3 3 (BitVec.ofNat 64 ea)))) ∧
        ((acc = .write → bitAt e 61 = true) → r.badLines = [] → granted r run.part (shedDev (coreShed th.core)) (leafAddr e l ea) = false →
          exec i s = .next (stopped s (.fault 2 7 (BitVec.ofNat 64 ea)))))

/-- The registers that an instruction of the integer, floating-point, branch, load, store or atomic forms reads, in the order in
which they are checked, and whether it continues sequentially whatever they hold. -/
def Sys2Proof.Claims.readsOf (s : State) (i : Instr) : Option (List Reg × Bool) :=
  match intResult s.reg i, fpResult s i, branchOf s.reg i, loadOf i, storeOf i, atomOf s i with
  | some (as, extra, _), _, _, _, _, _ => some (as.map (fun a => a.r) ++ extra, true)
  | _, some (as, extra, _), _, _, _, _ => some (as.map (fun a => a.r) ++ extra, true)
  | _, _, some (as, _), _, _, _ => some (as.map (fun a => a.r), false)
  | _, _, _, some (_, _, _, _, ra, _), _, _ => some ([ra.r], true)
  | _, _, _, _, some (_, _, rd, ra, _), _ => some ([ra.r, rd.r], true)
  | _, _, _, _, _, some x => some (x.as.map (fun a => a.r) ++ x.extra, true)
  | _, _, _, _, _, _ => none

/-- R21: in a run that traps dead reads, an instruction that reads a dead register takes the trap DEADREAD, with the first dead one
of its sources in UTVAL, and has no other effect. Which one comes first is log entry 14. -/
def Sys2Proof.Claims.DeadReadTraps : Prop :=
  ∀ (i : Instr) (s : State) (rs : List Reg) (go : Bool) (r : Reg), readsOf s i = some (rs, go) → i.wellFormed = true →
    s.drt = true → rs.find? s.hart.isDead = some r → exec i s = .next (stopped s (.trap 1 0 (BitVec.ofNat 64 r.val)))

/-- R100: at the last word of the address space an instruction that continues sequentially takes the trap ADDR_WRAP with its own
address, and has no other effect; that this comes before its own checks of addresses is log entry 77. -/
def Sys2Proof.Claims.LastWordTraps : Prop :=
  ∀ (i : Instr) (s : State) (rs : List Reg), readsOf s i = some (rs, true) → i.wellFormed = true → CanRead s rs → ¬ CanGoOn s →
    exec i s = .next (stopped s (.trap 4 0 (s.hart.pc.setWidth 64)))

/-- R21, R84, R87, R89, R100, R223, R237: dead sources, effective addresses, places, and the last word: which trap or fault each takes. Which of several dead registers UTVAL names, and that the last word's trap precedes an instruction's own address checks, are the model's choices (log entries 14 and 77). -/
def Obligations.SourceAndAddressTraps : Prop := Claims.AddressTraps ∧ Claims.PlaceFaults ∧ Claims.DeadReadTraps ∧ Claims.LastWordTraps

/-- R91, R94: a load writes the bytes at its address to rd, zero- or sign-extended, and changes no byte of memory; one that is
not served by the L1 takes them from their home. One that the schedule of R190 holds back (log entry 8) is pending until it is
performed, and the rest of its effect is the same. -/
def Obligations.Loads : Prop :=
  ∀ (i : Instr) (s u : State) (q : Qual) (n : Nat) (sg : Bool) (rd : Reg) (ra : Src) (off : Int) (ea : Nat) (p : Place),
    loadOf i = some (q, n, sg, rd, ra, off) → CanRead s [ra.r] → CanGoOn s → Names (s.reg ra.r) off n ea →
    (q = .near → isNear ea = true) → placeMem (readState s [ra] []) .read ea = .ok (u, p) → Settled s →
    ∃ (t : State) (v : Nat), exec i s = .next t ∧ OthersKept s t ∧ RegistersKept s t ∧ MemoryKept s t ∧
      v = leVal (loadBytes u p (q == .plain) n).2 ∧ (q ≠ .plain ∨ p.near = true ∨ p.ms = true → v = s.value p.key n) ∧
      (AtOnce s → HartIs s t (doneHart s.hart [ra] [] rd (extended sg n v) 0)) ∧
      (¬ AtOnce s → HartIs s t (doneHart s.hart [ra] [] 0 0 0) ∧ ∀ th, t.curThread = some th →
        th.loads = [⟨rd, p.key, n, sg, q == .plain && !p.near && !p.ms⟩])

/-- R92, R187: a store writes the low bytes of its source at its address, as the thread sees them from then on, and at their
home unless the store is performed later; no other byte and no register changes. That it is at home at once when the next bit of
the schedule is false is the model's choice (log entry 8). -/
def Obligations.Stores : Prop :=
  ∀ (i : Instr) (s u : State) (q : Qual) (n : Nat) (rd ra : Src) (off : Int) (ea : Nat) (p : Place),
    storeOf i = some (q, n, rd, ra, off) → i.wellFormed = true → CanRead s [ra.r, rd.r] → CanGoOn s →
    Names (s.reg ra.r) off n ea → (q = .near → isNear ea = true) →
    placeMem (readState s [ra, rd] []) .write ea = .ok (u, p) → LogRoom u p.key n → Settled s →
    ∃ t, exec i s = .next t ∧ OnlyHart s t (doneHart s.hart [ra, rd] [] 0 0 0) ∧ MemoryKeptBut p.key n s t ∧
      SeesStored t p.key n (s.reg rd.r).toNat ∧ (AtOnce s → t.value p.key n = (s.reg rd.r).toNat % 2 ^ (8 * n))

/-- R201: an acquire load reads its home, and a release store writes the low bytes of its source, at their home unless it is
performed later (log entry 8). -/
def Obligations.AcquireRelease : Prop :=
  ∀ (w : Bool) (sc : Scope) (s u : State) (rd : Reg) (rs ra : Src) (off : BitVec 12) (ea n : Nat) (p : Place),
    n = (if w then 4 else 8) → Names (s.reg ra.r) (n * off.toInt) n ea → CanGoOn s → Settled s →
    (CanRead s [ra.r] → placeMem (readState s [ra] []) .read ea = .ok (u, p) →
      ∃ t, exec (.ldacq w sc rd ra off) s = .next t ∧ MemoryKept s t ∧
        OnlyHart s t (doneHart s.hart [ra] [] rd (BitVec.ofNat 64 (s.value p.key n)) 0)) ∧
    (CanRead s [ra.r, rs.r] → placeMem (readState s [ra, rs] []) .write ea = .ok (u, p) → LogRoom u p.key n →
      ∃ t, exec (.strel w sc rs ra off) s = .next t ∧ MemoryKeptBut p.key n s t ∧
        SeesStored t p.key n (s.reg rs.r).toNat ∧ (AtOnce s → t.value p.key n = (s.reg rs.r).toNat % 2 ^ (8 * n)) ∧
        OnlyHart s t (doneHart s.hart [ra, rs] [] 0 0 0))

/-- R203: an atomic reads its location, writes the new value there and returns the old one, at one instant. A relaxed one of a thread
that the schedule holds back (R190, R206, log entry 8), to bytes in no marked range, is pending, and what is pending does just that. -/
def Sys2Proof.Claims.Atomics : Prop :=
  ∀ (i : Instr) (s u : State) (x : Atom) (ra : Src) (ea : Nat) (p : Place),
    atomOf s i = some x → i.wellFormed = true → x.as.head? = some ra → CanRead s (x.as.map (fun a => a.r) ++ x.extra) →
    CanGoOn s → Names (s.reg ra.r) 0 x.n ea →
    place (readState s x.as x.extra) (readState s x.as x.extra).ctx .write ea = .ok (u, p) → frameBusy u (curWaiter s) p.key = false →
    DetAllows u x.det ea → LogRoom u p.key x.n → Settled s → s.isSvc = true ∨ s.curThread.isSome = true →
    ∃ t, exec i s = .next t ∧
      (AtOnce s ∨ x.rel = true ∨ x.acq = true ∨ (∀ th ∈ s.curThread, touchesMark u th.lkey p.key x.n = true) → MemoryKeptBut p.key x.n s t ∧
        t.value p.key x.n = (x.new (s.value p.key x.n)).getD (s.value p.key x.n) % 2 ^ (8 * x.n) ∧
        OnlyHart s t (doneHart s.hart x.as x.extra (if x.ret then x.rd else 0) (x.res (s.value p.key x.n))
          (x.fl (s.value p.key x.n)))) ∧
      (¬ AtOnce s → x.rel = false → x.acq = false → (∀ th ∈ s.curThread, touchesMark u th.lkey p.key x.n = false) →
        MemoryKept s t ∧ OnlyHart s t (doneHart s.hart x.as x.extra 0 0 0) ∧
        ∀ th, t.curThread = some th → ∃ a, th.pending = [⟨p.key, List.replicate x.n 0, false, some a⟩] ∧
          a.rd = (if x.ret then some x.rd else none) ∧
          ∀ m, m < 2 ^ (8 * x.n) → ∀ w, w = a.kind.apply (8 * x.n) m a.v →
            (if w.2.1 then w.1 else m) % 2 ^ (8 * x.n) = (x.new m).getD m % 2 ^ (8 * x.n) ∧
            (x.ret = true → a.kind.old (8 * x.n) m = x.res m ∧ w.2.2 = x.fl m))

/-- R205: in a deterministic run an atomic that returns a value, or whose effect depends on order, faults outside the thread's
own scratchpad. -/
def Sys2Proof.Claims.DeterministicAtomics : Prop :=
  ∀ (i : Instr) (s u : State) (x : Atom) (ra : Src) (ea : Nat) (p : Place) (th : Thread) (r : Run),
    atomOf s i = some x → i.wellFormed = true → x.as.head? = some ra → CanRead s (x.as.map (fun a => a.r) ++ x.extra) →
    CanGoOn s → Names (s.reg ra.r) 0 x.n ea →
    place (readState s x.as x.extra) (readState s x.as x.extra).ctx .write ea = .ok (u, p) → frameBusy u (curWaiter s) p.key = false →
    s.curThread = some th → s.curRun = some r → r.det = true → x.det = true → ownPad th ea = false →
    exec i s = .next (stopped s (.fault 4 0 (BitVec.ofNat 64 ea)))

/-- R203, R205: atomics, and what a deterministic run forbids of them. -/
def Obligations.AtomicAccesses : Prop := Claims.Atomics ∧ Claims.DeterministicAtomics

/-- R193, R200: after a fence with an acquire side at device or system scope the L1 of its core holds no line, and at system scope its device
holds no copy of another's. That a fence with a release side leaves no access of the thread to be performed, at core and shed scope too, where
R193 names fewer, and that one with an acquire side leaves no load and no atomic, is the model's choice (log entry 8). -/
def Sys2Proof.Claims.Fences : Prop :=
  ∀ (k : FenceKind) (sc : Scope) (s : State), CanGoOn s → (∀ th, s.curThread = some th → NoReturns th) →
    ∃ t, exec (.fence k sc) s = .next t ∧ OnlyHart s t (doneHart s.hart [] [] 0 0 0) ∧ (Settled s → MemoryKept s t) ∧
      (k ≠ .acq → ∀ th, t.curThread = some th → th.pending = [] ∧ th.loads = []) ∧
      (k ≠ .rel → ∀ th, t.curThread = some th → th.loads = [] ∧ ∀ p ∈ th.pending, p.atom = none) ∧
      (k ≠ .rel → sc = .dev ∨ sc = .sys → ∀ th, t.curThread = some th → (t.core th.core).l1 = []) ∧
      (k ≠ .rel → sc = .sys → (s.curThread.isSome ∨ s.isSvc = true) → ∀ l ∈ t.slices, l.1 / 2 ^ 43 ≠ s.ctx.dev)

/-- That a waita in H mode may wait in the scratchpads' window is the model's choice (log entry 108). R242: a waita whose entry already holds writes 0 to rd, one that finds the table full writes 2, and any other parks its
hart in the table; one on near space faults WAIT_NEAR. -/
def Sys2Proof.Claims.WaitOnAddress : Prop :=
  ∀ (w all : Bool) (c : WCmp) (rd : Reg) (ra rb : Src) (s u : State) (ea n : Nat) (p : Place) (e : Wait),
    n = (if w then 4 else 8) → CanRead s [ra.r, rb.r, rd] → CanGoOn s → Names (s.reg ra.r) 0 n ea →
    (isNear ea = true → s.isPhys = false → exec (.waita w all c rd ra rb) s = .next (stopped s (.fault 2 10 (BitVec.ofNat 64 ea)))) ∧
    ((isNear ea = false ∨ s.isPhys = true) →
    place (readState s [ra, rb] [rd]) (readState s [ra, rb] [rd]).ctx .read ea = .ok (u, p) → frameBusy u (curWaiter s) p.key = false →
    e = ⟨p.key, n, (s.reg rd).toNat % 2 ^ (8 * n), c, (s.reg rb.r).toNat % 2 ^ (8 * n), all, curWaiter s, p.ms⟩ → Settled s →
    ∃ t, exec (.waita w all c rd ra rb) s = .next t ∧ MemoryKept s t ∧ OthersKept s t ∧ RegistersKept s t ∧
      (cmpHolds c (s.value p.key n &&& e.mask) (e.expect &&& e.mask) = true →
        HartIs s t (doneHart s.hart [ra, rb] [rd] rd 0 0) ∧ t.waits = s.waits) ∧
      (cmpHolds c (s.value p.key n &&& e.mask) (e.expect &&& e.mask) = false → waitFull s p = true →
        HartIs s t (doneHart s.hart [ra, rb] [rd] rd 2 0) ∧ t.waits = s.waits) ∧
      (cmpHolds c (s.value p.key n &&& e.mask) (e.expect &&& e.mask) = false → waitFull s p = false →
        t.waits.get s.waits.fresh = some e ∧
        (∀ tid th, Issues s tid th → ∃ th', t.threads.get tid = some th' ∧
          th'.park = .waita rd s.waits.fresh (endRegs [ra, rb]) ∧ th'.hart.pc = th.hart.pc) ∧
        (∀ k, IssuesSvc s k → (t.svc k).park = .waita rd s.waits.fresh (endRegs [ra, rb]) ∧ (t.svc k).hart.pc = (s.svc k).hart.pc)))

/-- R245: wakea removes the oldest entry on its dword, wakea.all every one; no register and no byte of memory changes. -/
def Sys2Proof.Claims.Wakes : Prop :=
  ∀ (s u : State) (ra : Src) (ea : Nat) (p : Place),
    CanRead s [ra.r] → CanGoOn s → ea = (s.reg ra.r).toNat % 2 ^ 52 / 8 * 8 → Settled s →
    (isNear ea = true ∧ s.isPhys = false →
      exec (.wakea ra) s = .next (wrote s [ra] [] 0 0 0) ∧ exec (.wakeaAll ra) s = .next (wrote s [ra] [] 0 0 0)) ∧
    (isNear ea = false ∨ s.isPhys = true →
      place (readState s [ra] []) (readState s [ra] []).ctx .read ea = .ok (u, p) → frameBusy u (curWaiter s) p.key = false →
      ∃ t t', exec (.wakea ra) s = .next t ∧ exec (.wakeaAll ra) s = .next t' ∧
        OnlyHart s t (doneHart s.hart [ra] [] 0 0 0) ∧ OnlyHart s t' (doneHart s.hart [ra] [] 0 0 0) ∧
        MemoryKept s t ∧ MemoryKept s t' ∧
        (∀ e ∈ t'.waits, e.2.overlaps p.key 8 = false) ∧
        (∀ k w, (s.waits.filter (fun e => e.2.overlaps p.key 8)).head? = some (k, w) → t.waits = s.waits.erase k) ∧
        ((∀ e ∈ s.waits, e.2.overlaps p.key 8 = false) → t.waits = s.waits))

/-- R242, R245: waita, wakea and wakea.all. -/
def Obligations.WaitsAndWakes : Prop := Claims.WaitOnAddress ∧ Claims.Wakes

/-- R95, R232, R248: pf and l1inv change no register and no byte of memory, and home writes rd only. -/
def Sys2Proof.Claims.CacheForms : Prop :=
  ∀ (s : State) (q : Qual) (ra : Src) (rd : Reg) (off : BitVec 12), CanRead s [ra.r] → CanGoOn s →
    (∀ p ∈ s.threads, NoReturns p.2) →
    (∃ t, exec (.pf q ra off) s = .next t ∧ OnlyHart s t (doneHart s.hart [ra] [] 0 0 0) ∧ (Settled s → MemoryKept s t)) ∧
    (∃ t, exec (.l1inv ra) s = .next t ∧ OnlyHart s t (doneHart s.hart [ra] [] 0 0 0) ∧ MemoryKept s t) ∧
    exec (.home rd ra) s = .next (wrote s [ra] [] rd (homeWord s ((s.reg ra.r).toNat % 2 ^ 52)) 0)

/-- R193, R200, R95, R232, R248: fences, prefetches, invalidations and home. What a fence leaves to be performed at each scope is the model's choice (log entry 8). -/
def Obligations.FencesAndCaches : Prop := Claims.Fences ∧ Claims.CacheForms

/-- R218, R219: fget reads a full cell, ffill fills an empty one and raises its count, fclr empties one. -/
def Obligations.Futures : Prop :=
  ∀ (s u : State) (rd : Reg) (ra rb : Src) (ea v c : Nat) (p q : Place),
    s.isSvc = false → CanRead s [ra.r, rb.r] → CanGoOn s → Names (s.reg ra.r) 0 16 ea → Settled s →
    v = s.value p.key 8 → c = s.value q.key 8 → (p.key + 8 ≤ q.key ∨ q.key + 8 ≤ p.key) → c / 2 % 2 ^ 31 = 0 →
    (c % 2 = 1 → place16 (readState s [ra] []) .read ea = .ok (u, p, q) → CanRead s [ra.r] →
      ∃ t, exec (.fget rd ra) s = .next t ∧ MemoryKept s t ∧ OnlyHart s t (doneHart s.hart [ra] [] rd (BitVec.ofNat 64 v) 0)) ∧
    (c % 2 = 0 → place16 (readState s [ra] []) .read ea = .ok (u, p, q) → CanRead s [ra.r] →
      exec (.fget rd ra) s = .next (stopped s (.trap 3 0 (BitVec.ofNat 64 ea)))) ∧
    (c % 2 = 0 → place16 (readState s [ra, rb] []) .write ea = .ok (u, p, q) → CellRoom u p.key q.key →
      ∃ t, exec (.ffill ra rb) s = .next t ∧ CellKeptBut p.key q.key s t ∧ t.value p.key 8 = (s.reg rb.r).toNat ∧
        t.value q.key 8 = (c / 2 ^ 32 + 1) % 2 ^ 32 * 2 ^ 32 + 1 ∧ OnlyHart s t (doneHart s.hart [ra, rb] [] 0 0 0)) ∧
    (c % 2 = 1 → place16 (readState s [ra, rb] []) .write ea = .ok (u, p, q) →
      exec (.ffill ra rb) s = .next (stopped s (.fault 2 17 (BitVec.ofNat 64 ea)))) ∧
    (place16 (readState s [ra] []) .write ea = .ok (u, p, q) → CellRoom u p.key q.key → CanRead s [ra.r] →
      ∃ t, exec (.fclr ra) s = .next t ∧ CellKeptBut p.key q.key s t ∧ t.value p.key 8 = v ∧ t.value q.key 8 = c / 2 * 2 ∧
        OnlyHart s t (doneHart s.hart [ra] [] 0 0 0))

/-- R187, R190, R203, R243, R246, R221: a pending store that is performed reaches its home, a pending load its register, a pending atomic
both at one instant, or each is held back further (log entry 8); a woken waiter gets its status, which waits while its device has stopped (R395); and a pause takes 33 steps of the model's clock, which stand for R221's
32 cycles after it issues (log entry 18). -/
def Sys2Proof.Claims.MemoryHappenings : Prop :=
  ∀ (s : State) (tid : Nat) (x : Thread), s.threads.get tid = some x →
    (x.pending ≠ [] ∨ x.loads ≠ [] → s.defer.headD false = true →
      exec (.accessPerformed tid 0) s = .next ({ s with defer := s.defer.tail }.post (.accessPerformed tid 1))) ∧
    (∀ l, (∀ p ∈ s.threads, p.2.pending = []) → x.loads = [l] → 0 < l.size → s.defer.headD false = false →
      ∃ t y v, exec (.accessPerformed tid 0) s = .next t ∧ MemoryKept s t ∧ RegistersKept s t ∧ t.threads.get tid = some y ∧
        y.loads = [] ∧ y.hart = putReg x.hart l.rd (extended l.signed l.size v) ∧ (l.cached = false → v = s.value l.key l.size)) ∧
    (∀ p ps a n, x.pending = p :: ps → p.atom = some a → n = p.bytes.length → 0 < n → s.defer.headD false = false →
      ∃ t y, exec (.accessPerformed tid 0) s = .next t ∧ t.threads.get tid = some y ∧ y.pending = ps ∧ MemoryKeptBut p.key n s t ∧
        (∀ w, w = a.kind.apply (8 * n) (s.value p.key n) a.v →
          t.value p.key n = (if w.2.1 then w.1 else s.value p.key n) % 2 ^ (8 * n)) ∧
        y.hart = a.give (8 * n) (s.value p.key n) x.hart) ∧
    (∀ p ps, x.pending = p :: ps → p.atom = none → p.bytes ≠ [] → s.defer.headD false = false →
      ∃ t, exec (.accessPerformed tid 0) s = .next t ∧ (t.threads.get tid).map (fun y => y.pending) = some ps ∧
        MemoryKeptBut p.key p.bytes.length s t ∧ t.bytes p.key p.bytes.length = p.bytes ∧ RegistersKept s t ∧
        ∀ n, (t.threads.get n).map (fun y => y.hart) = (s.threads.get n).map (fun y => y.hart)) ∧
    (∀ rd st sys ends, tid < svcKey 0 → x.park = .woken rd st sys ends → coreWorks s x.core = false →
      exec (.waitaWake tid) s = .next (s.post (.waitaWake tid))) ∧
    (∀ rd st sys ends, tid < svcKey 0 → x.park = .woken rd st sys ends → coreWorks s x.core = true →
      ∃ t y, exec (.waitaWake tid) s = .next t ∧ MemoryKept s t ∧ t.threads.get tid = some y ∧ y.park = .none ∧
        y.hart = { putReg { x.hart with regs := ends.foldl (fun m r => m.erase r.val) x.hart.regs } rd (BitVec.ofNat 64 st)
          with pc := x.hart.pc + 4 }) ∧
    (∀ till, x.park = .pause till → till ≤ s.clock →
      exec (.pauseEnd tid) s = .next (s.setThread tid { x with park := .none })) ∧
    (Issues s tid x → CanGoOn s →
      ∃ t y, exec .pause s = .next t ∧ t.threads.get tid = some y ∧ y.hart = doneHart x.hart [] [] 0 0 0 ∧
        y.park = .pause (s.clock + 33) ∧ MemoryKept s t ∧ RegistersKept s t ∧ OthersKept s t)

/-! ### Phasers and rings -/

/-- R210, R212 to R214: a registration joins the current phase of a phaser that has not started, else the next one; a broken phaser,
a member and a lack of room have their status words. With no record the PHASE of FULL is 0, which is the model's choice (log entry 70). -/
def Sys2Proof.Claims.PhaserRegistration : Prop :=
  ∀ (s : State) (tid : Nat) (th : Thread) (m : PhMode) (ph : BitVec 6) (rd : Reg), Issues s tid th → CanGoOn s →
    (phGet s th.run th.lkey ph.toNat = none →
      (64 ≤ phRecords s th.lkey → exec (.phreg m ph rd) s = .next (wrote s [] [] rd (phWord 0 0 2) 0)) ∧
      (phRecords s th.lkey < 64 → (s.runs.get th.run).isSome = true → (s.lsheds.get th.lkey).isSome = true →
        ∃ t p', exec (.phreg m ph rd) s = .next t ∧ OnlyHart s t (doneHart s.hart [] [] rd (phWord 0 0 0) 0) ∧ MemoryKept s t ∧
          phGet t th.run th.lkey ph.toNat = some p' ∧ p'.members = [(tid, ⟨th.lkey, m, -1, -1, 0, none, -1⟩)] ∧ p'.phase = 0)) ∧
    ∀ p, phGet s th.run th.lkey ph.toNat = some p →
      let full := decide (512 ≤ (p.members.filter (fun q => q.2.lk == th.lkey)).length) ||
        ((p.counters.get th.lkey).isNone && decide (64 ≤ phRecords s th.lkey))
      (p.broken ≠ 0 → exec (.phreg m ph rd) s = .next (wrote s [] [] rd (phWord p.phase p.broken 1) 0)) ∧
      (p.broken = 0 → (p.members.get tid).isSome = true →
        exec (.phreg m ph rd) s = .next (wrote s [] [] rd (phWord p.phase 0 5) 0)) ∧
      (p.broken = 0 → p.members.get tid = none → full = true →
        exec (.phreg m ph rd) s = .next (wrote s [] [] rd (phWord p.phase 0 2) 0)) ∧
      (p.broken = 0 → p.members.get tid = none → full = false → ∀ j : Nat, j = (if p.started then p.phase + 1 else 0) →
        ∃ t p', exec (.phreg m ph rd) s = .next t ∧ OnlyHart s t (doneHart s.hart [] [] rd (phWord j 0 0) 0) ∧ MemoryKept s t ∧
          phGet t th.run th.lkey ph.toNat = some p' ∧
          p'.members = p.members.set tid ⟨th.lkey, m, (j : Int) - 1, (j : Int) - 1, j, none, -1⟩ ∧ p'.phase = p.phase)

/-- The record after a member has signalled the current phase (R214). -/
def Sys2Proof.Claims.signalled (p : Phaser) (tid : Nat) (m : Member) (kind : Option PhRed) (value : Word) : Phaser :=
  { p with members := p.members.set tid { m with sig := p.phase }, started := true, had := true, kind := kind, value := value }

/-- The phaser stands as p, or, when p's current phase is complete, has gone on to the next one (R211). -/
def Sys2Proof.Claims.PhaserStands (t : State) (run l ph : Nat) (p : Phaser) : Prop :=
  ∃ p', phGet t run l ph = some p' ∧
    (p.complete = false → p' = p) ∧
    (p.complete = true → p'.phase = p.phase + 1 ∧ p'.had = false ∧ p'.kind = none ∧
      p'.last = (if p.kind.isSome then p.value else 0))

/-- R212, R214, R215: a signal counts toward the current phase, with its value; a second one for it waits, and one on a broken phaser
has no effect. A thread that is no member, or that only waits, faults PHASER_MEMBER, on a broken phaser too (there log entry 71). A member
that a recovery has put back signals again, without effect, the phases that it had signalled (log entry 114). -/
def Obligations.PhaserSignals : Prop :=
  ∀ (s : State) (tid : Nat) (th : Thread) (ph : BitVec 6) (k : PhRed) (ra : Src), Issues s tid th → CanGoOn s →
    (phMember s th ph.toNat tid = none ∨ (∃ p m, phMember s th ph.toNat tid = some (p, m) ∧ m.mode = .wait) →
      exec (.phsig ph) s = .next (stopped s (wordFault 15 (.phsig ph))) ∧
      (CanRead s [ra.r] → exec (.phsigv k ph ra) s = .next (stopped s (wordFault 15 (.phsigv k ph ra))))) ∧
    ∀ p m, phMember s th ph.toNat tid = some (p, m) → m.mode ≠ .wait →
      (p.broken ≠ 0 → exec (.phsig ph) s = .next (wrote s [] [] 0 0 0) ∧
        (CanRead s [ra.r] → exec (.phsigv k ph ra) s = .next (wrote s [ra] [] 0 0 0))) ∧
      (p.broken = 0 → m.sig < m.past → ∀ p₁, p₁ = p.replaySignal th.lkey tid m →
        (∃ t, exec (.phsig ph) s = .next t ∧ HartIs s t (doneHart s.hart [] [] 0 0 0) ∧ (Settled s → MemoryKept s t) ∧
          RegistersKept s t ∧ PhaserStands t th.run th.lkey ph.toNat p₁) ∧
        (CanRead s [ra.r] → ∃ t, exec (.phsigv k ph ra) s = .next t ∧ HartIs s t (doneHart s.hart [ra] [] 0 0 0) ∧
          (Settled s → MemoryKept s t) ∧ RegistersKept s t ∧ PhaserStands t th.run th.lkey ph.toNat p₁)) ∧
      (p.broken = 0 → m.past ≤ m.sig → m.sig < p.phase →
        (∃ t, exec (.phsig ph) s = .next t ∧ HartIs s t (doneHart s.hart [] [] 0 0 0) ∧ (Settled s → MemoryKept s t) ∧
          RegistersKept s t ∧ PhaserStands t th.run th.lkey ph.toNat (signalled p tid m p.kind p.value)) ∧
        (CanRead s [ra.r] →
          (p.kind = none ∨ p.kind = some k → ∃ t, exec (.phsigv k ph ra) s = .next t ∧
            HartIs s t (doneHart s.hart [ra] [] 0 0 0) ∧ (Settled s → MemoryKept s t) ∧ RegistersKept s t ∧
            PhaserStands t th.run th.lkey ph.toNat (signalled p tid m (some k)
              (if p.kind = none then s.reg ra.r else phCombine k p.value (s.reg ra.r)))) ∧
          (∀ k', p.kind = some k' → k' ≠ k → ∃ t p', exec (.phsigv k ph ra) s = .next t ∧
            HartIs s t (doneHart s.hart [ra] [] 0 0 0) ∧ phGet t th.run th.lkey ph.toNat = some p' ∧ p'.broken = 3))) ∧
      (p.broken = 0 → m.past ≤ m.sig → (p.phase : Int) ≤ m.sig → exec (.phsig ph) s = .next (stopped s (.wait (.phase ph.toNat))) ∧
        (CanRead s [ra.r] → exec (.phsigv k ph ra) s = .next (stopped s (.wait (.phase ph.toNat)))))

/-- R210: a departure ends the membership. -/
def Sys2Proof.Claims.PhaserDeparture : Prop :=
  ∀ (s : State) (tid : Nat) (th : Thread) (ph : BitVec 6), Issues s tid th → CanGoOn s →
    ∃ t, exec (.phdrop ph) s = .next t ∧ HartIs s t (doneHart s.hart [] [] 0 0 0) ∧ (Settled s → MemoryKept s t) ∧
      RegistersKept s t ∧ phMember t th ph.toNat tid = none

/-- R210, R214: phreg and phdrop. -/
def Obligations.PhaserMembership : Prop := Claims.PhaserRegistration ∧ Claims.PhaserDeparture

/-- R212 to R214, R216: phwait observes a phase that is complete, and else parks; phnext signals first, and waits for the phase when it
has signalled it already. NOTMEMBER, UNSIGNALLED and BROKEN are answered as R213 says; that a thread that is no member gets BROKEN on
a broken phaser is log entry 71, that PHASE is 0 with no record log entry 70, and what phnext of a member that a recovery has put back does
log entry 114. -/
def Obligations.PhaserWaits : Prop :=
  ∀ (s : State) (tid : Nat) (th : Thread) (ph : BitVec 6) (rd : Reg), Issues s tid th → CanGoOn s →
    (phGet s th.run th.lkey ph.toNat = none →
      exec (.phwait ph rd) s = .next (wrote s [] [] rd (phWord 0 0 3) 0) ∧
      exec (.phnext ph rd) s = .next (wrote s [] [] rd (phWord 0 0 3) 0)) ∧
    (∀ p, phGet s th.run th.lkey ph.toNat = some p → p.broken = 0 → p.members.get tid = none →
      exec (.phwait ph rd) s = .next (wrote s [] [] rd (phWord p.phase 0 3) 0) ∧
      exec (.phnext ph rd) s = .next (wrote s [] [] rd (phWord p.phase 0 3) 0)) ∧
    (∀ p, phGet s th.run th.lkey ph.toNat = some p → p.broken ≠ 0 →
      ∀ i, i = Instr.phwait ph rd ∨ i = Instr.phnext ph rd → ∃ t, exec i s = .next t ∧
        OnlyHart s t (doneHart s.hart [] [] rd (phWord p.phase p.broken 1) 0) ∧ MemoryKept s t) ∧
    (∀ p m, phMember s th ph.toNat tid = some (p, m) → p.broken = 0 →
      (m.mode = .sig → exec (.phwait ph rd) s = .next (wrote s [] [] rd (phWord p.phase 0 3) 0)) ∧
      (m.mode ≠ .both → exec (.phnext ph rd) s = .next (wrote s [] [] rd (phWord p.phase 0 3) 0)) ∧
      (m.mode = .wait → m.obs < (p.phase : Int) - 1 →
        ∃ t, exec (.phwait ph rd) s = .next t ∧ OnlyHart s t (doneHart s.hart [] [] rd (phWord ((p.phase : Int) - 1) 0 0) 0)) ∧
      (m.mode = .wait → (p.phase : Int) - 1 ≤ m.obs →
        exec (.phwait ph rd) s = .next (s.modThread tid (fun x => { x with park := .phaser ph.toNat rd p.phase }))) ∧
      (m.mode = .both → m.sig ≤ m.obs → exec (.phwait ph rd) s = .next (wrote s [] [] rd (phWord p.phase 0 4) 0)) ∧
      (m.mode = .both → m.obs < m.sig → m.sig < p.phase →
        ∃ t, exec (.phwait ph rd) s = .next t ∧ OnlyHart s t (doneHart s.hart [] [] rd (phWord m.sig 0 0) 0)) ∧
      (m.mode = .both → m.obs < m.sig → (p.phase : Int) ≤ m.sig →
        exec (.phwait ph rd) s = .next (s.modThread tid (fun x => { x with park := .phaser ph.toNat rd m.sig }))) ∧
      (m.mode = .both → m.past ≤ m.sig → (p.phase : Int) ≤ m.sig → exec (.phnext ph rd) s = .next (stopped s (.wait (.phase ph.toNat)))) ∧
      (m.mode = .both → m.past ≤ m.sig → m.obs < p.phase → m.sig < p.phase →
        ((signalled p tid m p.kind p.value).complete = true →
          ∃ t, exec (.phnext ph rd) s = .next t ∧ HartIs s t (doneHart s.hart [] [] rd (phWord p.phase 0 0) 0) ∧
            (Settled s → MemoryKept s t)) ∧
        ((signalled p tid m p.kind p.value).complete = false →
          ∃ t x, exec (.phnext ph rd) s = .next t ∧ t.threads.get tid = some x ∧ x.hart = th.hart ∧
            x.park = .phaser ph.toNat rd p.phase ∧ (Settled s → MemoryKept s t))) ∧
      (m.mode = .both → m.sig < m.past → m.sig < p.phase → m.obs ≤ m.sig → ∀ p₁, p₁ = p.replaySignal th.lkey tid m →
        (m.sig + 1 < p.phase ∨ p₁.complete = true →
          ∃ t, exec (.phnext ph rd) s = .next t ∧ HartIs s t (doneHart s.hart [] [] rd (phWord (m.sig + 1) 0 0) 0) ∧
            (Settled s → MemoryKept s t)) ∧
        (m.sig + 1 = p.phase → p₁.complete = false →
          ∃ t x, exec (.phnext ph rd) s = .next t ∧ t.threads.get tid = some x ∧ x.hart = th.hart ∧
            x.park = .phaser ph.toNat rd p.phase ∧ (Settled s → MemoryKept s t))))

/-- R211, R212: phexpect adds to the signed 48-bit byte counter of its logical shed; a count of 2^47 and more, or a counter below
zero, breaks the phaser; on a broken one it has no effect, and a thread that is no member faults, on a broken one too (there log entry 71). -/
def Sys2Proof.Claims.PhaserExpects : Prop :=
  ∀ (s : State) (tid : Nat) (th : Thread) (ph : BitVec 6) (ra : Src), Issues s tid th → CanGoOn s → CanRead s [ra.r] →
    (phMember s th ph.toNat tid = none → exec (.phexpect ph ra) s = .next (stopped s (wordFault 15 (.phexpect ph ra)))) ∧
    ∀ p m, phMember s th ph.toNat tid = some (p, m) →
      (p.broken ≠ 0 → exec (.phexpect ph ra) s = .next (wrote s [ra] [] 0 0 0)) ∧
      (p.broken = 0 → ∀ (c : Counter) (sum : Int), c = p.counters.getD th.lkey ⟨0, false, false⟩ →
        sum = (c.c + (s.reg ra.r).toNat + 2 ^ 47) % 2 ^ 48 - 2 ^ 47 →
        ∃ t, exec (.phexpect ph ra) s = .next t ∧ HartIs s t (doneHart s.hart [ra] [] 0 0 0) ∧ MemoryKept s t ∧ RegistersKept s t ∧
          ((s.reg ra.r).toNat < 2 ^ 47 → 0 ≤ sum →
            PhaserStands t th.run th.lkey ph.toNat
              { p with counters := p.counters.set th.lkey { c with c := sum, posted := true } }) ∧
          (2 ^ 47 ≤ (s.reg ra.r).toNat → (phGet t th.run th.lkey ph.toNat).map (fun p => p.broken) = some 2) ∧
          ((s.reg ra.r).toNat < 2 ^ 47 → sum < 0 → (phGet t th.run th.lkey ph.toNat).map (fun p => p.broken) = some 1))

/-- R214: phread gives the value delivered to the thread, else that of the latest completed phase; where none has completed, it is a free
value (log entry 6). The value goes with the membership, so that a thread which has dropped or registered anew has none (log entry 95). -/
def Sys2Proof.Claims.PhaserRead : Prop :=
  ∀ (s : State) (tid : Nat) (th : Thread) (ph : BitVec 6) (rd : Reg), Issues s tid th → CanGoOn s →
    (∀ p m v, phMember s th ph.toNat tid = some (p, m) → m.value = some v →
      exec (.phread ph rd) s = .next (wrote s [] [] rd v 0)) ∧
    ((phMember s th ph.toNat tid).bind (fun x => x.2.value) = none →
      (∀ p, phGet s th.run th.lkey ph.toNat = some p → 0 < p.phase →
        exec (.phread ph rd) s = .next (wrote s [] [] rd p.last 0)) ∧
      ((∀ p, phGet s th.run th.lkey ph.toNat = some p → p.phase = 0) →
        exec (.phread ph rd) s = .next (wrote { s with free := s.free + 1 } [] [] rd (Config.freeWord s.free) 0)))

/-- R211, R212, R214: phexpect and phread. -/
def Obligations.PhaserCounts : Prop := Claims.PhaserExpects ∧ Claims.PhaserRead

/-- R266, R269 to R272: a definition opens a ring that is not open; rwaitf and rwaite give the address of the slot at HEAD and at
TAIL, wait, or fail with R270's cause; radvh and radvt move HEAD and TAIL on, or fault RING_STATE or RING_OVER; rstat reads them; and
each faults on a ring that the header does not claim. That an rwaite on a BROKEN ring attaches no thread is the model's choice (log entry 102). -/
def Obligations.Rings : Prop :=
  ∀ (s : State) (tid : Nat) (th : Thread) (x : LShed) (q : BitVec 5) (rd : Reg) (ra : Src) (r : Ring) (n : Nat),
    Issues s tid th → CanGoOn s → CanRead s [ra.r] → s.lsheds.get th.lkey = some x → r = ringGet s th.lkey q.toNat →
    n = (s.reg ra.r).toNat →
    (ringClaimed s th.run q.toNat = false →
      ∀ i, i = Instr.rdef q rd ra ∨ i = .rwaitf q rd ra ∨ i = .rwaite q rd ra ∨ i = .radvh q ra ∨ i = .radvt q ra ∨ i = .rstat q rd →
        exec i s = .next (stopped s (wordFault 12 i))) ∧
    (ringClaimed s th.run q.toNat = true →
      (r.st ≠ 1 → badDef s th.run (s.reg ra.r) = false →
        ∃ t, exec (.rdef q rd ra) s = .next t ∧ OnlyHart s t (doneHart s.hart [ra] [] rd 0 0) ∧ MemoryKept s t ∧
          ringGet t th.lkey q.toNat = ⟨1, s.reg ra.r, 0, 0, [.thread tid], [], [], []⟩) ∧
      (r.st = 1 → r.att ≠ [.thread tid] → exec (.rdef q rd ra) s = .next (wrote s [ra] [] rd 1 0)) ∧
      (r.st ≠ 1 → badDef s th.run (s.reg ra.r) = true → exec (.rdef q rd ra) s = .next (wrote s [ra] [] rd 2 0)) ∧
      (r.st = 0 → exec (.rwaitf q rd ra) s = .next (wrote s [ra] [] rd (BitVec.ofNat 64 (2 ^ 63 + 3)) 0) ∧
        exec (.rwaite q rd ra) s = .next (wrote s [ra] [] rd (BitVec.ofNat 64 (2 ^ 63 + 3)) 0)) ∧
      (r.st ≠ 0 → r.slots < n → exec (.rwaitf q rd ra) s = .next (wrote s [ra] [] rd (BitVec.ofNat 64 (2 ^ 63 + 4)) 0) ∧
        exec (.rwaite q rd ra) s = .next (wrote s [ra] [] rd (BitVec.ofNat 64 (2 ^ 63 + 4)) 0)) ∧
      (r.st = 3 → n ≤ r.slots → exec (.rwaitf q rd ra) s = .next (wrote s [ra] [] rd (BitVec.ofNat 64 (2 ^ 63 + 2)) 0) ∧
        exec (.rwaite q rd ra) s = .next (wrote s [ra] [] rd (BitVec.ofNat 64 (2 ^ 63 + 2)) 0)) ∧
      (r.st = 1 ∨ r.st = 2 → n ≤ r.slots → n ≤ r.filled →
        ∃ t, exec (.rwaitf q rd ra) s = .next t ∧ MemoryKept s t ∧
          OnlyHart s t (doneHart s.hart [ra] [] rd (BitVec.ofNat 64 (r.slotAddr r.head)) 0)) ∧
      (r.st = 2 → n ≤ r.slots → r.filled < n →
        ∃ t, exec (.rwaitf q rd ra) s = .next t ∧ MemoryKept s t ∧
          OnlyHart s t (doneHart s.hart [ra] [] rd (BitVec.ofNat 64 (2 ^ 63 + 1)) 0) ∧
          (th.away s = true → (t.core th.core).l1 = [])) ∧
      (r.st = 2 → n ≤ r.slots →
        ∃ t, exec (.rwaite q rd ra) s = .next t ∧ MemoryKept s t ∧
          OnlyHart s t (doneHart s.hart [ra] [] rd (BitVec.ofNat 64 (2 ^ 63 + 1)) 0) ∧
          (th.away s = true → (t.core th.core).l1 = [])) ∧
      (r.st = 1 → n ≤ r.slots → r.filled < n → exec (.rwaitf q rd ra) s = .next (stopped s (.wait (.ring q.toNat n true)))) ∧
      (r.st = 1 → n ≤ r.slots → n ≤ r.slots - r.filled →
        ∃ t, exec (.rwaite q rd ra) s = .next t ∧ MemoryKept s t ∧
          OnlyHart s t (doneHart s.hart [ra] [] rd (BitVec.ofNat 64 (r.slotAddr r.tail)) 0) ∧
          ringGet t th.lkey q.toNat = r.attach (.thread tid)) ∧
      (r.st = 1 → n ≤ r.slots → r.slots - r.filled < n →
        ∃ t y, exec (.rwaite q rd ra) s = .next t ∧ MemoryKept s t ∧ RegistersKept s t ∧ OthersKept s t ∧
          t.threads.get tid = some y ∧ y.hart = th.hart ∧ y.park = .retry (.ring q.toNat n false) ∧
          ringGet t th.lkey q.toNat = r.attach (.thread tid)) ∧
      (r.st = 0 ∨ r.st = 3 → exec (.radvh q ra) s = .next (stopped s (wordFault 13 (.radvh q ra)))) ∧
      (r.st = 1 ∨ r.st = 2 → r.filled < n → exec (.radvh q ra) s = .next (stopped s (wordFault 14 (.radvh q ra)))) ∧
      (r.st = 1 ∨ r.st = 2 → n ≤ r.filled →
        ∃ t, exec (.radvh q ra) s = .next t ∧ OnlyHart s t (doneHart s.hart [ra] [] 0 0 0) ∧ (Settled s → MemoryKept s t) ∧
          (ringGet t th.lkey q.toNat).head = (r.head + n) % 2 ^ 32 ∧ (ringGet t th.lkey q.toNat).tail = r.tail) ∧
      (r.st = 0 ∨ r.st = 2 ∨ r.st = 3 → exec (.radvt q ra) s = .next (stopped s (wordFault 13 (.radvt q ra)))) ∧
      (r.st = 1 → r.slots - r.filled < n → exec (.radvt q ra) s = .next (stopped s (wordFault 14 (.radvt q ra)))) ∧
      (r.st = 1 → n ≤ r.slots - r.filled →
        ∃ t, exec (.radvt q ra) s = .next t ∧ OnlyHart s t (doneHart s.hart [ra] [] 0 0 0) ∧ (Settled s → MemoryKept s t) ∧
          (ringGet t th.lkey q.toNat).tail = (r.tail + n) % 2 ^ 32 ∧ (ringGet t th.lkey q.toNat).head = r.head) ∧
      exec (.rstat q rd) s = .next (wrote s [] [] rd
        (BitVec.ofNat 64 (r.st * 2 ^ 62 + min r.att.length 63 * 2 ^ 56 + r.tail % 2 ^ 24 * 2 ^ 24 + r.head % 2 ^ 24)) 0))

/-! ### Threads and messages -/

/-- R164: a spawn with a valid header puts its message into the core's outbox, and writes 0 to rd; with 32 messages there it
writes 1; an invalid header faults. -/
def Sys2Proof.Claims.SpawnSends : Prop :=
  ∀ (s : State) (tid : Nat) (th : Thread) (r : Run) (rd : Reg) (ra : Src) (n : BitVec 3) (regs : List Reg),
    Issues s tid th → CanGoOn s → s.curRun = some r → regs = (List.range n.toNat).map (fun i => Fin.ofNat 16 (i + 1)) →
    CanRead s (ra.r :: regs) →
    (msgValid r (s.reg ra.r) = true → outboxCount s th.core < 32 →
      ∃ t, exec (.spawn rd ra n) s = .next t ∧ OnlyHart s t (doneHart s.hart [ra] regs rd 0 0) ∧ (Settled s → MemoryKept s t) ∧
        (t.core th.core).outbox.get (s.core th.core).outbox.fresh =
          some ⟨th.run, s.reg ra.r, regs.map s.reg, tid, th.lkey, none, false, th.core, s.clock⟩) ∧
    (msgValid r (s.reg ra.r) = true → 32 ≤ outboxCount s th.core →
      exec (.spawn rd ra n) s = .next (wrote s [ra] regs rd 1 0)) ∧
    (msgValid r (s.reg ra.r) = false → exec (.spawn rd ra n) s = .next (stopped s (wordFault 8 (.spawn rd ra n))))

/-- R165: post sends the message of a job card: its header, its count and its arguments, read from memory. -/
def Sys2Proof.Claims.PostSends : Prop :=
  ∀ (s u v w : State) (tid : Nat) (th : Thread) (r : Run) (rd : Reg) (ra : Src) (ea h c : Nat) (args : List Word),
    Issues s tid th → CanGoOn s → CanRead s [ra.r] → s.curRun = some r → Names (s.reg ra.r) 0 64 ea →
    loadFresh (readState s [ra] []) ea 8 = .ok (u, h) → loadFresh u (ea + 8) 8 = .ok (v, c) → c < 7 →
    msgValid r (BitVec.ofNat 64 h) = true → loadDwords v (ea + 16) c = .ok (w, args) → outboxCount s th.core < 32 →
    ∃ t, exec (.post rd ra) s = .next t ∧ OnlyHart s t (doneHart s.hart [ra] [] rd 0 0) ∧ (Settled s → MemoryKept s t) ∧
      (t.core th.core).outbox.get (s.core th.core).outbox.fresh =
        some ⟨th.run, BitVec.ofNat 64 h, args, tid, th.lkey, none, false, th.core, s.clock⟩

/-- R164, R165: spawn and post. -/
def Obligations.MessagesSent : Prop := Claims.SpawnSends ∧ Claims.PostSends

/-- R180: launch allots a run id, queues the run at its level and writes STATE 1 with the id to its STATUS; a level that holds
256 runs takes none, and rd is all ones. That a run which was taken and waits is not one of them is the model's choice (log entry 107). -/
def Obligations.LaunchQueues : Prop :=
  ∀ (s u v : State) (tid : Nat) (th : Thread) (rd : Reg) (ra : Src) (ea ctl id : Nat) (q : Place),
    Issues s tid th → CanGoOn s → CanRead s [ra.r] → Settled s → Names (s.reg ra.r) 0 8 ea →
    loadFresh (readState s [ra] []) ea 8 = .ok (u, ctl) →
    (256 ≤ (queueOf s (s.ctxPart s.ctx) (ctl / 2 ^ 13 % 8)).length →
      ∃ t, exec (.launch rd ra) s = .next t ∧ OnlyHart s t (doneHart s.hart [ra] [] rd (BitVec.allOnes 64) 0) ∧ MemoryKept s t) ∧
    ((queueOf s (s.ctxPart s.ctx) (ctl / 2 ^ 13 % 8)).length < 256 → place u u.ctx .write (ea + 0x68) = .ok (v, q) →
      frameBusy v (curWaiter s) q.key = false → LogRoom v q.key 8 → id = freshRun s → id < 2 ^ 32 →
      ∃ t x, exec (.launch rd ra) s = .next t ∧ HartIs s t (doneHart s.hart [ra] [] rd (BitVec.ofNat 64 id) 0) ∧
        OthersKept s t ∧ MemoryKeptBut q.key 8 s t ∧ t.value q.key 8 = id * 2 ^ 32 + 1 ∧
        t.runs.get id = some x ∧ x.hdr = ea ∧ x.state = 1 ∧ x.part = s.ctxPart s.ctx ∧
        queueOf t x.part x.prio = queueOf s x.part x.prio ++ [id] ∧ x.prio = ctl / 2 ^ 13 % 8)

/-- R156, R176, R177, R178, R170, R179: coord, exit, yield, beat, oflush and safept. -/
def Obligations.ThreadForms : Prop :=
  ∀ (s : State) (tid : Nat) (th : Thread) (r : Run) (rd : Reg) (n : BitVec 16), Issues s tid th → s.curRun = some r →
    (CanGoOn s → exec (.coord rd) s = .next (wrote s [] [] rd
      (BitVec.ofNat 64 (th.coord.ly * 2 ^ 24 + th.coord.ls * 2 ^ 18 + th.coord.lc * 2 ^ 15 + th.coord.st * 2 ^ 12)) 0)) ∧
    (∃ t, exec .exit s = .next t ∧ t.threads.get tid = none ∧ (Settled s → MemoryKept s t) ∧
      ((∀ p ∈ s.threads, p.1 ≠ tid → ¬ (p.2.run = th.run ∧ p.2.coord = th.coord)) →
        ∀ g, t.groups.get (gkey th.run th.coord) = some g → g.alive = false)) ∧
    (CanGoOn s → ∃ t y, exec .yield s = .next t ∧ OnlyHart s t (doneHart s.hart [] [] 0 0 0) ∧ MemoryKept s t ∧
      t.threads.get tid = some y ∧ y.stamp = s.clock) ∧
    (CanGoOn s → ∃ t, exec .beat s = .next t ∧ OnlyHart s t (doneHart s.hart [] [] 0 0 0) ∧ MemoryKept s t ∧
      (r.pers = true → ∀ l x, t.lsheds.get l = some x → x.run = th.run → x.shed = coreShed th.core → x.dog = r.beat)) ∧
    (CanGoOn s → (∀ c ∈ s.cores, ∀ m ∈ c.2.outbox, m.2.thread ≠ tid) → exec .oflush s = .next (wrote s [] [] 0 0 0)) ∧
    (CanGoOn s → (∃ c ∈ s.cores, ∃ m ∈ c.2.outbox, m.2.thread = tid) →
      exec .oflush s = .next (stopped s (.wait .outbox))) ∧
    (CanGoOn s → r.spcount ≤ n.toNat → exec (.safept n) s = .next (stopped s (wordFault 9 (.safept n)))) ∧
    (CanGoOn s → n.toNat < r.spcount → requested s th = true → th.hart.intrap = false →
      exec (.safept n) s = .next (takeExc (reloadDog s th) (.trap 7 0 (BitVec.ofNat 64 n.toNat)))) ∧
    (r.pers = true → ∀ l x, (reloadDog s th).lsheds.get l = some x → x.run = th.run → x.shed = coreShed th.core → x.dog = r.beat) ∧
    (CanGoOn s → n.toNat < r.spcount → requested s th = false ∨ th.hart.intrap = true →
      ∃ t, exec (.safept n) s = .next t ∧ t.lsheds = (reloadDog s th).lsheds ∧ OnlyHart s t (doneHart s.hart [] [] 0 0 0) ∧ MemoryKept s t)

/-- R172, R174, R387: migr sends the thread on its way to a shed that its address stands for; a thread that stands there, or may not
move, goes on; and so does one whose sheds all belong to other partitions, whose request is discarded and logged. -/
def Sys2Proof.Claims.Migrate : Prop :=
  ∀ (s : State) (tid : Nat) (th : Thread) (ra : Src) (all sheds : List Nat), Issues s tid th → CanGoOn s → CanRead s [ra.r] →
    all = migrTargets s th ((s.reg ra.r).toNat % 2 ^ 52) → sheds = all.filter (shedOwned s (s.ctxPart s.ctx)) →
    (all = [] ∨ all.contains (coreShed th.core) = true ∨ th.stays s tid = true →
      exec (.migr ra) s = .next (wrote s [ra] [] 0 0 0)) ∧
    (all ≠ [] → sheds = [] → all.contains (coreShed th.core) = false → th.stays s tid = false →
      exec (.migr ra) s = .next { wrote s [ra] [] 0 0 0 with mgmtLog := s.mgmtLog + 1 }) ∧
    (sheds ≠ [] → all.contains (coreShed th.core) = false → th.stays s tid = false →
      ∃ t y, exec (.migr ra) s = .next t ∧ t.threads.get tid = some y ∧ y.hart = doneHart th.hart [ra] [] 0 0 0 ∧
        y.park = .migrating sheds 0 false ∧ MemoryKept s t ∧ RegistersKept s t ∧ OthersKept s t)

/-- R166, R18: a message that finds a free slot starts a thread there with its arguments in x1 up, at the handler's address, and
leaves the outbox; every other register of the thread is dead. -/
def Sys2Proof.Claims.MessageStarts : Prop :=
  ∀ (s : State) (c i sl core : Nat) (m : OutMsg) (x : LShed) (r : Run),
    (s.core c).outbox.get i = some m → m.queued = false → m.first = none →
    (∀ k ∈ s.cores, ∀ p ∈ k.2.outbox, k.1 = c ∨ p.2.sender = m.sender → p.2.sent < m.sent → sameTarget p.2 m = false) → msgTarget s m = some (x, core) →
    coreWorks s c = true → coreWorks s core = true → x.released.contains (coordOf m.hdr).lc = false → x.resident = true → s.runs.get m.run = some r →
    (freeSlots s core (clsSlots (msgCls m.hdr))).head? = some sl →
    ∀ i', i' = Instr.activeMessageArrival c i ∨ i' = Instr.messageRetry c i →
      ∃ t y, exec i' s = .next t ∧ t.threads.get s.nextKey = some y ∧ y.core = core ∧ y.slot = sl ∧ y.run = m.run ∧
        y.coord = coordOf m.hdr ∧ y.park = .none ∧ y.hart.pc = handlerPc s r m.run core m.hdr ∧ y.hart.intrap = false ∧
        (∀ k, y.hart.regs.get k = if 1 ≤ k ∧ k ≤ m.args.length then some (m.args.getD (k - 1) 0) else none) ∧
        (t.core c).outbox.get i = none ∧ MemoryKept s t

/-- R167 to R169: a message to a released logical core is discarded and counted; one that finds no free slot joins the queue of
refusals; one that an earlier message of its core for the same target holds back, and one that stands in a refusal queue, do nothing; and
one whose target is out, or a device of which has stopped (R374, R395), is offered again. That a message which has moved is still held
back by those that its core sent earlier is read from R169 (log entry 93). -/
def Sys2Proof.Claims.MessageRefusals : Prop :=
  ∀ (s : State) (c i core : Nat) (m : OutMsg) (x : LShed) (r : Run),
    (s.core c).outbox.get i = some m →
    (m.queued = true → ∀ i', i' = Instr.activeMessageArrival c i ∨ i' = Instr.messageRetry c i → exec i' s = .next s) ∧
    (∀ k p, k ∈ s.cores → p ∈ k.2.outbox → k.1 = c ∨ p.2.sender = m.sender → p.2.sent < m.sent → sameTarget p.2 m = true →
      exec (.activeMessageArrival c i) s = .next s) ∧
    (m.queued = false →
    (∀ k ∈ s.cores, ∀ p ∈ k.2.outbox, k.1 = c ∨ p.2.sender = m.sender → p.2.sent < m.sent → sameTarget p.2 m = false) →
    msgTarget s m = some (x, core) → s.runs.get m.run = some r →
    (x.resident = false ∨ coreWorks s c = false ∨ coreWorks s core = false →
      exec (.activeMessageArrival c i) s = .next (s.post (.messageRetry c i))) ∧
    (x.resident = true → coreWorks s c = true → coreWorks s core = true → x.released.contains (coordOf m.hdr).lc = true →
      ∃ t, exec (.activeMessageArrival c i) s = .next t ∧ (t.runs.get m.run).map (fun r => r.drop) = some (min 0xFFFF (r.drop + 1)) ∧
        (t.core c).outbox.get i = none) ∧
    (x.resident = true → coreWorks s c = true → coreWorks s core = true → x.released.contains (coordOf m.hdr).lc = false →
      freeSlots s core (clsSlots (msgCls m.hdr)) = [] → (s.core core).refused.length < 64 →
      ∃ t, exec (.activeMessageArrival c i) s = .next t ∧
        (t.core core).refused = (s.core core).refused ++ [.msg c i (msgCls m.hdr == .reply)] ∧
        (t.core c).outbox.get i = some { m with queued := true } ∧ MemoryKept s t ∧ t.threads = s.threads))

/-- R166 to R168: a message starts a thread, is discarded, or is refused. -/
def Obligations.MessageArrivals : Prop := Claims.MessageStarts ∧ Claims.MessageRefusals

/-- R173, R168: a migrating thread lands in the first free slot of the best core, or in the slot that is held for it; while a device that
it leaves or goes to has stopped, it is on its way (R395); a hold whose time has passed ends. That the entry it was held for is then a new refusal, at the end of the queue, is the model's choice (log
entry 19). -/
def Sys2Proof.Claims.Landings : Prop :=
  ∀ (s : State) (tid : Nat) (th : Thread) (sheds : List Nat) (n : Nat) (access : Bool),
    s.threads.get tid = some th → th.park = .migrating sheds n access → NoReturns th →
    (coreWorks s th.core = true → (∀ h ∈ sheds, deviceIssues s (shedDev h) = true) →
      ∀ b sl, (sheds.map (bestCore s)).find? (fun b => decide (0 < b.2)) = some b → (freeSlots s b.1 migSlots).head? = some sl →
      ∃ t y, exec (.migrationArrival tid) s = .next t ∧ t.threads.get tid = some y ∧ y.core = b.1 ∧ y.slot = sl ∧
        y.park = .none ∧ y.hart = th.hart ∧ (Settled s → MemoryKept s t)) ∧
    (coreWorks s th.core = false ∨ (∃ h ∈ sheds, deviceIssues s (shedDev h) = false) →
      exec (.migrationArrival tid) s = .next (s.post (.migrationArrival tid))) ∧
    (∀ c sl till, (s.core c).holds.get sl = some (.mig tid, till) → coreWorks s c = true →
      ∃ t y, exec (.contextFreeNotice c sl) s = .next t ∧ t.threads.get tid = some y ∧ y.core = c ∧ y.slot = sl ∧
        y.park = .none ∧ y.hart = th.hart ∧ (Settled s → MemoryKept s t)) ∧
    (∀ c sl e till, (s.core c).holds.get sl = some (e, till) → till ≤ s.clock → (s.core c).refused = [] →
      ∃ t, exec (.slotHoldExpiry c sl) s = .next t ∧ (t.core c).holds.get sl = none ∧ (t.core c).refused = [e] ∧
        MemoryKept s t ∧ t.threads = s.threads)

/-- R172 to R174, R168: a thread leaves for another shed and lands there. What becomes of the entry of an expired hold is the model's choice (log entry 19). -/
def Obligations.Migration : Prop := Claims.Migrate ∧ Claims.Landings

/-! ### Jobs and vector commands -/

/-- R258, R259, R76: tcwl stages two words; tcwh submits the four words at its port, at the lowest free index, with its
generation in the job id; with 16 jobs outstanding at the port it waits, and without a staged tcwl it is illegal, before any check
of its sources (R75). -/
def Sys2Proof.Claims.JobSubmission : Prop :=
  ∀ (s : State) (tid : Nat) (th : Thread) (p : Port) (rd : Reg) (ra rb : Src), Issues s tid th →
    (th.staged = none → exec (.tcwh p rd ra rb) s = .next (stopped s (illegalWord (Instr.tcwh p rd ra rb).word))) ∧
    (CanGoOn s → CanRead s [ra.r, rb.r] →
    exec (.tcwl ra rb) s = .next ((wrote s [ra, rb] [] 0 0 0).modThread tid
      (fun t => { t with staged := some ⟨s.reg ra.r, s.reg rb.r, s.hart.pc⟩ })) ∧
    (∀ g, th.staged = some g → 16 ≤ outstanding s th.core p → exec (.tcwh p rd ra rb) s = .next (stopped s (.wait .port))) ∧
    (∀ g, th.staged = some g → outstanding s th.core p < 16 →
      ∃ t j x idx gen, exec (.tcwh p rd ra rb) s = .next t ∧ idx < 16 ∧
        (∀ i, i < idx → ∃ y, (s.core th.core).jobs.get (portNum p * 16 + i) = some y ∧ y.busy = true) ∧
        (∀ y, (s.core th.core).jobs.get (portNum p * 16 + idx) = some y → y.busy = false ∧ y.gen = gen) ∧
        ((s.core th.core).jobs.get (portNum p * 16 + idx) = none → gen = 0) ∧
        j.id = portNum p * 2 ^ 13 + th.core % 8 * 2 ^ 10 + gen * 16 + idx ∧
        OnlyHart s t (doneHart s.hart [ra, rb] [] rd (BitVec.ofNat 64 j.id) 0) ∧ (Settled s → MemoryKept s t) ∧
        t.jobs.get s.nextKey = some j ∧ j.w0 = g.w0 ∧ j.w1 = g.w1 ∧ j.w2 = s.reg ra.r ∧ j.w3 = s.reg rb.r ∧ j.port = p ∧
        j.core = th.core ∧ j.run = th.run ∧ j.coord = th.coord ∧ j.thread = tid ∧ j.jobbase = th.jobbase ∧ j.started = false ∧
        j.ended = false ∧ (t.core th.core).jobs.get (portNum p * 16 + idx) = some x ∧ x.busy = true ∧ x.id = j.id ∧
        x.gen = (gen + 1) % 64))

/-- R263: jpoll gives 0 for a job that runs, its status and 1 for one that has ended, 1 for one whose index has been allotted
since, and 2 for one of another core; jwait waits for the end. Both are acquires once the job has ended. -/
def Sys2Proof.Claims.JobObservation : Prop :=
  ∀ (s : State) (tid : Nat) (th : Thread) (rd : Reg) (ra : Src) (id : Nat), Issues s tid th → CanGoOn s → CanRead s [ra.r] →
    id = (s.reg ra.r).toNat % 2 ^ 16 →
    (id / 2 ^ 10 % 8 ≠ th.core % 8 →
      exec (.jpoll rd ra) s = .next (wrote s [ra] [] rd 2 0) ∧ exec (.jwait ra) s = .next (wrote s [ra] [] 0 0 0)) ∧
    (id / 2 ^ 10 % 8 = th.core % 8 →
      (∀ x, jobSlot s th.core id = some x → x.id = id → x.busy = true →
        exec (.jpoll rd ra) s = .next (wrote s [ra] [] rd 0 0) ∧
        exec (.jwait ra) s = .next (stopped s (.wait .job))) ∧
      (∀ x, jobSlot s th.core id = some x → x.id = id → x.busy = false →
        (∃ t y, exec (.jpoll rd ra) s = .next t ∧ MemoryKept s t ∧ t.threads.get tid = some y ∧
          OnlyHart s t (doneHart s.hart [ra] [] rd (BitVec.ofNat 64 (x.status * 256 + 1)) 0) ∧
          y.unseen = th.unseen.filter (fun n => n != id) ∧
          (x.scope = .dev ∨ x.scope = .sys → (t.core th.core).l1 = [])) ∧
        (∃ t y, exec (.jwait ra) s = .next t ∧ MemoryKept s t ∧ t.threads.get tid = some y ∧
          OnlyHart s t (doneHart s.hart [ra] [] 0 0 0) ∧ y.unseen = th.unseen.filter (fun n => n != id) ∧
          (x.scope = .dev ∨ x.scope = .sys → (t.core th.core).l1 = []))) ∧
      ((∀ x, jobSlot s th.core id = some x → x.id ≠ id) →
        (∃ t, exec (.jpoll rd ra) s = .next t ∧ MemoryKept s t ∧ OnlyHart s t (doneHart s.hart [ra] [] rd 1 0)) ∧
        (∃ t, exec (.jwait ra) s = .next t ∧ MemoryKept s t ∧ OnlyHart s t (doneHart s.hart [ra] [] 0 0 0))))

/-- R256 to R264: a command is submitted, and observed complete. -/
def Obligations.Jobs : Prop := Claims.JobSubmission ∧ Claims.JobObservation

/-- R278, R279: vop queues a vector command, or waits while eight have not finished; vbusy reads and clears its word; vfence
goes on when no vector command of the core is unfinished, and else parks. -/
def Sys2Proof.Claims.VectorSubmission : Prop :=
  ∀ (s : State) (tid : Nat) (th : Thread) (rd : Reg) (ra rb : Src), Issues s tid th → CanGoOn s →
    (CanRead s [ra.r, rb.r] →
      (vopBad (s.reg ra.r) (s.reg rb.r) = true →
        exec (.vop ra rb) s = .next (stopped s (illegalWord (Instr.vop ra rb).word))) ∧
      (vopBad (s.reg ra.r) (s.reg rb.r) = false → 8 ≤ vBusy s th.core s.nextKey →
        exec (.vop ra rb) s = .next (stopped s (.wait .vector))) ∧
      (vopBad (s.reg ra.r) (s.reg rb.r) = false → vBusy s th.core s.nextKey < 8 →
        ∃ t v, exec (.vop ra rb) s = .next t ∧ OnlyHart s t (doneHart s.hart [ra, rb] [] 0 0 0) ∧ (Settled s → MemoryKept s t) ∧
          t.vcmds.get s.nextKey = some v ∧ v.core = th.core ∧ v.run = th.run ∧ v.coord = th.coord ∧ v.thread = tid ∧
          v.opw = s.reg ra.r ∧ v.opd = s.reg rb.r ∧ v.ended = false ∧ v.flags = 0)) ∧
    exec (.vbusy rd) s = .next ((wrote s [] [] rd (BitVec.ofNat 64
      (th.vErr * 2 ^ 16 + th.vFlags.toNat * 2 ^ 8 + if vBusy s th.core s.nextKey = 0 then 0 else 1)) 0).modThread tid
        (fun t => { t with vErr := 0, vFlags := 0 })) ∧
    (vBusy s th.core s.nextKey = 0 →
      ∃ t, exec .vfence s = .next t ∧ OnlyHart s t (doneHart s.hart [] [] 0 0 0) ∧ MemoryKept s t) ∧
    (0 < vBusy s th.core s.nextKey →
      exec .vfence s = .next (s.modThread tid (fun t => { t with park := .vfence s.nextKey })))

/-- A command that has not started, and that its unit may start (R256, R265). -/
abbrev Sys2Proof.Claims.Starts (s : State) (k : Nat) (j : Job) (code : Nat) : Prop :=
  s.jobs.get k = some j ∧ j.ended = false ∧ j.fault = none ∧ j.killed = false ∧ j.started = false ∧ j.cmd = code ∧
    unitRuns s j.run j.lkey j.core = true ∧ mayStart s k j = true ∧ badWord j = false

/-- The machine in which a command that starts runs: it is marked as started, and begins with the acquire of its SCOPE (R199). -/
def Sys2Proof.Claims.running (s : State) (k : Nat) (j : Job) : State := startAcquire (s.modJob k (fun j => { j with started := true })) j

/-- A command that has started, and that goes on: nothing that came before it has its matrix engine (R277, R283). -/
abbrev Sys2Proof.Claims.GoesOn (s : State) (k : Nat) (j : Job) (code : Nat) : Prop :=
  s.jobs.get k = some j ∧ j.ended = false ∧ j.fault = none ∧ j.killed = false ∧ j.started = true ∧ j.cmd = code ∧
    unitRuns s j.run j.lkey j.core = true ∧ pairFree s k j = true

/-- Command k of s makes its next step in machine r, as job x: it starts, and its checks hold (R281), or it goes on. -/
abbrev Sys2Proof.Claims.AtStep (s : State) (k code : Nat) (check : State → Job → Nat) (r : State) (x : Job) : Prop :=
  (∃ j, Starts s k j code ∧ check s j = 0 ∧ r = running s k j ∧ x = { j with started := true }) ∨
    (GoesOn s k x code ∧ r = s)

/-- Command k has made a step and goes on: it is job x, and its next step is to come. -/
def Sys2Proof.Claims.Onward (t : State) (k : Nat) (x : Job) : Prop :=
  t.jobs.get k = some x ∧ x.started = true ∧ x.ended = false ∧ t.agenda.getLast? = some (.job k)

/-- Command k waits on a fault that has been posted for it (R264). -/
def Sys2Proof.Claims.Faulted (t : State) (k kind cause : Nat) (addr : Word) (x : Job) : Prop :=
  ∃ f m, t.jobs.get k = some x ∧ x.fault = some f ∧ t.faults.get f = some m ∧ m.who = .job k ∧ m.kind = kind ∧ m.cause = cause ∧
    m.addr = addr

/-- The body of command k has ended with a status and VALUE; JOB_COMPLETION follows. -/
def Sys2Proof.Claims.Ended (t : State) (k status value : Nat) : Prop :=
  ∃ x, t.jobs.get k = some x ∧ x.started = true ∧ x.ended = true ∧ x.status = status ∧ x.value = value ∧
    t.agenda.getLast? = some (.jobDone k)

/-- R280, R295: wqdef writes a tiling with its cursor at 0; ftile gives the tile at the cursor, row by row or column by column,
and moves the cursor on; a tile past the last gives 2^63, and no tiling 2^62. A command that has not started waits for no frame. That one
whose word is malformed has VALUE 0 is the model's reading (log entry 115). -/
def Sys2Proof.Claims.WorkQueue : Prop :=
  (∀ (s : State) (k : Nat) (j : Job), Starts s k j 0x38 →
    (wqBad j = true → ∃ t, exec (.wqdef k) s = .next t ∧ Ended t k 1 0 ∧ MemoryKept s t ∧ t.lsheds = s.lsheds) ∧
    (wqBad j = false → (∀ m ∈ s.pageMigs, m.2.queue.contains (.job k) = false) → ∃ t x, exec (.wqdef k) s = .next t ∧ Ended t k 0 0 ∧ MemoryKept s t ∧ t.threads = s.threads ∧
      t.lsheds.get j.lkey = some x ∧ x.tilings.get (j.w0.toNat / 2 ^ 32 % 16) = some
        ⟨j.w0.toNat / 2 ^ 12 % 2 == 1, j.w1.toNat / 2 ^ 32, j.w1.toNat % 2 ^ 32, j.w2.toNat / 2 ^ 14 % 2 ^ 14,
          j.w2.toNat % 2 ^ 14, 0⟩)) ∧
  (∀ (s : State) (tid : Nat) (th : Thread) (rd : Reg) (ra : Src) (x : LShed) (nr nc r c : Nat) (g : Tiling) (i : Nat),
    Issues s tid th → CanGoOn s → CanRead s [ra.r] → s.lsheds.get th.lkey = some x → i = (s.reg ra.r).toNat % 16 →
    (x.tilings.get i = none → exec (.ftile rd ra) s = .next (wrote s [ra] [] rd (BitVec.ofNat 64 (2 ^ 62)) 0)) ∧
    (x.tilings.get i = some g → nr = cdiv g.rows g.trows → nc = cdiv g.cols g.tcols →
      (nr * nc ≤ g.cursor → ∃ t, exec (.ftile rd ra) s = .next t ∧ MemoryKept s t ∧
        OnlyHart s t (doneHart s.hart [ra] [] rd (BitVec.ofNat 64 (2 ^ 63)) 0)) ∧
      (g.cursor < nr * nc →
        (g.colMajor = false → g.cursor = r * nc + c ∧ c < nc) → (g.colMajor = true → g.cursor = c * nr + r ∧ r < nr) →
        ∃ t, exec (.ftile rd ra) s = .next t ∧ MemoryKept s t ∧
          OnlyHart s t (doneHart s.hart [ra] [] rd (BitVec.ofNat 64 (r * 2 ^ 42 + c * 2 ^ 28 +
            min g.trows (g.rows - r * g.trows) * 2 ^ 14 + min g.tcols (g.cols - c * g.tcols))) 0) ∧
          ((t.lsheds.get th.lkey).bind (fun y => y.tilings.get i)) = some { g with cursor := g.cursor + 1 })))

/-- R257, R259, R261, R326: the completion of a command without a phaser frees its index with its status, detaches it from rings,
and writes its record when CR.JOBBASE asks for one; without one it writes no memory. A record for which the log of a region has
no room, for every marked line that its two dwords touch, is not written, and the command waits on that fault (log entry 31). -/
def Sys2Proof.Claims.JobCompletion : Prop :=
  ∀ (s u v w : State) (k : Nat) (j : Job) (ea : Nat) (p q : Place), s.jobs.get k = some j → j.ended = true → j.fault = none →
    j.arrived = false → unitRuns s j.run j.lkey j.core = true → j.w0.toNat / 2 ^ 10 % 2 = 0 → s.invals = [] →
    u = (arriveJob s k j).1 → ea = j.jobbase.toNat % 2 ^ 52 / 2 ^ 12 * 2 ^ 12 + 16 * (j.w0.toNat / 2 ^ 16 % 2 ^ 8) →
    j.jobbase.toNat % 2 = 0 ∨ (j.jobbase.toNat % 2 = 1 ∧ place u (j.ctx k) .write ea = .ok (v, p) ∧
      place u (j.ctx k) .write (ea + 8) = .ok (w, q) ∧ (p.key + 8 ≤ q.key ∨ q.key + 8 ≤ p.key) ∧ frameBusy v (.job k) p.key = false) →
    (j.jobbase.toNat % 2 = 0 ∨ recordFull v j.lkey p.key q.key = none →
      ∃ t, exec (.jobCompletion k) s = .next t ∧ t.jobs.get k = none ∧
        (∀ x, (s.core j.core).jobs.get (portNum j.port * 16 + j.id % 16) = some x → x.id = j.id →
          (t.core j.core).jobs.get (portNum j.port * 16 + j.id % 16) = some { x with status := j.status, busy := false }) ∧
        (j.jobbase.toNat % 2 = 0 → MemoryKept s t) ∧
        (j.jobbase.toNat % 2 = 1 → CellKeptBut p.key q.key s t ∧ t.value q.key 8 = j.value % 2 ^ 64 ∧
          (j.id < 2 ^ 16 → j.status < 2 ^ 8 → j.detail < 2 ^ 8 →
            t.value p.key 8 = j.id * 2 ^ 48 + j.status * 2 ^ 40 + j.detail * 2 ^ 32 + j.flags.toNat * 2 ^ 27 + 1))) ∧
    (∀ r, j.jobbase.toNat % 2 = 1 → j.killed = false → recordFull v j.lkey p.key q.key = some r →
      ∃ t x, exec (.jobCompletion k) s = .next t ∧ Faulted t k 5 r (BitVec.ofNat 64 ea) x ∧ x.ended = true ∧ MemoryKept s t)

/-- R280, R295, R257: tilings, and the end of a job. That a record in a marked line needs room in its logs, and that a malformed wqdef has VALUE 0, are the model's readings (log entries 31 and 115). -/
def Obligations.WorkQueueAndCompletion : Prop := Claims.WorkQueue ∧ Claims.JobCompletion

/-! ### Tile commands -/

/-- A command whose microcode is a loop: the job, its code and its checks; the most steps that it makes until its next step
boundary (R265), where the destination's line ends there, when it is done, and a step. -/
structure Sys2Proof.Claims.Loop where
  job : Nat
  code : Nat
  check : State → Job → Nat
  burst : Job → Nat
  lim : Job → Option Nat
  done : Job → Job → Bool
  step : State → Job → JM (State × Job)

/-- The loops of accumulators and of the copy unit, which stop at each 64-byte line of the destination (R265). -/
def Sys2Proof.Claims.loopOf : Instr → Option Claims.Loop
  | .accld k => some ⟨k, 0x04, accldCheck, fun j => j.mg * j.nn, fun _ => none, fun j y => decide (j.mg * j.nn ≤ y.prog), accldStep k⟩
  | .accst k => some ⟨k, 0x05, accstCheck, accstSteps, fun _ => none, fun j y => decide (accstSteps j ≤ y.prog), accstStep⟩
  | .copy k => some ⟨k, 0x10, copyCheck, fun j => lineSteps j 8, fun j => lineEnd j 8, fun j y => decide (j.w3.toNat % 2 ^ 40 ≤ y.prog), copyStep k⟩
  | .gath k => some ⟨k, 0x11, idxCheck, fun j => lineSteps j (fmtBits (ptrFmt j.w1) 8), fun j => lineEnd j (fmtBits (ptrFmt j.w1) 8),
      fun j y => decide (j.w0.toNat / 2 ^ 32 ≤ y.prog), idxStep false k⟩
  | .scat k => some ⟨k, 0x12, idxCheck, fun j => lineSteps j (fmtBits (ptrFmt j.w1) 8), fun _ => none,
      fun j y => decide (j.w0.toNat / 2 ^ 32 ≤ y.prog), idxStep true k⟩
  | .cvtb k => some ⟨k, 0x13, cvtbCheck,
      fun j => lineSteps j (cvtbBits j), fun j => lineEnd j (cvtbBits j),
      fun j y => decide (cvtbSteps j ≤ y.prog), cvtbStep k⟩
  | _ => none

/-- What becomes of a command whose loop has come to u, stopped by e or at a step boundary: it ends with OK once it is done, and
else goes on later; an end is reported with the bytes that it wrote, a fault is posted, and the command waits (R261, R262, R264). -/
def Sys2Proof.Claims.LoopEnds (i : Instr) (s : State) (k : Nat) (done : Job → Bool) (u : State) (e : Option JExc) : Prop :=
  ∃ t x, u.jobs.get k = some x ∧ exec i s = .next t ∧ MemoryKept u t ∧
    (e = none → done x = true → x.todo = [] → Ended t k 0 x.bytes ∧ t.lsheds = u.lsheds) ∧
    (e = none → done x = false ∨ x.todo ≠ [] → t = u.post (.job k)) ∧
    (∀ st d, e = some (.stop st d) → Ended t k st x.bytes ∧ t.lsheds = u.lsheds) ∧
    (∀ kind cause a, e = some (.fault kind cause a) → ∃ y, Faulted t k kind cause (BitVec.ofNat 64 a) y ∧ y.prog = x.prog ∧
      y.todo = x.todo ∧ y.reads = x.reads) ∧
    (e = some .wait → t = u.post (.job k)) ∧
    (∀ f, e = some (.frame f) → t.jobs = u.jobs)

/-- R256, R262, R264, R265, R281: a command that fails a check ends with its status and does nothing else; one whose steps have all
gone through ends with OK and the bytes that it wrote as its VALUE; one that meets a fault posts it and waits with its progress, and
one that reaches a step boundary, or has to wait, goes on later from there, with the loads and stores of its step that it has made. That a copy to LQ2 fails its check is the model's reading (log entry 100), that a command which
fails a check has VALUE 0 log entry 115, and that the step boundaries of copy, gath, scat and cvtb are the 64-byte lines of word 2, the
destination, with a scat's elements taken as if they stood one after the other, log entry 97: R265 names no operand. A command that has not
started waits for no frame. -/
def Obligations.CommandLoops : Prop :=
  ∀ (i : Instr) (s : State) (l : Loop), loopOf i = some l →
    (∀ j st, Starts s l.job j l.code → l.check s j = st → st ≠ 0 → (∀ m ∈ s.pageMigs, m.2.queue.contains (.job l.job) = false) →
      ∃ t, exec i s = .next t ∧ Ended t l.job st 0 ∧ MemoryKept s t ∧ t.lsheds = s.lsheds ∧ t.threads = s.threads) ∧
    (∀ r x u e, AtStep s l.job l.code l.check r x → jobLoop l.job (l.done x) l.step (l.lim x) (l.burst x) r x = (u, e) →
      LoopEnds i s l.job (l.done x) u e)

/-- What of a logical shed decides where its scratchpads stand. -/
def Sys2Proof.Claims.geometry (x : LShed) : Nat × Nat × Nat × Nat × Bool × Map Nat × List Nat :=
  (x.run, x.ly, x.ls, x.shed, x.resident, x.bases, x.released)

/-- What decides about addresses and changes with accesses: the TLBs, and the queues of frames that move. -/
abbrev Sys2Proof.Claims.Ways : Type := Map (List TlbEntry) × Map PageMig

/-- u is s but for the bytes of D, ways in T, and what decides about no address. -/
def Sys2Proof.Claims.Like (D : Nat → Prop) (T : Ways → Prop) (s u : State) : Prop :=
  u.parts = s.parts ∧ u.devices = s.devices ∧ u.badLines = s.badLines ∧ u.runs = s.runs ∧ T (u.tlbs, u.pageMigs) ∧
    (∀ l, (u.lsheds.get l).map geometry = (s.lsheds.get l).map geometry) ∧ ∀ k, ¬ D k → u.byte k = s.byte k

/-- Whatever is stored in D, microcode's access to ea goes to key, and leaves ways in T. -/
def Sys2Proof.Claims.Reaches (D : Nat → Prop) (T : Ways → Prop) (s : State) (c : Ctx) (acc : Acc) (ea key : Nat) : Prop :=
  ∀ u w, Like D T s u → ∃ v p, jPlace u c acc ea w = .ok (v, p) ∧ p.key = key ∧ T (v.tlbs, v.pageMigs)

/-- Microcode's load of n bytes at ea gives bs, and leaves ways in T. -/
def Sys2Proof.Claims.Loads (T : Ways → Prop) (s : State) (c : Ctx) (ea n : Nat) (bs : List Byte) : Prop :=
  ∀ u, Like (fun _ => False) T s u → u.reads.old = [] → ∃ v, jLoadBytes u c ea n = .ok (v, bs) ∧ T (v.tlbs, v.pageMigs)

/-- No mark of a region and no full log stands in the way of a store (R326). -/
def Sys2Proof.Claims.Unlogged (s : State) (l : Nat) : Prop := ∀ k n, logFull s l k n = none ∧ touchesMark s l k n = false

/-- R291: a step of copy moves bytes, and no other byte changes; after the last byte the command ends with OK. That the step ends at the
next 64-byte line of its destination is the model's choice (log entry 97): R265 says one 64-byte line, and names no operand. -/
def Sys2Proof.Claims.CopyMoves : Prop :=
  ∀ (s r : State) (k n m : Nat) (x : Job) (src dst : Nat → Nat) (D : Nat → Prop) (T : Ways → Prop) (at_ : Nat → Prop),
    AtStep s k 0x10 copyCheck r x → x.todo = [] → x.reads = [] → n = x.w3.toNat % 2 ^ 40 →
    m = min (64 - (x.w2.toNat % 2 ^ 52 + x.prog) % 64) (n - x.prog) →
    x.w1.toNat % 2 ^ 52 + x.prog + m ≤ 2 ^ 52 → x.w2.toNat % 2 ^ 52 + x.prog + m ≤ 2 ^ 52 →
    at_ = (fun i => x.prog ≤ i ∧ i < x.prog + m) → D = (fun b => ∃ i, at_ i ∧ b = dst i) → s.badLines = [] → Unlogged s x.lkey →
    T (s.tlbs, s.pageMigs) →
    (∀ i, at_ i → Reaches D T s (x.ctx k) .read (x.w1.toNat % 2 ^ 52 + i) (src i) ∧
      Reaches D T s (x.ctx k) .write (x.w2.toNat % 2 ^ 52 + i) (dst i) ∧ ¬ D (src i) ∧ ∀ b, at_ b → dst b = dst i → b = i) →
    ∃ t y, exec (.copy k) s = .next t ∧ t.jobs.get k = some y ∧ y.prog = x.prog + m ∧ y.bytes = x.bytes + m ∧
      (n ≤ x.prog + m → Ended t k 0 (x.bytes + m)) ∧ (x.prog + m < n → Onward t k y) ∧
      (∀ i, at_ i → t.byte (dst i) = s.byte (src i)) ∧ ∀ b, ¬ D b → t.byte b = s.byte b

/-- R283, R289: accz clears the accumulator words of its rows and columns, and no others; accld with raw words loads each from
the four bytes of its element. -/
def Sys2Proof.Claims.AccumulatorTiles : Prop :=
  (∀ (s : State) (k : Nat) (j : Job), Starts s k j 0x03 → accLimits j 0 = false → j.w1 = 0 → j.w2 = 0 → j.w3 = 0 →
    ∃ t, exec (.accz k) s = .next t ∧ Ended t k 0 0 ∧ MemoryKept s t ∧
      (∀ i c, i < j.mg → c < j.nn → accGet t j.lkey (accKey j.t0 j.nn i c) = 0) ∧
      (∀ b, (∀ i c, i < j.mg → c < j.nn → b ≠ accKey j.t0 j.nn i c) → accGet t j.lkey b = accGet s j.lkey b)) ∧
  (∀ (s r : State) (k : Nat) (x : Job) (raw : Nat → Nat → List Byte) (T : Ways → Prop), AtStep s k 0x04 accldCheck r x →
    ptrFmt x.w1 = 0 → x.prog = 0 → x.todo = [] → x.reads = [] → T (s.tlbs, s.pageMigs) →
    (∀ i c, i < x.mg → c < x.nn → x.w1.toNat % 2 ^ 52 + i * (x.w2.toNat % 2 ^ 32) + 4 * c < 2 ^ 52 ∧
      Loads T s (x.ctx k) (x.w1.toNat % 2 ^ 52 + i * (x.w2.toNat % 2 ^ 32) + 4 * c) 4 (raw i c)) →
    ∃ t, exec (.accld k) s = .next t ∧ Ended t k 0 x.bytes ∧ MemoryKept s t ∧
      ∀ i c, i < x.mg → c < x.nn → accGet t x.lkey (accKey x.t0 x.nn i c) = leVal (raw i c) % 2 ^ 32)

/-- R283, R289, R291: copy moves its bytes; accz clears, and accld loads, accumulator words. Where a step of copy ends is the model's choice (log entry 97). -/
def Obligations.CopiesAndAccumulators : Prop := Claims.CopyMoves ∧ Claims.AccumulatorTiles

/-- The word of accumulator element (i, c) after a k-block of the products of two operands: added to what it held, or to zero where
the command clears its result first (R276, R284). -/
def Sys2Proof.Claims.blockWord (s : State) (x : Job) (b : Nat) (a t : Tile) (l key i c : Nat) : Nat :=
  (accStep (s.fpctlOf x.run) x.w1 x.w2 x.kk (x.block b).1 (x.block b).2 a t
    (if x.w0.toNat / 2 ^ 12 % 2 = 1 ∧ (x.block b).1 = 0 then 0 else accGet s l key) i c).1 % 2 ^ 32

/-- HEAD of ring q has moved on by one. -/
def Sys2Proof.Claims.Popped (s t : State) (l q : Nat) : Prop := (ringGet t l q).head = ((ringGet s l q).head + 1) % 2 ^ 32

/-- A ring that is not BROKEN has a filled slot, whose tag, or whose scale group's, is not the one that a scaled operand expects (R275). -/
def Sys2Proof.Claims.badTag (r : Ring) (w : Word) : Prop :=
  r.st ≠ 3 ∧ r.filled ≠ 0 ∧ fmtScaled (ptrFmt w) = true ∧
  (r.seq.getD (r.head % r.slots) r.head ≠ opSeq w ∨ ∀ g, r.scales.head? = some g → g.1 ≠ opSeq w)

/-- R275, R276, R277, R287, R265: mmul takes the tile of A and then that of B: the command waits for a tile that its ring may still
give, B's only once A has been taken, and ends where it finds that ring BROKEN, or its tag wrong, which breaks it; then it adds one k-block after the other of the products of each
row and column to its accumulator word; a pair's command adds those of the columns past 256 in the partner's. No other accumulator
of its logical shed changes. After the last k-block HEAD of both rings moves on. The order of the checks (log entry 122), the pairing of scales
by tag alone (124), and NV for infinities of both signs beside a quiet NaN (121) are the model's. -/
def Sys2Proof.Claims.MatrixProducts : Prop :=
  ∀ (s : State) (k : Nat) (x : Job),
    (∀ r, AtStep s k 0x01 mmulCheck r x → x.opA = none →
      (opAwaited r x x.w1 = true → ∃ t, exec (.mmul k) s = .next t ∧ Onward t k x ∧ MemoryKept s t ∧ t.lsheds = s.lsheds) ∧
      ((ringGet r x.lkey (opRing x.w1)).st = 3 → ∃ t, exec (.mmul k) s = .next t ∧ Ended t k 5 x.bytes ∧ MemoryKept s t) ∧
      (badTag (ringGet r x.lkey (opRing x.w1)) x.w1 → ∃ t, exec (.mmul k) s = .next t ∧ Ended t k 9 x.bytes ∧ MemoryKept s t ∧
        (ringGet t x.lkey (opRing x.w1)).st = 3) ∧
      (∀ u a y, takeOp (r.reading x.reads) k x x.w1 x.mg x.kk (opSeq x.w1) = .ok (u, a) → y = { x with opA := some a, reads := [] } →
        (opAwaited u x x.w2 = true → ∃ t, exec (.mmul k) s = .next t ∧ Onward t k y ∧ MemoryKept s t ∧ t.lsheds = s.lsheds) ∧
        (∀ v b, takeOp (((u.readDone k).modJob k (fun _ => y)).reading []) k y x.w2 x.nn x.kk (opSeq x.w2) = .ok (v, b) →
          ∃ t, exec (.mmul k) s = .next t ∧ Onward t k { y with opB := some b } ∧ MemoryKept s t ∧ t.lsheds = s.lsheds))) ∧
    (∀ a, GoesOn s k x 0x01 → x.opA = some a → x.opB = none →
      (opAwaited s x x.w2 = true → ∃ t, exec (.mmul k) s = .next t ∧ Onward t k x ∧ MemoryKept s t ∧ t.lsheds = s.lsheds) ∧
      ((ringGet s x.lkey (opRing x.w2)).st = 3 → ∃ t, exec (.mmul k) s = .next t ∧ Ended t k 5 x.bytes ∧ MemoryKept s t) ∧
      (badTag (ringGet s x.lkey (opRing x.w2)) x.w2 → ∃ t, exec (.mmul k) s = .next t ∧ Ended t k 9 x.bytes ∧ MemoryKept s t ∧
        (ringGet t x.lkey (opRing x.w2)).st = 3) ∧
      (∀ v b, takeOp (s.reading x.reads) k x x.w2 x.nn x.kk (opSeq x.w2) = .ok (v, b) →
        ∃ t, exec (.mmul k) s = .next t ∧ Onward t k { x with opB := some b, reads := [] } ∧ MemoryKept s t ∧ t.lsheds = s.lsheds)) ∧
    (∀ a b l, GoesOn s k x 0x01 → x.opA = some a → x.opB = some b → l = lkey x.run x.coord.ly (x.coord.ls + 1) →
      ∃ t y, exec (.mmul k) s = .next t ∧ MemoryKept s t ∧ t.jobs.get k = some y ∧ y.prog = x.prog + 1 ∧
        (∀ i c, i < x.mg → c < min x.nn 256 → accGet t x.lkey (accKey x.t0 (min x.nn 256) i c) =
          blockWord s x x.prog a b x.lkey (accKey x.t0 (min x.nn 256) i c) i c) ∧
        (∀ n, (∀ i c, i < x.mg → c < min x.nn 256 → n ≠ accKey x.t0 (min x.nn 256) i c) →
          accGet t x.lkey n = accGet s x.lkey n) ∧
        (x.w0.toNat / 2 ^ 13 % 2 = 1 → (s.lsheds.get l).isSome → ∀ i c, i < x.mg → c < x.nn - 256 →
          accGet t l (accKey x.t0 (x.nn - 256) i c) = blockWord s x x.prog a b l (accKey x.t0 (x.nn - 256) i c) i (256 + c)) ∧
        (x.w0.toNat / 2 ^ 13 % 2 = 0 → ∀ l n, l ≠ x.lkey → accGet t l n = accGet s l n) ∧
        (x.prog + 1 < x.blocks → Onward t k y ∧ ∀ q, ringGet t x.lkey q = ringGet s x.lkey q) ∧
        (x.blocks ≤ x.prog + 1 → Ended t k 0 0 ∧ (opRing x.w1 ≠ opRing x.w2 → ∀ q, q = opRing x.w1 ∨ q = opRing x.w2 →
          0 < (ringGet s x.lkey q).filled → Popped s t x.lkey q)))

/-- R288, R265: an mmulg reads its counts, takes its A tile, and then goes group by group: a group of no rows is passed over; the B
tile of any other is taken, its products are added k-block by k-block to the accumulator words of its rows, and HEAD of its ring
moves on after the last. After the last group HEAD of A's ring moves on and the command ends. -/
def Sys2Proof.Claims.GroupedProducts : Prop :=
  ∀ (s : State) (k : Nat) (x : Job),
    (∀ r u ns, AtStep s k 0x02 mmulgCheck r x → x.counts = [] → loadCounts (r.reading x.reads) (x.ctx k) (ptrAddr x.w3) x.mg = .ok (u, ns) →
      (∀ g, groupOver x ns = some g → ∃ t, exec (.mmulg k) s = .next t ∧ Ended t k 10 0) ∧
      (groupOver x ns = none → opFits u x x.w1 (groupRow ns x.mg) x.kk = false →
        ∃ t, exec (.mmulg k) s = .next t ∧ Ended t k 1 0) ∧
      (groupOver x ns = none → opFits u x x.w1 (groupRow ns x.mg) x.kk = true →
        ∃ t, exec (.mmulg k) s = .next t ∧ Onward t k { x with counts := ns, reads := [] } ∧ MemoryKept s t)) ∧
    (GoesOn s k x 0x02 → x.counts ≠ [] →
      (∀ u a, x.opA = none → takeOp (s.reading x.reads) k x x.w1 (groupRow x.counts x.mg) x.kk (opSeq x.w1) = .ok (u, a) →
        ∃ t, exec (.mmulg k) s = .next t ∧ Onward t k { x with opA := some a, reads := [] } ∧ MemoryKept s t) ∧
      (∀ a g b n seq, x.opA = some a → x.prog < x.mg * x.blocks → g = x.prog / x.blocks → b = x.prog % x.blocks →
        n = x.counts.getD g 0 → seq = (opSeq x.w2 + g) % 2 ^ 32 →
        (n = 0 → ∃ t, exec (.mmulg k) s = .next t ∧ Onward t k { x with prog := (g + 1) * x.blocks } ∧ MemoryKept s t) ∧
        (∀ u w, n ≠ 0 → x.opB = none → takeOp (s.reading x.reads) k x x.w2 x.nn x.kk seq = .ok (u, w) →
          ∃ t, exec (.mmulg k) s = .next t ∧ Onward t k { x with opB := some w, reads := [] } ∧ MemoryKept s t) ∧
        (∀ w, n ≠ 0 → x.opB = some w → ∃ t y, exec (.mmulg k) s = .next t ∧ Onward t k y ∧ y.prog = x.prog + 1 ∧ MemoryKept s t ∧
          (∀ i c, groupRow x.counts g ≤ i → i < groupRow x.counts g + n → c < x.nn → accGet t x.lkey (accKey x.t0 x.nn i c) =
            blockWord s x b a w x.lkey (accKey x.t0 x.nn i c) i c) ∧
          (∀ m, (∀ i c, groupRow x.counts g ≤ i → i < groupRow x.counts g + n → c < x.nn → m ≠ accKey x.t0 x.nn i c) →
            accGet t x.lkey m = accGet s x.lkey m) ∧
          (b + 1 < x.blocks → y.opB = some w) ∧
          (b + 1 = x.blocks → y.opB = none ∧
            (0 < (ringGet s x.lkey (opRing x.w2)).filled → Popped s t x.lkey (opRing x.w2))))) ∧
      (∀ a, x.opA = some a → x.mg * x.blocks ≤ x.prog → ∃ t, exec (.mmulg k) s = .next t ∧ Ended t k 0 0 ∧ MemoryKept s t ∧
        (0 < (ringGet s x.lkey (opRing x.w1)).filled → Popped s t x.lkey (opRing x.w1))))

/-- R283 to R286, R293: products of blocks, alone and in groups. The order of the checks, the pairing of scales by tag alone, and NV beside a quiet NaN are the model's (log entries 122, 124 and 121). -/
def Obligations.Products : Prop := Claims.MatrixProducts ∧ Claims.GroupedProducts

/-- The path that spmm or spcol takes for tile d at pa, from u: the machine in which it runs, and its path with what it keeps of the
structure (R301 to R303): the dense one of spmm; the interpreted one for a tile that is too large, or not in the loft, which then
queues a compile (R305); or the compiled one. -/
def Sys2Proof.Claims.Takes (spmm : Bool) (u : State) (k : Nat) (x : Job) (pa : Nat) (d : Desc) (v : State) (c : List Nat) : Prop :=
  ∀ h own, h = coreShed x.core → own = [(Desc.dw d 4).toNat, Desc.rows d, Desc.cols d] →
    if spmm = true ∧ Desc.dense d = true then
      ∃ rows cols, loadStruct u k x d = .ok (v, rows, cols) ∧ structOk d rows cols = true ∧ c = 2 :: own ++ (rows ++ cols)
    else if 4096 < Desc.uops d then v = u ∧ c = 0 :: own
    else match (u.shed h).loft.find? (fun e => e.is pa (Desc.gen d) && e.run == x.run) with
      | some e => v = touchEntry u h e ∧ c = 1 :: e.vals :: (e.rowp.length - 1) :: e.cols :: (e.rowp ++ e.colIdx)
      | none => v = queueCompile u h pa (Desc.gen d) x.run (u.ctxPart (x.ctx k)) (ptrAddr x.w1) (Desc.uops d) ∧ c = 0 :: own

/-- spmm and spcol: the code, the checks, the steps to the next step boundary, when it is done, and a step. -/
def Sys2Proof.Claims.sparseOf (spmm : Bool) (k : Nat) : Claims.Loop :=
  if spmm then ⟨k, 0x06, spmmCheck, fun x => bits x.w0 55 48 + 1, fun _ => none,
    fun _ y => decide (y.tileRows * (bits y.w0 55 48 + 1) ≤ y.prog), spmmStep k⟩
  else ⟨k, 0x07, spcolCheck, fun _ => 256, fun _ => none, fun _ y => spcolDone y, spcolStep k⟩

/-- R301, R290: an spmm or spcol whose descriptor fails its check ends with BADCMD, and so does an spmm whose dense structure is ill
formed; any other runs the loop of its path. R294, R305: pfill queues a compile. Which codes the pointers to FP32 may carry is the model's
choice (log entry 123). -/
def Sys2Proof.Claims.SparseProducts : Prop :=
  ∀ (s : State) (k : Nat) (x : Job),
    (∀ spmm i l r, i = (if spmm = true then Instr.spmm k else Instr.spcol k) → l = sparseOf spmm k →
      AtStep s k l.code l.check r x →
      (∀ u pa bs d, x.hold = [] → readDesc r k x 64 = .ok (u, pa, bs) → d = descOf bs →
        (Desc.bad d = true ∨ (spmm = false ∧ Desc.cols d ≤ x.w0.toNat / 2 ^ 56) →
          ∃ t, exec i s = .next t ∧ Ended t k 1 0 ∧ MemoryKept s t ∧ t.lsheds = s.lsheds) ∧
        (Desc.bad d = false → (spmm = false → x.w0.toNat / 2 ^ 56 < Desc.cols d) →
          (∀ v rows cols, spmm = true → Desc.dense d = true → loadStruct u k x d = .ok (v, rows, cols) →
            structOk d rows cols = false → ∃ t y, exec i s = .next t ∧ Ended t k 1 0 ∧ t.jobs.get k = some y ∧ MemoryKept s t) ∧
          (∀ v c y m e, Takes spmm u k x pa d v c → y = { x with reads := [], hold := bs, counts := c } →
            jobLoop k (l.done y) l.step (l.lim y) (l.burst y) ((v.readDone k).modJob k (fun _ => y)) y = (m, e) →
            LoopEnds i s k (l.done y) m e))) ∧
      (∀ m e, x.hold ≠ [] → jobLoop k (l.done x) l.step (l.lim x) (l.burst x) r x = (m, e) → LoopEnds i s k (l.done x) m e)) ∧
    (∀ u pa bs d h, Starts s k x 0x30 → bits x.w0 63 32 = 0 → bits x.w0 15 12 = 0 → x.w2 = 0 → x.w3 = 0 → descPtrOk x.w1 = true →
      ptrFmtOk x.w1 0 0 = true → readDesc (running s k x) k { x with started := true } 16 = .ok (u, pa, bs) → d = descOf bs →
      h = coreShed x.core →
      ∃ t, exec (.pfill k) s = .next t ∧ Ended t k 0 0 ∧ MemoryKept s t ∧ (t.shed h).loft = (s.shed h).loft ∧
        ((s.shed h).loft.any (fun e => e.is pa (Desc.gen d)) = false →
          (s.shed h).compiles.any (fun e => e.is pa (Desc.gen d)) = false → (s.shed h).compiles.length < 16 →
          Desc.uops d ≤ 4096 → ∃ e, (t.shed h).compiles = (s.shed h).compiles ++ [e] ∧ e.addr = pa ∧ e.gen = Desc.gen d ∧
            e.run = x.run ∧ e.compiling = false))

/-- R309, R310: ploft gives the path, the loft's state and the size of a pattern; pevict drops its entry and its compile, and
says whether there was one. R305, R306: a compile that no watch has stopped enters the loft, one that a watch has stopped does
not, one that is to read its tile does so and watches its lines, and an invalidation drops the entries of its line and stops the
compiles. R395: the compiler of a device that has stopped, or failed, does nothing. -/
def Sys2Proof.Claims.PatternLoft : Prop :=
  (∀ (s u : State) (tid : Nat) (th : Thread) (rd : Reg) (ra : Src) (ea pa : Nat) (d : Desc) (p : LoftEntry → Bool),
    Issues s tid th → CanGoOn s → CanRead s [ra.r] → Names (s.reg ra.r) 0 64 ea →
    (isNear ea = true → exec (.ploft rd ra) s = .next (wrote s [ra] [] rd 0x30 0) ∧
      exec (.pevict rd ra) s = .next (wrote s [ra] [] rd 0 0)) ∧
    (isNear ea = false → loadDesc (readState s [ra] []) ea = .ok (u, pa, d) → p = (fun e => e.is pa (Desc.gen d)) →
      (∃ t, exec (.ploft rd ra) s = .next t ∧ (Settled s → MemoryKept s t) ∧
        OnlyHart s t (doneHart s.hart [ra] [] rd (ploftWord (s.shed (coreShed th.core)) pa d) 0)) ∧
      (∃ t, exec (.pevict rd ra) s = .next t ∧ (Settled s → MemoryKept s t) ∧
        OnlyHart s t (doneHart s.hart [ra] [] rd (if (s.shed (coreShed th.core)).loft.any p ||
          (s.shed (coreShed th.core)).compiles.any p then 1 else 0) 0) ∧
        (t.shed (coreShed th.core)).loft = (s.shed (coreShed th.core)).loft.filter (fun e => !p e) ∧
        (t.shed (coreShed th.core)).compiles = (s.shed (coreShed th.core)).compiles.filter (fun e => !p e)))) ∧
  (∀ (s : State) (h line : Nat) (e : LoftEntry) (r : List LoftEntry),
    ((s.shed h).compiles = e :: r → deviceIssues s (shedDev h) = false →
      exec (.patternCompile h) s = .next { s with agenda := s.agenda ++ [.patternCompile h] }) ∧
    ((s.shed h).compiles = e :: r → deviceIssues s (shedDev h) = true →
      (e.compiling = true → e.hasFired s h = true → ∃ t, exec (.patternCompile h) s = .next t ∧ (t.shed h).compiles = r ∧
        (t.shed h).loft = (s.shed h).loft ∧ MemoryKept s t) ∧
      (e.compiling = true → e.hasFired s h = false → e.size ≤ 524288 → ∃ t, exec (.patternCompile h) s = .next t ∧
        (t.shed h).compiles = r ∧ (t.shed h).loft.getLast? = some { e with compiling := false } ∧ MemoryKept s t) ∧
      (e.compiling = false → ∀ u e' o, readTile s h e = (u, e', o) → ∃ t, exec (.patternCompile h) s = .next t ∧
        (t.shed h).loft = (s.shed h).loft ∧ MemoryKept s t ∧ (o = some .abandoned → (t.shed h).compiles = r) ∧
        (o = none → (t.shed h).compiles = e' :: r ∧ e'.compiling = true ∧ t.agenda.getLast? = some (.patternCompile h)))) ∧
    (s.invals.contains (h, line) = true → ∃ t, exec (.loftInvalidation h line) s = .next t ∧ MemoryKept s t ∧
      (t.shed h).loft = (s.shed h).loft.filter (fun e => !e.lines.contains line) ∧
      (t.shed h).compiles = (s.shed h).compiles.map (fun e => if e.lines.contains line then { e with fired := true } else e) ∧
      t.invals = s.invals.filter (fun q => q != (h, line))))

/-- Sparse products, and the pattern loft. Which codes the pointers to FP32 may carry is the model's choice (log entry 123). -/
def Obligations.SparseAndPatterns : Prop := Claims.SparseProducts ∧ Claims.PatternLoft

/-- A slot's bytes have been stored, from u on, at a: all of them, and then the ring and the command are as `done` says; or those
before a store that stopped, which the command makes when it goes on (R264). -/
def Sys2Proof.Claims.SlotStored (i : Instr) (s u : State) (k : Nat) (x : Job) (a : Nat) (b : List Byte) (done : State → Job → Prop) : Prop :=
  ∀ v ps n e, makePuts (x.ctx k) (Put.pieces (8 * b.length + 1) ⟨a, 0, 8 * b.length, leVal b, a, b.length⟩) (u.reading []) x.bytes = (v, ps, n, e) →
    (e = none → ∃ t y, exec i s = .next t ∧ MemoryKept v t ∧ Onward t k y ∧ y.prog = x.prog + 1 ∧
      y.bytes = x.bytes + b.length ∧ done t y) ∧
    (∀ kind cause at_, e = some (.fault kind cause at_) → ∃ t y, exec i s = .next t ∧ MemoryKept v t ∧
      Faulted t k kind cause (BitVec.ofNat 64 at_) y ∧ y.prog = x.prog ∧ y.todo = ps ∧ y.bytes = n)

/-- R274, R268, R275: a sub starts and attaches to its open ring; each tile reads a slot's bytes from memory into the slot at TAIL,
with its scales, and moves TAIL on; each tile of a drain writes the bytes of the slot at HEAD to memory and moves HEAD on; after the
last tile the command ends with OK and its bytes as VALUE. That a sub attaches to an open ring alone is the model's choice (log entry 84). -/
def Obligations.TileStreams : Prop :=
  ∀ (s : State) (k : Nat) (j : Job) (r : Ring), r = ringGet s j.lkey j.ringOf →
    (Starts s k j 0x20 → subCheck s j = 0 → j.prog = 0 → ∃ t x, exec (.subscription k) s = .next t ∧ Onward t k x ∧
      MemoryKept s t ∧ (r.st = 1 → (ringGet t j.lkey j.ringOf).att.contains (.job k) = true)) ∧
    (Starts s k j 0x28 → drainCheck s j = 0 → ∃ t x, exec (.drain k) s = .next t ∧ Onward t k x ∧ MemoryKept s t ∧
      t.lsheds = s.lsheds) ∧
    (j.todo = [] →
      (GoesOn s k j 0x20 →
        (j.tiles ≤ j.prog → ∃ t, exec (.subTile k) s = .next t ∧ Ended t k 0 j.bytes ∧ MemoryKept s t) ∧
        (∀ u v b sc seq at_, j.prog < j.tiles → seq = (j.w2.toNat % 2 ^ 32 + j.prog) % 2 ^ 32 → r.skips.contains seq = false →
          r.st = 1 → r.filled < r.slots → (fmtScaled (ptrFmt j.w1) = true → r.scales.length < 64) →
          j.w1.toNat % 2 ^ 52 + j.prog * (j.w2.toNat / 2 ^ 32) < 2 ^ 52 →
          jLoadBytes (s.reading j.reads) (j.ctx k) (j.w1.toNat % 2 ^ 52 + j.prog * (j.w2.toNat / 2 ^ 32)) r.slotBytes = .ok (u, b) →
          at_ = j.w3.toNat % 2 ^ 52 + j.prog * tileScales j r.slotBytes → at_ < 2 ^ 52 →
          jLoadBytes u (j.ctx k) at_ (tileScales j r.slotBytes) = .ok (v, sc) →
          SlotStored (.subTile k) s v k j (r.slotAddr r.tail) b (fun t _ => ∀ q, q = ringGet t j.lkey j.ringOf →
            q.tail = (r.tail + 1) % 2 ^ 32 ∧ q.head = r.head ∧ q.seq.get (r.tail % r.slots) = some seq ∧
            q.scales = r.scales ++ (if sc = [] then [] else [(seq, sc.map (fun x => x.toNat))])))) ∧
      (GoesOn s k j 0x28 →
        (j.tiles ≤ j.prog → ∃ t, exec (.drainTile k) s = .next t ∧ Ended t k 0 j.bytes ∧ MemoryKept s t) ∧
        (∀ u b a, j.prog < j.tiles → r.st = 1 ∨ r.st = 2 → 0 < r.filled →
          a = j.w1.toNat % 2 ^ 52 + j.prog * (j.w2.toNat / 2 ^ 32) → a < 2 ^ 52 → a + r.slotBytes ≤ 2 ^ 52 →
          jLoadBytes (s.reading j.reads) (j.ctx k) (r.slotAddr r.head) r.slotBytes = .ok (u, b) →
          SlotStored (.drainTile k) s u k j a b (fun t _ => ∀ q, q = ringGet t j.lkey j.ringOf →
            q.head = (r.head + 1) % 2 ^ 32 ∧ q.tail = r.tail))))

/-! ### Vector commands -/

/-- The vector commands: the command, its code, and the step of its element loop. -/
def Sys2Proof.Claims.vopOf : Instr → Option (Nat × Nat × (Nat → VCmd → VOps → Nat → State → VRun → JM (State × VRun)))
  | .vadd k => some (k, 0x01, arithStep)
  | .vsub k => some (k, 0x02, arithStep)
  | .vmul k => some (k, 0x03, arithStep)
  | .vfma k => some (k, 0x04, arithStep)
  | .vmin k => some (k, 0x05, arithStep)
  | .vmax k => some (k, 0x06, arithStep)
  | .vabs k => some (k, 0x07, absStep)
  | .vcvt k => some (k, 0x08, vcvtStep)
  | .vsfn k => some (k, 0x09, sfnStep)
  | .vsum k => some (k, 0x10, sumStep)
  | .vmaxi k => some (k, 0x11, maxStep)
  | .vscan k => some (k, 0x12, scanStep)
  | .vcmp k => some (k, 0x13, cmpStep)
  | .vsel k => some (k, 0x14, selStep)
  | .vgath k => some (k, 0x20, gathStep)
  | .vscat k => some (k, 0x21, scatStep)
  | .vscad k => some (k, 0x22, scadStep)
  | .vbern k => some (k, 0x23, bernStep)
  | .vrs k => some (k, 0x24, rsStep)
  | .vcopy k => some (k, 0x25, vcopyStep)
  | _ => none

/-- A vector command that its unit may run now (R278). -/
abbrev Sys2Proof.Claims.VStarts (s : State) (k : Nat) (v : VCmd) (code : Nat) : Prop :=
  s.vcmds.get k = some v ∧ v.ended = false ∧ v.fault = none ∧ v.killed = false ∧ v.op = code ∧
    unitRuns s v.run v.lkey v.core = true ∧ vTurn s k v = true

/-- The body of vector command k has ended with a status and flags; its completion follows. -/
def Sys2Proof.Claims.VEnded (t : State) (k status : Nat) (fl : BitVec 5) : Prop :=
  ∃ v, t.vcmds.get k = some v ∧ v.ended = true ∧ v.status = status ∧ v.flags = fl ∧ t.agenda.getLast? = some (.vcmdDone k)

/-- The command is attached to its destination ring while that is open (R296). -/
def Sys2Proof.Claims.vAttached (s : State) (k : Nat) (v : VCmd) : State :=
  if isRingHandle v.hd && (ringGet s v.lkey (v.hd % 32)).st = 1 then
    s.modLShed v.lkey (fun x => { x with rings := x.rings.set (v.hd % 32) ((ringGet s v.lkey (v.hd % 32)).attach (.vcmd k)) })
  else s

/-- What becomes of vector command k, whose element loop has come to x at step n with what it has found r, stopped by e or at its
end: it ends with OK and the flags of its elements, and takes a slot from each source ring and gives one to its destination ring; or
it ends with a status; or it waits, or waits on a fault, and holds where it stands (R264, R278, R296). -/
def Sys2Proof.Claims.VLoopEnds (i : Instr) (s : State) (k : Nat) (v : VCmd) (o : VOps) (x : State) (n : Nat) (r : VRun) (e : Option JExc) :
    Prop :=
  ∃ t, exec i s = .next t ∧ MemoryKept x t ∧
    (e = none → VEnded t k 0 r.flags.toBits ∧
      (∀ q, o.a.ring = some q → o.b.ring ≠ some q → o.d.ring ≠ some q → (x.lsheds.get v.lkey).isSome = true →
        (ringGet t v.lkey q).head = ((ringGet x v.lkey q).head + 1) % 2 ^ 32) ∧
      (∀ q, o.d.ring = some q → o.a.ring ≠ some q → o.b.ring ≠ some q → (x.lsheds.get v.lkey).isSome = true →
        (ringGet t v.lkey q).tail = ((ringGet x v.lkey q).tail + 1) % 2 ^ 32)) ∧
    (∀ st d, e = some (.stop st d) → VEnded t k st r.flags.toBits) ∧
    (∀ kind cause a, e = some (.fault kind cause a) → ∃ y f m, t.vcmds.get k = some y ∧ y.ended = false ∧ y.fault = some f ∧
      y.held = some (o, n, r) ∧ t.faults.get f = some m ∧ m.who = .vcmd k ∧ m.kind = kind ∧ m.cause = cause ∧
      m.addr = BitVec.ofNat 64 a) ∧
    (e = some .wait → ∃ y, t.vcmds.get k = some y ∧ y.ended = false ∧ y.held = some (o, n, r) ∧
      t.agenda.getLast? = some (.vcmd k))

/-- R296 to R299, R278, R264: a vector command of COUNT 0 does nothing, one that fails a check ends with its status, and one whose
operands are there runs its element loop; one that has stopped within its loop goes on at the step at which it stopped, with the
operands and the loads that it has (the model's reading of R264 for the vector unit, log entry 30). R296 gives the statuses no order: that a bad field or a bad ring comes
before every other condition, and an empty slot before NEAR, BROKEN, CLOSED and SCALE_SEQ, is the model's choice (log entry 87). A vrs waits while its shed's copy of
the slot is being built, faults RS_SLOT on an empty slot, and machine check where the points cannot be read (R139, R379). -/
def Obligations.VectorCommands : Prop :=
  ∀ (i : Instr) (s : State) (k : Nat) (v : VCmd) (code : Nat) (step : Nat → VCmd → VOps → Nat → State → VRun → JM (State × VRun)),
    vopOf i = some (k, code, step) → VStarts s k v code →
    (v.count = 0 → ∃ t, exec i s = .next t ∧ VEnded t k 0 0 ∧ MemoryKept s t ∧ t.lsheds = s.lsheds) ∧
    (v.count ≠ 0 → v.held = none → v.badFields = true ∨ (∃ x ∈ v.spans, vRingOk s v x.1 x.2.1 = false) →
      ∃ t, exec i s = .next t ∧ VEnded t k 1 0 ∧ MemoryKept s t ∧ t.lsheds = s.lsheds) ∧
    (v.count ≠ 0 → v.held = none → v.badFields = false → (∀ x ∈ v.spans, vRingOk s v x.1 x.2.1 = true) →
      v.op = 8 → v.dstFmt = 0 ∨ 13 < v.dstFmt → ∃ t, exec i s = .next t ∧ VEnded t k 2 0 ∧ MemoryKept s t ∧ t.lsheds = s.lsheds) ∧
    (v.count ≠ 0 → v.held = none → v.badFields = false → (∀ x ∈ v.spans, vRingOk s v x.1 x.2.1 = true) →
      (v.op = 8 → 1 ≤ v.dstFmt ∧ v.dstFmt ≤ 13) →
      (vBuilding s v = true → exec i s = .next (s.post (.vcmd k))) ∧
      (∀ u, vBuilding s v = false → vPoints s v = .ok (u, none) → ∃ t y f m, exec i s = .next t ∧ t.vcmds.get k = some y ∧
        y.fault = some f ∧ t.faults.get f = some m ∧ m.kind = 2 ∧ m.cause = 11 ∧ MemoryKept s t) ∧
      (∀ cause a, vBuilding s v = false → vPoints s v = .error (.fault 8 cause a) → ∃ t y f m, exec i s = .next t ∧
        t.vcmds.get k = some y ∧ y.fault = some f ∧ t.faults.get f = some m ∧ m.kind = 8 ∧ m.cause = cause ∧ MemoryKept s t) ∧
      (∀ u w w' ps a b d sc o x n r e, vBuilding s v = false → vPoints s v = .ok (u, some ps) →
        (v.op = 0x24 → RealSet.width ps = fmtBits v.fmt 8) → w = u.modVCmd k (fun y => { y with points := some ps }) →
        vRanges w k v = .ok () → w' = vAttached w k v → vTake w' v = .ok (a, b, d) → ringScales w' v a = .ok sc →
        o = ⟨a, b, d, sc, w'.fpctlOf v.run, w'.seedOf v.run, ps⟩ →
        vLoop (v.ctx k) (step k v o) v.steps 0 w' .begin = (x, n, r, e) → VLoopEnds i s k v o x n r e)) ∧
    (∀ o m r₀ x n r e, v.count ≠ 0 → v.held = some (o, m, r₀) →
      vLoop (v.ctx k) (step k v o) (v.steps - m) m s r₀ = (x, n, r, e) → VLoopEnds i s k v o x n r e)

/-- A byte of the shed window of a command's logical shed (R72). -/
def Sys2Proof.Claims.windowByte (s : State) (v : VCmd) (off : Nat) : Byte :=
  match nearPlace s v.run v.coord .read (vWindow + off) with
  | .ok p => s.byte p.key
  | .error _ => 0

/-- Element i, of n bytes, of a window operand. -/
def Sys2Proof.Claims.windowElem (s : State) (v : VCmd) (h n i : Nat) : Nat :=
  leVal ((List.range n).map (fun b => windowByte s v (h * 64 + i * n + b)))

/-- R297: the element-wise arithmetic of window operands apart from each other: each element of HD, its flags, and no other
byte of the window. -/
def Obligations.VectorArithmetic : Prop :=
  ∀ (i : Instr) (s : State) (k n : Nat) (v : VCmd) (x : LShed) (r : Run) (o : VOps) (f : Nat → Nat × FpFlags),
    i ∈ [Instr.vadd k, .vsub k, .vmul k, .vfma k, .vmin k, .vmax k, .vabs k] →
    (∀ code step, vopOf i = some (k, code, step) → VStarts s k v code) → v.count ≠ 0 → v.held = none → v.badFields = false →
    1 ≤ v.fmt → v.fmt ≤ 4 → n = v.dBits / 8 → v.hd < 2 ^ 15 → v.ha < 2 ^ 15 → v.hb < 2 ^ 15 → vRanges s k v = .ok () →
    (∀ h, h = v.ha ∨ (h = v.hb ∧ v.op ≠ 7) → v.hd * 64 + v.count * n ≤ h * 64 ∨ h * 64 + v.count * n ≤ v.hd * 64) →
    s.badLines = [] → s.lsheds.get v.lkey = some x →
    (v.ctx k).dev = shedDev x.shed ∨ (s.device (v.ctx k).dev).linkErrors = [] → s.runs.get v.run = some r → (∀ lc, lc < 8 → x.bases.getD lc 0 + r.spad * 4096 ≤ 2 ^ 19) →
    (∀ m ∈ s.pageMigs, m.2.old < 2 ^ 33 ∧ m.2.new < 2 ^ 33) → Unlogged s v.lkey → o = ⟨windowLoc v.ha, windowLoc v.hb, windowLoc v.hd, [], s.fpctlOf v.run, s.seedOf v.run, []⟩ →
    f = (fun e => if v.op = 7 then (windowElem s v v.ha n e % 2 ^ (8 * n - 1), {}) else
      vArith o v e (windowElem s v v.ha n e) (windowElem s v v.hb n e) (if v.op = 4 then windowElem s v v.hd n e else 0)) →
    ∃ t, exec i s = .next t ∧ VEnded t k 0 ((List.range v.count).foldl (fun a e => a.or (f e).2) ({} : FpFlags)).toBits ∧
      (∀ e, e < v.count → windowElem t v v.hd n e = (f e).1 % 2 ^ (8 * n)) ∧
      (∀ b, b < 2 ^ 22 → (b < v.hd * 64 ∨ v.hd * 64 + v.count * n ≤ b) → windowByte t v b = windowByte s v b)

/-- R279: the completion of a vector command puts its flags, and its status when that is the first that is not OK, into the
vbusy word of its thread, unless its COUNT is 0; while the units do not run (R265, R377, R395) it waits. -/
def Sys2Proof.Claims.VectorCompletion : Prop :=
  ∀ (s : State) (k : Nat) (v : VCmd), s.vcmds.get k = some v → v.ended = true →
    (unitRuns s v.run v.lkey v.core = false → exec (.vectorCommandCompletion k) s = .next (s.post (.vcmdDone k))) ∧
    (unitRuns s v.run v.lkey v.core = true →
    ∃ t, exec (.vectorCommandCompletion k) s = .next t ∧ t.vcmds.get k = none ∧ MemoryKept s t ∧ RegistersKept s t ∧
      ∀ th, s.threads.get v.thread = some th → ∃ y, t.threads.get v.thread = some y ∧
        (v.count = 0 → y.vErr = th.vErr ∧ y.vFlags = th.vFlags) ∧
        (v.count ≠ 0 → y.vErr = (if th.vErr = 0 then v.status else th.vErr) ∧ y.vFlags = th.vFlags ||| v.flags))

/-- R278, R279, R296: vector commands are submitted, and end. -/
def Obligations.VectorQueue : Prop := Claims.VectorSubmission ∧ Claims.VectorCompletion

/-! ### Special functions and real sets -/

/-- R113, R376: sfn parks its thread until the result returns, which writes rd and ORs the flags; while the thread's device has stopped
(R395) a result waits. The value for a service core is
the model's choice (log entry 22). -/
def Obligations.SpecialFunctions : Prop :=
  (∀ (s : State) (fn : SfnFn) (rd : Reg) (ra : Src), CanRead s [ra.r] → CanGoOn s →
    (∀ tid, s.cur = .thread tid → exec (.sfn fn rd ra) s = .next (((readState s [ra] []).modThread tid (fun x =>
      { x with park := .result false rd (BitVec.ofNat 64 (sfnValue s fn (s.reg ra.r)).1) (sfnValue s fn (s.reg ra.r)).2.toBits })).post
        (.sfnResult tid))) ∧
    (∀ n, s.cur = .svc n → exec (.sfn fn rd ra) s =
      .next (wrote s [ra] [] rd (BitVec.ofNat 64 (sfnValue s fn (s.reg ra.r)).1) (sfnValue s fn (s.reg ra.r)).2.toBits))) ∧
  (∀ (s : State) (tid : Nat) (th : Thread) (rd : Reg) (v : Word) (fl : BitVec 5), s.threads.get tid = some th →
    (coreWorks s th.core = true →
      (th.park = .result false rd v fl → exec (.sfnResult tid) s = .next (s.setThread tid
        { th with hart := doneHart th.hart [] [] rd v fl, park := .none, held := requested s th })) ∧
      (th.park = .result true rd v fl → exec (.realSetResult tid) s = .next (s.setThread tid
        { th with hart := doneHart th.hart [] [] rd v fl, park := .none, held := requested s th }))) ∧
    (coreWorks s th.core = false →
      (th.park = .result false rd v fl → exec (.sfnResult tid) s = .next (s.post (.sfnResult tid))) ∧
      (th.park = .result true rd v fl → exec (.realSetResult tid) s = .next (s.post (.realSetResult tid)))))

/-- The real-set forms whose result the shed's copy of the slot gives (R149): slot, rd, sources, and the result from the points. -/
def Sys2Proof.Claims.setOf (s : State) : Instr → Option (BitVec 3 × Reg × List Src × (List Word → Nat))
  | .rsadd z rd ra rb => some (z, rd, [ra, rb], fun ps => RealSet.binary ps .add (m ps ra) (m ps rb))
  | .rssub z rd ra rb => some (z, rd, [ra, rb], fun ps => RealSet.binary ps .sub (m ps ra) (m ps rb))
  | .rsmul z rd ra rb => some (z, rd, [ra, rb], fun ps => RealSet.binary ps .mul (m ps ra) (m ps rb))
  | .rsdiv z rd ra rb => some (z, rd, [ra, rb], fun ps => RealSet.binary ps .div (m ps ra) (m ps rb))
  | .rslt z rd ra rb => some (z, rd, [ra, rb], fun ps => RealSet.less ps (m ps ra) (m ps rb))
  | .rsfi z rd ra rb => some (z, rd, [ra, rb], fun ps =>
      RealSet.ofInterval ps (s.fpOperand .fp64 (s.reg ra.r)) (s.fpOperand .fp64 (s.reg rb.r)))
  | .rsneg z rd ra => some (z, rd, [ra], fun ps => RealSet.unary ps .neg (m ps ra))
  | .rsinv z rd ra => some (z, rd, [ra], fun ps => RealSet.unary ps .inv (m ps ra))
  | .rssq z rd ra => some (z, rd, [ra], fun ps => RealSet.unary ps .sq (m ps ra))
  | .rslo z rd ra => some (z, rd, [ra], fun ps => RealSet.bound ps false (m ps ra))
  | .rshi z rd ra => some (z, rd, [ra], fun ps => RealSet.bound ps true (m ps ra))
  | .rsf z rd ra => some (z, rd, [ra], fun ps => RealSet.ofVal ps (s.fpOperand .fp64 (s.reg ra.r)))
  | _ => none
where m (ps : List Word) (a : Src) : Nat := (s.reg a.r).toNat % 2 ^ RealSet.width ps

/-- The real-set forms that complete in the core: slot, rd, sources, the width that the slot must have for codes, and the result
with NX from the points. -/
def Sys2Proof.Claims.setCoreOf (s : State) : Instr → Option (BitVec 3 × Reg × List Src × Option Nat × (List Word → Nat × Bool))
  | .rsor z rd ra rb => some (z, rd, [ra, rb], none, fun ps => (((s.reg ra.r) ||| (s.reg rb.r)).toNat % 2 ^ RealSet.width ps, false))
  | .rsand z rd ra rb => some (z, rd, [ra, rb], none, fun ps => (((s.reg ra.r) &&& (s.reg rb.r)).toNat % 2 ^ RealSet.width ps, false))
  | .rsconn z rd ra => some (z, rd, [ra], none, fun ps => (RealSet.connected ps ((s.reg ra.r).toNat % 2 ^ RealSet.width ps), false))
  | .rscz w z rd ra => some (z, rd, [ra], some (czBits w), fun ps => RealSet.compress ps ((s.reg ra.r).toNat % 2 ^ RealSet.width ps))
  | .rsxz w z rd ra => some (z, rd, [ra], some (czBits w), fun ps => (RealSet.expand ps ((s.reg ra.r).toNat % 2 ^ czBits w), false))
  | _ => none

/-- R135, R141 to R149: a real-set form of a claimed and loaded slot gives its result; one of an unclaimed slot is a privilege
fault, and one of an empty slot, or of a code width that is not the slot's, is RS_SLOT; where the shed's tables could not be built
again, the slot is empty from then on. One whose slot is being built in the shed waits. That rsf and rsfi of a signalling NaN set no flag is
the model's reading (log entry 105). -/
def Sys2Proof.Claims.RealSetResults : Prop :=
  ∀ (i : Instr) (s u : State) (tid : Nat) (th : Thread) (r : Run) (z : BitVec 3) (rd : Reg) (as : List Src) (ps : List Word),
    Issues s tid th → s.curRun = some r → CanGoOn s → CanRead s (as.map (fun a => a.r)) →
    (∀ f, setOf s i = some (z, rd, as, f) →
      (r.zclaim / 2 ^ z.toNat % 2 = 0 → exec i s = .next (stopped s (wordFault 1 i))) ∧
      (r.zclaim / 2 ^ z.toNat % 2 = 1 → slotBuilding s th.run (coreShed th.core) z.toNat = true →
        exec i s = .next (stopped s (.wait .build))) ∧
      (r.zclaim / 2 ^ z.toNat % 2 = 1 → slotBuilding s th.run (coreShed th.core) z.toNat = false →
        (slotTables (readState s as []) th.run (coreShed th.core) z.toNat = .ok (u, some ps) →
          ∃ t y, exec i s = .next t ∧ t.threads.get tid = some y ∧ y.hart = readHart th.hart as [] ∧
            y.park = .result true rd (BitVec.ofNat 64 (f ps)) 0 ∧ MemoryKept s t ∧ RegistersKept s t ∧ OthersKept s t) ∧
        (∀ x, slotTables (readState s as []) th.run (coreShed th.core) z.toNat = .ok (u, none) →
          slotTables s th.run (coreShed th.core) z.toNat = .ok (x, none) →
          exec i s = .next (stopped x (wordFault 11 i))))) ∧
    (∀ w f, setCoreOf s i = some (z, rd, as, w, f) →
      (r.zclaim / 2 ^ z.toNat % 2 = 0 → exec i s = .next (stopped s (wordFault 1 i))) ∧
      (r.zclaim / 2 ^ z.toNat % 2 = 1 → slotBuilding s th.run (coreShed th.core) z.toNat = true →
        exec i s = .next (stopped s (.wait .build))) ∧
      (r.zclaim / 2 ^ z.toNat % 2 = 1 → slotBuilding s th.run (coreShed th.core) z.toNat = false →
        (slotTables (readState s as []) th.run (coreShed th.core) z.toNat = .ok (u, some ps) →
          ((∀ n, w = some n → RealSet.codeWidth ps = n) → ∃ t, exec i s = .next t ∧ MemoryKept s t ∧
            OnlyHart s t (doneHart s.hart as [] rd (BitVec.ofNat 64 (f ps).1) (if (f ps).2 then 1 else 0))) ∧
          (∀ n x, w = some n → RealSet.codeWidth ps ≠ n → slotTables s th.run (coreShed th.core) z.toNat = .ok (x, some ps) →
            exec i s = .next (stopped x (wordFault 11 i)))) ∧
        (∀ x, slotTables (readState s as []) th.run (coreShed th.core) z.toNat = .ok (u, none) →
          slotTables s th.run (coreShed th.core) z.toNat = .ok (x, none) →
          exec i s = .next (stopped x (wordFault 11 i)))))

/-- R138, R139: rsring waits while a vrs on its slot is in flight in its shed, or the shed's copy is being built; it answers 1 for a bad
type and 2 for bad points, and empties the slot; a valid definition is recorded for the run, and rsring returns 0 when the shed's tables
are built, of the load that it recorded; while the thread's device has stopped (R395) the building waits. -/
def Sys2Proof.Claims.RealSetLoads : Prop :=
  (∀ (s u v : State) (tid : Nat) (th : Thread) (r : Run) (z : BitVec 3) (rd : Reg) (ra : Src) (ea h : Nat) (ps : List Word),
    Issues s tid th → s.curRun = some r → CanGoOn s → CanRead s [ra.r] → Settled s → r.zclaim / 2 ^ z.toNat % 2 = 1 →
    Names (s.reg ra.r) 0 8 ea →
    (slotInUse s th.run (coreShed th.core) z.toNat = true → exec (.rsring z rd ra) s = .next (stopped s (.wait .vector))) ∧
    (slotInUse s th.run (coreShed th.core) z.toNat = false → slotBuilding s th.run (coreShed th.core) z.toNat = true →
      exec (.rsring z rd ra) s = .next (stopped s (.wait .build))) ∧
    (slotInUse s th.run (coreShed th.core) z.toNat = false → slotBuilding s th.run (coreShed th.core) z.toNat = false → loadFresh (readState s [ra] []) ea 8 = .ok (u, h) →
    (4 ≤ h ∨ h % 4 = 3 → ∃ t y rec, exec (.rsring z rd ra) s = .next t ∧ OnlyHart s t (doneHart s.hart [ra] [] rd 1 0) ∧
      MemoryKept s t ∧ t.runs.get th.run = some y ∧ y.zslots.get z.toNat = some rec ∧ rec.status ≠ 0) ∧
    (h < 3 → loadDwords u (ea + 8) (8 * 2 ^ h - 1) = .ok (v, ps) →
      (RealSet.pointsOk (ps.map RealSet.normPoint) = false → ∃ t y rec, exec (.rsring z rd ra) s = .next t ∧
        OnlyHart s t (doneHart s.hart [ra] [] rd 2 0) ∧ MemoryKept s t ∧ t.runs.get th.run = some y ∧
        y.zslots.get z.toNat = some rec ∧ rec.status ≠ 0) ∧
      (RealSet.pointsOk (ps.map RealSet.normPoint) = true → ∃ t y x rec, exec (.rsring z rd ra) s = .next t ∧ MemoryKept s t ∧
        t.threads.get tid = some x ∧ x.park = .table z.toNat rd (ps.map RealSet.normPoint) rec.version ∧ t.runs.get th.run = some y ∧
        y.zslots.get z.toNat = some rec ∧ rec.status = 0 ∧ rec.addr = ea)))) ∧
  (∀ (s : State) (tid : Nat) (th : Thread) (z n : Nat) (rd : Reg) (ps : List Word), s.threads.get tid = some th →
    th.park = .table z rd ps n →
    (coreWorks s th.core = false → exec (.tableBuild tid) s = .next (s.post (.tableBuild tid))) ∧
    (coreWorks s th.core = true → ∃ t y, exec (.tableBuild tid) s = .next t ∧ t.threads.get tid = some y ∧
      y.hart = doneHart th.hart [] [] rd 0 0 ∧ y.park = .none ∧ MemoryKept s t ∧
      ((∀ x, (s.shed (coreShed th.core)).tables.get (zkey th.run z) = some x → x.1 ≤ n) →
        (t.shed (coreShed th.core)).tables.get (zkey th.run z) = some (n, ps)) ∧
      (∀ x, (s.shed (coreShed th.core)).tables.get (zkey th.run z) = some x → n < x.1 →
        (t.shed (coreShed th.core)).tables.get (zkey th.run z) = some x)))

/-- Real-set instructions and the loading of their slots. -/
def Obligations.RealSets : Prop := Claims.RealSetResults ∧ Claims.RealSetLoads

/-! ### Random bits and priority queues -/

/-- R318, R319, R320, R347: the random forms of a program's stream, and the hash; a stream of the hardware is a fault. -/
def Sys2Proof.Claims.RandomBits : Prop :=
  ∀ (s : State) (tid : Nat) (th : Thread) (rd : Reg) (ra rb : Src) (a : Nat), Issues s tid th → CanGoOn s →
    CanRead s [ra.r, rb.r] → a = (s.reg ra.r).toNat →
    (programStream (a % 2 ^ 32) = true → exec (.rngb rd ra rb) s =
      .next (wrote s [ra, rb] [] rd (mixLow s.seed (a % 2 ^ 32) (s.reg rb.r)) 0)) ∧
    (programStream (a % 2 ^ 32) = false → exec (.rngb rd ra rb) s = .next (stopped s (wordFault 28 (.rngb rd ra rb))) ∧
      exec (.rbern rd ra rb) s = .next (stopped s (wordFault 28 (.rbern rd ra rb)))) ∧
    (programStream (a % 2 ^ 32) = true → a / 2 ^ 32 % 2 ^ 16 ≠ 0 →
      exec (.rbern rd ra rb) s = .next (stopped s (wordFault 28 (.rbern rd ra rb)))) ∧
    (programStream (a % 2 ^ 32) = true → a / 2 ^ 32 % 2 ^ 16 = 0 → ∃ w : Word,
      (∀ i, i < 64 → w.getLsbD i = bernoulli s.seed (a % 2 ^ 32) (s.reg rb.r + BitVec.ofNat 64 i) (a / 2 ^ 48)) ∧
      exec (.rbern rd ra rb) s = .next (wrote s [ra, rb] [] rd w 0)) ∧
    exec (.thash rd ra rb) s = .next (wrote s [ra, rb] [] rd
      (tieHash s.seed (a % 2 ^ 22) ((s.reg rb.r).toNat % 2 ^ 42)) 0)

/-- R333, R348: pqpush inserts in order, or answers 1 at 2^20 entries; pqpop stores the first entry and removes it, or answers 1;
pqmin reads the first key, or all ones; pqlen counts. That the stores of pqpop are logged is the model's choice (log entry 109). -/
def Sys2Proof.Claims.PriorityQueues : Prop :=
  ∀ (s : State) (tid : Nat) (th : Thread) (x : LShed) (k : BitVec 4) (rd : Reg) (ra rb : Src) (q : List (Word × Word)),
    Issues s tid th → CanGoOn s → s.lsheds.get th.lkey = some x → q = x.pqs.getD k.toNat [] →
    (CanRead s [ra.r, rb.r] →
      (2 ^ 20 ≤ q.length → ∃ t, exec (.pqpush k rd ra rb) s = .next t ∧ OnlyHart s t (doneHart s.hart [ra, rb] [] rd 1 0) ∧
        (Settled s → MemoryKept s t)) ∧
      (q.length < 2 ^ 20 → ∃ t y p r, exec (.pqpush k rd ra rb) s = .next t ∧
        OnlyHart s t (doneHart s.hart [ra, rb] [] rd 0 0) ∧ (Settled s → MemoryKept s t) ∧ t.lsheds.get th.lkey = some y ∧
        y.pqs.getD k.toNat [] = p ++ (s.reg ra.r, s.reg rb.r) :: r ∧ p ++ r = q ∧
        (∀ e ∈ p, pqLt s.seed (s.reg ra.r, s.reg rb.r) e = false) ∧
        (∀ e, r.head? = some e → pqLt s.seed (s.reg ra.r, s.reg rb.r) e = true))) ∧
    (CanRead s [ra.r] → ∀ u v ea c d, Settled s → Names (s.reg ra.r) 0 16 ea → pqDest th ea = true →
      place (readState s [ra] []) (readState s [ra] []).ctx .write ea = .ok (u, c) → place u u.ctx .write (ea + 8) = .ok (v, d) →
      (q = [] → ∃ t, exec (.pqpop k rd ra) s = .next t ∧ OnlyHart s t (doneHart s.hart [ra] [] rd 1 0) ∧ MemoryKept s t) ∧
      (∀ e r, q = e :: r → LogRoom v c.key 8 → LogRoom v d.key 8 → touchesMark v th.lkey c.key 8 = false →
        (c.key + 8 ≤ d.key ∨ d.key + 8 ≤ c.key) →
        ∃ t y, exec (.pqpop k rd ra) s = .next t ∧ OnlyHart s t (doneHart s.hart [ra] [] rd 0 0) ∧
          t.value c.key 8 = e.1.toNat ∧ t.value d.key 8 = e.2.toNat ∧ CellKeptBut c.key d.key s t ∧
          t.lsheds.get th.lkey = some y ∧ y.pqs.getD k.toNat [] = r)) ∧
    exec (.pqmin k rd) s = .next (wrote s [] [] rd ((q.head?.map (fun e => e.1)).getD (BitVec.allOnes 64)) 0) ∧
    exec (.pqlen k rd) s = .next (wrote s [] [] rd (BitVec.ofNat 64 q.length) 0)

/-- Random bits and priority queues. -/
def Obligations.RandomAndQueues : Prop := Claims.RandomBits ∧ Claims.PriorityQueues

/-! ### Regions -/

/-- Tree k of the current run is claimed, and is region g of the thread's logical shed, DEFINED (R335). -/
abbrev Sys2Proof.Claims.HasRegion (s : State) (th : Thread) (k : Nat) (g : Region) : Prop :=
  (∃ r ∈ s.curRun, r.trees / 2 ^ k % 2 = 1) ∧ regionOf s th.lkey k = some g ∧ g.st = 1

/-- The forms that need a DEFINED region: the region, and the sources. -/
def Sys2Proof.Claims.regionForm : Instr → Option (BitVec 4 × List Src)
  | .kset k ra rb => some (k, [ra, rb])
  | .kseti k ra rb => some (k, [ra, rb])
  | .kget k _ ra => some (k, [ra])
  | .ktot k _ => some (k, [])
  | .evnext k _ => some (k, [])
  | .clkget k _ => some (k, [])
  | .bsend k _ ra rb => some (k, [ra, rb])
  | .bmsg k _ ra => some (k, [ra])
  | .ckpt k _ => some (k, [])
  | .rollb k _ => some (k, [])
  | .mark k ra rb => some (k, [ra, rb])
  | .unmark k ra rb => some (k, [ra, rb])
  | .fossil k ra => some (k, [ra])
  | .dgst k _ => some (k, [])
  | .rgnsave k ra => some (k, [ra])
  | _ => none

/-! A region instruction that completes holds its thread, where a pre-emption has been requested (R373): `holdResult`. -/

/-- R335: a region instruction whose tree the run does not claim, or whose region is not DEFINED, faults, after the reads of its registers (the model's choice, log entry 110). -/
def Sys2Proof.Claims.RegionChecks : Prop :=
  ∀ (i : Instr) (s : State) (tid : Nat) (th : Thread) (r : Run) (k : BitVec 4) (as : List Src), regionForm i = some (k, as) →
    Issues s tid th → s.curRun = some r → CanGoOn s → CanRead s (as.map (fun a => a.r)) →
    (r.trees / 2 ^ k.toNat % 2 = 0 → exec i s = .next (stopped s (wordFault 18 i))) ∧
    (r.trees / 2 ^ k.toNat % 2 = 1 → (∀ g, regionOf s th.lkey k.toNat = some g → g.st ≠ 1) →
      exec i s = .next (stopped s (wordFault 19 i)))

/-- The key that four dwords of an image from j on hold (R345). -/
def Sys2Proof.Claims.imageKey (w : List Word) (j : Nat) : Key :=
  let x := (w.getD (j + 2) 0).toNat
  if x / 2 ^ 32 % 2 = 1 then Key.begin
  else ⟨false, (w.getD j 0).toNat, (w.getD (j + 1) 0).toNat, x % 2 ^ 22, (w.getD (j + 3) 0).toNat, x / 2 ^ 48⟩

/-- A region holds what the 32 dwords of an image, and its leaves, say (R345). -/
def Sys2Proof.Claims.AsImage (g : Region) (w lv : List Word) : Prop :=
  ∀ x : Nat → Nat, (∀ i, x i = (w.getD i 0).toNat) →
    g.sub = x 1 / 2 ^ 48 ∧ g.clock = x 2 ∧ g.ord = x 3 ∧ g.count = x 4 ∧ g.lost = (x 5).testBit 0 ∧ g.sat = (x 5).testBit 1 ∧
    g.tab = (x 5).testBit 3 ∧ g.rbz = (x 5).testBit 4 ∧ g.bnd = (x 5).testBit 5 ∧ g.t = x 5 / 2 ^ 8 % 2 ^ 6 ∧
    g.curV = (x 6).testBit 63 ∧ g.cur = x 6 % 2 ^ 24 ∧ g.table = w.getD 7 0 ∧ g.last = imageKey w 8 ∧ g.replay = imageKey w 12 ∧
    g.digest = w.getD 16 0 ∧ g.strag = x 17 ∧ ∀ i, g.leaves.getD i 0 = (lv.getD i 0).toNat

/-- Where a saved region's logs stay, that a region whose log area holds none has none, and that restored messages are the run's that loads
them, is log entry 45. R312, R313, R336: ktree defines a region from its descriptor, with CR.EVCTL and CR.DRAWTAB, all else zero and the start key
as LAST. R345, R346: rgnsave writes the region's image and makes it SAVED; rgnload brings it back: the leaves and every field of the
image, and the logs that the log area kept. -/
def Sys2Proof.Claims.RegionDefinition : Prop :=
  ∀ (s u v : State) (tid : Nat) (th : Thread) (r : Run) (x : LShed) (k : BitVec 4) (ra : Src) (ea : Nat), Issues s tid th →
    s.curRun = some r → r.trees / 2 ^ k.toNat % 2 = 1 → CanGoOn s → CanRead s [ra.r] → s.lsheds.get th.lkey = some x →
    Names (s.reg ra.r) 0 64 ea →
    (∀ d, (∀ g, regionOf s th.lkey k.toNat = some g → g.st = 0) → loadDwords (readState s [ra] []) ea 8 = .ok (u, d) →
      regionDescOk d = true → ∃ t g, exec (.ktree k ra) s = .next t ∧ OnlyHart s t (doneHart s.hart [ra] [] 0 0 0) ∧
        (Settled s → MemoryKept s t) ∧ regionOf t th.lkey k.toNat = some g ∧ g.st = 1 ∧ g.nl = (d.getD 0 0).toNat % 2 ^ 24 + 1 ∧
        g.scale = lowSigned ((d.getD 0 0).toNat / 2 ^ 24) 7 ∧ g.t = x.evctl.toNat % 2 ^ 6 ∧ g.table = x.drawtab ∧
        g.leaves = [] ∧ g.clock = 0 ∧ g.ord = 0 ∧ g.count = 0 ∧ g.last = Key.begin ∧ g.sat = false ∧ g.lost = false) ∧
    (∀ g ps im, regionOf s th.lkey k.toNat = some g → g.st = 1 → Settled s → im = g.image (regionId th.coord k.toNat) →
      ea + 8 * im.length ≤ 2 ^ 52 → placeDwords (readState s [ra] []) ea im.length = .ok (u, ps) →
      storeDwords u ea ps im = .ok v → ∃ t g', exec (.rgnsave k ra) s = .next t ∧
        OnlyHart s t (doneHart s.hart [ra] [] 0 0 0) ∧ MemoryKept v t ∧ regionOf t th.lkey k.toNat = some g' ∧ g'.st = 2 ∧
        g'.leaves = g.leaves ∧ t.logAreas.get (logKey s th g.log) = some g') ∧
    (∀ w d lv u' nl, (∀ g, regionOf s th.lkey k.toNat = some g → g.st ≠ 1 ∧ g.nl = nl) →
      (∀ g, regionOf s th.lkey k.toNat = none → s.logAreas.get (logKey s th (d.getD 3 0).toNat) = some g → g.nl = nl) →
      loadDwords (readState s [ra] []) ea 32 = .ok (u, w) → imageOk w = true →
      (w.getD 1 0).toNat % 2 ^ 22 = regionId th.coord k.toNat → (w.getD 0 0).toNat % 2 ^ 6 = 0 →
      loadDwords u ((w.getD 0 0).toNat % 2 ^ 52) 8 = .ok (v, d) → regionDescOk d = true →
      nl = (d.getD 0 0).toNat % 2 ^ 24 + 1 → ea + 256 + 8 * nl ≤ 2 ^ 52 → loadDwords v (ea + 256) nl = .ok (u', lv) →
      (∀ y ∈ lv, y.toNat < 2 ^ 48) → ∃ t g, exec (.rgnload k ra) s = .next t ∧
        HartIs s t (doneHart s.hart [ra] [] 0 0 0) ∧ RegistersKept s t ∧ (Settled s → OthersKept s t ∧ MemoryKept s t) ∧
        regionOf t th.lkey k.toNat = some g ∧ g.st = 1 ∧ g.nl = nl ∧ g.desc = (w.getD 0 0).toNat % 2 ^ 52 ∧ g.log = (d.getD 3 0).toNat ∧ AsImage g w lv ∧
        (∀ y mine, s.logAreas.get (logKey s th g.log) = some y → mine = (fun m : BMsg => { m with run := th.run }) →
          g.recv = y.recv.map mine ∧ g.sends = y.sends.map mine ∧ g.undo = y.undo ∧ g.ckpts = y.ckpts ∧ g.epoch = y.epoch ∧
          g.marks = y.marks ∧ (heldFor s th.run (regionId th.coord k.toNat) = [] → g.inq = y.inq.map mine)) ∧
        (s.logAreas.get (logKey s th g.log) = none → g.recv = [] ∧ g.sends = [] ∧ g.undo = [] ∧ g.ckpts = [] ∧ g.marks = []) ∧
        t.logAreas.get (logKey s th g.log) = none)

/-- Region checks, and the definition of a region. Where a saved region's logs stay, and whose their messages are, is the model's reading (log entry 45). -/
def Obligations.Regions : Prop := Claims.RegionChecks ∧ Claims.RegionDefinition

/-- R314, R337, R338: kset and kseti write one leaf, or trap or fault; kget reads a leaf or an item, and ktot the total. -/
def Obligations.RegionLeaves : Prop :=
  ∀ (s : State) (tid : Nat) (th : Thread) (k : BitVec 4) (rd : Reg) (ra rb : Src) (g : Region) (i : Instr) (n : Nat),
    Issues s tid th → CanGoOn s → HasRegion s th k.toNat g → n = (s.reg ra.r).toNat →
    (CanRead s [ra.r, rb.r] →
      (i = .kset k ra rb → quantise g (s.fpOperand .fp64 (s.reg rb.r)) = none →
        exec i s = .next (stopped s (.trap 6 0 (s.reg rb.r)))) ∧
      (∀ q sat lost, ((i = .kset k ra rb ∧ quantise g (s.fpOperand .fp64 (s.reg rb.r)) = some (q, sat, lost)) ∨
          (i = .kseti k ra rb ∧ q = min (s.reg rb.r).toNat (2 ^ 48 - 1) ∧
            sat = decide (2 ^ 48 ≤ (s.reg rb.r).toNat) ∧ lost = false)) →
        (g.nl ≤ n → exec i s = .next (stopped s (wordFault 23 i))) ∧
        (n < g.nl → g.room 16 = true → ∃ t g', exec i s = .next t ∧ OnlyHart s t (doneHart s.hart [ra, rb] [] 0 0 0) ∧
          MemoryKept s t ∧ regionOf t th.lkey k.toNat = some g' ∧ g'.leaves.getD n 0 = q ∧
          (∀ m, m ≠ n → g'.leaves.getD m 0 = g.leaves.getD m 0) ∧ g'.sat = (g.sat || sat) ∧ g'.lost = (g.lost || lost) ∧
          g'.clock = g.clock ∧ g'.last = g.last ∧ g'.digest = g.digest) ∧
        (n < g.nl → g.room 16 = false → (∀ e m q, Undo.leaf e m q ∈ g.undo → e ≠ g.epoch) →
          exec i s = .next (stopped s (.fault 5 k.toNat (s.reg ra.r)))))) ∧
    (CanRead s [ra.r] →
      (n < g.nl → n < 2 ^ 63 → exec (.kget k rd ra) s = .next (holdResult (wrote s [ra] [] rd (BitVec.ofNat 64 (g.leaves.getD n 0)) 0))) ∧
      (∀ v, 2 ^ 63 ≤ n → n < 2 ^ 63 + 16 → g.item (n % 16) = some v →
        exec (.kget k rd ra) s = .next (holdResult (wrote s [ra] [] rd (BitVec.ofNat 64 v) 0))) ∧
      (g.nl ≤ n → n < 2 ^ 63 → exec (.kget k rd ra) s = .next (stopped s (wordFault 23 (.kget k rd ra))))) ∧
    exec (.ktot k rd) s = .next (holdResult (wrote s [] [] rd
      (BitVec.ofNat 64 (roundTo fp64F .rne false ⟨false, g.total, g.scale, false⟩).1) 0))

/-- The evdisp clauses hold at the last word too (log entry 66). R319, R321, R339: a step of a region is a straggler's, finds nothing, fires the candidate event of its draw, or delivers the
message of least key; evdisp goes to the handler of the event that fired. -/
def Obligations.EventSteps : Prop :=
  ∀ (s : State) (tid : Nat) (th : Thread) (k : BitVec 4) (rd : Reg) (g : Region) (id : Nat),
    Issues s tid th → HasRegion s th k.toNat g → id = regionId th.coord k.toNat →
    (CanGoOn s →
      (∀ y, leastKey g.stragglers = some y → ∃ t, exec (.evnext k rd) s = .next t ∧
        OnlyHart s t (doneHart s.hart [] [] rd 3 0) ∧ MemoryKept s t ∧
        regionOf t th.lkey k.toNat = some { g with strag := y.time }) ∧
      (leastKey g.stragglers = none → g.total = 0 → g.head = none →
        exec (.evnext k rd) s = .next (holdResult (wrote s [] [] rd 2 0))) ∧
      (∀ u f e, leastKey g.stragglers = none → 0 < g.total → draw s g id = .ok (u, f, e) →
        ∀ time c, time = min (g.clock + waitTicks g g.total e) (2 ^ 64 - 1) →
          c = (⟨false, time, (tieHash (s.seedOf th.run) id g.ord).toNat, id, g.ord, 0⟩ : Key) →
          (∀ h, g.head = some h → h.key.lt c = false) →
          ∃ t g', exec (.evnext k rd) s = .next t ∧ OnlyHart s t (doneHart s.hart [] [] rd 0 0) ∧ (Settled s → MemoryKept s t) ∧
            regionOf t th.lkey k.toNat = some g' ∧ g'.clock = time ∧ g'.last = c ∧ g'.curV = true ∧ g'.bnd = false ∧
            g'.cur = selectLeaf (f * g.total / 2 ^ 64) g.leaves ∧ g'.count = (g.count + 1) % 2 ^ 64 ∧
            g'.ord = (g.ord + 1) % 2 ^ 64 ∧ g'.sub = 0 ∧ g'.leaves = g.leaves ∧ g'.inq = g.inq) ∧
      (∀ h, leastKey g.stragglers = none → g.head = some h →
        (g.total = 0 ∨ ∃ u f e, draw s g id = .ok (u, f, e) ∧ h.key.lt ⟨false, min (g.clock + waitTicks g g.total e) (2 ^ 64 - 1),
          (tieHash (s.seedOf th.run) id g.ord).toNat, id, g.ord, 0⟩ = true) →
        ∃ t g', exec (.evnext k rd) s = .next t ∧ OnlyHart s t (doneHart s.hart [] [] rd 1 0) ∧ (Settled s → MemoryKept s t) ∧
          regionOf t th.lkey k.toNat = some g' ∧ g'.clock = h.key.time ∧ g'.last = h.key ∧ g'.curV = false ∧ g'.bnd = true ∧
          g'.got = some h ∧ g'.recv = h :: g.recv ∧ g'.count = (g.count + 1) % 2 ^ 64 ∧ g'.ord = (g.ord + 1) % 2 ^ 64 ∧
          g'.leaves = g.leaves)) ∧
    (g.curV = false → exec (.evdisp k) s = .next (stopped s (wordFault 24 (.evdisp k)))) ∧
    (∀ u ea a, g.curV = true → Names (BitVec.ofNat 64 g.disp) (8 * g.cur) 8 ea → loadFresh s ea 8 = .ok (u, a) →
      a < 2 ^ 52 → a % 4 = 0 → ∃ t, exec (.evdisp k) s = .next t ∧ OnlyHart s t { s.hart with pc := BitVec.ofNat 52 a } ∧
        (Settled s → MemoryKept s t))

/-- R329, R331: clkget reads LOW and dgst reads DIGEST. R323, R340, R341: bsend logs its message and sends it, or gives a status; R327:
one that is replayed, with a logged message of its key, sends nothing when it is the same, and else sends the logged one's anti-message
and takes its place;
bmsg stores the six dwords of the record of the message that the last step delivered, or gives 1, or faults when the logs have no
room for all of them. -/
def Sys2Proof.Claims.RegionMessages : Prop :=
  ∀ (s : State) (tid : Nat) (th : Thread) (r : Run) (k : BitVec 4) (rd : Reg) (ra rb : Src) (g : Region),
    Issues s tid th → CanGoOn s → HasRegion s th k.toNat g → s.curRun = some r →
    exec (.clkget k rd) s = .next (holdResult (wrote s [] [] rd (BitVec.ofNat 64 (lowMark s th.run (regionId th.coord k.toNat) g)) 0)) ∧
    exec (.dgst k rd) s = .next (holdResult (wrote s [] [] rd g.digest 0)) ∧
    (CanRead s [ra.r, rb.r] →
      (g.last = Key.begin → exec (.bsend k rd ra rb) s = .next (holdResult (wrote s [ra, rb] [] rd 3 0))) ∧
      (g.last ≠ Key.begin → badTarget r (s.reg ra.r) = true → exec (.bsend k rd ra rb) s = .next (holdResult (wrote s [ra, rb] [] rd 2 0))) ∧
      (g.last ≠ Key.begin → badTarget r (s.reg ra.r) = false → g.sub = 65535 →
        exec (.bsend k rd ra rb) s = .next (holdResult (wrote s [ra, rb] [] rd 1 0))) ∧
      (∀ u v ea p0 p1 m, g.last ≠ Key.begin → badTarget r (s.reg ra.r) = false → g.sub ≠ 65535 →
        Names (s.reg rb.r) 0 16 ea → loadFresh (readState s [ra, rb] []) ea 8 = .ok (u, p0) →
        loadFresh u (ea + 8) 8 = .ok (v, p1) → g.room 64 = true →
        m = (⟨th.run, ⟨false, g.last.time, g.last.tie, regionId th.coord k.toNat, g.last.ord, g.sub + 1⟩, g.last,
          (s.reg ra.r).toNat / 2 ^ 38 % 4, 0, (s.reg ra.r).toNat % 2 ^ 22, BitVec.ofNat 64 p0, BitVec.ofNat 64 p1, 0⟩ : BMsg) →
        ∃ t g', exec (.bsend k rd ra rb) s = .next t ∧ OnlyHart s t (doneHart s.hart [ra, rb] [] rd 0 0) ∧
          (Settled s → MemoryKept s t) ∧ regionOf t th.lkey k.toNat = some g' ∧ g'.sub = g.sub + 1 ∧
          (g.last.lt g.replay = false ∨ g.sends.find? (fun x => x.key == m.key) = none →
            g'.sends = g.sends ++ [m] ∧ (m.key.id / 16 ≠ m.target / 16 → t.bmsgs.get s.bmsgs.fresh = some m)) ∧
          (∀ x, g.last.lt g.replay = true → g.sends.find? (fun x => x.key == m.key) = some x →
            (sameSend x m = true → g'.sends = g.sends ∧ t.bmsgs = s.bmsgs) ∧
            (sameSend x m = false → g'.sends = g.sends.eraseP (fun y => y.key == m.key) ++ [m] ∧
              (heldSend s x = none → m.key.id / 16 ≠ m.target / 16 → m.key.id / 16 ≠ x.target / 16 → ∃ n n',
                t.bmsgs.get n = some { x with kind := 2, orig := x.kind, st := 0 } ∧ .antiMessageArrival n ∈ t.agenda ∧
                t.bmsgs.get n' = some m ∧ .boundaryMessageArrival n' ∈ t.agenda))))) ∧
    (CanRead s [ra.r] →
      (g.bnd = false ∨ g.got = none → exec (.bmsg k rd ra) s = .next (holdResult (wrote s [ra] [] rd 1 0))) ∧
      (∀ m u ea ps, g.bnd = true → g.got = some m → Settled s → Names (s.reg ra.r) 0 16 ea →
        placeDwords (readState s [ra] []) ea 6 = .ok (u, ps) →
        (∀ j, logFullAll u th.lkey ps = some j → exec (.bmsg k rd ra) s = .next (stopped s (.fault 5 j (BitVec.ofNat 64 ea)))) ∧
        (logFullAll u th.lkey ps = none → ps.Pairwise (fun p q => p.key + 8 ≤ q.key ∨ q.key + 8 ≤ p.key) →
          ∃ t, exec (.bmsg k rd ra) s = .next t ∧ OnlyHart s t (doneHart s.hart [ra] [] rd 0 0) ∧
            (∀ i p, ps[i]? = some p → t.value p.key 8 = (recordWords m).getD i 0 % 2 ^ 64) ∧
            (∀ b, (∀ p ∈ ps, b < p.key ∨ p.key + 8 ≤ b) → t.byte b = s.byte b))))

/-- What undo entries, newest first, make of byte b of memory (R327): each line entry puts back its dwords, which it lists by key. -/
def Sys2Proof.Claims.undone (x : LShed) (b : Nat) (v : Byte) : List Undo → Byte
  | [] => v
  | .line _ _ keys bs :: older =>
    undone x b (match (keys.zip (List.range keys.length)).reverse.find? (fun p =>
        decide (x.phys p.1 ≤ b ∧ b < x.phys p.1 + 8 ∧ 8 * p.2 + (b - x.phys p.1) < bs.length)) with
      | some p => bs.getD (8 * p.2 + (b - x.phys p.1)) 0
      | none => v) older
  | _ :: older => undone x b v older

/-- The value that a leaf had before the entries, newest first, that are undone (R327). -/
def Sys2Proof.Claims.leafBefore (g : Region) (us : List Undo) (i : Nat) : Nat :=
  match us.reverse.find? (fun u => match u with
    | .leaf _ j _ => j == i
    | _ => false) with
  | some (.leaf _ _ q) => q
  | _ => g.leaves.getD i 0

/-- Whether a range was marked before the entries, newest first, that are undone (R327). -/
def Sys2Proof.Claims.markedBefore (g : Region) (us : List Undo) (m : Mark) : Prop :=
  match us.reverse.find? (fun u => match u with
    | .mark _ n _ | .unmark _ n _ _ => n == m
    | _ => false) with
  | some (.mark ..) => False
  | some (.unmark ..) => True
  | _ => m ∈ g.marks

/-- R325, R327, R328, R330: ckpt adds a checkpoint of the current epoch's end; rollb brings a region back to the latest checkpoint
before its straggler, with its leaves, marks and marked lines, SAT and LOST as they were; it queues again the messages received
since, sends anti-messages for those sent past the straggler, and replays from there; where a line that it puts back stands in a frame
that is closed to the thread (R239), it waits for the frame, a store of R332 as any other (log entry 59); fossil drops what is before a
checkpoint, and makes no access (the model's reading, log entry 111). -/
def Sys2Proof.Claims.RegionCheckpoints : Prop :=
  ∀ (s : State) (tid : Nat) (th : Thread) (k : BitVec 4) (rd : Reg) (ra : Src) (g : Region),
    Issues s tid th → CanGoOn s → HasRegion s th k.toNat g →
    ((∃ c, g.ckpts.head? = some c ∧ c.key = g.last) → exec (.ckpt k rd) s = .next (holdResult (wrote s [] [] rd 1 0))) ∧
    ((∀ c, g.ckpts.head? = some c → c.key ≠ g.last) → g.room 64 = true →
      ∃ t, exec (.ckpt k rd) s = .next t ∧ OnlyHart s t (doneHart s.hart [] [] rd 0 0) ∧ MemoryKept s t ∧
        regionOf t th.lkey k.toNat = some { g with
          epoch := g.epoch + 1, ckpts := ⟨g.last, g.clock, g.ord, g.count, g.sat, g.lost, g.epoch + 1⟩ :: g.ckpts }) ∧
    (leastKey g.stragglers = none → exec (.rollb k rd) s = .next (holdResult (wrote s [] [] rd 1 0))) ∧
    (∀ y, leastKey g.stragglers = some y →
      (g.ckpts.find? (fun c => c.key.lt y) = none →
        exec (.rollb k rd) s = .next (stopped s (.fault 6 k.toNat (BitVec.ofNat 64 y.time)))) ∧
      (∀ c, g.ckpts.find? (fun c => c.key.lt y) = some c →
        ∀ x us back id, s.lsheds.get th.lkey = some x → us = g.undo.filter (fun e => decide (c.epoch ≤ e.epochOf)) →
          back = g.recv.filter (fun m => c.key.lt m.key) → id = regionId th.coord k.toNat →
        (∀ f, undoBusy s (.thread tid) x us = some f → exec (.rollb k rd) s = .next (stopped s (.wait (.frame f)))) ∧
        (undoBusy s (.thread tid) x us = none →
        ∃ t g', exec (.rollb k rd) s = .next t ∧ HartIs s t (doneHart s.hart [] [] rd 0 0) ∧ RegistersKept s t ∧
          (Settled s → OthersKept s t ∧ ∀ b, t.byte b = undone x b (s.byte b) us) ∧
          regionOf t th.lkey k.toNat = some g' ∧ g'.clock = c.clock ∧ g'.ord = c.ord ∧ g'.count = c.count ∧ g'.last = c.key ∧
          g'.replay = y ∧ g'.curV = false ∧ g'.bnd = false ∧ g'.epoch = c.epoch ∧ g'.sat = c.sat ∧ g'.lost = c.lost ∧
          (∀ i, g'.leaves.getD i 0 = leafBefore g us i) ∧ (∀ m, m ∈ g'.marks ↔ markedBefore g us m) ∧
          g'.recv = g.recv.filter (fun m => !c.key.lt m.key) ∧ g'.sends = g.sends.filter (fun m => !y.lt m.key) ∧
          ((∀ m ∈ g.sends, m.target ≠ id) → heldFor s th.run id = [] → g'.inq = back.reverse.foldl returnMsg g.inq) ∧
          (∀ m ∈ g.sends, y.lt m.key = true → heldSend s m = none → m.key.id / 16 ≠ m.target / 16 →
            ∃ n, t.bmsgs.get n = some { m with kind := 2, orig := m.kind, st := 0 } ∧ .antiMessageArrival n ∈ t.agenda)))) ∧
    (CanRead s [ra.r] →
      (∀ c, g.ckpts.find? (fun c => c.key.start || decide (c.key.time < (s.reg ra.r).toNat)) = some c → g.ckpts.getLast? ≠ some c →
        ∃ t g', exec (.fossil k ra) s = .next t ∧ OnlyHart s t (doneHart s.hart [ra] [] 0 0 0) ∧ MemoryKept s t ∧
          regionOf t th.lkey k.toNat = some g' ∧ g'.ckpts = g.ckpts.filter (fun x => decide (c.epoch ≤ x.epoch)) ∧
          g'.sends = g.sends.filter (fun m => c.key.lt m.key) ∧ g'.recv = g.recv.filter (fun m => c.key.lt m.key) ∧
          g'.digest = digestAt s th.lkey (s.seedOf th.run) g c) ∧
      (g.ckpts.find? (fun c => c.key.start || decide (c.key.time < (s.reg ra.r).toNat)) = none →
        exec (.fossil k ra) s = .next (holdResult (wrote s [ra] [] 0 0 0))))

/-- R343, R331, R354: mark adds a range and the hashes of its lines to DIGEST; unmark reads its lines, and takes the hashes away; one that
meets a line that cannot be read changes nothing (R379). A bad range, one in modes 0 and 2
of near space among them (R354), is MARK_RANGE; that one with bits 53:52 set is bad too is the model's choice (log entry 46). -/
def Sys2Proof.Claims.RegionMarks : Prop :=
  ∀ (s : State) (tid : Nat) (th : Thread) (x : LShed) (k : BitVec 4) (ra rb : Src) (g : Region) (ea n : Nat),
    Issues s tid th → CanGoOn s → HasRegion s th k.toNat g → CanRead s [ra.r, rb.r] → Settled s →
    s.lsheds.get th.lkey = some x → ea = (s.reg ra.r).toNat % 2 ^ 52 → n = (s.reg rb.r).toNat → g.room 32 = true →
    (badRange (s.reg ra.r) (s.reg rb.r) = true → exec (.mark k ra rb) s = .next (stopped s (accessFault 26 ea))) ∧
    (∀ u lines m, badRange (s.reg ra.r) (s.reg rb.r) = false →
      markLines (readState s [ra, rb] []) th ea ea (n / 64) = .ok (u, lines) → m = (⟨ea, n, lines⟩ : Mark) →
      (∀ y ∈ s.lsheds, ∀ q ∈ y.2.regions, ∀ m' ∈ q.2.marks, Mark.overlaps x y.2 m m' = false) → shedMarks s x.shed < 64 →
      ∃ t g', exec (.mark k ra rb) s = .next t ∧ OnlyHart s t (doneHart s.hart [ra, rb] [] 0 0 0) ∧ MemoryKept s t ∧
        regionOf t th.lkey k.toNat = some g' ∧ g'.marks = g.marks ++ [m] ∧
        g'.digest = g.digest + sumWords (markHashes s th.lkey (s.seedOf th.run) m)) ∧
    (∀ m, (s.reg ra.r).toNat / 2 ^ 52 % 4 = 0 → g.marks.find? (fun m => m.addr == ea && m.len == n) = some m →
      (∀ e, readLines (readState s [ra, rb] []) x m.lines = .error e → exec (.unmark k ra rb) s = .next (stopped s e)) ∧
      (∀ y r key, m.lines = y :: r → key = x.phys (y.2.headD 0) → frameBusy s (.thread tid) key = false →
        s.badLines.contains (key / 64) = true →
        exec (.unmark k ra rb) s = .next (stopped s (.fault 8 1 (BitVec.ofNat 64 (checkAddr s key))))) ∧
      (readLines (readState s [ra, rb] []) x m.lines = .ok () → ∃ t g', exec (.unmark k ra rb) s = .next t ∧ OnlyHart s t (doneHart s.hart [ra, rb] [] 0 0 0) ∧ MemoryKept s t ∧
        regionOf t th.lkey k.toNat = some g' ∧ g'.marks = g.marks.filter (fun y => y != m) ∧
        g'.digest = g.digest - sumWords (markHashes s th.lkey (s.seedOf th.run) m)))

/-- R325, R327, R330, R343, R354: marks, checkpoints and the rollback of a region. That a range with bits 53:52 set is MARK_RANGE is the model's choice (log entry 46). -/
def Obligations.RegionLogs : Prop := Claims.RegionMarks ∧ Claims.RegionCheckpoints

/-- R322 to R324, R328: a message that may enter its target's queue enters it, and its sender is told; an anti-message takes the
message with its key out of the queue, or, where it has been delivered, joins the queue and makes the next step a straggler's; each is held, and the first one reported, where the log has no room for its entry; the
acknowledgement ends the message. -/
def Sys2Proof.Claims.BoundaryArrivals : Prop :=
  ∀ (s : State) (m l : Nat) (b : BMsg) (g : Region), s.bmsgs.get m = some b →
    (b.st = 2 → exec (.arrivalAcknowledgement m) s = .next { s with bmsgs := s.bmsgs.erase m }) ∧
    (b.st = 0 → l = regionShed b.run b.target → shedWorks s l = true → behind s m b 1 = false → behind s m b 0 = false →
      regionOf s l (b.target % 16) = some g → g.st = 1 → b.key.id / 16 ≠ b.target / 16 →
      (b.kind ≠ 2 → g.room 64 = true → ∃ t, exec (.boundaryMessageArrival m) s = .next t ∧ MemoryKept s t ∧
        regionOf t l (b.target % 16) = some { g with inq := g.inq ++ [b], reported := false } ∧
        t.bmsgs.get m = some { b with st := 2 } ∧ t.agenda.getLast? = some (.arrivalAcknowledgement m)) ∧
      (b.kind = 2 → g.room 64 = true → (∃ q ∈ g.inq, q.kind ≠ 2 ∧ q.key = b.key) →
        ∃ t, exec (.antiMessageArrival m) s = .next t ∧ MemoryKept s t ∧ regionOf t l (b.target % 16) = some
          { g with inq := g.inq.eraseP (fun q => q.kind != 2 && q.key == b.key), reported := false } ∧
        t.bmsgs.get m = some { b with st := 2 }) ∧
      (b.kind = 2 → g.room 64 = true → (∀ q ∈ g.inq, ¬ (q.kind ≠ 2 ∧ q.key = b.key)) →
        ∃ t g', exec (.antiMessageArrival m) s = .next t ∧ MemoryKept s t ∧ regionOf t l (b.target % 16) = some g' ∧
          g' = { g with inq := g.inq ++ [b], reported := false } ∧ t.bmsgs.get m = some { b with st := 2 } ∧
          (g.last.lt b.key = false → b.key ∈ g'.stragglers)) ∧
      (g.room 64 = false → ∃ t, exec (if b.kind = 2 then .antiMessageArrival m else .boundaryMessageArrival m) s = .next t ∧
        MemoryKept s t ∧ t.bmsgs.get m = some { b with st := 1 } ∧
        regionOf t l (b.target % 16) = some { g with reported := true } ∧
        (g.reported = false → ∃ f e, t.faults.get f = some e ∧ e.who = .nobody ∧ e.kind = 5 ∧ e.cause = b.target % 16)))

/-- R322 to R324, R327, R328, R340, R341: boundary messages: sent, replayed, read, and arriving, with their anti-messages. -/
def Obligations.BoundaryMessages : Prop := Claims.RegionMessages ∧ Claims.BoundaryArrivals

/-! ### Traps, faults and system forms -/

/-- R38, R37: a user trap of a thread that may take one saves cause, value, status, pc, x7 and x8, sets INTRAP, puts cause and
value into x7 and x8 and goes to CR.UTVEC; the trapping instruction has no other effect. -/
def Sys2Proof.Claims.UserTrapTaken : Prop :=
  ∀ (s : State) (tid : Nat) (th : Thread) (g : Group) (code detail : Nat) (val cause : Word),
    Issues s tid th → th.staged = none → th.hart.intrap = false → code ≠ 7 → s.groups.get (gkey th.run th.coord) = some g →
    g.utvec.toNat % 2 = 1 → cause = BitVec.ofNat 64 (detail * 256 + code) →
    ∃ y, (stopped s (.trap code detail val)).threads.get tid = some y ∧ y.utcause = cause ∧ y.utval = val ∧
      y.utepc = th.hart.status ||| th.hart.pc.setWidth 64 ∧ y.save7 = th.hart.regs.get 7 ∧ y.save8 = th.hart.regs.get 8 ∧
      y.hart.intrap = true ∧ y.hart.pc = BitVec.ofNat 52 (g.utvec.toNat % 2 ^ 52 / 4 * 4) ∧
      y.hart.regs.get 7 = some cause ∧ y.hart.regs.get 8 = some val ∧
      (∀ n, n ≠ 7 → n ≠ 8 → y.hart.regs.get n = th.hart.regs.get n) ∧ y.hart.rm = th.hart.rm ∧ y.hart.flags = th.hart.flags ∧
      y.hart.dead = th.hart.dead ∧ MemoryKept s (stopped s (.trap code detail val)) ∧
      OthersKept s (stopped s (.trap code detail val))

/-- R38, R42, R44, R359: a fault, and a trap of a thread that has INTRAP set or whose CR.UTVEC is disabled, posts a message to the
service core and parks the thread on its mailbox, its context as it was. A safe-point trap (R375) is raised with INTRAP clear only, and
goes to the handler of its table. -/
def Sys2Proof.Claims.FaultPosted : Prop :=
  ∀ (s : State) (tid : Nat) (th : Thread) (e : Exc) (kind cause : Nat) (addr value : Word),
    Issues s tid th → th.staged = none →
    ((e = .fault kind cause addr ∧ value = 0) ∨
      (∃ detail, e = .trap cause detail addr ∧ kind = 9 ∧ value = BitVec.ofNat 64 detail ∧ cause ≠ 7 ∧
        (th.hart.intrap = true ∨ ∀ g, s.groups.get (gkey th.run th.coord) = some g → g.utvec.toNat % 2 = 0))) →
    ∃ y f m, (stopped s e).threads.get tid = some y ∧ y.hart = th.hart ∧ y.park = .mailbox f ∧
      (stopped s e).faults.get f = some m ∧ m.who = .thread tid ∧ m.kind = kind ∧ m.cause = cause ∧ m.addr = addr ∧
      m.value = value ∧ m.run = th.run ∧ m.coord = th.coord ∧ m.core = th.core ∧ m.slot = th.slot ∧ m.pcs = th.hart.pcs ∧
      m.tag = (s.core th.core).tags.getD th.slot 0 ∧ (stopped s e).agenda.getLast? = some (.faultBufferEntry f) ∧
      (Settled s → MemoryKept s (stopped s e)) ∧ OthersKept s (stopped s e)

/-- R364: an exception of a service core in S mode saves cause, value and pc, and goes to CR.HVVEC in H mode; one in H mode stops
the core. -/
def Sys2Proof.Claims.ServiceException : Prop :=
  ∀ (s : State) (n : Nat) (x y : Svc) (kind cause : Nat) (val : Word), s.cur = .svc n → x = s.svc n →
    y = (stopped s (.fault kind cause val)).svc n →
    (x.hmode = false → y = { x with
      hvcause := BitVec.ofNat 64 (cause % 256 * 256 + kind), hvval := val, hvepc := x.hart.pc.setWidth 64, hmode := true,
      hart := { x.hart with pc := BitVec.ofNat 52 (x.hvvec.toNat % 2 ^ 52 / 4 * 4) } }) ∧
    (x.hmode = true → y = { x with stopped := true } ∧ (stopped s (.fault kind cause val)).mgmtLog = s.mgmtLog + 1) ∧
    MemoryKept s (stopped s (.fault kind cause val)) ∧ (stopped s (.fault kind cause val)).threads = s.threads

/-- R39, R40, R364, R367: eret of a thread brings back x7, x8 and their liveness, clears INTRAP and goes to UTEPC; outside a handler it is
illegal. That it goes on from a restore routine under a new request is the model's reading (log entry 103). On a service core in H mode it
restores the mode and the pc; in S mode it is a privilege fault. -/
def Sys2Proof.Claims.TrapReturns : Prop :=
  (∀ (s : State) (tid : Nat) (th : Thread), Issues s tid th →
    (th.hart.intrap = false → exec .eret s = .next (stopped s (illegalWord Instr.eret.word))) ∧
    (th.hart.intrap = true → th.inSave = false ∨ requested s th = false → ∃ y, exec .eret s = .next (s.setThread tid y) ∧
      y.hart.intrap = false ∧ y.hart.pc = BitVec.ofNat 52 (th.utepc.toNat % 2 ^ 52 / 4 * 4) ∧
      y.hart.regs.get 7 = th.save7 ∧ y.hart.regs.get 8 = th.save8 ∧
      (∀ n, n ≠ 7 → n ≠ 8 → y.hart.regs.get n = th.hart.regs.get n) ∧ y.hart.rm = th.hart.rm ∧ y.hart.flags = th.hart.flags ∧
      y.hart.dead = th.hart.dead ∧ y = { th with hart := y.hart, restoring := false }) ∧
    (th.hart.intrap = true → th.inSave = true → requested s th = true →
      (∀ j ∈ s.jobs, j.2.thread ≠ tid) → (∀ v ∈ s.vcmds, v.2.thread ≠ tid) →
      ∃ y, exec .eret s = .next (s.setThread tid y) ∧ y.park = .safepoint th.utval.toNat ∧ y.hart.intrap = false)) ∧
  (∀ (s : State) (n : Nat) (x : Svc), s.cur = .svc n → x = s.svc n →
    (x.hmode = true → exec .eret s = .next (s.setSvc n { x with
      hmode := x.hvepc.toNat / 2 ^ 63 % 2 == 1, hart := { x.hart with pc := BitVec.ofNat 52 (x.hvepc.toNat % 2 ^ 52 / 4 * 4) } })) ∧
    (x.hmode = false → exec .eret s = .next (stopped s (privFault .eret))))

/-- Traps and faults of threads, exceptions of service cores, and the returns from them. That the first fault of a slot has TAG 0
is the model's choice (log entry 64). -/
def Obligations.Exceptions : Prop :=
  Claims.UserTrapTaken ∧ Claims.FaultPosted ∧ Claims.ServiceException ∧ Claims.TrapReturns

/-- R45, R371, R367: sys and brk of a thread post their message, with x1 to x6 for sys, and park it; on a service core in S mode
they, and hvc, raise an exception after which the core continues at the next instruction; hvc in H mode does nothing, and on a
compute core it is a privilege fault. R74: a word that is no instruction is an ILLEGAL fault. That a service core's sys, brk and hvc in S mode
do so at the last word too is the model's reading (log entry 112). -/
def Obligations.SystemCalls : Prop :=
  (∀ (s : State) (tid : Nat) (th : Thread) (n : BitVec 16) (i : Instr) (kind : Nat) (args : List Word), Issues s tid th →
    CanGoOn s → (i = .sys n ∧ kind = 10 ∧ args = [1, 2, 3, 4, 5, 6].map s.reg ∧ CanRead s [1, 2, 3, 4, 5, 6]) ∨
      (i = .brk n ∧ kind = 11 ∧ args = []) →
    ∃ t y f m, exec i s = .next t ∧ t.threads.get tid = some y ∧ y.park = .mailbox f ∧ y.hart.pc = th.hart.pc ∧
      y.hart.regs = th.hart.regs ∧ t.faults.get f = some m ∧ m.who = .thread tid ∧ m.kind = kind ∧
      m.addr = BitVec.ofNat 64 n.toNat ∧ m.args = args ∧ (Settled s → MemoryKept s t) ∧ OthersKept s t) ∧
  (∀ (s : State) (n : Nat) (x : Svc) (k : BitVec 16) (ra : Src), s.cur = .svc n → x = s.svc n →
    (x.hmode = false → ∀ i kind, (i = .sys k ∧ kind = 10) ∨ (i = .brk k ∧ kind = 11) → ∃ t, exec i s = .next t ∧
      t.svc n = { x with
        hvcause := BitVec.ofNat 64 kind, hvval := BitVec.ofNat 64 k.toNat, hvepc := (x.hart.pc + 4).setWidth 64,
        hmode := true, hart := { x.hart with pc := BitVec.ofNat 52 (x.hvvec.toNat % 2 ^ 52 / 4 * 4) } } ∧
      MemoryKept s t ∧ t.threads = s.threads) ∧
    (x.hmode = false → ∃ t, exec (.hvc ra) s = .next t ∧
      t.svc n = { x with
        hvcause := 13, hvval := s.reg ra.r, hvepc := (x.hart.pc + 4).setWidth 64, hmode := true,
        hart := { readHart x.hart [ra] [] with pc := BitVec.ofNat 52 (x.hvvec.toNat % 2 ^ 52 / 4 * 4) } } ∧
      MemoryKept s t ∧ t.threads = s.threads) ∧
    (CanGoOn s → x.hmode = true → exec (.hvc ra) s = .next (wrote s [ra] [] 0 0 0))) ∧
  (∀ (s : State) (tid : Nat) (ra : Src), s.cur = .thread tid →
    exec (.hvc ra) s = .next (stopped s (privFault (.hvc ra)))) ∧
  (∀ (s : State) (w : BitVec 32), exec (.illegal w) s = .next (stopped s (illegalWord w)))

/-- The cycles that the steps since a reset have taken: each step a free number of them (R33, log entry 5). -/
def Sys2Proof.Claims.cyclesFrom (s : State) (since : Nat) : Word :=
  BitVec.ofNat 64 ((List.range (s.clock - since)).map (fun i => Config.stepCycles (since + i))).sum

/-- R32 to R34, R37, R120, R156, R157, R283, R315, R388: a control register as a thread reads it. -/
def Sys2Proof.Claims.crOf (s : State) (tid : Nat) : Nat → Option Word
  | 0x000 => some s.hart.status
  | 0x001 => t?.bind (fun t => (s.groups.get (gkey t.run t.coord)).map (fun g => g.utvec))
  | 0x002 => t?.map (fun t => t.utcause)
  | 0x003 => t?.map (fun t => t.utval)
  | 0x004 => t?.map (fun t => t.utepc)
  | 0x005 => r?.map (fun r => BitVec.ofNat 64 r.fpctl)
  | 0x010 => t?.map (fun t => cyclesFrom s (s.shed (coreShed t.core)).since)
  | 0x011 => t?.map (fun t => BitVec.ofNat 64 (s.core t.core).retired)
  | 0x020 => r?.map (fun r => r.seed.lo)
  | 0x021 => r?.map (fun r => r.seed.hi)
  | 0x022 => t?.map (fun t => BitVec.ofNat 64 t.run)
  | 0x023 => t?.map (fun t => BitVec.ofNat 64 (t.coord.ly * 2 ^ 24 + t.coord.ls * 2 ^ 18 + t.coord.lc * 2 ^ 15 + t.coord.st * 2 ^ 12))
  | 0x030 => x?.map (fun x => x.evctl)
  | 0x031 => x?.map (fun x => x.drawtab)
  | 0x040 => t?.map (fun t => t.jobbase)
  | 0x0F0 => t?.map (fun t => (s.device (shedDev (coreShed t.core))).feat.setWidth 64)
  | _ => none
where
  t? : Option Thread := s.threads.get tid
  r? : Option Run := t?.bind (fun t => s.runs.get t.run)
  x? : Option LShed := t?.bind (fun t => s.lsheds.get t.lkey)

/-- What a thread's write of v to a control register other than CR.STATUS and CR.UTVEC changes (R35): the rest ignore it. -/
def Sys2Proof.Claims.crWritten (s : State) (tid : Nat) (th : Thread) (cr : Nat) (v : Word) : State :=
  match cr with
  | 0x004 => s.modThread tid (fun t => { t with
      utepc := BitVec.ofNat 64 (t.utepc.toNat / 2 ^ 52 * 2 ^ 52 + v.toNat % 2 ^ 52 / 4 * 4 + t.utepc.toNat % 4) })
  | 0x030 => s.modLShed th.lkey (fun x => { x with
      evctl := BitVec.ofNat 64
        (v.toNat / 2 ^ 6 % 4 * 64 + if v.toNat % 64 ≤ 48 then v.toNat % 64 else x.evctl.toNat % 64) })
  | 0x031 => s.modLShed th.lkey (fun x => { x with
      drawtab := BitVec.ofNat 64
        ((if v.toNat / 2 ^ 52 % 64 ≤ 40 then v.toNat / 2 ^ 52 % 64 else x.drawtab.toNat / 2 ^ 52 % 64) * 2 ^ 52 +
        v.toNat % 2 ^ 52 / 16 * 16) })
  | 0x040 => s.modThread tid (fun t => { t with jobbase := BitVec.ofNat 64 (v.toNat % 2 ^ 52 / 2 ^ 12 * 2 ^ 12 + v.toNat % 2) })
  | _ => s

/-- CR.STATUS after a write (R32). -/
def Sys2Proof.Claims.statusPut (h : Hart) (v : Word) : Hart :=
  { h with rm := (if v.toNat / 2 ^ 61 ≤ 4 then BitVec.ofNat 3 (v.toNat / 2 ^ 61) else h.rm),
           flags := BitVec.ofNat 5 (v.toNat / 2 ^ 56), dead := v.toNat / 2 ^ 54 % 2 == 1 }

/-- R32 to R35, R67, R175: crr, crw, crs and crc of a thread: the register's value, and what the write changes; a register of
service cores is a privilege fault, and a number that names no register is illegal. What a cycle counter holds is log entry 5. That crs and crc of CR.STATUS read it after
their source has been read is the model's choice (log entry 50). -/
def Sys2Proof.Claims.ThreadControlRegisters : Prop :=
  ∀ (s : State) (tid : Nat) (th : Thread) (cr : BitVec 12) (rd : Reg) (ra : Src) (c : Nat), Issues s tid th → CanGoOn s →
    c = cr.toNat →
    (∀ v, crOf s tid c = some v → exec (.crr cr rd) s = .next (wrote s [] [] rd v 0)) ∧
    (CanRead s [ra.r] → c ≠ 0x000 → c ≠ 0x001 → crListed.contains c = true →
      exec (.crw cr ra) s = .next (crWritten (wrote s [ra] [] 0 0 0) tid th c (s.reg ra.r)) ∧
      (∀ old, crOf s tid c = some old →
        exec (.crs cr rd ra) s = .next (crWritten (wrote s [ra] [] rd old 0) tid th c (old ||| s.reg ra.r)) ∧
        exec (.crc cr rd ra) s = .next (crWritten (wrote s [ra] [] rd old 0) tid th c (old &&& ~~~(s.reg ra.r))))) ∧
    (CanRead s [ra.r] → c = 0x000 → ∀ h old, h = readHart s.hart [ra] [] → old = h.status →
      exec (.crw cr ra) s = .next (s.setHart { statusPut h (s.reg ra.r) with pc := h.pc + 4 }) ∧
      exec (.crs cr rd ra) s = .next (s.setHart { statusPut (putReg h rd old) (old ||| s.reg ra.r) with pc := h.pc + 4 }) ∧
      exec (.crc cr rd ra) s = .next (s.setHart { statusPut (putReg h rd old) (old &&& ~~~(s.reg ra.r)) with pc := h.pc + 4 })) ∧
    (CanRead s [ra.r] → c = 0x001 → exec (.crw cr ra) s =
      .next (((readState s [ra] []).modThread tid (fun t => { t with park := .utvec (s.reg ra.r) })).post (.utvecWrite tid (s.reg ra.r))) ∧
      ∀ old u, crOf s tid c = some old → u = (readState s [ra] []).setReg rd old →
        exec (.crs cr rd ra) s =
          .next ((u.modThread tid (fun t => { t with park := .utvec (old ||| s.reg ra.r) })).post (.utvecWrite tid (old ||| s.reg ra.r))) ∧
        exec (.crc cr rd ra) s =
          .next ((u.modThread tid (fun t => { t with park := .utvec (old &&& ~~~(s.reg ra.r)) })).post (.utvecWrite tid (old &&& ~~~(s.reg ra.r))))) ∧
    (0x800 ≤ c → exec (.crr cr rd) s = .next (stopped s (privFault (.crr cr rd))) ∧
      exec (.crw cr ra) s = .next (stopped s (privFault (.crw cr ra))) ∧
      exec (.crs cr rd ra) s = .next (stopped s (privFault (.crs cr rd ra))) ∧
      exec (.crc cr rd ra) s = .next (stopped s (privFault (.crc cr rd ra)))) ∧
    (c < 0x800 → crListed.contains c = false →
      exec (.crr cr rd) s = .next (stopped s (illegalWord (Instr.crr cr rd).word)) ∧
      exec (.crw cr ra) s = .next (stopped s (illegalWord (Instr.crw cr ra).word)) ∧
      exec (.crs cr rd ra) s = .next (stopped s (illegalWord (Instr.crs cr rd ra).word)) ∧
      exec (.crc cr rd ra) s = .next (stopped s (illegalWord (Instr.crc cr rd ra).word)))

/-- A control register as a service core reads it (R365, R366, R368): of the registers of a compute thread only four. -/
def Sys2Proof.Claims.svcCrOf (s : State) (n : Nat) (c : Nat) : Option Word :=
  match c with
  | 0x000 => some s.hart.status
  | 0x010 => some (cyclesFrom s (s.device (svcDev n)).since)
  | 0x011 => some (BitVec.ofNat 64 (s.svc n).retired)
  | 0x0F0 => some ((s.device (svcDev n)).feat.setWidth 64)
  | 0x800 => some (if (s.svc n).hmode then 1 else 0)
  | 0x801 => some (s.svc n).hvvec
  | 0x802 => some (s.svc n).hvepc
  | 0x803 => some (s.svc n).hvcause
  | 0x804 => some (s.svc n).hvval
  | 0x810 => some (s.part (s.svc n).part).ptroot
  | 0x811 => some (BitVec.ofNat 64 (s.svc n).part)
  | 0x812 => some (s.part (s.svc n).part).grant
  | 0x820 => some (s.svc n).fbbase
  | 0x821 => some (BitVec.ofNat 64 ((if (s.svc n).ovf then 2 ^ 63 else 0) + (s.svc n).retry % 2 ^ 32 * 2 ^ 18 +
      (s.svc n).tail % 2 ^ 9 * 2 ^ 9 + (s.svc n).head % 2 ^ 9))
  | 0x822 => some (BitVec.ofNat 64 (s.svc n).svstat)
  | 0x830 => some 0
  | _ => if crListed.contains c then some 0 else none

/-- What a service core's write of v to a control register other than CR.STATUS, CR.FBSTAT and CR.RUNCTL changes (R366, R368): the rest
ignore it. -/
def Sys2Proof.Claims.svcCrWritten (s : State) (n c v : Nat) : State :=
  match c with
  | 0x801 => s.modSvc n (fun y => { y with hvvec := BitVec.ofNat 64 (v % 2 ^ 52 / 4 * 4) })
  | 0x802 => s.modSvc n (fun y => { y with hvepc := BitVec.ofNat 64 (v / 2 ^ 63 * 2 ^ 63 + v % 2 ^ 52 / 4 * 4) })
  | 0x810 => s.modPart (s.svc n).part (fun p => { p with ptroot := BitVec.ofNat 64 (v % 2 ^ 39 / 2 ^ 16 * 2 ^ 16 + v % 2) })
  | 0x812 => s.modPart (s.svc n).part (fun p => { p with grant := BitVec.ofNat 64 (v % 2 ^ 52 / 2 ^ 20 * 2 ^ 20) })
  | 0x820 => s.modSvc n (fun y => { y with fbbase := BitVec.ofNat 64 (v % 2 ^ 52 / 2 ^ 15 * 2 ^ 15) })
  | _ => s

/-- CR.FBSTAT after a write of v (R360, R368): HEAD does not pass TAIL. -/
def Sys2Proof.Claims.fbWritten (x : Svc) (v : Nat) : Svc :=
  { x with ovf := x.ovf && v / 2 ^ 63 % 2 == 0, retry := v / 2 ^ 18 % 2 ^ 32,
           head := if (x.tail + 512 - v % 2 ^ 9) % 512 ≤ (x.tail + 512 - x.head % 512) % 512 then v % 2 ^ 9 else x.head }

/-- The happening that an operation of CR.RUNCTL starts (R366, R374, R375). -/
def Sys2Proof.Claims.ctlEvent (op id : Nat) : Event :=
  if op = 0 then .preemptRequest id else if op = 1 then .preemptCancel id else .restore id

/-- A write of v to CR.RUNCTL by service core n, from b on (R366, R372, R380): its outcome at once, or what it starts. -/
def Sys2Proof.Claims.CtlWritten (i : Instr) (s b : State) (n v : Nat) : Prop :=
  ∀ op id, op = v / 2 ^ 62 → id = v % 2 ^ 32 →
    (op = 3 → exec i s = .next (b.modSvc n (fun y => { y with svstat := 2 }))) ∧
    (op ≠ 3 → (∀ r, s.runs.get id = some r → r.part ≠ (s.svc n).part) →
      exec i s = .next (b.modSvc n (fun y => { y with svstat := 3 }))) ∧
    (∀ r, op ≠ 3 → s.runs.get id = some r → r.part = (s.svc n).part →
      ∀ busy, busy = ((op = 0 ∧ (r.preempt = true ∨ s.agenda.contains (.preemptRequest id) = true)) ∨ (op = 2 ∧ r.descheduled = false)) →
        (busy → exec i s = .next (b.modSvc n (fun y => { y with svstat := 5 }))) ∧
        (¬ busy → ∃ t, exec i s = .next t ∧ (t.svc n).inCtl = true ∧ t.agenda.getLast? = some (ctlEvent op id) ∧
          t.runs.get id = some { r with requester := r.requester.filter (fun q => q.1 != n) ++ [(n, op)] } ∧ MemoryKept s t))

/-- R365, R366, R368, R372, R380: the registers of service cores: what they read, what a write changes, the writes that only H
mode may make, and the numbers that name none. A read of CR.FBSTAT is an acquire at system scope, which drops the device's copies of
remote lines (R193). What a cycle counter holds is log entry 5, and what crs and crc of CR.STATUS read log entry 50. -/
def Sys2Proof.Claims.ServiceControlRegisters : Prop :=
  ∀ (s : State) (n : Nat) (x : Svc) (cr : BitVec 12) (rd : Reg) (ra : Src) (c : Nat), IssuesSvc s n → CanGoOn s →
    x = s.svc n → c = cr.toNat →
    (∀ w, svcCrOf s n c = some w → ∀ got, got = (fun u : State => if c = 0x821 then dropSlices u (svcDev n) else u) →
      exec (.crr cr rd) s = .next (got (wrote s [] [] rd w 0)) ∧
      ∀ i b v, (i = .crw cr ra ∧ b = wrote s [ra] [] 0 0 0 ∧ v = (s.reg ra.r).toNat) ∨
          (i = .crs cr rd ra ∧ b = got (wrote s [ra] [] rd w 0) ∧ v = (w ||| s.reg ra.r).toNat) ∨
          (i = .crc cr rd ra ∧ b = got (wrote s [ra] [] rd w 0) ∧ v = (w &&& ~~~(s.reg ra.r)).toNat) →
        (x.hmode = false → c = 0x801 ∨ c = 0x802 ∨ c = 0x812 → exec i s = .next (stopped s (privFault i))) ∧
        (x.hmode = true ∨ (c ≠ 0x801 ∧ c ≠ 0x802 ∧ c ≠ 0x812) → c ≠ 0x000 → c ≠ 0x821 → c ≠ 0x830 →
          exec i s = .next (svcCrWritten b n c v)) ∧
        (c = 0x821 → x.refused = [] → exec i s = .next (b.modSvc n (fun y => fbWritten y v))) ∧
        (c = 0x830 → x.inCtl = true → exec i s = .next (stopped s (.wait .slot))) ∧
        (c = 0x830 → x.inCtl = false → CtlWritten i s b n v)) ∧
    (c = 0x000 → ∀ h old, h = readHart s.hart [ra] [] → old = h.status →
      exec (.crw cr ra) s = .next (s.setHart { statusPut h (s.reg ra.r) with pc := h.pc + 4 }) ∧
      exec (.crs cr rd ra) s = .next (s.setHart { statusPut (putReg h rd old) (old ||| s.reg ra.r) with pc := h.pc + 4 }) ∧
      exec (.crc cr rd ra) s = .next (s.setHart { statusPut (putReg h rd old) (old &&& ~~~(s.reg ra.r)) with pc := h.pc + 4 })) ∧
    (svcCrOf s n c = none → ∀ i, i = .crr cr rd ∨ i = .crw cr ra ∨ i = .crs cr rd ra ∨ i = .crc cr rd ra →
      exec i s = .next (stopped s (illegalWord i.word)))

/-- R32 to R35, R365 to R367: control registers, of a thread and of a service core. What crs and crc of CR.STATUS read is the model's choice (log entry 50). -/
def Obligations.ControlRegisters : Prop := Claims.ThreadControlRegisters ∧ Claims.ServiceControlRegisters

/-- R361, R369, R370, R362, R380, R396: idle, kill, frep, tlbinv, mld and mst of a service core, and their SVSTAT; on a compute core they
are privilege faults, and mld and mst outside the maintenance state are illegal. A kill ends a run's threads or a group's; a tlbinv
drops every translation, or a page's, or starts a page's migration (R239). That a kill word with a reserved bit set gives 2 is the
model's choice (log entry 49), and so are the maintenance state of a device alone (117) and the place of the scratchpads' window (62). -/
def Obligations.ServiceForms : Prop :=
  (∀ (s : State) (tid : Nat) (ra rb : Src) (i : Instr), s.cur = .thread tid →
    i = .idle ∨ i = .kill ra ∨ i = .frep ra rb ∨ i = .tlbinv ra rb → exec i s = .next (stopped s (privFault i))) ∧
  (∀ (s : State) (n : Nat) (x : Svc) (ra rb : Src), IssuesSvc s n → CanGoOn s → x = s.svc n →
    exec .idle s = .next ((wrote s [] [] 0 0 0).modSvc n (fun y => { y with idle := x.tail == x.head })) ∧
    (x.inCtl = false → x.busy = false →
      (∀ a, a = (s.reg ra.r).toNat →
        (a / 2 ^ 31 % 2 = 1 ∨ a % 2 ^ 6 ≠ 0 ∨ (a / 2 ^ 30 % 2 = 0 ∧ a / 2 ^ 6 % 2 ^ 24 ≠ 0) →
          exec (.kill ra) s = .next ((wrote s [ra] [] 0 0 0).modSvc n (fun y => { y with svstat := 2 }))) ∧
        (a / 2 ^ 31 % 2 = 0 → a % 2 ^ 6 = 0 → a / 2 ^ 30 % 2 = 1 ∨ a / 2 ^ 6 % 2 ^ 24 = 0 →
          (s.runs.get (a / 2 ^ 32) = none →
            exec (.kill ra) s = .next ((wrote s [ra] [] 0 0 0).modSvc n (fun y => { y with svstat := 3 }))) ∧
          (∀ r, s.runs.get (a / 2 ^ 32) = some r → r.part = x.part → a / 2 ^ 30 % 2 = 0 → r.state ≠ 1 → r.state ≠ 2 →
            ∃ t r', exec (.kill ra) s = .next t ∧ (t.svc n).svstat = 0 ∧ t.runs.get (a / 2 ^ 32) = some r' ∧ r'.state = 6 ∧
              ∀ p ∈ t.threads, p.2.run ≠ a / 2 ^ 32) ∧
          (∀ r c, s.runs.get (a / 2 ^ 32) = some r → r.part = x.part → a / 2 ^ 30 % 2 = 1 →
            c = (⟨a / 2 ^ 18 % 2 ^ 12, a / 2 ^ 12 % 2 ^ 6, a / 2 ^ 9 % 2 ^ 3, a / 2 ^ 6 % 2 ^ 3⟩ : Coord) →
            ((∀ g, s.groups.get (gkey (a / 2 ^ 32) c) = some g → g.alive = false) →
              exec (.kill ra) s = .next ((wrote s [ra] [] 0 0 0).modSvc n (fun y => { y with svstat := 3 }))) ∧
            (∀ g, s.groups.get (gkey (a / 2 ^ 32) c) = some g → g.alive = true → ∃ t, exec (.kill ra) s = .next t ∧
              (t.svc n).svstat = 0 ∧ ∀ p ∈ t.threads, p.2.run = a / 2 ^ 32 → p.2.coord ≠ c)))) ∧
      (∀ u e ea, Names (s.reg ra.r) 0 8 ea → loadDwords (readState s [ra, rb] []) ea 16 = .ok (u, e) →
        (replyAction (s.reg rb.r) = none →
          ∃ t, exec (.frep ra rb) s = .next t ∧ (t.svc n).svstat = 2 ∧ t.faults = s.faults ∧ MemoryKept s t) ∧
        (∀ a, replyAction (s.reg rb.r) = some a →
          (findFault s e ((s.reg rb.r).toNat / 2 ^ 52 % 2 ^ 8) (outsideBuffer u ea) = none →
            ∃ t, exec (.frep ra rb) s = .next t ∧ (t.svc n).svstat = 1 ∧ t.faults = s.faults ∧ MemoryKept s t) ∧
          (∀ f, findFault s e ((s.reg rb.r).toNat / 2 ^ 52 % 2 ^ 8) (outsideBuffer u ea) = some f →
            ∃ t m, exec (.frep ra rb) s = .next t ∧ (t.svc n).svstat = 0 ∧ t.agenda.getLast? = some (.faultReply f a) ∧
              t.faults.get f = some m ∧ m.svc = n ∧ m.res1 = e.getD 6 0 ∧ m.res2 = e.getD 7 0 ∧ MemoryKept s t))) ∧
      (tlbWordOk (s.reg rb.r) = false → ∃ t, exec (.tlbinv ra rb) s = .next t ∧ (t.svc n).svstat = 2 ∧ t.tlbs = s.tlbs ∧
        MemoryKept s t) ∧
      (tlbWordOk (s.reg rb.r) = true → ∀ op va, op = (s.reg rb.r).toNat / 2 ^ 62 → va = (s.reg ra.r).toNat % 2 ^ 52 →
        (op = 1 → ∃ t, exec (.tlbinv ra rb) s = .next t ∧ (t.svc n).svstat = 0 ∧ (Settled s → MemoryKept s t) ∧
          (∀ b ∈ t.tlbs, ∀ e ∈ b.2, e.part ≠ x.part) ∧ ∀ c, shedOwned s x.part (coreShed c) = true → (t.core c).l1 = []) ∧
        (op ≠ 1 → pageMoving s x.part va = true → exec (.tlbinv ra rb) s = .next (stopped s (.wait .slot))) ∧
        (op = 0 → pageMoving s x.part va = false → ∃ t, exec (.tlbinv ra rb) s = .next t ∧ (t.svc n).svstat = 0 ∧
          (Settled s → MemoryKept s t) ∧
          ∀ k, t.tlbs.getD k [] = (s.tlbs.getD k []).filter (fun e => !e.maps x.part va)) ∧
        (op = 2 → pageMoving s x.part va = false →
          ((s.feat (svcDev n) / 2 ^ 2 % 2 = 0 ∨ ((∀ e, walk s x.part (svcDev n) va ≠ .leaf e 0) ∧
              ∀ k, walk s x.part (svcDev n) va ≠ .error k)) →
            ∃ t, exec (.tlbinv ra rb) s = .next t ∧ (t.svc n).svstat = 4 ∧ t.pageMigs = s.pageMigs ∧ MemoryKept s t) ∧
          (∀ e, s.feat (svcDev n) / 2 ^ 2 % 2 = 1 → walk s x.part (svcDev n) va = .leaf e 0 →
            ∃ t m, exec (.tlbinv ra rb) s = .next t ∧ (t.svc n).busy = true ∧ t.agenda.getLast? = some (.pageMigration m) ∧
              t.pageMigs.get m = some ⟨x.part, va, (s.reg rb.r).toNat / 2 ^ 16 % 2 ^ 33, leafAddr e 0 0 / 2 ^ 16, n, false, []⟩ ∧
              (Settled s → MemoryKept s t) ∧
              ∀ k, k < 2 ^ 62 → t.tlbs.getD k [] = (s.tlbs.getD k []).filter (fun e => !e.maps x.part va)))))) ∧
  (∀ (s : State) (n k : Nat) (x : Svc) (sz : MSize) (rd : Reg) (ra rb : Src) (off : BitVec 8) (pa : Nat), IssuesSvc s n →
    CanGoOn s → x = s.svc n → k = msizeBytes sz →
    (x.hmode = false ∨ (s.device (svcDev n)).maint = false →
      exec (.mld sz rd ra rb off) s = .next (stopped s (illegalWord (Instr.mld sz rd ra rb off).word)) ∧
      exec (.mst sz rd ra rb off) s = .next (stopped s (illegalWord (Instr.mst sz rd ra rb off).word))) ∧
    (x.hmode = true → (s.device (svcDev n)).maint = true →
      pa = (s.reg ra.r + BitVec.ofNat 64 ((s.reg rb.r).toNat % 2 ^ 32 * k) + BitVec.ofInt 64 (off.toInt * k)).toNat →
      pa < 2 ^ 49 → pa % k = 0 →
      (∀ u p, place (readState s [ra, rb] []) (.svcH n) .read pa = .ok (u, p) → frameBusy u (.svc n) p.key = false →
        ∃ t, exec (.mld sz rd ra rb off) s = .next t ∧ MemoryKept s t ∧
          OnlyHart s t (doneHart s.hart [ra, rb] [] rd (BitVec.ofNat 64 (s.value p.key k)) 0)) ∧
      (∀ u p, place (readState s [ra, rb] [rd]) (.svcH n) .write pa = .ok (u, p) → frameBusy u (.svc n) p.key = false →
        ∃ t, exec (.mst sz rd ra rb off) s = .next t ∧ OnlyHart s t (doneHart s.hart [ra, rb] [rd] 0 0 0) ∧
          MemoryKeptBut p.key k s t ∧ t.value p.key k = (s.reg rd).toNat % 2 ^ (8 * k)) ∧
      ((∀ m ∈ s.pageMigs, m.2.moved = false) → (s.device (svcDev n)).linkErrors = [] → ∀ key, padKey s (svcDev n) pa = some key →
        key % 2 ^ 19 < 0x7E000 →
        (s.badLines.contains (key / 64) = false → place s (.svcH n) .read pa = .ok (s, ⟨key, true, false, false, 0⟩) ∧
          place s (.svcH n) .write pa = .ok (s, ⟨key, true, false, false, 0⟩)) ∧
        (s.badLines.contains (key / 64) = true →
          exec (.mld sz rd ra rb off) s = .next (stopped s (.fault 8 1 (BitVec.ofNat 64 pa))) ∧
          exec (.mst sz rd ra rb off) s = .next (stopped s (.fault 8 1 (BitVec.ofNat 64 pa))))) ∧
      (∀ key, padKey s (svcDev n) pa = some key → 0x7E000 ≤ key % 2 ^ 19 →
        exec (.mld sz rd ra rb off) s = .next (stopped s (accessFault 6 pa)) ∧
        exec (.mst sz rd ra rb off) s = .next (stopped s (accessFault 6 pa))) ∧
      ((∀ m ∈ s.pageMigs, m.2.moved = false) → padKey s (svcDev n) pa = none → (s.device (svcDev n)).linkErrors = [] → keyDev pa = svcDev n →
        s.badLines.contains (pa / 64) = false →
        place s (.svcH n) .read pa = .ok (s, ⟨pa, false, false, false, 0⟩) ∧
          place s (.svcH n) .write pa = .ok (s, ⟨pa, false, false, false, 0⟩))))

/-! ### Fault messages, runs and devices -/

/-- R238, R359, R360, R379: a fault message that finds room is written whole at TAIL, and TAIL moves on; one that finds the buffer full
sets OVF and joins the queue; a retry counts. R43, R45, R362: a reply ends the message, and the thread goes on, with its results after a
system call, or ends; a reply on which it goes on waits while its device has stopped (R395). That a command whose record's write is not
resumed keeps its error and completes without the record is the model's reading (log entry 113). -/
def Obligations.FaultMessages : Prop :=
  ∀ (s : State) (f : Nat) (m : FaultMsg) (x : Svc), s.faults.get f = some m → x = s.svc m.svc →
    (∀ u p i, (i = .faultBufferEntry f ∧ m.st = 0 ∨ i = .faultRetry f ∧ m.st = 2) → fbFull s m.svc = false →
      bufferPlace s m.svc x.tail = .ok (u, p) → ∃ t, exec i s = .next t ∧ MemoryKeptBut p.key 128 s t ∧
        t.bytes p.key 128 = m.words.flatMap (leBytes 8) ∧ (t.svc m.svc).tail = (x.tail + 1) % 512 ∧ (t.svc m.svc).idle = false ∧
        (t.svc m.svc).head = x.head ∧ (i = .faultRetry f → (t.svc m.svc).retry = min (2 ^ 32 - 1) (x.retry + 1)) ∧
        t.faults.get f = if faultWaits s f m then some { m with st := 3 } else none) ∧
    (m.st = 0 → fbFull s m.svc = true → x.refused.length < 64 → ∃ t, exec (.faultBufferEntry f) s = .next t ∧
      (t.svc m.svc) = { x with ovf := true, refused := x.refused ++ [f] } ∧ t.faults.get f = some { m with st := 1 } ∧
      MemoryKept s t) ∧
    (∀ tid th, m.who = .thread tid → s.threads.get tid = some th → th.park = .mailbox f → isResident s th.lkey = true →
      (coreWorks s th.core = false → exec (.faultReply f .resume) s = .next (s.post (.faultReply f .resume)) ∧
        ∀ pc, exec (.faultReply f (.resumeAt pc)) s = .next (s.post (.faultReply f (.resumeAt pc)))) ∧
      (coreWorks s th.core = true → ∃ t y, exec (.faultReply f .resume) s = .next t ∧ t.threads.get tid = some y ∧ y.park = .none ∧ t.faults.get f = none ∧
        MemoryKept s t ∧ (m.kind ≠ 10 → m.kind ≠ 11 → y.hart = th.hart) ∧
        (m.kind = 11 → y.hart = { th.hart with pc := th.hart.pc + 4 }) ∧
        (m.kind = 10 → y.hart = { th.hart with regs := (th.hart.regs.set 1 m.res1).set 2 m.res2, pc := th.hart.pc + 4 })) ∧
      (∀ pc, coreWorks s th.core = true → ∃ t y, exec (.faultReply f (.resumeAt pc)) s = .next t ∧ t.threads.get tid = some y ∧ y.park = .none ∧
        y.hart = { th.hart with pc := pc } ∧ MemoryKept s t) ∧
      (∃ t, exec (.faultReply f .killThread) s = .next t ∧ t.threads.get tid = none)) ∧
    (∀ k j, m.who = .job k → s.jobs.get k = some j → j.fault = some f →
      (∃ t y, exec (.faultReply f .resume) s = .next t ∧ t.jobs.get k = some y ∧ y.fault = none ∧
        t.agenda.getLast? = some (if j.ended then .jobDone k else .job k) ∧ MemoryKept s t) ∧
      (j.ended = false → ∃ t, exec (.faultReply f .killThread) s = .next t ∧ Ended t k 3 m.addr.toNat ∧ MemoryKept s t) ∧
      (j.ended = true → ∃ t y, exec (.faultReply f .killThread) s = .next t ∧ t.jobs.get k = some y ∧ y.ended = true ∧ y.fault = none ∧
        (j.status ≠ 0 → y.status = j.status ∧ y.detail = j.detail ∧ y.value = j.value) ∧
        (j.status = 0 → y.status = 3 ∧ y.detail = faultDetail m.kind m.cause ∧ y.value = m.addr.toNat) ∧
        y.jobbase.toNat % 2 = 0 ∧ t.agenda.getLast? = some (.jobDone k) ∧ MemoryKept s t)) ∧
    (∀ n v, (s.svc n).refused = [] →
      ((s.svc n).tail + 512 - v.toNat % 2 ^ 9) % 512 ≤ ((s.svc n).tail + 512 - (s.svc n).head % 512) % 512 →
      exec (.fbstatWrite n v) s = .next (s.modSvc n (fun y => { y with
        ovf := y.ovf && v.toNat / 2 ^ 63 % 2 == 0, retry := v.toNat / 2 ^ 18 % 2 ^ 32, head := v.toNat % 2 ^ 9 })))

/-- R25, R37, R175, R183: the happenings of a thread that change one thing: a register fill shows nothing, a thread that has been ready in
92 cycles, of two issue slots each, is urgent, and a write of CR.UTVEC reaches its group and completes, once its device runs (R395). -/
def Sys2Proof.Claims.ThreadHappenings : Prop :=
  ∀ (s : State) (tid : Nat) (th : Thread), s.threads.get tid = some th →
    exec (.registerFill tid) s = .next s ∧
    (184 ≤ th.ready → issueClass th = 0 ∧ exec (.threadAged tid) s = .next (s.setThread tid { th with urgent := true })) ∧
    (th.ready < 184 → issueClass th = issueClass { th with ready := 0 } ∧ exec (.threadAged tid) s = .next s) ∧
    (∀ v, th.park = .utvec v → coreWorks s th.core = false → exec (.utvecWrite tid v) s = .next (s.post (.utvecWrite tid v))) ∧
    (∀ v g, th.park = .utvec v → coreWorks s th.core = true → s.groups.get (gkey th.run th.coord) = some g → ∃ t y, exec (.utvecWrite tid v) s = .next t ∧
      t.threads.get tid = some y ∧ y.hart = { th.hart with pc := th.hart.pc + 4 } ∧ y.park = .none ∧ MemoryKept s t ∧
      t.groups.get (gkey th.run th.coord) = some { g with utvec := BitVec.ofNat 64 (v.toNat % 2 ^ 52 / 4 * 4 + v.toNat % 2) })

/-- R187, R221, R243, R246, R25, R175, R183: what happens to memory and to a thread from outside its instructions. That a pause lasts 33 steps of the model's clock is the model's choice (log entry 18). -/
def Obligations.Wakeups : Prop := Claims.MemoryHappenings ∧ Claims.ThreadHappenings

/-- R180, R181, R154, R176: the dispatcher: a doorbell queues its run, a queued run whose conditions do not hold waits, one that fails
validation goes, its STATUS STATE 5 with the cause, a waiting run whose conditions hold is placed, and a run of which nothing remains goes
with its logical sheds, its STATUS STATE 4, or 6 after a kill. The dispatcher of a device that has stopped does nothing (R395). The remap
entries that a run gives back stand where the model puts them (log entry 74). -/
def Obligations.DispatcherHappenings : Prop :=
  (∀ (s : State) (p hdr prio id : Nat) (w : Word) (u : State), dispatchRead s p hdr = some (u, w) → dispatcherStopped s p = false →
    prio = w.toNat / 2 ^ 13 % 8 → id = freshRun s →
    (256 ≤ (queueOf s p prio).length → exec (.launchDoorbell p hdr) s = .next s) ∧
    ((queueOf s p prio).length < 256 → ∃ t x, exec (.launchDoorbell p hdr) s = .next t ∧ t.runs.get id = some x ∧ x.hdr = hdr ∧
      x.part = p ∧ x.prio = prio ∧ x.state = 1 ∧ queueOf t p prio = queueOf s p prio ++ [id])) ∧
  (∀ (s q u : State) (p r : Nat) (x x' : Run) (cause : Nat), nextQueued s p = some r → s.runs.get r = some x → x.part = p →
    dispatcherStopped s p = false → (∀ h ∈ partSheds s p, waitingHosts s h = []) →
    q = s.modPart p (fun y => { y with queues := y.queues.mapVals (fun _ l => l.filter (fun y => y != r)) }) →
    validate q x r = (u, x', cause) → (∀ y ∈ s.runs, ¬ (y.2.part = p ∧ y.2.state = 2 ∧ y.2.ready = true)) →
    (cause ≠ 0 → ∃ t, exec (.dispatch p) s = .next t ∧ t.runs.get r = none ∧
      ∀ z v k, z = u.modRun r (fun y => { y with cause := cause }) →
        placeData z (.disp p (partDev z p)) .write (x.hdr + 0x68) = .ok (v, k) → MemoryKeptBut k.key 8 s t ∧
        t.value k.key 8 = (r % 2 ^ 32 * 2 ^ 32 + x.drop * 2 ^ 16 + cause * 256 + 5) % 2 ^ 64) ∧
    (∀ v w fs, cause = 0 → x'.ready = false → v = runStatus (u.setRun r { x' with state := 2 }) r 2 →
      failingConds { v with waits := v.waits.filter (fun e => e.2.who != .run r) } x'.part x'.conds = some (w, fs) → fs ≠ [] →
      x'.part = p → ∃ t y, exec (.dispatch p) s = .next t ∧ t.runs.get r = some y ∧ y.state = 2 ∧ y.ready = false)) ∧
  (∀ (s u v : State) (r : Nat) (x : Run) (i : Instr), (i = .conditionWake r ∨ i = .conditionRecheck r) →
    s.runs.get r = some x → x.state = 2 → x.ready = false → dispatcherStopped s x.part = false →
    failingConds { s with waits := s.waits.filter (fun e => e.2.who != .run r) } x.part x.conds = some (u, []) →
    (∀ y ∈ s.runs, y.1 ≠ r → ¬ (y.2.part = x.part ∧ y.2.state = 2 ∧ y.2.ready = true)) →
    placeRun (markOldest (u.modRun r (fun x => { x with ready := true })) x.part) r = some v →
    ∃ t y, exec i s = .next t ∧ t.runs.get r = some y ∧ y.state = 3) ∧
  (∀ (s : State) (r : Nat) (x : Run), s.runs.get r = some x → x.state = 3 ∨ x.state = 6 → runIdle s r = true →
    dispatcherStopped s x.part = false → ∃ t, exec (.runDone r) s = .next t ∧ t.runs.get r = none ∧ (∀ l ∈ t.lsheds, l.2.run ≠ r) ∧
      ∀ z v k, z = settleInvals s → placeData z (.disp x.part (partDev z x.part)) .write (x.hdr + 0x68) = .ok (v, k) →
        (∀ h, waitingHosts s h = []) → (∀ e, x.block ≤ e → e < x.block + x.entries →
          remapKey s x.part e + 8 ≤ k.key ∨ k.key + 8 ≤ remapKey s x.part e) →
        t.value k.key 8 = (r % 2 ^ 32 * 2 ^ 32 + x.drop * 2 ^ 16 + x.cause * 256 + (if x.state = 6 then 6 else 4)) % 2 ^ 64)

/-- R120, R160, R372 to R375, R377: a pre-empt request holds the threads that count; a cancellation lets them go on; a logical shed whose
threads all count leaves its shed; a restore brings the run back, with the flush bits of its header; a slice that has run out ends; and a
watchdog that reaches zero freezes its run, which is then reported. The length of a slice in steps, which threads count, and the flush bits at a
restore whose header has changed are the model's choices (log entries 20, 52 and 75). -/
def Obligations.PreemptionHappenings : Prop :=
  ∀ (s : State) (r : Nat) (x : Run), s.runs.get r = some x →
    (x.preempt = false → ∃ t y, exec (.preemptRequest r) s = .next t ∧ t.runs.get r = some y ∧ y.preempt = true ∧ MemoryKept s t ∧
      ∀ tid th, s.threads.get tid = some th → th.run = r → th.counts = true → ∃ z, t.threads.get tid = some z ∧ z.held = true) ∧
    (x.preempt = true → x.descheduled = false → ∃ t y, exec (.preemptCancel r) s = .next t ∧ t.runs.get r = some y ∧
      y.preempt = false) ∧
    (∀ l y, Settled s → Map.sorted s.threads = true → Map.sorted s.lsheds = true → s.lsheds.get l = some y → y.run = r →
      y.resident = true → x.preempt = true → x.frozen = false → deviceIssues s (shedDev y.shed) = true →
      (∀ tid th, s.threads.get tid = some th → th.lkey = l → th.counts = true) →
      ∃ t z, exec (.deschedule l) s = .next t ∧ t.lsheds.get l = some z ∧ z.resident = false ∧
        ∀ tid th, s.threads.get tid = some th → th.lkey = l → ∃ q, t.threads.get tid = some q ∧ q.slot = 64 ∧ q.hart = th.hart) ∧
    (∀ v, x.descheduled = true → dispatcherStopped s x.part = false → (List.range (x.nly + 1)).foldlM (placeYard (restoreShed r) x.nls (partDevs s x.part))
        ((loadFlush s r).modRun r (fun y => { y with preempt := false })) = some v →
      ∃ t y, exec (.restore r) s = .next t ∧ t.runs.get r = some y ∧ y.descheduled = false ∧ y.preempt = false ∧
        (∀ u w, dispatchRead s x.part (x.hdr + 0x30) = some (u, w) → y.fpctl = w.toNat % 2 ^ 14) ∧
        (dispatchRead s x.part (x.hdr + 0x30) = none → y.fpctl = x.fpctl)) ∧
    (∀ l y, s.lsheds.get l = some y → y.resident = true → y.mode = 2 → y.slicing = false → waitingHosts s y.shed ≠ [] →
      (s.clock < y.since + 200000 → exec (.timeSlice l) s = .next (s.post (.timeSlice l))) ∧
      (y.since + 200000 ≤ s.clock → ∃ t z, exec (.timeSlice l) s = .next t ∧ t.lsheds.get l = some z ∧ z.slicing = true ∧
        t.agenda.getLast? = some (.deschedule l) ∧ MemoryKept s t)) ∧
    (∀ l y, s.lsheds.get l = some y → y.run = r → dogCounts s y = true → y.dog = 1 →
      (tickDogs s).lsheds.get l = some { y with dog := 0 } ∧ (∃ h, .watchdog r h ∈ (tickDogs s).agenda) ∧
      ∃ z, (tickDogs s).runs.get r = some z ∧ z.frozen = true ∧ ∀ tid th, s.threads.get tid = some th → th.run = r →
        threadReady (tickDogs s) th = false) ∧
    (∀ h, x.pers = true → x.frozen = true →
      ∃ t f m, exec (.watchdog r h) s = .next t ∧ t.runs = s.runs ∧ t.faults.get f = some m ∧
        m.who = .run r ∧ m.kind = 7 ∧ m.run = r ∧ t.agenda.getLast? = some (.faultBufferEntry f) ∧ MemoryKept s t)

/-- R384: every granule of n bytes of a device's memory is exposed to the host. -/
def Sys2Proof.Claims.Exposed (s : State) (dev a n : Nat) : Prop :=
  s.feat dev % 2 = 1 ∧ dev < 1024 ∧ a + n ≤ 2 ^ 39 ∧ ∀ k, a ≤ k → k < a + n → k / 2 ^ 21 ∈ (s.device dev).exposed

/-- R387: the function fn of the host may reach n bytes of a device's memory: the management driver's, or that of the partition that
owns their frames. -/
def Sys2Proof.Claims.Owns (s : State) (fn dev a n : Nat) : Prop :=
  fn = 0 ∨ ∃ p, fn = p + 1 ∧ (s.parts.get p).isSome = true ∧
    ∀ k, a ≤ k → k < a + n → granted s p dev ((dev * 2 ^ 39 + k) / 2 ^ 16 * 2 ^ 16) = true

/-- R384, R387, R388: a request of the host for memory that is exposed to it, and that its function may reach, is performed at the
home of its bytes; any other is discarded and logged; and only the management driver names what is exposed. -/
def Sys2Proof.Claims.HostRequests : Prop :=
  ∀ (s : State) (fn dev a n : Nat) (bs : List Byte), s.badLines = [] → s.pageMigs = [] →
    (0 < bs.length → Exposed s dev a bs.length → Owns s fn dev a bs.length → ∃ t, exec (.hostAccess (.write fn dev a bs)) s = .next t ∧
      t.bytes (dev * 2 ^ 39 + a) bs.length = bs ∧ MemoryKeptBut (dev * 2 ^ 39 + a) bs.length s t) ∧
    (0 < n → Exposed s dev a n → Owns s fn dev a n → exec (.hostAccess (.read fn dev a n)) s =
      .next { s with hostOut := s.hostOut ++ [s.bytes (dev * 2 ^ 39 + a) n] }) ∧
    (0 < bs.length → ¬ (Exposed s dev a bs.length ∧ Owns s fn dev a bs.length) →
      exec (.hostAccess (.write fn dev a bs)) s = .next { s with mgmtLog := s.mgmtLog + 1 }) ∧
    (0 < n → ¬ (Exposed s dev a n ∧ Owns s fn dev a n) →
      exec (.hostAccess (.read fn dev a n)) s = .next { s with mgmtLog := s.mgmtLog + 1 }) ∧
    (∀ g on, fn ≠ 0 → exec (.hostAccess (.expose fn dev g on)) s = .next { s with mgmtLog := s.mgmtLog + 1 }) ∧
    (∀ g on, ∃ t, exec (.hostAccess (.expose 0 dev g on)) s = .next t ∧ MemoryKept s t ∧ ∀ g',
      g' ∈ (t.device dev).exposed ↔ (g' = g ∧ on = true ∨ g' ≠ g ∧ g' ∈ (s.device dev).exposed))

/-- R239, R240: a request of the host, which is exposed and may be made, for bytes of one frame: while the frame in which they stand is closed to
it, it joins the old home's queue and is made again; and it is performed where they stand, at the new home once the frame has moved. -/
def Sys2Proof.Claims.HostQueued : Prop :=
  ∀ (s : State) (fn dev a k : Nat) (bs : List Byte) (op : HostOp), s.badLines = [] → k = movedTo s (dev * 2 ^ 39 + a) → 0 < bs.length →
    (dev * 2 ^ 39 + a) % 2 ^ 16 + bs.length ≤ 2 ^ 16 → Exposed s dev a bs.length → Owns s fn dev a bs.length →
    op = .write fn dev a bs ∨ op = .read fn dev a bs.length →
    (frameBusy s (.host op) (k / 2 ^ 16 * 2 ^ 16) = true →
      exec (.hostAccess op) s = .next ((joinQueue s (.host op) (k / 2 ^ 16)).post (.hostAccess op))) ∧
    (frameBusy s (.host op) (k / 2 ^ 16 * 2 ^ 16) = false → ∃ t, exec (.hostAccess op) s = .next t ∧
      (∀ m ∈ t.pageMigs, .host op ∉ m.2.queue) ∧
      (op = .write fn dev a bs → t.bytes k bs.length = bs ∧ MemoryKeptBut k bs.length s t) ∧
      (op = .read fn dev a bs.length → t.hostOut = s.hostOut ++ [s.bytes k bs.length] ∧ MemoryKept s t))

/-- R239, R240: page migration moves the bytes of a frame; once the requests that the old home queued have been performed, it reports: a
requester that can make no request by then has none in the queue (log entry 59);
and a redirect notice takes the page out of the TLBs of its shed. -/
def Sys2Proof.Claims.PageMoves : Prop :=
  ∀ (s : State) (m : Nat) (g : PageMig), s.pageMigs.get m = some g →
    (g.moved = false → Settled s → Memory.wf s.mem = true → ∃ t, exec (.pageMigration m) s = .next t ∧
      t.pageMigs.get m = some { g with moved := true } ∧ (∀ k, k < 2 ^ 16 → t.byte (g.new * 2 ^ 16 + k) = s.byte (g.old * 2 ^ 16 + k)) ∧
      ∀ k, k / 2 ^ 16 ≠ g.new → t.byte k = s.byte k) ∧
    (g.moved = true → g.queue ≠ [] → ∃ t, exec (.pageMigration m) s = .next t ∧ MemoryKept s t ∧
      t.pageMigs.get m = some { g with queue := g.queue.filter (canAsk s) } ∧ t.agenda = s.agenda ++ [.pageMigration m]) ∧
    (g.moved = true → g.queue = [] → ∃ t, exec (.pageMigration m) s = .next t ∧ t.pageMigs.get m = none ∧
      (t.svc g.svc).busy = false ∧ (t.svc g.svc).svstat = 0 ∧ (Settled s → MemoryKept s t)) ∧
    (∀ h, ∃ t, exec (.redirectNotice h m) s = .next t ∧ MemoryKept s t ∧ ∀ k b, t.tlbs.get k = some b →
      k < 2 ^ 40 ∧ k / 16 = h ∨ k = 2 ^ 40 + h → ∀ e ∈ b, e.maps g.part g.va = false)

/-- R239, R240, R384 to R388, R395: page migration; the host's requests; the driver accepts a subset of the features once; a flit that is
retried counts, for the same flit or for a new one, and the port whose flit has failed after eight retries is down, which the device's next access
over its links meets, or, where no access is in the flit, is posted as an MCHECK at once; a reroute counts, and posts the error of its port that no
access has met; and the limits. Model's choices: what the TLBs keep (log entry 9), what the host's functions are
and see (56), which flit failed last, whether an access is in it, and who meets the error (57), when a stopped device takes part (67), and the order in which queued requests go on (59). -/
def Obligations.DeviceHappenings : Prop :=
  PageMoves ∧ HostRequests ∧ HostQueued ∧
  (∀ (s : State) (dev port h : Nat) (w : BitVec 128) (d : Device) (b : Bool), d = s.device dev →
    (d.accepted = true → exec (.featureAccept dev w) s = .next s) ∧
    (d.accepted = false → exec (.featureAccept dev w) s = .next (s.setDevice dev { d with feat := d.offered &&& w, accepted := true })) ∧
    (∃ t, exec (.reroute dev port) s = .next t ∧ t.device dev = { d with routes := d.routes + 1, linkErrors := d.linkErrors.filter (· != port) } ∧
      MemoryKept s t ∧ (d.linkErrors.contains port = false → t.faults = s.faults ∧ t.agenda = s.agenda) ∧
      (d.linkErrors.contains port = true → ∀ p ∈ s.parts, (∃ c ∈ p.2.svcs, svcDev c = dev) → ∃ f ∈ t.faults, f.2.who = .nobody ∧ f.2.kind = 8 ∧
        f.2.cause = 2 ∧ f.2.svc = designated s p.1 dev)) ∧
    (port < 16 → d.ports.getD port 0 < 9 → ∃ t n a, exec (.flitRetry dev port) s = .next t ∧ (n = 1 ∨ n = d.ports.getD port 0 + 1) ∧
      t.device dev = { d with ports := d.ports.set port n, linkErrors := if n = 9 ∧ a = true then d.linkErrors ++ [port] else d.linkErrors } ∧
      (n = 9 → a = false → ∀ p ∈ s.parts, (∃ c ∈ p.2.svcs, svcDev c = dev) → ∃ f ∈ t.faults, f.2.who = .nobody ∧ f.2.kind = 8 ∧
        f.2.cause = 2 ∧ f.2.svc = designated s p.1 dev) ∧
      (n = 9 → t.agenda.getLast? = some (.reroute dev port)) ∧ MemoryKept s t) ∧
    (d.ports.getD port 0 = 9 → exec (.flitRetry dev port) s = .next s) ∧
    exec (.thermalLimit h b) s = .next (s.setShed h { s.shed h with held := b }) ∧
    (∃ t, exec (.criticalLimit dev) s = .next t ∧ t.device dev = { d with stopped := true } ∧ MemoryKept s t))

/-- R389, R391: a thread of a device has reported boundary g, and waits for the reply. -/
abbrev Sys2Proof.Claims.Reported (s : State) (dev g : Nat) : Prop :=
  ∃ f ∈ s.faults, f.2.kind = 10 ∧ f.2.addr = 0xFF00 ∧ f.2.args.head? = some (BitVec.ofNat 64 g) ∧ shedDev (coreShed f.2.core) = dev

/-- No thread, as it stands or as a mirror holds it, stands on a device away from its logical shed's physical shed: none has to come home from
there, with its memberships, after the logical sheds of the device have been placed anew (log entries 99 and 114). -/
abbrev Sys2Proof.Claims.NoneStranded (s : State) (m : Mirror) (dev : Nat) : Prop :=
  ∀ y ∈ s.threads ++ m.sheds.flatMap (fun q => q.2.threads), shedDev (coreShed y.2.core) = dev →
    ∀ z ∈ s.lsheds ++ m.sheds.map (fun q => (q.1, q.2.shed)), z.1 = y.2.lkey → z.2.shed = coreShed y.2.core

/-- R33, R396, R391, R392, R393, R394: a device reset leaves its service cores as at reset and enters the maintenance state; a shed's reset
empties it; at a reported boundary a device streams its mirror to its buddy, whose acknowledgement makes the boundary recoverable; the safe tier
copies memory with the save areas and log areas in it; rewind restores each region to its latest checkpoint below g, and no message of a later event stays; a failed device is known
as failed, and the logical sheds that are lost with it are what its mirror holds. What a reset keeps of memory, what a device's failure leaves, when the safe tier
copies, what a mirror holds, that a rewind waits for a frame that is being moved, and what comes home of what stood on a failed device are the model's
choices (log entries 34, 35, 55, 59, 60 and 99). -/
def Obligations.RecoveryHappenings : Prop :=
  (∀ (s : State) (dev : Nat), ∃ t, exec (.deviceReset dev) s = .next t ∧ MemoryKept s t ∧ (t.device dev).maint = true ∧
    (t.device dev).feat = 0 ∧ (t.device dev).accepted = false ∧ (t.device dev).stopped = false ∧
    (t.device dev).exposed = [] ∧ (t.device dev).mirrors = [] ∧ (t.device dev).since = s.clock ∧
    ∀ n, svcDev n = dev → t.svc n = Svc.blank) ∧
  (∀ (s : State) (h : Nat), (s.shed h).maint = true ∨ (s.device (shedDev h)).maint = true → hostsOf s h = [] →
    ∃ t, exec (.shedReset h) s = .next t ∧ MemoryKept s t ∧ (t.shed h).loft = [] ∧ (t.shed h).tables = [] ∧
      (t.shed h).since = s.clock ∧ ∀ c, c / 8 = h → (t.core c).l1 = [] ∧ (t.core c).retired = 0) ∧
  (∀ (s : State) (n : Nat) (enter : Bool),
    ((∀ l ∈ s.lsheds, l.2.placed s = true → l.2.shed ≠ n) ∨ enter = false → ∃ t, exec (.maintenanceState true n enter) s = .next t ∧
      t.shed n = { s.shed n with maint := enter } ∧ MemoryKept s t) ∧
    ((∀ l ∈ s.lsheds, l.2.placed s = true → shedDev l.2.shed ≠ n) ∨ enter = false → ∃ t, exec (.maintenanceState false n enter) s = .next t ∧
      t.device n = { s.device n with maint := enter } ∧ MemoryKept s t)) ∧
  (∀ (s : State) (dev buddy g : Nat),
    (s.feat dev / 2 ^ 6 % 2 = 0 ∨ buddy = dev → exec (.mirrorStream ⟨dev, buddy, g⟩) s = .next s) ∧
    (s.feat dev / 2 ^ 6 % 2 = 1 → buddy ≠ dev →
      ((∀ m, (s.device buddy).incoming.get dev = some m → m.g ≠ g) → ¬ Reported s dev g →
        exec (.mirrorStream ⟨dev, buddy, g⟩) s = .next s) ∧
      ((∀ m, (s.device buddy).incoming.get dev = some m → m.g ≠ g) → Reported s dev g → ∃ t,
        exec (.mirrorStream ⟨dev, buddy, g⟩) s = .next t ∧
        (t.device buddy).incoming.get dev = some (mirrorOf s dev g) ∧ t.agenda.getLast? = some (.mirrorStream ⟨dev, buddy, g⟩) ∧
        (t.device buddy).mirrors = (s.device buddy).mirrors ∧ MemoryKept s t) ∧
      (∀ m, (s.device buddy).incoming.get dev = some m → m.g = g → ∃ t, exec (.mirrorStream ⟨dev, buddy, g⟩) s = .next t ∧
        (t.device buddy).mirrors.get dev = some m ∧ (t.device buddy).incoming.get dev = none ∧ MemoryKept s t))) ∧
  (∀ (s : State) (p : Nat), s.feat (partDev s p) / 2 ^ 7 % 2 = 1 →
    (∀ r ∈ s.runs, r.2.part = p → r.2.state = 3 → r.2.descheduled = true) →
    ∃ t, exec (.safeTierCheckpoint p) s = .next t ∧ MemoryKept s t ∧
      (t.part p).safe.cells = s.mem.filter (fun c => decide (c.1 < 2 ^ 49) && granted s p (partDev s p) c.1) ∧
      (t.part p).safe.logAreas = s.logAreas.filter (fun a => a.1 / 2 ^ 52 == p) ∧
      ∀ l ∈ s.lsheds, (∃ r, s.runs.get l.2.run = some r ∧ r.part = p) → ∃ m, (l.1, m) ∈ (t.part p).safe.sheds ∧
        (l.2.resident = false → m.shed = (s.lsheds.get l.1).getD l.2 ∧ m.threads = s.threads.filter (fun y => y.2.lkey == l.1) ∧
          m.cells = s.mem.filter (fun c => (saveAreas s (shedDev l.2.shed) l.1).any (fun a =>
            decide (a.1 ≤ c.1) && decide (c.1 < a.1 + a.2))))) ∧
  (∀ (s : State) (r g l k : Nat) (x : Run) (y : LShed) (q : Region) (c : Ckpt), s.runs.get r = some x → x.descheduled = true →
    s.lsheds.get l = some y → y.run = r → regionOf s l k = some q → q.st = 1 →
    (∀ z ∈ s.lsheds, z.2.run = r → rewindBusy s g z.2 = false) →
    q.ckpts.find? (fun c => c.key.start || decide (c.key.time < g)) = some c →
    ∃ t q', exec (.rewind r g) s = .next t ∧ regionOf t l k = some q' ∧ q'.clock = c.clock ∧ q'.ord = c.ord ∧ q'.count = c.count ∧
      q'.last = c.key ∧ q'.replay = Key.begin ∧ q'.curV = false ∧ q'.bnd = false ∧
      (∀ m, m ∈ q'.inq ∨ m ∈ q'.recv → m.run = r → sentAbove t r m = false) ∧
      ∀ a ∈ t.logAreas, ∀ m, m ∈ a.2.inq ∨ m ∈ a.2.recv → m.run = r → sentAbove t r m = false) ∧
  (∀ (s : State) (r g : Nat) (x : Run), s.runs.get r = some x → x.descheduled = true →
    (∃ z ∈ s.lsheds, z.2.run = r ∧ rewindBusy s g z.2 = true) → exec (.rewind r g) s = .next (s.post (.rewind r g))) ∧
  (∀ (s : State) (dev : Nat), ∃ t, exec (.deviceFailureDetection dev) s = .next t ∧ (t.device dev).failed = true ∧
    ((∀ d ∈ s.devices, d.1 ≠ dev → d.2.failed = true ∨ d.2.mirrors.get dev = none) →
      ∀ l x r, s.lsheds.get l = some x → x.resident = true → shedDev x.shed = dev → s.runs.get x.run = some r →
        ∃ y, t.lsheds.get l = some y ∧ y.resident = false) ∧
    (∀ m, buddyOf s dev = some m → (m.sheds.map (fun p => p.1)).Nodup → ∀ p ∈ m.sheds, ∀ x, s.lsheds.get p.1 = some x →
      Map.sorted s.lsheds = true → (shedDev x.shed = dev → (s.runs.get x.run).isSome = true ∨ x.resident = false →
          (∃ y, t.lsheds.get p.1 = some y ∧ y.shed = p.2.shed.shed ∧ y.resident = p.2.shed.resident) ∧
          (NoneStranded s m dev → t.lsheds.get p.1 = some p.2.shed)) ∧
        (shedDev x.shed ≠ dev → ∃ y, t.lsheds.get p.1 = some y ∧ y.shed = x.shed ∧ y.resident = x.resident)))

/-! ### Steps, encodings and the invariant -/

/-- The word that the current hart finds at a place: the instruction caches of a logical shed keep bytes as they stood at placement
(R46, R96). -/
def Sys2Proof.Claims.wordAt (s : State) (p : Place) : BitVec 32 :=
  let b (k : Nat) : Byte := s.curThread.elim (s.byte (p.key + k)) (fun t => codeByte s t (p.key + k))
  wordOfBytes (b 0) (b 1) (b 2) (b 3)

/-- A step of a ready hart runs the instruction that the word at its program counter decodes to, and then counts it and schedules;
a word that is no instruction is an ILLEGAL fault (R74), and so is one that follows a tcwl and is no tcwh (R76); a fetch that is stopped
is taken as the exception it is. An instruction that uses the register of a pending load, or does more than work on registers, finds the
thread's loads performed (R182, R190). The units' turn performs the happening at the head of the agenda. That the turns of the cores and of
the units alternate, and which bytes the instruction caches keep, are the model's choices (log entries 7 and 65). -/
def Obligations.StepRunsDecoded : Prop :=
  ∀ (s : State), allStopped s = false →
    (s.turn = .core → partyReady s s.cur = true →
      (∀ u p, place s s.ctx .fetch s.hart.pc.toNat = .ok (u, p) → frameBusy u (curWaiter u) p.key = false →
        (∀ i, decode (wordAt u p) = .ok i → pairBroken u i = false → step s = andThen (exec i (settleLoads u i)) (afterIssue s)) ∧
        ((∀ i, decode (wordAt u p) = .ok i → pairBroken u i = true) →
          step s = .next (afterIssue s (stopped (discardStaged u) (illegalWord (wordAt u p)))))) ∧
      (∀ u p, place s s.ctx .fetch s.hart.pc.toNat = .ok (u, p) → frameBusy u (curWaiter u) p.key = true →
        step s = .next (afterIssue s (stopped s (.wait (.frame (p.key / 2 ^ 16)))))) ∧
      (∀ e, place s s.ctx .fetch s.hart.pc.toNat = .error e → step s = .next (afterIssue s (stopped s e)))) ∧
    (s.turn = .core → partyReady s s.cur = false → step s = .next (schedule { s with turn := .unit, clock := s.clock + 1 })) ∧
    (s.turn = .unit → ∀ e rest, s.agenda = e :: rest → step s = andThen (perform e { s with agenda := rest }) afterUnit) ∧
    (s.turn = .unit → s.agenda = [] → step s = .next (afterUnit s))

/-- R46 to R68: words written out field by field from the encoding tables decode to the instructions they stand for; the all-zeros
and the all-ones word are none. -/
def Obligations.DecodeWords : Prop :=
  decode (0#11 ++ 0#1 ++ 3#4 ++ 0#1 ++ 2#4 ++ 1#4 ++ 0x01#7 : BitVec 32) = .ok (.add false 1 ⟨2, false⟩ ⟨3, false⟩) ∧
  decode (0xFFFF#16 ++ 1#1 ++ 2#4 ++ 1#4 ++ 0x03#7 : BitVec 32) = .ok (.addi 1 ⟨2, true⟩ 0xFFFF#16) ∧
  decode (8#12 ++ 1#1 ++ 2#3 ++ 0#1 ++ 4#4 ++ 5#4 ++ 0x2B#7 : BitVec 32) = .ok (.stD .stream ⟨5, true⟩ ⟨4, false⟩ 8#12) ∧
  decode (0xFFE#12 ++ 1#3 ++ 1#1 ++ 7#4 ++ 0#1 ++ 6#4 ++ 0x38#7 : BitVec 32) = .ok (.bne ⟨6, false⟩ ⟨7, true⟩ 0xFFE#12) ∧
  decode (1#1 ++ 1#1 ++ 2#2 ++ 0#4 ++ 2#3 ++ 0#1 ++ 3#4 ++ 0#1 ++ 2#4 ++ 1#4 ++ 0x30#7 : BitVec 32) =
    .ok (.aadd true true .dev .rel 1 ⟨2, false⟩ ⟨3, false⟩) ∧
  decode (0x1234#16 ++ 0#3 ++ 3#2 ++ 9#4 ++ 0x1C#7 : BitVec 32) = .ok (.ldk 9 0x1234#16 3#2) ∧
  decode (5#16 ++ 0#5 ++ 0#4 ++ 0x70#7 : BitVec 32) = .ok (.sys 5#16) ∧
  decode (0x0#32) = .error .allZeros ∧ decode (0xFFFFFFFF#32) = .error .allOnes

/-- What State.reset holds. That every service core stands in H mode at address 0 with a blank context, that
device 0 is in the maintenance state with no feature accepted, and that a byte nothing has written reads zero are the model's choices (log
entries 1 to 4). -/
def Obligations.ResetState : Prop :=
  State.reset.cur = .svc 0 ∧ State.reset.turn = .core ∧ State.reset.threads = [] ∧ State.reset.runs = [] ∧
  State.reset.lsheds = [] ∧ State.reset.agenda = [] ∧ State.reset.mem = [] ∧ State.reset.Inv ∧
  (∀ k, State.reset.byte k = 0) ∧
  (∀ n, (State.reset.svc n).hmode = true ∧ (State.reset.svc n).hart = Hart.blank ∧ (State.reset.svc n).retired = 0 ∧
    (State.reset.svc n).stopped = false ∧ (State.reset.svc n).fbbase = 0) ∧
  (∀ r : Reg, r ≠ 0 → Hart.blank.isDead r = true) ∧ Hart.blank.pc = 0 ∧
  (∀ c, (State.reset.core c).retired = 0) ∧ (∀ p, (State.reset.part p).ptroot = 0 ∧ (State.reset.part p).grant = 0) ∧
  (State.reset.device 0).maint = true ∧ (State.reset.device 0).accepted = false ∧ (State.reset.device 0).feat = 0 ∧
  (State.reset.device 0).exposed = []

/-- R46 to R68: the decoder reads every well-formed instruction that has a word back from that word, with every operand. -/
def Obligations.EncodeDecode : Prop :=
  ∀ (i : Instr) (w : BitVec 32), i.wellFormed = true → encode i = some w → decode w = .ok i

/-- R46 to R68, R74: a word that decodes is the word of exactly one instruction, which is well-formed; so no unused field is dropped,
and no word has two readings. -/
def Obligations.DecodeEncode : Prop :=
  ∀ (w : BitVec 32) (i : Instr), decode w = .ok i → i.wellFormed = true ∧ encode i = some w

/-- Every step keeps memory in its canonical form, in every state, whatever the instruction or the happening. The form (the list of bytes in
rising order of key, none of them zero) is the model's own representation of memory, no rule of the spec: keys are as log entry 17 lays them
out, and a byte that is not listed reads zero by log entry 2. -/
def Obligations.MemoryCanonical : Prop :=
  ∀ (s t : State), s.Inv → step s = .next t → t.Inv

/-- The registers of a service core that software of a run must not reach (R35, R365). -/
def Sys2Proof.Claims.guarded (x : Svc) : Hart × Bool × Word × Word × Word × Word × Nat × Word :=
  (x.hart, x.hmode, x.hvvec, x.hvepc, x.hvcause, x.hvval, x.part, x.fbbase)

/-- No instruction of a compute thread changes a register of a service core, the page-table root or the grant map of a
partition (R35, R364 to R366, R387). -/
def Obligations.ThreadsCannotReachService : Prop :=
  ∀ (s t : State) (tid : Nat) (i : Instr), s.cur = .thread tid → (encode i).isSome = true → exec i s = .next t →
    (∀ n, guarded (t.svc n) = guarded (s.svc n)) ∧
    (∀ p, (t.part p).ptroot = (s.part p).ptroot ∧ (t.part p).grant = (s.part p).grant ∧ (t.part p).svcs = (s.part p).svcs)
end

