-- ==== Sys2Proof/Laws/Engine.lean ====
section
/-! SUPPORT. What the bookkeeping of a microcode step's loads and stores can do (R264): it touches no other field of State, a load that the step has made is not made again, and a step with nothing to store stores nothing. -/

namespace Sys2Proof.Machine

@[simp] theorem State.reading_mem (s : State) (l : List Read) : (s.reading l).mem = s.mem := rfl
@[simp] theorem State.reading_threads (s : State) (l : List Read) : (s.reading l).threads = s.threads := rfl
@[simp] theorem State.reading_runs (s : State) (l : List Read) : (s.reading l).runs = s.runs := rfl
@[simp] theorem State.reading_lsheds (s : State) (l : List Read) : (s.reading l).lsheds = s.lsheds := rfl
@[simp] theorem State.reading_groups (s : State) (l : List Read) : (s.reading l).groups = s.groups := rfl
@[simp] theorem State.reading_cores (s : State) (l : List Read) : (s.reading l).cores = s.cores := rfl
@[simp] theorem State.reading_sheds (s : State) (l : List Read) : (s.reading l).sheds = s.sheds := rfl
@[simp] theorem State.reading_svcs (s : State) (l : List Read) : (s.reading l).svcs = s.svcs := rfl
@[simp] theorem State.reading_parts (s : State) (l : List Read) : (s.reading l).parts = s.parts := rfl
@[simp] theorem State.reading_devices (s : State) (l : List Read) : (s.reading l).devices = s.devices := rfl
@[simp] theorem State.reading_jobs (s : State) (l : List Read) : (s.reading l).jobs = s.jobs := rfl
@[simp] theorem State.reading_vcmds (s : State) (l : List Read) : (s.reading l).vcmds = s.vcmds := rfl
@[simp] theorem State.reading_faults (s : State) (l : List Read) : (s.reading l).faults = s.faults := rfl
@[simp] theorem State.reading_bmsgs (s : State) (l : List Read) : (s.reading l).bmsgs = s.bmsgs := rfl
@[simp] theorem State.reading_logAreas (s : State) (l : List Read) : (s.reading l).logAreas = s.logAreas := rfl
@[simp] theorem State.reading_waits (s : State) (l : List Read) : (s.reading l).waits = s.waits := rfl
@[simp] theorem State.reading_watches (s : State) (l : List Read) : (s.reading l).watches = s.watches := rfl
@[simp] theorem State.reading_invals (s : State) (l : List Read) : (s.reading l).invals = s.invals := rfl
@[simp] theorem State.reading_slices (s : State) (l : List Read) : (s.reading l).slices = s.slices := rfl
@[simp] theorem State.reading_tlbs (s : State) (l : List Read) : (s.reading l).tlbs = s.tlbs := rfl
@[simp] theorem State.reading_icaches (s : State) (l : List Read) : (s.reading l).icaches = s.icaches := rfl
@[simp] theorem State.reading_records (s : State) (l : List Read) : (s.reading l).records = s.records := rfl
@[simp] theorem State.reading_pageMigs (s : State) (l : List Read) : (s.reading l).pageMigs = s.pageMigs := rfl
@[simp] theorem State.reading_nextRun (s : State) (l : List Read) : (s.reading l).nextRun = s.nextRun := rfl
@[simp] theorem State.reading_nextKey (s : State) (l : List Read) : (s.reading l).nextKey = s.nextKey := rfl
@[simp] theorem State.reading_badLines (s : State) (l : List Read) : (s.reading l).badLines = s.badLines := rfl
@[simp] theorem State.reading_hostOut (s : State) (l : List Read) : (s.reading l).hostOut = s.hostOut := rfl
@[simp] theorem State.reading_mgmtLog (s : State) (l : List Read) : (s.reading l).mgmtLog = s.mgmtLog := rfl
@[simp] theorem State.reading_agenda (s : State) (l : List Read) : (s.reading l).agenda = s.agenda := rfl
@[simp] theorem State.reading_turn (s : State) (l : List Read) : (s.reading l).turn = s.turn := rfl
@[simp] theorem State.reading_cur (s : State) (l : List Read) : (s.reading l).cur = s.cur := rfl
@[simp] theorem State.reading_clock (s : State) (l : List Read) : (s.reading l).clock = s.clock := rfl
@[simp] theorem State.reading_defer (s : State) (l : List Read) : (s.reading l).defer = s.defer := rfl
@[simp] theorem State.reading_free (s : State) (l : List Read) : (s.reading l).free = s.free := rfl
@[simp] theorem State.reading_reads (s : State) (l : List Read) : (s.reading l).reads = ⟨l, []⟩ := rfl

@[simp] theorem State.reading_reading (s : State) (l m : List Read) : (s.reading l).reading m = s.reading m := rfl

@[simp] theorem Reads.all_reading (s : State) (l : List Read) : (s.reading l).reads.all = l := rfl

/-- A load that the step made before it stopped gives what it gave then, and no access is made. -/
theorem jOnce_made {s : State} {r : Read} {rest : List Read} (h : s.reads.old = r :: rest) (f : State → JM (State × Nat)) :
    jOnce s r.ea r.n f = .ok ({ s with reads := ⟨rest, r :: s.reads.made⟩ }, r.v) := by
  simp [jOnce, h]

/-- A load that the step has not come to before is made, and kept. -/
theorem jOnce_new {s u : State} {ea n v : Nat} {f : State → JM (State × Nat)} (h : s.reads.old = []) (hf : f s = .ok (u, v)) :
    jOnce s ea n f = .ok ({ u with reads := ⟨[], ⟨ea, n, v⟩ :: u.reads.made⟩ }, v) := by
  simp [jOnce, h, hf, bind, Except.bind]

/-- Such a load that is stopped stops the step. -/
theorem jOnce_stopped {s : State} {ea n : Nat} {f : State → JM (State × Nat)} {e : JStop} (h : s.reads.old = []) (hf : f s = .error e) :
    jOnce s ea n f = .error e := by
  simp [jOnce, h, hf, bind, Except.bind]

@[simp] theorem makePuts_nil (c : Ctx) (s : State) (n : Nat) : makePuts c [] s n = (s, [], n, none) := rfl

/-- A command that has nothing to store makes no access, and its step starts anew. -/
theorem flushPuts_nothing (c : Ctx) (s : State) (j : Job) (lim : Option Nat) (h : j.todo = []) :
    flushPuts c s j lim = (s.reading [], j, none) := by
  simp only [flushPuts, h, List.takeWhile_nil, List.drop_nil, List.nil_append, makePuts_nil, Reads.all_reading, State.reading_reading]
  rw [← h]

/-- R257, R264: a command whose record's write is not resumed keeps the error that it had ended with, and asks for no record. -/
theorem Job.unrecorded_status (j : Job) (m : FaultMsg) :
    (j.unrecorded m).status = (if j.status = 0 then 3 else j.status) ∧ (j.unrecorded m).fault = none ∧
      bitAt (j.unrecorded m).jobbase 0 = false := by
  unfold Job.unrecorded
  dsimp only
  split <;> simp_all [bitAt]

end Sys2Proof.Machine
end

