-- ==== Sys2Proof/Laws/Map.lean ====
section
/-! SUPPORT. What reading a map gives after each of its updates, and which updates keep its keys rising. -/

namespace Sys2Proof.Machine.Map

variable {α : Type}

@[simp] theorem get_nil (k : Nat) : Map.get ([] : Map α) k = none := rfl

/-- Reading finds the first pair with the key. -/
theorem get_eq_find (m : Map α) (k : Nat) : m.get k = (m.find? fun x => decide (x.fst = k)).map Prod.snd := by
  induction m with
  | nil => rfl
  | cons x l ih => by_cases e : x.fst = k <;> simp [Map.get, e, ih]

theorem mem_of_get {m : Map α} {k : Nat} {v : α} (h : m.get k = some v) : (k, v) ∈ m := by
  rw [get_eq_find, Option.map_eq_some_iff] at h
  obtain ⟨x, hx, rfl⟩ := h
  have := List.find?_some hx
  simp only [decide_eq_true_eq] at this
  exact this ▸ List.mem_of_find?_eq_some hx

theorem get_set (m : Map α) (k j : Nat) (v : α) : (m.set k v).get j = if j = k then some v else m.get j := by
  induction m with
  | nil => simp [Map.set, Map.get, eq_comm]
  | cons x l ih =>
    simp only [Map.set]
    by_cases lt : x.fst < k
    · rw [if_pos lt]
      simp only [Map.get, ih]
      by_cases e : x.fst = j
      · rw [if_pos e, if_pos e, if_neg (by omega)]
      · rw [if_neg e, if_neg e]
    · rw [if_neg lt]
      by_cases e : j = k
      · simp [Map.get, e]
      · by_cases here : x.fst = k
        · simp [Map.get, here, e, Ne.symm e]
        · simp [Map.get, here, e, Ne.symm e]

@[simp] theorem get_set_self (m : Map α) (k : Nat) (v : α) : (m.set k v).get k = some v := by simp [get_set]

theorem get_set_of_ne (m : Map α) {k j : Nat} (h : j ≠ k) (v : α) : (m.set k v).get j = m.get j := by simp [get_set, h]

theorem get_erase (m : Map α) (k j : Nat) : (m.erase k).get j = if j = k then none else m.get j := by
  induction m with
  | nil => simp [Map.erase]
  | cons x l ih =>
    simp only [Map.erase, List.filter_cons, decide_eq_true_eq] at ih ⊢
    by_cases here : x.fst = k
    · rw [if_neg (by simp [here]), ih]
      by_cases e : j = k
      · simp [e]
      · rw [if_neg e, if_neg e, Map.get, if_neg (by omega)]
    · rw [if_pos here]
      simp only [Map.get, ih]
      by_cases e : x.fst = j
      · rw [if_pos e, if_pos e, if_neg (e ▸ here)]
      · rw [if_neg e, if_neg e]

@[simp] theorem get_erase_self (m : Map α) (k : Nat) : (m.erase k).get k = none := by simp [get_erase]

theorem get_erase_of_ne (m : Map α) {k j : Nat} (h : j ≠ k) : (m.erase k).get j = m.get j := by simp [get_erase, h]

@[simp] theorem getD_set_self (m : Map α) (k : Nat) (v d : α) : (m.set k v).getD k d = v := by
  simp [Map.getD]

theorem getD_set_of_ne (m : Map α) {k j : Nat} (h : j ≠ k) (v d : α) : (m.set k v).getD j d = m.getD j d := by
  simp [Map.getD, get_set_of_ne m h]

theorem get_modify (m : Map α) (k j : Nat) (f : α → α) :
    (m.modify k f).get j = if j = k then (m.get k).map f else m.get j := by
  cases v : m.get k with
  | some a => simp [Map.modify, v, get_set]
  | none => by_cases e : j = k <;> simp [Map.modify, v, e]

@[simp] theorem get_modify_self (m : Map α) (k : Nat) (f : α → α) : (m.modify k f).get k = (m.get k).map f := by
  simp [get_modify]

theorem get_modify_of_ne (m : Map α) {k j : Nat} (h : j ≠ k) (f : α → α) : (m.modify k f).get j = m.get j := by
  simp [get_modify, h]

theorem get_mapVals (m : Map α) (f : Nat → α → α) (k : Nat) : (m.mapVals f).get k = (m.get k).map (f k) := by
  induction m with
  | nil => rfl
  | cons x l ih =>
    simp only [Map.mapVals, List.map_cons, Map.get] at ih ⊢
    by_cases e : x.fst = k
    · simp [e]
    · simp [e, ih]

/-! ### Two updates of one record -/

theorem set_set (m : Map α) (k : Nat) (v w : α) : (m.set k v).set k w = m.set k w := by
  induction m with
  | nil => simp [Map.set]
  | cons x l ih =>
    simp only [Map.set]
    by_cases lt : x.fst < k
    · simp [lt, Map.set, ih]
    · simp [lt, Map.set]

theorem modify_modify (m : Map α) (k : Nat) (f g : α → α) : (m.modify k f).modify k g = m.modify k (g ∘ f) := by
  cases v : m.get k with
  | none => simp [Map.modify, v]
  | some a => simp [Map.modify, v, set_set]

/-! ### Rising keys -/

/-- A map is in its canonical form exactly when the keys of its pairs rise strictly. -/
theorem sorted_iff (m : Map α) : m.sorted = true ↔ m.Pairwise fun x y => x.fst < y.fst := by
  induction m with
  | nil => simp [Map.sorted]
  | cons x l ih =>
    rw [List.pairwise_cons, ← ih]
    cases l with
    | nil => simp [Map.sorted]
    | cons y l =>
      have step : Map.sorted (x :: y :: l) = (decide (x.fst < y.fst) && Map.sorted (y :: l)) := rfl
      rw [step, Bool.and_eq_true, decide_eq_true_eq]
      refine and_congr_left fun hl => ⟨fun lt z hz => ?_, fun all => all y (List.mem_cons_self ..)⟩
      rcases List.mem_cons.1 hz with rfl | hz
      · exact lt
      · exact Nat.lt_trans lt ((List.pairwise_cons.1 (ih.1 hl)).1 z hz)

/-- What a pair of an updated map is. -/
theorem mem_set {m : Map α} {k : Nat} {v : α} {x : Nat × α} (h : x ∈ m.set k v) : x = (k, v) ∨ x ∈ m := by
  induction m with
  | nil => simpa [Map.set] using h
  | cons y l ih =>
    simp only [Map.set] at h
    by_cases lt : y.fst < k
    · rw [if_pos lt] at h
      exact (List.mem_cons.1 h).elim (fun e => .inr (e ▸ List.mem_cons_self ..))
        (fun there => (ih there).imp_right (List.mem_cons_of_mem y))
    · rw [if_neg lt] at h
      refine (List.mem_cons.1 h).imp_right fun there => ?_
      by_cases here : y.fst = k
      · rw [if_pos here] at there; exact List.mem_cons_of_mem y there
      · rw [if_neg here] at there; exact there

theorem mem_erase {m : Map α} {k : Nat} {x : Nat × α} (h : x ∈ m.erase k) : x ∈ m := (List.mem_filter.1 h).1

theorem sorted_set (m : Map α) (k : Nat) (v : α) (h : m.sorted = true) : (m.set k v).sorted = true := by
  rw [sorted_iff] at h ⊢
  induction m with
  | nil => simp [Map.set]
  | cons x l ih =>
    obtain ⟨above, hl⟩ := List.pairwise_cons.1 h
    simp only [Map.set]
    by_cases lt : x.fst < k
    · rw [if_pos lt, List.pairwise_cons]
      refine ⟨fun z hz => ?_, ih hl⟩
      rcases mem_set hz with rfl | hz
      · exact lt
      · exact above z hz
    · rw [if_neg lt]
      by_cases here : x.fst = k
      · rw [if_pos here]
        exact List.pairwise_cons.2 ⟨fun z hz => here ▸ above z hz, hl⟩
      · rw [if_neg here]
        refine List.pairwise_cons.2 ⟨fun z hz => ?_, h⟩
        rcases List.mem_cons.1 hz with rfl | hz
        · show k < z.fst
          omega
        · have := above z hz
          show k < z.fst
          omega

theorem sorted_filter (m : Map α) (f : Nat × α → Bool) (h : m.sorted = true) : Map.sorted (m.filter f) = true :=
  (sorted_iff _).2 (((sorted_iff m).1 h).filter f)

theorem sorted_erase (m : Map α) (k : Nat) (h : m.sorted = true) : (m.erase k).sorted = true := sorted_filter m _ h

/-- A key that none of the pairs has is not found. -/
theorem get_eq_none {m : Map α} {k : Nat} (h : ∀ x ∈ m, x.fst ≠ k) : m.get k = none := by
  rw [get_eq_find, List.find?_eq_none.2 (fun x hx => by simpa using h x hx)]
  rfl

/-- Two maps with rising keys that read alike are the same list. -/
theorem ext_of_sorted {m n : Map α} (hm : m.sorted = true) (hn : n.sorted = true) (h : ∀ k, m.get k = n.get k) : m = n := by
  rw [sorted_iff] at hm hn
  have first (x : Nat × α) (l : Map α) : Map.get (x :: l) x.fst = some x.snd := by simp [Map.get]
  -- the first key of one list is a key of the other, so the other's first key is no greater
  have least {x : Nat × α} {l l' : Map α} (hx : ∀ k, Map.get (x :: l) k = Map.get l' k) (y : Nat × α) (r : Map α) (e : l' = y :: r)
      (hy : l'.Pairwise fun a b => a.fst < b.fst) : y.fst ≤ x.fst := by
    have mem := mem_of_get ((hx x.fst).symm.trans (first x l))
    rw [e] at mem hy
    rcases List.mem_cons.1 mem with e | there
    · exact Nat.le_of_eq (congrArg Prod.fst e).symm
    · exact Nat.le_of_lt ((List.pairwise_cons.1 hy).1 _ there)
  induction m generalizing n with
  | nil =>
    cases n with
    | nil => rfl
    | cons y r => exact absurd (h y.fst) (by simp [first])
  | cons x l ih =>
    cases n with
    | nil => exact absurd (h x.fst) (by simp [first])
    | cons y r =>
      have key : x.fst = y.fst :=
        Nat.le_antisymm (least (fun k => (h k).symm) x l rfl hm) (least h y r rfl hn)
      have val : x.snd = y.snd := by
        have := h x.fst
        rw [first, key, first] at this
        exact Option.some.inj this
      have e : x = y := Prod.ext key val
      subst e
      rw [ih (List.pairwise_cons.1 hm).2 (List.pairwise_cons.1 hn).2]
      intro k
      by_cases e : x.fst = k
      · rw [get_eq_none (fun z hz => ?_), get_eq_none (fun z hz => ?_)]
        · exact e ▸ Nat.ne_of_gt ((List.pairwise_cons.1 hn).1 z hz)
        · exact e ▸ Nat.ne_of_gt ((List.pairwise_cons.1 hm).1 z hz)
      · have := h k
        rwa [Map.get, if_neg e, Map.get, if_neg e] at this

end Sys2Proof.Machine.Map
end

