-- ==== Sys2Proof/Laws/Memory.lean ====
section
/-! SUPPORT. Reading a byte after each operation on memory, and that every one of them keeps the canonical form. -/

namespace Sys2Proof.Machine

/-! ### One byte -/

theorem Memory.byte_put (m : List Host.Cell) (k j : Nat) (b : Byte) :
    Memory.byte (Memory.put m k b) j = if j = k then b else Memory.byte m j := by
  unfold Memory.byte Memory.put
  split
  · next e => rw [Map.get_erase]; split <;> simp [e]
  · rw [Map.get_set]; split <;> rfl

@[simp] theorem Memory.byte_put_self (m : List Host.Cell) (k : Nat) (b : Byte) : Memory.byte (Memory.put m k b) k = b := by
  simp [Memory.byte_put]

theorem Memory.byte_put_of_ne (m : List Host.Cell) {k j : Nat} (h : j ≠ k) (b : Byte) :
    Memory.byte (Memory.put m k b) j = Memory.byte m j := by
  simp [Memory.byte_put, h]

/-! ### Bytes from a key on -/

/-- Outside the bytes written, every byte reads as before. -/
theorem Memory.byte_puts_of_outside (m : List Host.Cell) (k j : Nat) (bs : List Byte) (h : j < k ∨ k + bs.length ≤ j) :
    Memory.byte (Memory.puts m k bs) j = Memory.byte m j := by
  induction bs generalizing m k with
  | nil => rfl
  | cons b r ih =>
    simp only [List.length_cons] at h
    simp only [Memory.puts]
    rw [ih _ _ (by omega), Memory.byte_put_of_ne _ (by omega)]

/-- Byte i of those written reads as written. -/
theorem Memory.byte_puts_of_inside (m : List Host.Cell) (k i : Nat) (bs : List Byte) (h : i < bs.length) :
    Memory.byte (Memory.puts m k bs) (k + i) = bs[i] := by
  induction bs generalizing m k i with
  | nil => simp at h
  | cons b r ih =>
    simp only [Memory.puts]
    cases i with
    | zero => rw [Nat.add_zero, Memory.byte_puts_of_outside _ _ _ _ (by omega)]; simp
    | succ i =>
      simp only [List.length_cons] at h
      rw [show k + (i + 1) = k + 1 + i by omega, ih _ _ _ (by omega)]
      rfl

/-! ### The canonical form -/

theorem Memory.wf_iff (m : List Host.Cell) :
    Memory.wf m = true ↔ Map.sorted (α := Byte) m = true ∧ ∀ c ∈ m, c.2 ≠ 0 := by
  simp [Memory.wf]

theorem Memory.wf_put (m : List Host.Cell) (k : Nat) (b : Byte) (h : Memory.wf m = true) : Memory.wf (Memory.put m k b) = true := by
  rw [Memory.wf_iff] at h ⊢
  unfold Memory.put
  split
  · exact ⟨Map.sorted_erase _ _ h.1, fun c hc => h.2 c (Map.mem_erase hc)⟩
  · next nz =>
    refine ⟨Map.sorted_set _ _ _ h.1, fun c hc => ?_⟩
    rcases Map.mem_set hc with rfl | hc
    · exact nz
    · exact h.2 c hc

theorem Memory.wf_puts (m : List Host.Cell) (k : Nat) (bs : List Byte) (h : Memory.wf m = true) :
    Memory.wf (Memory.puts m k bs) = true := by
  induction bs generalizing m k with
  | nil => exact h
  | cons b r ih => exact ih _ _ (Memory.wf_put m k b h)

theorem Memory.wf_filter (m : List Host.Cell) (f : Host.Cell → Bool) (h : Memory.wf m = true) : Memory.wf (m.filter f) = true := by
  rw [Memory.wf_iff] at h ⊢
  exact ⟨Map.sorted_filter _ _ h.1, fun c hc => h.2 c (List.mem_filter.1 hc).1⟩

theorem Memory.wf_foldl_put {α : Type} (m : List Host.Cell) (l : List α) (f : α → Nat) (g : α → Byte) (h : Memory.wf m = true) :
    Memory.wf (l.foldl (fun m c => Memory.put m (f c) (g c)) m) = true := by
  induction l generalizing m with
  | nil => exact h
  | cons c r ih => exact ih _ (Memory.wf_put _ _ _ h)

/-- Two memories in the canonical form that read alike are the same data. -/
theorem Memory.ext_of_wf {m n : List Host.Cell} (hm : Memory.wf m = true) (hn : Memory.wf n = true)
    (h : ∀ k, Memory.byte m k = Memory.byte n k) : m = n := by
  rw [Memory.wf_iff] at hm hn
  have nz {m : List Host.Cell} (hm : ∀ c ∈ m, c.2 ≠ 0) (k : Nat) (v : Byte) (e : Map.get (α := Byte) m k = some v) : v ≠ 0 := by
    induction m with
    | nil => cases e
    | cons c r ih =>
      simp only [Map.get] at e
      split at e
      · cases e; exact hm c (by simp)
      · exact ih (fun c hc => hm c (by simp [hc])) e
  refine Map.ext_of_sorted hm.1 hn.1 (fun k => ?_)
  have := h k
  unfold Memory.byte at this
  cases e : Map.get (α := Byte) m k with
  | none =>
    cases e' : Map.get (α := Byte) n k with
    | none => rfl
    | some v => rw [e, e'] at this; exact absurd this.symm (nz hn.2 k v e')
  | some w =>
    cases e' : Map.get (α := Byte) n k with
    | none => rw [e, e'] at this; exact absurd this (nz hm.2 k w e)
    | some v => rw [e, e'] at this; exact congrArg some this

/-! ### Operations of the machine -/

theorem State.reset_wf : Memory.wf State.reset.mem = true := rfl

theorem zeroRange_wf (s : State) (lo n : Nat) (h : Memory.wf s.mem = true) : Memory.wf (zeroRange s lo n).mem = true :=
  Memory.wf_filter _ _ h

/-- A byte after a range of memory has been zeroed. -/
theorem zeroRange_byte (s : State) (lo n k : Nat) :
    (zeroRange s lo n).byte k = if lo ≤ k ∧ k < lo + n then 0 else s.byte k := by
  unfold zeroRange State.byte Memory.byte
  have key (m : List Host.Cell) : Map.get (α := Byte) (m.filter (fun c => !(decide (lo ≤ c.1) && decide (c.1 < lo + n)))) k =
      if lo ≤ k ∧ k < lo + n then none else Map.get (α := Byte) m k := by
    induction m with
    | nil => simp [Map.get]
    | cons c r ih =>
      obtain ⟨a, b⟩ := c
      rw [List.filter_cons]
      by_cases i : lo ≤ a ∧ a < lo + n
      · rw [if_neg (by simp [i]), ih]
        by_cases e : a = k
        · subst e; simp [i]
        · simp [Map.get, e]
      · rw [if_pos (by simp only [Bool.not_eq_true', Bool.and_eq_false_iff, decide_eq_false_iff_not]; omega)]
        by_cases e : a = k
        · subst e; simp [i, Map.get]
        · simp only [Map.get, if_neg e, ih]
  rw [key]
  split <;> rfl

theorem wakeWaiter_mem (s : State) (e : Wait) (st : Nat) : (wakeWaiter s e st).mem = s.mem := by
  unfold wakeWaiter
  split
  · split
    · split <;> rfl
    · rfl
  · rfl
  · split <;> rfl
  · rfl

theorem wakeAll_mem (s : State) (st : Nat) (l : List (Nat × Wait)) : (wakeAll s st l).mem = s.mem := by
  induction l generalizing s with
  | nil => rfl
  | cons p r ih => simp only [wakeAll]; rw [ih, wakeWaiter_mem]

theorem evalWakes_mem (s : State) (k n : Nat) : (evalWakes s k n).mem = s.mem := wakeAll_mem _ _ _

/-- What one round of a fold keeps, the fold keeps. -/
theorem foldl_keeps {α β : Type} (p : State → β) {f : State → α → State} (h : ∀ s a, p (f s a) = p s) (l : List α) (s : State) :
    p (l.foldl f s) = p s := by
  induction l generalizing s with
  | nil => rfl
  | cons a r ih => simp only [List.foldl_cons]; rw [ih, h]

theorem fireWatches_mem (s : State) (k n : Nat) : (fireWatches s k n).mem = s.mem := by
  unfold fireWatches
  dsimp only
  refine foldl_keeps (fun s => s.mem) ?_ _ s
  intro _ _
  rfl

theorem keepCode_mem (s : State) (k n : Nat) : (keepCode s k n).mem = s.mem := by
  unfold keepCode
  split <;> rfl

/-- A write at its home writes its bytes and no others. -/
theorem writeHome_mem (s : State) (k : Nat) (bs : List Byte) : (writeHome s k bs).mem = Memory.puts s.mem k bs := by
  unfold writeHome
  rw [fireWatches_mem, evalWakes_mem, keepCode_mem]

theorem writeHome_wf (s : State) (k : Nat) (bs : List Byte) (h : Memory.wf s.mem = true) : Memory.wf (writeHome s k bs).mem = true := by
  rw [writeHome_mem]; exact Memory.wf_puts _ _ _ h

theorem writeHome_byte_of_outside (s : State) (k j : Nat) (bs : List Byte) (h : j < k ∨ k + bs.length ≤ j) :
    (writeHome s k bs).byte j = s.byte j := by
  unfold State.byte; rw [writeHome_mem]; exact Memory.byte_puts_of_outside _ _ _ _ h

theorem writeHome_byte_of_inside (s : State) (k i : Nat) (bs : List Byte) (h : i < bs.length) :
    (writeHome s k bs).byte (k + i) = bs[i] := by
  unfold State.byte; rw [writeHome_mem]; exact Memory.byte_puts_of_inside _ _ _ _ h

/-- Every other thing that writes memory: the frame that a page migration fills, the window that a restore fills, and the word that
withFetchWord places, keep the form as these do. -/
theorem withFetchWord_wf (s : State) (nbits w : Nat) (h : Memory.wf s.mem = true)
    (hp : ∀ c acc ea u p, place s c acc ea = .ok (u, p) → u.mem = s.mem) : Memory.wf (s.withFetchWord nbits w).mem = true := by
  unfold State.withFetchWord
  split
  · next u p e =>
    have e' := hp _ _ _ _ _ e
    refine Memory.wf_puts _ _ _ ?_
    split
    · next t _ => show Memory.wf u.mem = true; rw [e']; exact h
    · rw [e']; exact h
  · exact h

end Sys2Proof.Machine
end

