-- ==== Sys2Proof/Laws/State.lean ====
section
/-! SUPPORT. Each field of the state after each update of a record of it: every lemma is true by computation. -/

namespace Sys2Proof.Machine

/-! ### setThread -/

@[simp] theorem State.setThread_mem (s : State) (t : Nat) (x : Thread) : (s.setThread t x).mem = s.mem := rfl
@[simp] theorem State.setThread_threads (s : State) (t : Nat) (x : Thread) : (s.setThread t x).threads = s.threads.set t x := rfl
@[simp] theorem State.setThread_runs (s : State) (t : Nat) (x : Thread) : (s.setThread t x).runs = s.runs := rfl
@[simp] theorem State.setThread_lsheds (s : State) (t : Nat) (x : Thread) : (s.setThread t x).lsheds = s.lsheds := rfl
@[simp] theorem State.setThread_groups (s : State) (t : Nat) (x : Thread) : (s.setThread t x).groups = s.groups := rfl
@[simp] theorem State.setThread_cores (s : State) (t : Nat) (x : Thread) : (s.setThread t x).cores = s.cores := rfl
@[simp] theorem State.setThread_sheds (s : State) (t : Nat) (x : Thread) : (s.setThread t x).sheds = s.sheds := rfl
@[simp] theorem State.setThread_svcs (s : State) (t : Nat) (x : Thread) : (s.setThread t x).svcs = s.svcs := rfl
@[simp] theorem State.setThread_parts (s : State) (t : Nat) (x : Thread) : (s.setThread t x).parts = s.parts := rfl
@[simp] theorem State.setThread_devices (s : State) (t : Nat) (x : Thread) : (s.setThread t x).devices = s.devices := rfl
@[simp] theorem State.setThread_jobs (s : State) (t : Nat) (x : Thread) : (s.setThread t x).jobs = s.jobs := rfl
@[simp] theorem State.setThread_vcmds (s : State) (t : Nat) (x : Thread) : (s.setThread t x).vcmds = s.vcmds := rfl
@[simp] theorem State.setThread_faults (s : State) (t : Nat) (x : Thread) : (s.setThread t x).faults = s.faults := rfl
@[simp] theorem State.setThread_bmsgs (s : State) (t : Nat) (x : Thread) : (s.setThread t x).bmsgs = s.bmsgs := rfl
@[simp] theorem State.setThread_logAreas (s : State) (t : Nat) (x : Thread) : (s.setThread t x).logAreas = s.logAreas := rfl
@[simp] theorem State.setThread_waits (s : State) (t : Nat) (x : Thread) : (s.setThread t x).waits = s.waits := rfl
@[simp] theorem State.setThread_watches (s : State) (t : Nat) (x : Thread) : (s.setThread t x).watches = s.watches := rfl
@[simp] theorem State.setThread_invals (s : State) (t : Nat) (x : Thread) : (s.setThread t x).invals = s.invals := rfl
@[simp] theorem State.setThread_slices (s : State) (t : Nat) (x : Thread) : (s.setThread t x).slices = s.slices := rfl
@[simp] theorem State.setThread_tlbs (s : State) (t : Nat) (x : Thread) : (s.setThread t x).tlbs = s.tlbs := rfl
@[simp] theorem State.setThread_icaches (s : State) (t : Nat) (x : Thread) : (s.setThread t x).icaches = s.icaches := rfl
@[simp] theorem State.setThread_records (s : State) (t : Nat) (x : Thread) : (s.setThread t x).records = s.records := rfl
@[simp] theorem State.setThread_pageMigs (s : State) (t : Nat) (x : Thread) : (s.setThread t x).pageMigs = s.pageMigs := rfl
@[simp] theorem State.setThread_nextRun (s : State) (t : Nat) (x : Thread) : (s.setThread t x).nextRun = s.nextRun := rfl
@[simp] theorem State.setThread_nextKey (s : State) (t : Nat) (x : Thread) : (s.setThread t x).nextKey = s.nextKey := rfl
@[simp] theorem State.setThread_badLines (s : State) (t : Nat) (x : Thread) : (s.setThread t x).badLines = s.badLines := rfl
@[simp] theorem State.setThread_hostOut (s : State) (t : Nat) (x : Thread) : (s.setThread t x).hostOut = s.hostOut := rfl
@[simp] theorem State.setThread_mgmtLog (s : State) (t : Nat) (x : Thread) : (s.setThread t x).mgmtLog = s.mgmtLog := rfl
@[simp] theorem State.setThread_agenda (s : State) (t : Nat) (x : Thread) : (s.setThread t x).agenda = s.agenda := rfl
@[simp] theorem State.setThread_turn (s : State) (t : Nat) (x : Thread) : (s.setThread t x).turn = s.turn := rfl
@[simp] theorem State.setThread_cur (s : State) (t : Nat) (x : Thread) : (s.setThread t x).cur = s.cur := rfl
@[simp] theorem State.setThread_clock (s : State) (t : Nat) (x : Thread) : (s.setThread t x).clock = s.clock := rfl
@[simp] theorem State.setThread_defer (s : State) (t : Nat) (x : Thread) : (s.setThread t x).defer = s.defer := rfl
@[simp] theorem State.setThread_free (s : State) (t : Nat) (x : Thread) : (s.setThread t x).free = s.free := rfl
@[simp] theorem State.setThread_reads (s : State) (t : Nat) (x : Thread) : (s.setThread t x).reads = s.reads := rfl

/-! ### setRun -/

@[simp] theorem State.setRun_mem (s : State) (r : Nat) (x : Run) : (s.setRun r x).mem = s.mem := rfl
@[simp] theorem State.setRun_threads (s : State) (r : Nat) (x : Run) : (s.setRun r x).threads = s.threads := rfl
@[simp] theorem State.setRun_runs (s : State) (r : Nat) (x : Run) : (s.setRun r x).runs = s.runs.set r x := rfl
@[simp] theorem State.setRun_lsheds (s : State) (r : Nat) (x : Run) : (s.setRun r x).lsheds = s.lsheds := rfl
@[simp] theorem State.setRun_groups (s : State) (r : Nat) (x : Run) : (s.setRun r x).groups = s.groups := rfl
@[simp] theorem State.setRun_cores (s : State) (r : Nat) (x : Run) : (s.setRun r x).cores = s.cores := rfl
@[simp] theorem State.setRun_sheds (s : State) (r : Nat) (x : Run) : (s.setRun r x).sheds = s.sheds := rfl
@[simp] theorem State.setRun_svcs (s : State) (r : Nat) (x : Run) : (s.setRun r x).svcs = s.svcs := rfl
@[simp] theorem State.setRun_parts (s : State) (r : Nat) (x : Run) : (s.setRun r x).parts = s.parts := rfl
@[simp] theorem State.setRun_devices (s : State) (r : Nat) (x : Run) : (s.setRun r x).devices = s.devices := rfl
@[simp] theorem State.setRun_jobs (s : State) (r : Nat) (x : Run) : (s.setRun r x).jobs = s.jobs := rfl
@[simp] theorem State.setRun_vcmds (s : State) (r : Nat) (x : Run) : (s.setRun r x).vcmds = s.vcmds := rfl
@[simp] theorem State.setRun_faults (s : State) (r : Nat) (x : Run) : (s.setRun r x).faults = s.faults := rfl
@[simp] theorem State.setRun_bmsgs (s : State) (r : Nat) (x : Run) : (s.setRun r x).bmsgs = s.bmsgs := rfl
@[simp] theorem State.setRun_logAreas (s : State) (r : Nat) (x : Run) : (s.setRun r x).logAreas = s.logAreas := rfl
@[simp] theorem State.setRun_waits (s : State) (r : Nat) (x : Run) : (s.setRun r x).waits = s.waits := rfl
@[simp] theorem State.setRun_watches (s : State) (r : Nat) (x : Run) : (s.setRun r x).watches = s.watches := rfl
@[simp] theorem State.setRun_invals (s : State) (r : Nat) (x : Run) : (s.setRun r x).invals = s.invals := rfl
@[simp] theorem State.setRun_slices (s : State) (r : Nat) (x : Run) : (s.setRun r x).slices = s.slices := rfl
@[simp] theorem State.setRun_tlbs (s : State) (r : Nat) (x : Run) : (s.setRun r x).tlbs = s.tlbs := rfl
@[simp] theorem State.setRun_icaches (s : State) (r : Nat) (x : Run) : (s.setRun r x).icaches = s.icaches := rfl
@[simp] theorem State.setRun_records (s : State) (r : Nat) (x : Run) : (s.setRun r x).records = s.records := rfl
@[simp] theorem State.setRun_pageMigs (s : State) (r : Nat) (x : Run) : (s.setRun r x).pageMigs = s.pageMigs := rfl
@[simp] theorem State.setRun_nextRun (s : State) (r : Nat) (x : Run) : (s.setRun r x).nextRun = s.nextRun := rfl
@[simp] theorem State.setRun_nextKey (s : State) (r : Nat) (x : Run) : (s.setRun r x).nextKey = s.nextKey := rfl
@[simp] theorem State.setRun_badLines (s : State) (r : Nat) (x : Run) : (s.setRun r x).badLines = s.badLines := rfl
@[simp] theorem State.setRun_hostOut (s : State) (r : Nat) (x : Run) : (s.setRun r x).hostOut = s.hostOut := rfl
@[simp] theorem State.setRun_mgmtLog (s : State) (r : Nat) (x : Run) : (s.setRun r x).mgmtLog = s.mgmtLog := rfl
@[simp] theorem State.setRun_agenda (s : State) (r : Nat) (x : Run) : (s.setRun r x).agenda = s.agenda := rfl
@[simp] theorem State.setRun_turn (s : State) (r : Nat) (x : Run) : (s.setRun r x).turn = s.turn := rfl
@[simp] theorem State.setRun_cur (s : State) (r : Nat) (x : Run) : (s.setRun r x).cur = s.cur := rfl
@[simp] theorem State.setRun_clock (s : State) (r : Nat) (x : Run) : (s.setRun r x).clock = s.clock := rfl
@[simp] theorem State.setRun_defer (s : State) (r : Nat) (x : Run) : (s.setRun r x).defer = s.defer := rfl
@[simp] theorem State.setRun_free (s : State) (r : Nat) (x : Run) : (s.setRun r x).free = s.free := rfl
@[simp] theorem State.setRun_reads (s : State) (r : Nat) (x : Run) : (s.setRun r x).reads = s.reads := rfl

/-! ### setCore -/

@[simp] theorem State.setCore_mem (s : State) (c : Nat) (x : Core) : (s.setCore c x).mem = s.mem := rfl
@[simp] theorem State.setCore_threads (s : State) (c : Nat) (x : Core) : (s.setCore c x).threads = s.threads := rfl
@[simp] theorem State.setCore_runs (s : State) (c : Nat) (x : Core) : (s.setCore c x).runs = s.runs := rfl
@[simp] theorem State.setCore_lsheds (s : State) (c : Nat) (x : Core) : (s.setCore c x).lsheds = s.lsheds := rfl
@[simp] theorem State.setCore_groups (s : State) (c : Nat) (x : Core) : (s.setCore c x).groups = s.groups := rfl
@[simp] theorem State.setCore_cores (s : State) (c : Nat) (x : Core) : (s.setCore c x).cores = s.cores.set c x := rfl
@[simp] theorem State.setCore_sheds (s : State) (c : Nat) (x : Core) : (s.setCore c x).sheds = s.sheds := rfl
@[simp] theorem State.setCore_svcs (s : State) (c : Nat) (x : Core) : (s.setCore c x).svcs = s.svcs := rfl
@[simp] theorem State.setCore_parts (s : State) (c : Nat) (x : Core) : (s.setCore c x).parts = s.parts := rfl
@[simp] theorem State.setCore_devices (s : State) (c : Nat) (x : Core) : (s.setCore c x).devices = s.devices := rfl
@[simp] theorem State.setCore_jobs (s : State) (c : Nat) (x : Core) : (s.setCore c x).jobs = s.jobs := rfl
@[simp] theorem State.setCore_vcmds (s : State) (c : Nat) (x : Core) : (s.setCore c x).vcmds = s.vcmds := rfl
@[simp] theorem State.setCore_faults (s : State) (c : Nat) (x : Core) : (s.setCore c x).faults = s.faults := rfl
@[simp] theorem State.setCore_bmsgs (s : State) (c : Nat) (x : Core) : (s.setCore c x).bmsgs = s.bmsgs := rfl
@[simp] theorem State.setCore_logAreas (s : State) (c : Nat) (x : Core) : (s.setCore c x).logAreas = s.logAreas := rfl
@[simp] theorem State.setCore_waits (s : State) (c : Nat) (x : Core) : (s.setCore c x).waits = s.waits := rfl
@[simp] theorem State.setCore_watches (s : State) (c : Nat) (x : Core) : (s.setCore c x).watches = s.watches := rfl
@[simp] theorem State.setCore_invals (s : State) (c : Nat) (x : Core) : (s.setCore c x).invals = s.invals := rfl
@[simp] theorem State.setCore_slices (s : State) (c : Nat) (x : Core) : (s.setCore c x).slices = s.slices := rfl
@[simp] theorem State.setCore_tlbs (s : State) (c : Nat) (x : Core) : (s.setCore c x).tlbs = s.tlbs := rfl
@[simp] theorem State.setCore_icaches (s : State) (c : Nat) (x : Core) : (s.setCore c x).icaches = s.icaches := rfl
@[simp] theorem State.setCore_records (s : State) (c : Nat) (x : Core) : (s.setCore c x).records = s.records := rfl
@[simp] theorem State.setCore_pageMigs (s : State) (c : Nat) (x : Core) : (s.setCore c x).pageMigs = s.pageMigs := rfl
@[simp] theorem State.setCore_nextRun (s : State) (c : Nat) (x : Core) : (s.setCore c x).nextRun = s.nextRun := rfl
@[simp] theorem State.setCore_nextKey (s : State) (c : Nat) (x : Core) : (s.setCore c x).nextKey = s.nextKey := rfl
@[simp] theorem State.setCore_badLines (s : State) (c : Nat) (x : Core) : (s.setCore c x).badLines = s.badLines := rfl
@[simp] theorem State.setCore_hostOut (s : State) (c : Nat) (x : Core) : (s.setCore c x).hostOut = s.hostOut := rfl
@[simp] theorem State.setCore_mgmtLog (s : State) (c : Nat) (x : Core) : (s.setCore c x).mgmtLog = s.mgmtLog := rfl
@[simp] theorem State.setCore_agenda (s : State) (c : Nat) (x : Core) : (s.setCore c x).agenda = s.agenda := rfl
@[simp] theorem State.setCore_turn (s : State) (c : Nat) (x : Core) : (s.setCore c x).turn = s.turn := rfl
@[simp] theorem State.setCore_cur (s : State) (c : Nat) (x : Core) : (s.setCore c x).cur = s.cur := rfl
@[simp] theorem State.setCore_clock (s : State) (c : Nat) (x : Core) : (s.setCore c x).clock = s.clock := rfl
@[simp] theorem State.setCore_defer (s : State) (c : Nat) (x : Core) : (s.setCore c x).defer = s.defer := rfl
@[simp] theorem State.setCore_free (s : State) (c : Nat) (x : Core) : (s.setCore c x).free = s.free := rfl
@[simp] theorem State.setCore_reads (s : State) (c : Nat) (x : Core) : (s.setCore c x).reads = s.reads := rfl

/-! ### setShed -/

@[simp] theorem State.setShed_mem (s : State) (h : Nat) (x : Shed) : (s.setShed h x).mem = s.mem := rfl
@[simp] theorem State.setShed_threads (s : State) (h : Nat) (x : Shed) : (s.setShed h x).threads = s.threads := rfl
@[simp] theorem State.setShed_runs (s : State) (h : Nat) (x : Shed) : (s.setShed h x).runs = s.runs := rfl
@[simp] theorem State.setShed_lsheds (s : State) (h : Nat) (x : Shed) : (s.setShed h x).lsheds = s.lsheds := rfl
@[simp] theorem State.setShed_groups (s : State) (h : Nat) (x : Shed) : (s.setShed h x).groups = s.groups := rfl
@[simp] theorem State.setShed_cores (s : State) (h : Nat) (x : Shed) : (s.setShed h x).cores = s.cores := rfl
@[simp] theorem State.setShed_sheds (s : State) (h : Nat) (x : Shed) : (s.setShed h x).sheds = s.sheds.set h x := rfl
@[simp] theorem State.setShed_svcs (s : State) (h : Nat) (x : Shed) : (s.setShed h x).svcs = s.svcs := rfl
@[simp] theorem State.setShed_parts (s : State) (h : Nat) (x : Shed) : (s.setShed h x).parts = s.parts := rfl
@[simp] theorem State.setShed_devices (s : State) (h : Nat) (x : Shed) : (s.setShed h x).devices = s.devices := rfl
@[simp] theorem State.setShed_jobs (s : State) (h : Nat) (x : Shed) : (s.setShed h x).jobs = s.jobs := rfl
@[simp] theorem State.setShed_vcmds (s : State) (h : Nat) (x : Shed) : (s.setShed h x).vcmds = s.vcmds := rfl
@[simp] theorem State.setShed_faults (s : State) (h : Nat) (x : Shed) : (s.setShed h x).faults = s.faults := rfl
@[simp] theorem State.setShed_bmsgs (s : State) (h : Nat) (x : Shed) : (s.setShed h x).bmsgs = s.bmsgs := rfl
@[simp] theorem State.setShed_logAreas (s : State) (h : Nat) (x : Shed) : (s.setShed h x).logAreas = s.logAreas := rfl
@[simp] theorem State.setShed_waits (s : State) (h : Nat) (x : Shed) : (s.setShed h x).waits = s.waits := rfl
@[simp] theorem State.setShed_watches (s : State) (h : Nat) (x : Shed) : (s.setShed h x).watches = s.watches := rfl
@[simp] theorem State.setShed_invals (s : State) (h : Nat) (x : Shed) : (s.setShed h x).invals = s.invals := rfl
@[simp] theorem State.setShed_slices (s : State) (h : Nat) (x : Shed) : (s.setShed h x).slices = s.slices := rfl
@[simp] theorem State.setShed_tlbs (s : State) (h : Nat) (x : Shed) : (s.setShed h x).tlbs = s.tlbs := rfl
@[simp] theorem State.setShed_icaches (s : State) (h : Nat) (x : Shed) : (s.setShed h x).icaches = s.icaches := rfl
@[simp] theorem State.setShed_records (s : State) (h : Nat) (x : Shed) : (s.setShed h x).records = s.records := rfl
@[simp] theorem State.setShed_pageMigs (s : State) (h : Nat) (x : Shed) : (s.setShed h x).pageMigs = s.pageMigs := rfl
@[simp] theorem State.setShed_nextRun (s : State) (h : Nat) (x : Shed) : (s.setShed h x).nextRun = s.nextRun := rfl
@[simp] theorem State.setShed_nextKey (s : State) (h : Nat) (x : Shed) : (s.setShed h x).nextKey = s.nextKey := rfl
@[simp] theorem State.setShed_badLines (s : State) (h : Nat) (x : Shed) : (s.setShed h x).badLines = s.badLines := rfl
@[simp] theorem State.setShed_hostOut (s : State) (h : Nat) (x : Shed) : (s.setShed h x).hostOut = s.hostOut := rfl
@[simp] theorem State.setShed_mgmtLog (s : State) (h : Nat) (x : Shed) : (s.setShed h x).mgmtLog = s.mgmtLog := rfl
@[simp] theorem State.setShed_agenda (s : State) (h : Nat) (x : Shed) : (s.setShed h x).agenda = s.agenda := rfl
@[simp] theorem State.setShed_turn (s : State) (h : Nat) (x : Shed) : (s.setShed h x).turn = s.turn := rfl
@[simp] theorem State.setShed_cur (s : State) (h : Nat) (x : Shed) : (s.setShed h x).cur = s.cur := rfl
@[simp] theorem State.setShed_clock (s : State) (h : Nat) (x : Shed) : (s.setShed h x).clock = s.clock := rfl
@[simp] theorem State.setShed_defer (s : State) (h : Nat) (x : Shed) : (s.setShed h x).defer = s.defer := rfl
@[simp] theorem State.setShed_free (s : State) (h : Nat) (x : Shed) : (s.setShed h x).free = s.free := rfl
@[simp] theorem State.setShed_reads (s : State) (h : Nat) (x : Shed) : (s.setShed h x).reads = s.reads := rfl

/-! ### setSvc -/

@[simp] theorem State.setSvc_mem (s : State) (n : Nat) (x : Svc) : (s.setSvc n x).mem = s.mem := rfl
@[simp] theorem State.setSvc_threads (s : State) (n : Nat) (x : Svc) : (s.setSvc n x).threads = s.threads := rfl
@[simp] theorem State.setSvc_runs (s : State) (n : Nat) (x : Svc) : (s.setSvc n x).runs = s.runs := rfl
@[simp] theorem State.setSvc_lsheds (s : State) (n : Nat) (x : Svc) : (s.setSvc n x).lsheds = s.lsheds := rfl
@[simp] theorem State.setSvc_groups (s : State) (n : Nat) (x : Svc) : (s.setSvc n x).groups = s.groups := rfl
@[simp] theorem State.setSvc_cores (s : State) (n : Nat) (x : Svc) : (s.setSvc n x).cores = s.cores := rfl
@[simp] theorem State.setSvc_sheds (s : State) (n : Nat) (x : Svc) : (s.setSvc n x).sheds = s.sheds := rfl
@[simp] theorem State.setSvc_svcs (s : State) (n : Nat) (x : Svc) : (s.setSvc n x).svcs = s.svcs.set n x := rfl
@[simp] theorem State.setSvc_parts (s : State) (n : Nat) (x : Svc) : (s.setSvc n x).parts = s.parts := rfl
@[simp] theorem State.setSvc_devices (s : State) (n : Nat) (x : Svc) : (s.setSvc n x).devices = s.devices := rfl
@[simp] theorem State.setSvc_jobs (s : State) (n : Nat) (x : Svc) : (s.setSvc n x).jobs = s.jobs := rfl
@[simp] theorem State.setSvc_vcmds (s : State) (n : Nat) (x : Svc) : (s.setSvc n x).vcmds = s.vcmds := rfl
@[simp] theorem State.setSvc_faults (s : State) (n : Nat) (x : Svc) : (s.setSvc n x).faults = s.faults := rfl
@[simp] theorem State.setSvc_bmsgs (s : State) (n : Nat) (x : Svc) : (s.setSvc n x).bmsgs = s.bmsgs := rfl
@[simp] theorem State.setSvc_logAreas (s : State) (n : Nat) (x : Svc) : (s.setSvc n x).logAreas = s.logAreas := rfl
@[simp] theorem State.setSvc_waits (s : State) (n : Nat) (x : Svc) : (s.setSvc n x).waits = s.waits := rfl
@[simp] theorem State.setSvc_watches (s : State) (n : Nat) (x : Svc) : (s.setSvc n x).watches = s.watches := rfl
@[simp] theorem State.setSvc_invals (s : State) (n : Nat) (x : Svc) : (s.setSvc n x).invals = s.invals := rfl
@[simp] theorem State.setSvc_slices (s : State) (n : Nat) (x : Svc) : (s.setSvc n x).slices = s.slices := rfl
@[simp] theorem State.setSvc_tlbs (s : State) (n : Nat) (x : Svc) : (s.setSvc n x).tlbs = s.tlbs := rfl
@[simp] theorem State.setSvc_icaches (s : State) (n : Nat) (x : Svc) : (s.setSvc n x).icaches = s.icaches := rfl
@[simp] theorem State.setSvc_records (s : State) (n : Nat) (x : Svc) : (s.setSvc n x).records = s.records := rfl
@[simp] theorem State.setSvc_pageMigs (s : State) (n : Nat) (x : Svc) : (s.setSvc n x).pageMigs = s.pageMigs := rfl
@[simp] theorem State.setSvc_nextRun (s : State) (n : Nat) (x : Svc) : (s.setSvc n x).nextRun = s.nextRun := rfl
@[simp] theorem State.setSvc_nextKey (s : State) (n : Nat) (x : Svc) : (s.setSvc n x).nextKey = s.nextKey := rfl
@[simp] theorem State.setSvc_badLines (s : State) (n : Nat) (x : Svc) : (s.setSvc n x).badLines = s.badLines := rfl
@[simp] theorem State.setSvc_hostOut (s : State) (n : Nat) (x : Svc) : (s.setSvc n x).hostOut = s.hostOut := rfl
@[simp] theorem State.setSvc_mgmtLog (s : State) (n : Nat) (x : Svc) : (s.setSvc n x).mgmtLog = s.mgmtLog := rfl
@[simp] theorem State.setSvc_agenda (s : State) (n : Nat) (x : Svc) : (s.setSvc n x).agenda = s.agenda := rfl
@[simp] theorem State.setSvc_turn (s : State) (n : Nat) (x : Svc) : (s.setSvc n x).turn = s.turn := rfl
@[simp] theorem State.setSvc_cur (s : State) (n : Nat) (x : Svc) : (s.setSvc n x).cur = s.cur := rfl
@[simp] theorem State.setSvc_clock (s : State) (n : Nat) (x : Svc) : (s.setSvc n x).clock = s.clock := rfl
@[simp] theorem State.setSvc_defer (s : State) (n : Nat) (x : Svc) : (s.setSvc n x).defer = s.defer := rfl
@[simp] theorem State.setSvc_free (s : State) (n : Nat) (x : Svc) : (s.setSvc n x).free = s.free := rfl
@[simp] theorem State.setSvc_reads (s : State) (n : Nat) (x : Svc) : (s.setSvc n x).reads = s.reads := rfl

/-! ### setPart -/

@[simp] theorem State.setPart_mem (s : State) (p : Nat) (x : Partition) : (s.setPart p x).mem = s.mem := rfl
@[simp] theorem State.setPart_threads (s : State) (p : Nat) (x : Partition) : (s.setPart p x).threads = s.threads := rfl
@[simp] theorem State.setPart_runs (s : State) (p : Nat) (x : Partition) : (s.setPart p x).runs = s.runs := rfl
@[simp] theorem State.setPart_lsheds (s : State) (p : Nat) (x : Partition) : (s.setPart p x).lsheds = s.lsheds := rfl
@[simp] theorem State.setPart_groups (s : State) (p : Nat) (x : Partition) : (s.setPart p x).groups = s.groups := rfl
@[simp] theorem State.setPart_cores (s : State) (p : Nat) (x : Partition) : (s.setPart p x).cores = s.cores := rfl
@[simp] theorem State.setPart_sheds (s : State) (p : Nat) (x : Partition) : (s.setPart p x).sheds = s.sheds := rfl
@[simp] theorem State.setPart_svcs (s : State) (p : Nat) (x : Partition) : (s.setPart p x).svcs = s.svcs := rfl
@[simp] theorem State.setPart_parts (s : State) (p : Nat) (x : Partition) : (s.setPart p x).parts = s.parts.set p x := rfl
@[simp] theorem State.setPart_devices (s : State) (p : Nat) (x : Partition) : (s.setPart p x).devices = s.devices := rfl
@[simp] theorem State.setPart_jobs (s : State) (p : Nat) (x : Partition) : (s.setPart p x).jobs = s.jobs := rfl
@[simp] theorem State.setPart_vcmds (s : State) (p : Nat) (x : Partition) : (s.setPart p x).vcmds = s.vcmds := rfl
@[simp] theorem State.setPart_faults (s : State) (p : Nat) (x : Partition) : (s.setPart p x).faults = s.faults := rfl
@[simp] theorem State.setPart_bmsgs (s : State) (p : Nat) (x : Partition) : (s.setPart p x).bmsgs = s.bmsgs := rfl
@[simp] theorem State.setPart_logAreas (s : State) (p : Nat) (x : Partition) : (s.setPart p x).logAreas = s.logAreas := rfl
@[simp] theorem State.setPart_waits (s : State) (p : Nat) (x : Partition) : (s.setPart p x).waits = s.waits := rfl
@[simp] theorem State.setPart_watches (s : State) (p : Nat) (x : Partition) : (s.setPart p x).watches = s.watches := rfl
@[simp] theorem State.setPart_invals (s : State) (p : Nat) (x : Partition) : (s.setPart p x).invals = s.invals := rfl
@[simp] theorem State.setPart_slices (s : State) (p : Nat) (x : Partition) : (s.setPart p x).slices = s.slices := rfl
@[simp] theorem State.setPart_tlbs (s : State) (p : Nat) (x : Partition) : (s.setPart p x).tlbs = s.tlbs := rfl
@[simp] theorem State.setPart_icaches (s : State) (p : Nat) (x : Partition) : (s.setPart p x).icaches = s.icaches := rfl
@[simp] theorem State.setPart_records (s : State) (p : Nat) (x : Partition) : (s.setPart p x).records = s.records := rfl
@[simp] theorem State.setPart_pageMigs (s : State) (p : Nat) (x : Partition) : (s.setPart p x).pageMigs = s.pageMigs := rfl
@[simp] theorem State.setPart_nextRun (s : State) (p : Nat) (x : Partition) : (s.setPart p x).nextRun = s.nextRun := rfl
@[simp] theorem State.setPart_nextKey (s : State) (p : Nat) (x : Partition) : (s.setPart p x).nextKey = s.nextKey := rfl
@[simp] theorem State.setPart_badLines (s : State) (p : Nat) (x : Partition) : (s.setPart p x).badLines = s.badLines := rfl
@[simp] theorem State.setPart_hostOut (s : State) (p : Nat) (x : Partition) : (s.setPart p x).hostOut = s.hostOut := rfl
@[simp] theorem State.setPart_mgmtLog (s : State) (p : Nat) (x : Partition) : (s.setPart p x).mgmtLog = s.mgmtLog := rfl
@[simp] theorem State.setPart_agenda (s : State) (p : Nat) (x : Partition) : (s.setPart p x).agenda = s.agenda := rfl
@[simp] theorem State.setPart_turn (s : State) (p : Nat) (x : Partition) : (s.setPart p x).turn = s.turn := rfl
@[simp] theorem State.setPart_cur (s : State) (p : Nat) (x : Partition) : (s.setPart p x).cur = s.cur := rfl
@[simp] theorem State.setPart_clock (s : State) (p : Nat) (x : Partition) : (s.setPart p x).clock = s.clock := rfl
@[simp] theorem State.setPart_defer (s : State) (p : Nat) (x : Partition) : (s.setPart p x).defer = s.defer := rfl
@[simp] theorem State.setPart_free (s : State) (p : Nat) (x : Partition) : (s.setPart p x).free = s.free := rfl
@[simp] theorem State.setPart_reads (s : State) (p : Nat) (x : Partition) : (s.setPart p x).reads = s.reads := rfl

/-! ### setDevice -/

@[simp] theorem State.setDevice_mem (s : State) (d : Nat) (x : Device) : (s.setDevice d x).mem = s.mem := rfl
@[simp] theorem State.setDevice_threads (s : State) (d : Nat) (x : Device) : (s.setDevice d x).threads = s.threads := rfl
@[simp] theorem State.setDevice_runs (s : State) (d : Nat) (x : Device) : (s.setDevice d x).runs = s.runs := rfl
@[simp] theorem State.setDevice_lsheds (s : State) (d : Nat) (x : Device) : (s.setDevice d x).lsheds = s.lsheds := rfl
@[simp] theorem State.setDevice_groups (s : State) (d : Nat) (x : Device) : (s.setDevice d x).groups = s.groups := rfl
@[simp] theorem State.setDevice_cores (s : State) (d : Nat) (x : Device) : (s.setDevice d x).cores = s.cores := rfl
@[simp] theorem State.setDevice_sheds (s : State) (d : Nat) (x : Device) : (s.setDevice d x).sheds = s.sheds := rfl
@[simp] theorem State.setDevice_svcs (s : State) (d : Nat) (x : Device) : (s.setDevice d x).svcs = s.svcs := rfl
@[simp] theorem State.setDevice_parts (s : State) (d : Nat) (x : Device) : (s.setDevice d x).parts = s.parts := rfl
@[simp] theorem State.setDevice_devices (s : State) (d : Nat) (x : Device) : (s.setDevice d x).devices = s.devices.set d x := rfl
@[simp] theorem State.setDevice_jobs (s : State) (d : Nat) (x : Device) : (s.setDevice d x).jobs = s.jobs := rfl
@[simp] theorem State.setDevice_vcmds (s : State) (d : Nat) (x : Device) : (s.setDevice d x).vcmds = s.vcmds := rfl
@[simp] theorem State.setDevice_faults (s : State) (d : Nat) (x : Device) : (s.setDevice d x).faults = s.faults := rfl
@[simp] theorem State.setDevice_bmsgs (s : State) (d : Nat) (x : Device) : (s.setDevice d x).bmsgs = s.bmsgs := rfl
@[simp] theorem State.setDevice_logAreas (s : State) (d : Nat) (x : Device) : (s.setDevice d x).logAreas = s.logAreas := rfl
@[simp] theorem State.setDevice_waits (s : State) (d : Nat) (x : Device) : (s.setDevice d x).waits = s.waits := rfl
@[simp] theorem State.setDevice_watches (s : State) (d : Nat) (x : Device) : (s.setDevice d x).watches = s.watches := rfl
@[simp] theorem State.setDevice_invals (s : State) (d : Nat) (x : Device) : (s.setDevice d x).invals = s.invals := rfl
@[simp] theorem State.setDevice_slices (s : State) (d : Nat) (x : Device) : (s.setDevice d x).slices = s.slices := rfl
@[simp] theorem State.setDevice_tlbs (s : State) (d : Nat) (x : Device) : (s.setDevice d x).tlbs = s.tlbs := rfl
@[simp] theorem State.setDevice_icaches (s : State) (d : Nat) (x : Device) : (s.setDevice d x).icaches = s.icaches := rfl
@[simp] theorem State.setDevice_records (s : State) (d : Nat) (x : Device) : (s.setDevice d x).records = s.records := rfl
@[simp] theorem State.setDevice_pageMigs (s : State) (d : Nat) (x : Device) : (s.setDevice d x).pageMigs = s.pageMigs := rfl
@[simp] theorem State.setDevice_nextRun (s : State) (d : Nat) (x : Device) : (s.setDevice d x).nextRun = s.nextRun := rfl
@[simp] theorem State.setDevice_nextKey (s : State) (d : Nat) (x : Device) : (s.setDevice d x).nextKey = s.nextKey := rfl
@[simp] theorem State.setDevice_badLines (s : State) (d : Nat) (x : Device) : (s.setDevice d x).badLines = s.badLines := rfl
@[simp] theorem State.setDevice_hostOut (s : State) (d : Nat) (x : Device) : (s.setDevice d x).hostOut = s.hostOut := rfl
@[simp] theorem State.setDevice_mgmtLog (s : State) (d : Nat) (x : Device) : (s.setDevice d x).mgmtLog = s.mgmtLog := rfl
@[simp] theorem State.setDevice_agenda (s : State) (d : Nat) (x : Device) : (s.setDevice d x).agenda = s.agenda := rfl
@[simp] theorem State.setDevice_turn (s : State) (d : Nat) (x : Device) : (s.setDevice d x).turn = s.turn := rfl
@[simp] theorem State.setDevice_cur (s : State) (d : Nat) (x : Device) : (s.setDevice d x).cur = s.cur := rfl
@[simp] theorem State.setDevice_clock (s : State) (d : Nat) (x : Device) : (s.setDevice d x).clock = s.clock := rfl
@[simp] theorem State.setDevice_defer (s : State) (d : Nat) (x : Device) : (s.setDevice d x).defer = s.defer := rfl
@[simp] theorem State.setDevice_free (s : State) (d : Nat) (x : Device) : (s.setDevice d x).free = s.free := rfl
@[simp] theorem State.setDevice_reads (s : State) (d : Nat) (x : Device) : (s.setDevice d x).reads = s.reads := rfl

/-! ### modThread -/

@[simp] theorem State.modThread_mem (s : State) (t : Nat) (f : Thread → Thread) : (s.modThread t f).mem = s.mem := rfl
@[simp] theorem State.modThread_threads (s : State) (t : Nat) (f : Thread → Thread) : (s.modThread t f).threads = s.threads.modify t f := rfl
@[simp] theorem State.modThread_runs (s : State) (t : Nat) (f : Thread → Thread) : (s.modThread t f).runs = s.runs := rfl
@[simp] theorem State.modThread_lsheds (s : State) (t : Nat) (f : Thread → Thread) : (s.modThread t f).lsheds = s.lsheds := rfl
@[simp] theorem State.modThread_groups (s : State) (t : Nat) (f : Thread → Thread) : (s.modThread t f).groups = s.groups := rfl
@[simp] theorem State.modThread_cores (s : State) (t : Nat) (f : Thread → Thread) : (s.modThread t f).cores = s.cores := rfl
@[simp] theorem State.modThread_sheds (s : State) (t : Nat) (f : Thread → Thread) : (s.modThread t f).sheds = s.sheds := rfl
@[simp] theorem State.modThread_svcs (s : State) (t : Nat) (f : Thread → Thread) : (s.modThread t f).svcs = s.svcs := rfl
@[simp] theorem State.modThread_parts (s : State) (t : Nat) (f : Thread → Thread) : (s.modThread t f).parts = s.parts := rfl
@[simp] theorem State.modThread_devices (s : State) (t : Nat) (f : Thread → Thread) : (s.modThread t f).devices = s.devices := rfl
@[simp] theorem State.modThread_jobs (s : State) (t : Nat) (f : Thread → Thread) : (s.modThread t f).jobs = s.jobs := rfl
@[simp] theorem State.modThread_vcmds (s : State) (t : Nat) (f : Thread → Thread) : (s.modThread t f).vcmds = s.vcmds := rfl
@[simp] theorem State.modThread_faults (s : State) (t : Nat) (f : Thread → Thread) : (s.modThread t f).faults = s.faults := rfl
@[simp] theorem State.modThread_bmsgs (s : State) (t : Nat) (f : Thread → Thread) : (s.modThread t f).bmsgs = s.bmsgs := rfl
@[simp] theorem State.modThread_logAreas (s : State) (t : Nat) (f : Thread → Thread) : (s.modThread t f).logAreas = s.logAreas := rfl
@[simp] theorem State.modThread_waits (s : State) (t : Nat) (f : Thread → Thread) : (s.modThread t f).waits = s.waits := rfl
@[simp] theorem State.modThread_watches (s : State) (t : Nat) (f : Thread → Thread) : (s.modThread t f).watches = s.watches := rfl
@[simp] theorem State.modThread_invals (s : State) (t : Nat) (f : Thread → Thread) : (s.modThread t f).invals = s.invals := rfl
@[simp] theorem State.modThread_slices (s : State) (t : Nat) (f : Thread → Thread) : (s.modThread t f).slices = s.slices := rfl
@[simp] theorem State.modThread_tlbs (s : State) (t : Nat) (f : Thread → Thread) : (s.modThread t f).tlbs = s.tlbs := rfl
@[simp] theorem State.modThread_icaches (s : State) (t : Nat) (f : Thread → Thread) : (s.modThread t f).icaches = s.icaches := rfl
@[simp] theorem State.modThread_records (s : State) (t : Nat) (f : Thread → Thread) : (s.modThread t f).records = s.records := rfl
@[simp] theorem State.modThread_pageMigs (s : State) (t : Nat) (f : Thread → Thread) : (s.modThread t f).pageMigs = s.pageMigs := rfl
@[simp] theorem State.modThread_nextRun (s : State) (t : Nat) (f : Thread → Thread) : (s.modThread t f).nextRun = s.nextRun := rfl
@[simp] theorem State.modThread_nextKey (s : State) (t : Nat) (f : Thread → Thread) : (s.modThread t f).nextKey = s.nextKey := rfl
@[simp] theorem State.modThread_badLines (s : State) (t : Nat) (f : Thread → Thread) : (s.modThread t f).badLines = s.badLines := rfl
@[simp] theorem State.modThread_hostOut (s : State) (t : Nat) (f : Thread → Thread) : (s.modThread t f).hostOut = s.hostOut := rfl
@[simp] theorem State.modThread_mgmtLog (s : State) (t : Nat) (f : Thread → Thread) : (s.modThread t f).mgmtLog = s.mgmtLog := rfl
@[simp] theorem State.modThread_agenda (s : State) (t : Nat) (f : Thread → Thread) : (s.modThread t f).agenda = s.agenda := rfl
@[simp] theorem State.modThread_turn (s : State) (t : Nat) (f : Thread → Thread) : (s.modThread t f).turn = s.turn := rfl
@[simp] theorem State.modThread_cur (s : State) (t : Nat) (f : Thread → Thread) : (s.modThread t f).cur = s.cur := rfl
@[simp] theorem State.modThread_clock (s : State) (t : Nat) (f : Thread → Thread) : (s.modThread t f).clock = s.clock := rfl
@[simp] theorem State.modThread_defer (s : State) (t : Nat) (f : Thread → Thread) : (s.modThread t f).defer = s.defer := rfl
@[simp] theorem State.modThread_free (s : State) (t : Nat) (f : Thread → Thread) : (s.modThread t f).free = s.free := rfl
@[simp] theorem State.modThread_reads (s : State) (t : Nat) (f : Thread → Thread) : (s.modThread t f).reads = s.reads := rfl

/-! ### modRun -/

@[simp] theorem State.modRun_mem (s : State) (r : Nat) (f : Run → Run) : (s.modRun r f).mem = s.mem := rfl
@[simp] theorem State.modRun_threads (s : State) (r : Nat) (f : Run → Run) : (s.modRun r f).threads = s.threads := rfl
@[simp] theorem State.modRun_runs (s : State) (r : Nat) (f : Run → Run) : (s.modRun r f).runs = s.runs.modify r f := rfl
@[simp] theorem State.modRun_lsheds (s : State) (r : Nat) (f : Run → Run) : (s.modRun r f).lsheds = s.lsheds := rfl
@[simp] theorem State.modRun_groups (s : State) (r : Nat) (f : Run → Run) : (s.modRun r f).groups = s.groups := rfl
@[simp] theorem State.modRun_cores (s : State) (r : Nat) (f : Run → Run) : (s.modRun r f).cores = s.cores := rfl
@[simp] theorem State.modRun_sheds (s : State) (r : Nat) (f : Run → Run) : (s.modRun r f).sheds = s.sheds := rfl
@[simp] theorem State.modRun_svcs (s : State) (r : Nat) (f : Run → Run) : (s.modRun r f).svcs = s.svcs := rfl
@[simp] theorem State.modRun_parts (s : State) (r : Nat) (f : Run → Run) : (s.modRun r f).parts = s.parts := rfl
@[simp] theorem State.modRun_devices (s : State) (r : Nat) (f : Run → Run) : (s.modRun r f).devices = s.devices := rfl
@[simp] theorem State.modRun_jobs (s : State) (r : Nat) (f : Run → Run) : (s.modRun r f).jobs = s.jobs := rfl
@[simp] theorem State.modRun_vcmds (s : State) (r : Nat) (f : Run → Run) : (s.modRun r f).vcmds = s.vcmds := rfl
@[simp] theorem State.modRun_faults (s : State) (r : Nat) (f : Run → Run) : (s.modRun r f).faults = s.faults := rfl
@[simp] theorem State.modRun_bmsgs (s : State) (r : Nat) (f : Run → Run) : (s.modRun r f).bmsgs = s.bmsgs := rfl
@[simp] theorem State.modRun_logAreas (s : State) (r : Nat) (f : Run → Run) : (s.modRun r f).logAreas = s.logAreas := rfl
@[simp] theorem State.modRun_waits (s : State) (r : Nat) (f : Run → Run) : (s.modRun r f).waits = s.waits := rfl
@[simp] theorem State.modRun_watches (s : State) (r : Nat) (f : Run → Run) : (s.modRun r f).watches = s.watches := rfl
@[simp] theorem State.modRun_invals (s : State) (r : Nat) (f : Run → Run) : (s.modRun r f).invals = s.invals := rfl
@[simp] theorem State.modRun_slices (s : State) (r : Nat) (f : Run → Run) : (s.modRun r f).slices = s.slices := rfl
@[simp] theorem State.modRun_tlbs (s : State) (r : Nat) (f : Run → Run) : (s.modRun r f).tlbs = s.tlbs := rfl
@[simp] theorem State.modRun_icaches (s : State) (r : Nat) (f : Run → Run) : (s.modRun r f).icaches = s.icaches := rfl
@[simp] theorem State.modRun_records (s : State) (r : Nat) (f : Run → Run) : (s.modRun r f).records = s.records := rfl
@[simp] theorem State.modRun_pageMigs (s : State) (r : Nat) (f : Run → Run) : (s.modRun r f).pageMigs = s.pageMigs := rfl
@[simp] theorem State.modRun_nextRun (s : State) (r : Nat) (f : Run → Run) : (s.modRun r f).nextRun = s.nextRun := rfl
@[simp] theorem State.modRun_nextKey (s : State) (r : Nat) (f : Run → Run) : (s.modRun r f).nextKey = s.nextKey := rfl
@[simp] theorem State.modRun_badLines (s : State) (r : Nat) (f : Run → Run) : (s.modRun r f).badLines = s.badLines := rfl
@[simp] theorem State.modRun_hostOut (s : State) (r : Nat) (f : Run → Run) : (s.modRun r f).hostOut = s.hostOut := rfl
@[simp] theorem State.modRun_mgmtLog (s : State) (r : Nat) (f : Run → Run) : (s.modRun r f).mgmtLog = s.mgmtLog := rfl
@[simp] theorem State.modRun_agenda (s : State) (r : Nat) (f : Run → Run) : (s.modRun r f).agenda = s.agenda := rfl
@[simp] theorem State.modRun_turn (s : State) (r : Nat) (f : Run → Run) : (s.modRun r f).turn = s.turn := rfl
@[simp] theorem State.modRun_cur (s : State) (r : Nat) (f : Run → Run) : (s.modRun r f).cur = s.cur := rfl
@[simp] theorem State.modRun_clock (s : State) (r : Nat) (f : Run → Run) : (s.modRun r f).clock = s.clock := rfl
@[simp] theorem State.modRun_defer (s : State) (r : Nat) (f : Run → Run) : (s.modRun r f).defer = s.defer := rfl
@[simp] theorem State.modRun_free (s : State) (r : Nat) (f : Run → Run) : (s.modRun r f).free = s.free := rfl
@[simp] theorem State.modRun_reads (s : State) (r : Nat) (f : Run → Run) : (s.modRun r f).reads = s.reads := rfl

/-! ### modLShed -/

@[simp] theorem State.modLShed_mem (s : State) (l : Nat) (f : LShed → LShed) : (s.modLShed l f).mem = s.mem := rfl
@[simp] theorem State.modLShed_threads (s : State) (l : Nat) (f : LShed → LShed) : (s.modLShed l f).threads = s.threads := rfl
@[simp] theorem State.modLShed_runs (s : State) (l : Nat) (f : LShed → LShed) : (s.modLShed l f).runs = s.runs := rfl
@[simp] theorem State.modLShed_lsheds (s : State) (l : Nat) (f : LShed → LShed) : (s.modLShed l f).lsheds = s.lsheds.modify l f := rfl
@[simp] theorem State.modLShed_groups (s : State) (l : Nat) (f : LShed → LShed) : (s.modLShed l f).groups = s.groups := rfl
@[simp] theorem State.modLShed_cores (s : State) (l : Nat) (f : LShed → LShed) : (s.modLShed l f).cores = s.cores := rfl
@[simp] theorem State.modLShed_sheds (s : State) (l : Nat) (f : LShed → LShed) : (s.modLShed l f).sheds = s.sheds := rfl
@[simp] theorem State.modLShed_svcs (s : State) (l : Nat) (f : LShed → LShed) : (s.modLShed l f).svcs = s.svcs := rfl
@[simp] theorem State.modLShed_parts (s : State) (l : Nat) (f : LShed → LShed) : (s.modLShed l f).parts = s.parts := rfl
@[simp] theorem State.modLShed_devices (s : State) (l : Nat) (f : LShed → LShed) : (s.modLShed l f).devices = s.devices := rfl
@[simp] theorem State.modLShed_jobs (s : State) (l : Nat) (f : LShed → LShed) : (s.modLShed l f).jobs = s.jobs := rfl
@[simp] theorem State.modLShed_vcmds (s : State) (l : Nat) (f : LShed → LShed) : (s.modLShed l f).vcmds = s.vcmds := rfl
@[simp] theorem State.modLShed_faults (s : State) (l : Nat) (f : LShed → LShed) : (s.modLShed l f).faults = s.faults := rfl
@[simp] theorem State.modLShed_bmsgs (s : State) (l : Nat) (f : LShed → LShed) : (s.modLShed l f).bmsgs = s.bmsgs := rfl
@[simp] theorem State.modLShed_logAreas (s : State) (l : Nat) (f : LShed → LShed) : (s.modLShed l f).logAreas = s.logAreas := rfl
@[simp] theorem State.modLShed_waits (s : State) (l : Nat) (f : LShed → LShed) : (s.modLShed l f).waits = s.waits := rfl
@[simp] theorem State.modLShed_watches (s : State) (l : Nat) (f : LShed → LShed) : (s.modLShed l f).watches = s.watches := rfl
@[simp] theorem State.modLShed_invals (s : State) (l : Nat) (f : LShed → LShed) : (s.modLShed l f).invals = s.invals := rfl
@[simp] theorem State.modLShed_slices (s : State) (l : Nat) (f : LShed → LShed) : (s.modLShed l f).slices = s.slices := rfl
@[simp] theorem State.modLShed_tlbs (s : State) (l : Nat) (f : LShed → LShed) : (s.modLShed l f).tlbs = s.tlbs := rfl
@[simp] theorem State.modLShed_icaches (s : State) (l : Nat) (f : LShed → LShed) : (s.modLShed l f).icaches = s.icaches := rfl
@[simp] theorem State.modLShed_records (s : State) (l : Nat) (f : LShed → LShed) : (s.modLShed l f).records = s.records := rfl
@[simp] theorem State.modLShed_pageMigs (s : State) (l : Nat) (f : LShed → LShed) : (s.modLShed l f).pageMigs = s.pageMigs := rfl
@[simp] theorem State.modLShed_nextRun (s : State) (l : Nat) (f : LShed → LShed) : (s.modLShed l f).nextRun = s.nextRun := rfl
@[simp] theorem State.modLShed_nextKey (s : State) (l : Nat) (f : LShed → LShed) : (s.modLShed l f).nextKey = s.nextKey := rfl
@[simp] theorem State.modLShed_badLines (s : State) (l : Nat) (f : LShed → LShed) : (s.modLShed l f).badLines = s.badLines := rfl
@[simp] theorem State.modLShed_hostOut (s : State) (l : Nat) (f : LShed → LShed) : (s.modLShed l f).hostOut = s.hostOut := rfl
@[simp] theorem State.modLShed_mgmtLog (s : State) (l : Nat) (f : LShed → LShed) : (s.modLShed l f).mgmtLog = s.mgmtLog := rfl
@[simp] theorem State.modLShed_agenda (s : State) (l : Nat) (f : LShed → LShed) : (s.modLShed l f).agenda = s.agenda := rfl
@[simp] theorem State.modLShed_turn (s : State) (l : Nat) (f : LShed → LShed) : (s.modLShed l f).turn = s.turn := rfl
@[simp] theorem State.modLShed_cur (s : State) (l : Nat) (f : LShed → LShed) : (s.modLShed l f).cur = s.cur := rfl
@[simp] theorem State.modLShed_clock (s : State) (l : Nat) (f : LShed → LShed) : (s.modLShed l f).clock = s.clock := rfl
@[simp] theorem State.modLShed_defer (s : State) (l : Nat) (f : LShed → LShed) : (s.modLShed l f).defer = s.defer := rfl
@[simp] theorem State.modLShed_free (s : State) (l : Nat) (f : LShed → LShed) : (s.modLShed l f).free = s.free := rfl
@[simp] theorem State.modLShed_reads (s : State) (l : Nat) (f : LShed → LShed) : (s.modLShed l f).reads = s.reads := rfl

/-! ### modJob -/

@[simp] theorem State.modJob_mem (s : State) (j : Nat) (f : Job → Job) : (s.modJob j f).mem = s.mem := rfl
@[simp] theorem State.modJob_threads (s : State) (j : Nat) (f : Job → Job) : (s.modJob j f).threads = s.threads := rfl
@[simp] theorem State.modJob_runs (s : State) (j : Nat) (f : Job → Job) : (s.modJob j f).runs = s.runs := rfl
@[simp] theorem State.modJob_lsheds (s : State) (j : Nat) (f : Job → Job) : (s.modJob j f).lsheds = s.lsheds := rfl
@[simp] theorem State.modJob_groups (s : State) (j : Nat) (f : Job → Job) : (s.modJob j f).groups = s.groups := rfl
@[simp] theorem State.modJob_cores (s : State) (j : Nat) (f : Job → Job) : (s.modJob j f).cores = s.cores := rfl
@[simp] theorem State.modJob_sheds (s : State) (j : Nat) (f : Job → Job) : (s.modJob j f).sheds = s.sheds := rfl
@[simp] theorem State.modJob_svcs (s : State) (j : Nat) (f : Job → Job) : (s.modJob j f).svcs = s.svcs := rfl
@[simp] theorem State.modJob_parts (s : State) (j : Nat) (f : Job → Job) : (s.modJob j f).parts = s.parts := rfl
@[simp] theorem State.modJob_devices (s : State) (j : Nat) (f : Job → Job) : (s.modJob j f).devices = s.devices := rfl
@[simp] theorem State.modJob_jobs (s : State) (j : Nat) (f : Job → Job) : (s.modJob j f).jobs = s.jobs.modify j f := rfl
@[simp] theorem State.modJob_vcmds (s : State) (j : Nat) (f : Job → Job) : (s.modJob j f).vcmds = s.vcmds := rfl
@[simp] theorem State.modJob_faults (s : State) (j : Nat) (f : Job → Job) : (s.modJob j f).faults = s.faults := rfl
@[simp] theorem State.modJob_bmsgs (s : State) (j : Nat) (f : Job → Job) : (s.modJob j f).bmsgs = s.bmsgs := rfl
@[simp] theorem State.modJob_logAreas (s : State) (j : Nat) (f : Job → Job) : (s.modJob j f).logAreas = s.logAreas := rfl
@[simp] theorem State.modJob_waits (s : State) (j : Nat) (f : Job → Job) : (s.modJob j f).waits = s.waits := rfl
@[simp] theorem State.modJob_watches (s : State) (j : Nat) (f : Job → Job) : (s.modJob j f).watches = s.watches := rfl
@[simp] theorem State.modJob_invals (s : State) (j : Nat) (f : Job → Job) : (s.modJob j f).invals = s.invals := rfl
@[simp] theorem State.modJob_slices (s : State) (j : Nat) (f : Job → Job) : (s.modJob j f).slices = s.slices := rfl
@[simp] theorem State.modJob_tlbs (s : State) (j : Nat) (f : Job → Job) : (s.modJob j f).tlbs = s.tlbs := rfl
@[simp] theorem State.modJob_icaches (s : State) (j : Nat) (f : Job → Job) : (s.modJob j f).icaches = s.icaches := rfl
@[simp] theorem State.modJob_records (s : State) (j : Nat) (f : Job → Job) : (s.modJob j f).records = s.records := rfl
@[simp] theorem State.modJob_pageMigs (s : State) (j : Nat) (f : Job → Job) : (s.modJob j f).pageMigs = s.pageMigs := rfl
@[simp] theorem State.modJob_nextRun (s : State) (j : Nat) (f : Job → Job) : (s.modJob j f).nextRun = s.nextRun := rfl
@[simp] theorem State.modJob_nextKey (s : State) (j : Nat) (f : Job → Job) : (s.modJob j f).nextKey = s.nextKey := rfl
@[simp] theorem State.modJob_badLines (s : State) (j : Nat) (f : Job → Job) : (s.modJob j f).badLines = s.badLines := rfl
@[simp] theorem State.modJob_hostOut (s : State) (j : Nat) (f : Job → Job) : (s.modJob j f).hostOut = s.hostOut := rfl
@[simp] theorem State.modJob_mgmtLog (s : State) (j : Nat) (f : Job → Job) : (s.modJob j f).mgmtLog = s.mgmtLog := rfl
@[simp] theorem State.modJob_agenda (s : State) (j : Nat) (f : Job → Job) : (s.modJob j f).agenda = s.agenda := rfl
@[simp] theorem State.modJob_turn (s : State) (j : Nat) (f : Job → Job) : (s.modJob j f).turn = s.turn := rfl
@[simp] theorem State.modJob_cur (s : State) (j : Nat) (f : Job → Job) : (s.modJob j f).cur = s.cur := rfl
@[simp] theorem State.modJob_clock (s : State) (j : Nat) (f : Job → Job) : (s.modJob j f).clock = s.clock := rfl
@[simp] theorem State.modJob_defer (s : State) (j : Nat) (f : Job → Job) : (s.modJob j f).defer = s.defer := rfl
@[simp] theorem State.modJob_free (s : State) (j : Nat) (f : Job → Job) : (s.modJob j f).free = s.free := rfl
@[simp] theorem State.modJob_reads (s : State) (j : Nat) (f : Job → Job) : (s.modJob j f).reads = s.reads := rfl

/-! ### modVCmd -/

@[simp] theorem State.modVCmd_mem (s : State) (v : Nat) (f : VCmd → VCmd) : (s.modVCmd v f).mem = s.mem := rfl
@[simp] theorem State.modVCmd_threads (s : State) (v : Nat) (f : VCmd → VCmd) : (s.modVCmd v f).threads = s.threads := rfl
@[simp] theorem State.modVCmd_runs (s : State) (v : Nat) (f : VCmd → VCmd) : (s.modVCmd v f).runs = s.runs := rfl
@[simp] theorem State.modVCmd_lsheds (s : State) (v : Nat) (f : VCmd → VCmd) : (s.modVCmd v f).lsheds = s.lsheds := rfl
@[simp] theorem State.modVCmd_groups (s : State) (v : Nat) (f : VCmd → VCmd) : (s.modVCmd v f).groups = s.groups := rfl
@[simp] theorem State.modVCmd_cores (s : State) (v : Nat) (f : VCmd → VCmd) : (s.modVCmd v f).cores = s.cores := rfl
@[simp] theorem State.modVCmd_sheds (s : State) (v : Nat) (f : VCmd → VCmd) : (s.modVCmd v f).sheds = s.sheds := rfl
@[simp] theorem State.modVCmd_svcs (s : State) (v : Nat) (f : VCmd → VCmd) : (s.modVCmd v f).svcs = s.svcs := rfl
@[simp] theorem State.modVCmd_parts (s : State) (v : Nat) (f : VCmd → VCmd) : (s.modVCmd v f).parts = s.parts := rfl
@[simp] theorem State.modVCmd_devices (s : State) (v : Nat) (f : VCmd → VCmd) : (s.modVCmd v f).devices = s.devices := rfl
@[simp] theorem State.modVCmd_jobs (s : State) (v : Nat) (f : VCmd → VCmd) : (s.modVCmd v f).jobs = s.jobs := rfl
@[simp] theorem State.modVCmd_vcmds (s : State) (v : Nat) (f : VCmd → VCmd) : (s.modVCmd v f).vcmds = s.vcmds.modify v f := rfl
@[simp] theorem State.modVCmd_faults (s : State) (v : Nat) (f : VCmd → VCmd) : (s.modVCmd v f).faults = s.faults := rfl
@[simp] theorem State.modVCmd_bmsgs (s : State) (v : Nat) (f : VCmd → VCmd) : (s.modVCmd v f).bmsgs = s.bmsgs := rfl
@[simp] theorem State.modVCmd_logAreas (s : State) (v : Nat) (f : VCmd → VCmd) : (s.modVCmd v f).logAreas = s.logAreas := rfl
@[simp] theorem State.modVCmd_waits (s : State) (v : Nat) (f : VCmd → VCmd) : (s.modVCmd v f).waits = s.waits := rfl
@[simp] theorem State.modVCmd_watches (s : State) (v : Nat) (f : VCmd → VCmd) : (s.modVCmd v f).watches = s.watches := rfl
@[simp] theorem State.modVCmd_invals (s : State) (v : Nat) (f : VCmd → VCmd) : (s.modVCmd v f).invals = s.invals := rfl
@[simp] theorem State.modVCmd_slices (s : State) (v : Nat) (f : VCmd → VCmd) : (s.modVCmd v f).slices = s.slices := rfl
@[simp] theorem State.modVCmd_tlbs (s : State) (v : Nat) (f : VCmd → VCmd) : (s.modVCmd v f).tlbs = s.tlbs := rfl
@[simp] theorem State.modVCmd_icaches (s : State) (v : Nat) (f : VCmd → VCmd) : (s.modVCmd v f).icaches = s.icaches := rfl
@[simp] theorem State.modVCmd_records (s : State) (v : Nat) (f : VCmd → VCmd) : (s.modVCmd v f).records = s.records := rfl
@[simp] theorem State.modVCmd_pageMigs (s : State) (v : Nat) (f : VCmd → VCmd) : (s.modVCmd v f).pageMigs = s.pageMigs := rfl
@[simp] theorem State.modVCmd_nextRun (s : State) (v : Nat) (f : VCmd → VCmd) : (s.modVCmd v f).nextRun = s.nextRun := rfl
@[simp] theorem State.modVCmd_nextKey (s : State) (v : Nat) (f : VCmd → VCmd) : (s.modVCmd v f).nextKey = s.nextKey := rfl
@[simp] theorem State.modVCmd_badLines (s : State) (v : Nat) (f : VCmd → VCmd) : (s.modVCmd v f).badLines = s.badLines := rfl
@[simp] theorem State.modVCmd_hostOut (s : State) (v : Nat) (f : VCmd → VCmd) : (s.modVCmd v f).hostOut = s.hostOut := rfl
@[simp] theorem State.modVCmd_mgmtLog (s : State) (v : Nat) (f : VCmd → VCmd) : (s.modVCmd v f).mgmtLog = s.mgmtLog := rfl
@[simp] theorem State.modVCmd_agenda (s : State) (v : Nat) (f : VCmd → VCmd) : (s.modVCmd v f).agenda = s.agenda := rfl
@[simp] theorem State.modVCmd_turn (s : State) (v : Nat) (f : VCmd → VCmd) : (s.modVCmd v f).turn = s.turn := rfl
@[simp] theorem State.modVCmd_cur (s : State) (v : Nat) (f : VCmd → VCmd) : (s.modVCmd v f).cur = s.cur := rfl
@[simp] theorem State.modVCmd_clock (s : State) (v : Nat) (f : VCmd → VCmd) : (s.modVCmd v f).clock = s.clock := rfl
@[simp] theorem State.modVCmd_defer (s : State) (v : Nat) (f : VCmd → VCmd) : (s.modVCmd v f).defer = s.defer := rfl
@[simp] theorem State.modVCmd_free (s : State) (v : Nat) (f : VCmd → VCmd) : (s.modVCmd v f).free = s.free := rfl
@[simp] theorem State.modVCmd_reads (s : State) (v : Nat) (f : VCmd → VCmd) : (s.modVCmd v f).reads = s.reads := rfl

/-! ### modCore -/

@[simp] theorem State.modCore_mem (s : State) (c : Nat) (f : Core → Core) : (s.modCore c f).mem = s.mem := rfl
@[simp] theorem State.modCore_threads (s : State) (c : Nat) (f : Core → Core) : (s.modCore c f).threads = s.threads := rfl
@[simp] theorem State.modCore_runs (s : State) (c : Nat) (f : Core → Core) : (s.modCore c f).runs = s.runs := rfl
@[simp] theorem State.modCore_lsheds (s : State) (c : Nat) (f : Core → Core) : (s.modCore c f).lsheds = s.lsheds := rfl
@[simp] theorem State.modCore_groups (s : State) (c : Nat) (f : Core → Core) : (s.modCore c f).groups = s.groups := rfl
@[simp] theorem State.modCore_cores (s : State) (c : Nat) (f : Core → Core) : (s.modCore c f).cores = s.cores.set c (f (s.core c)) := rfl
@[simp] theorem State.modCore_sheds (s : State) (c : Nat) (f : Core → Core) : (s.modCore c f).sheds = s.sheds := rfl
@[simp] theorem State.modCore_svcs (s : State) (c : Nat) (f : Core → Core) : (s.modCore c f).svcs = s.svcs := rfl
@[simp] theorem State.modCore_parts (s : State) (c : Nat) (f : Core → Core) : (s.modCore c f).parts = s.parts := rfl
@[simp] theorem State.modCore_devices (s : State) (c : Nat) (f : Core → Core) : (s.modCore c f).devices = s.devices := rfl
@[simp] theorem State.modCore_jobs (s : State) (c : Nat) (f : Core → Core) : (s.modCore c f).jobs = s.jobs := rfl
@[simp] theorem State.modCore_vcmds (s : State) (c : Nat) (f : Core → Core) : (s.modCore c f).vcmds = s.vcmds := rfl
@[simp] theorem State.modCore_faults (s : State) (c : Nat) (f : Core → Core) : (s.modCore c f).faults = s.faults := rfl
@[simp] theorem State.modCore_bmsgs (s : State) (c : Nat) (f : Core → Core) : (s.modCore c f).bmsgs = s.bmsgs := rfl
@[simp] theorem State.modCore_logAreas (s : State) (c : Nat) (f : Core → Core) : (s.modCore c f).logAreas = s.logAreas := rfl
@[simp] theorem State.modCore_waits (s : State) (c : Nat) (f : Core → Core) : (s.modCore c f).waits = s.waits := rfl
@[simp] theorem State.modCore_watches (s : State) (c : Nat) (f : Core → Core) : (s.modCore c f).watches = s.watches := rfl
@[simp] theorem State.modCore_invals (s : State) (c : Nat) (f : Core → Core) : (s.modCore c f).invals = s.invals := rfl
@[simp] theorem State.modCore_slices (s : State) (c : Nat) (f : Core → Core) : (s.modCore c f).slices = s.slices := rfl
@[simp] theorem State.modCore_tlbs (s : State) (c : Nat) (f : Core → Core) : (s.modCore c f).tlbs = s.tlbs := rfl
@[simp] theorem State.modCore_icaches (s : State) (c : Nat) (f : Core → Core) : (s.modCore c f).icaches = s.icaches := rfl
@[simp] theorem State.modCore_records (s : State) (c : Nat) (f : Core → Core) : (s.modCore c f).records = s.records := rfl
@[simp] theorem State.modCore_pageMigs (s : State) (c : Nat) (f : Core → Core) : (s.modCore c f).pageMigs = s.pageMigs := rfl
@[simp] theorem State.modCore_nextRun (s : State) (c : Nat) (f : Core → Core) : (s.modCore c f).nextRun = s.nextRun := rfl
@[simp] theorem State.modCore_nextKey (s : State) (c : Nat) (f : Core → Core) : (s.modCore c f).nextKey = s.nextKey := rfl
@[simp] theorem State.modCore_badLines (s : State) (c : Nat) (f : Core → Core) : (s.modCore c f).badLines = s.badLines := rfl
@[simp] theorem State.modCore_hostOut (s : State) (c : Nat) (f : Core → Core) : (s.modCore c f).hostOut = s.hostOut := rfl
@[simp] theorem State.modCore_mgmtLog (s : State) (c : Nat) (f : Core → Core) : (s.modCore c f).mgmtLog = s.mgmtLog := rfl
@[simp] theorem State.modCore_agenda (s : State) (c : Nat) (f : Core → Core) : (s.modCore c f).agenda = s.agenda := rfl
@[simp] theorem State.modCore_turn (s : State) (c : Nat) (f : Core → Core) : (s.modCore c f).turn = s.turn := rfl
@[simp] theorem State.modCore_cur (s : State) (c : Nat) (f : Core → Core) : (s.modCore c f).cur = s.cur := rfl
@[simp] theorem State.modCore_clock (s : State) (c : Nat) (f : Core → Core) : (s.modCore c f).clock = s.clock := rfl
@[simp] theorem State.modCore_defer (s : State) (c : Nat) (f : Core → Core) : (s.modCore c f).defer = s.defer := rfl
@[simp] theorem State.modCore_free (s : State) (c : Nat) (f : Core → Core) : (s.modCore c f).free = s.free := rfl
@[simp] theorem State.modCore_reads (s : State) (c : Nat) (f : Core → Core) : (s.modCore c f).reads = s.reads := rfl

/-! ### modShed -/

@[simp] theorem State.modShed_mem (s : State) (h : Nat) (f : Shed → Shed) : (s.modShed h f).mem = s.mem := rfl
@[simp] theorem State.modShed_threads (s : State) (h : Nat) (f : Shed → Shed) : (s.modShed h f).threads = s.threads := rfl
@[simp] theorem State.modShed_runs (s : State) (h : Nat) (f : Shed → Shed) : (s.modShed h f).runs = s.runs := rfl
@[simp] theorem State.modShed_lsheds (s : State) (h : Nat) (f : Shed → Shed) : (s.modShed h f).lsheds = s.lsheds := rfl
@[simp] theorem State.modShed_groups (s : State) (h : Nat) (f : Shed → Shed) : (s.modShed h f).groups = s.groups := rfl
@[simp] theorem State.modShed_cores (s : State) (h : Nat) (f : Shed → Shed) : (s.modShed h f).cores = s.cores := rfl
@[simp] theorem State.modShed_sheds (s : State) (h : Nat) (f : Shed → Shed) : (s.modShed h f).sheds = s.sheds.set h (f (s.shed h)) := rfl
@[simp] theorem State.modShed_svcs (s : State) (h : Nat) (f : Shed → Shed) : (s.modShed h f).svcs = s.svcs := rfl
@[simp] theorem State.modShed_parts (s : State) (h : Nat) (f : Shed → Shed) : (s.modShed h f).parts = s.parts := rfl
@[simp] theorem State.modShed_devices (s : State) (h : Nat) (f : Shed → Shed) : (s.modShed h f).devices = s.devices := rfl
@[simp] theorem State.modShed_jobs (s : State) (h : Nat) (f : Shed → Shed) : (s.modShed h f).jobs = s.jobs := rfl
@[simp] theorem State.modShed_vcmds (s : State) (h : Nat) (f : Shed → Shed) : (s.modShed h f).vcmds = s.vcmds := rfl
@[simp] theorem State.modShed_faults (s : State) (h : Nat) (f : Shed → Shed) : (s.modShed h f).faults = s.faults := rfl
@[simp] theorem State.modShed_bmsgs (s : State) (h : Nat) (f : Shed → Shed) : (s.modShed h f).bmsgs = s.bmsgs := rfl
@[simp] theorem State.modShed_logAreas (s : State) (h : Nat) (f : Shed → Shed) : (s.modShed h f).logAreas = s.logAreas := rfl
@[simp] theorem State.modShed_waits (s : State) (h : Nat) (f : Shed → Shed) : (s.modShed h f).waits = s.waits := rfl
@[simp] theorem State.modShed_watches (s : State) (h : Nat) (f : Shed → Shed) : (s.modShed h f).watches = s.watches := rfl
@[simp] theorem State.modShed_invals (s : State) (h : Nat) (f : Shed → Shed) : (s.modShed h f).invals = s.invals := rfl
@[simp] theorem State.modShed_slices (s : State) (h : Nat) (f : Shed → Shed) : (s.modShed h f).slices = s.slices := rfl
@[simp] theorem State.modShed_tlbs (s : State) (h : Nat) (f : Shed → Shed) : (s.modShed h f).tlbs = s.tlbs := rfl
@[simp] theorem State.modShed_icaches (s : State) (h : Nat) (f : Shed → Shed) : (s.modShed h f).icaches = s.icaches := rfl
@[simp] theorem State.modShed_records (s : State) (h : Nat) (f : Shed → Shed) : (s.modShed h f).records = s.records := rfl
@[simp] theorem State.modShed_pageMigs (s : State) (h : Nat) (f : Shed → Shed) : (s.modShed h f).pageMigs = s.pageMigs := rfl
@[simp] theorem State.modShed_nextRun (s : State) (h : Nat) (f : Shed → Shed) : (s.modShed h f).nextRun = s.nextRun := rfl
@[simp] theorem State.modShed_nextKey (s : State) (h : Nat) (f : Shed → Shed) : (s.modShed h f).nextKey = s.nextKey := rfl
@[simp] theorem State.modShed_badLines (s : State) (h : Nat) (f : Shed → Shed) : (s.modShed h f).badLines = s.badLines := rfl
@[simp] theorem State.modShed_hostOut (s : State) (h : Nat) (f : Shed → Shed) : (s.modShed h f).hostOut = s.hostOut := rfl
@[simp] theorem State.modShed_mgmtLog (s : State) (h : Nat) (f : Shed → Shed) : (s.modShed h f).mgmtLog = s.mgmtLog := rfl
@[simp] theorem State.modShed_agenda (s : State) (h : Nat) (f : Shed → Shed) : (s.modShed h f).agenda = s.agenda := rfl
@[simp] theorem State.modShed_turn (s : State) (h : Nat) (f : Shed → Shed) : (s.modShed h f).turn = s.turn := rfl
@[simp] theorem State.modShed_cur (s : State) (h : Nat) (f : Shed → Shed) : (s.modShed h f).cur = s.cur := rfl
@[simp] theorem State.modShed_clock (s : State) (h : Nat) (f : Shed → Shed) : (s.modShed h f).clock = s.clock := rfl
@[simp] theorem State.modShed_defer (s : State) (h : Nat) (f : Shed → Shed) : (s.modShed h f).defer = s.defer := rfl
@[simp] theorem State.modShed_free (s : State) (h : Nat) (f : Shed → Shed) : (s.modShed h f).free = s.free := rfl
@[simp] theorem State.modShed_reads (s : State) (h : Nat) (f : Shed → Shed) : (s.modShed h f).reads = s.reads := rfl

/-! ### modSvc -/

@[simp] theorem State.modSvc_mem (s : State) (n : Nat) (f : Svc → Svc) : (s.modSvc n f).mem = s.mem := rfl
@[simp] theorem State.modSvc_threads (s : State) (n : Nat) (f : Svc → Svc) : (s.modSvc n f).threads = s.threads := rfl
@[simp] theorem State.modSvc_runs (s : State) (n : Nat) (f : Svc → Svc) : (s.modSvc n f).runs = s.runs := rfl
@[simp] theorem State.modSvc_lsheds (s : State) (n : Nat) (f : Svc → Svc) : (s.modSvc n f).lsheds = s.lsheds := rfl
@[simp] theorem State.modSvc_groups (s : State) (n : Nat) (f : Svc → Svc) : (s.modSvc n f).groups = s.groups := rfl
@[simp] theorem State.modSvc_cores (s : State) (n : Nat) (f : Svc → Svc) : (s.modSvc n f).cores = s.cores := rfl
@[simp] theorem State.modSvc_sheds (s : State) (n : Nat) (f : Svc → Svc) : (s.modSvc n f).sheds = s.sheds := rfl
@[simp] theorem State.modSvc_svcs (s : State) (n : Nat) (f : Svc → Svc) : (s.modSvc n f).svcs = s.svcs.set n (f (s.svc n)) := rfl
@[simp] theorem State.modSvc_parts (s : State) (n : Nat) (f : Svc → Svc) : (s.modSvc n f).parts = s.parts := rfl
@[simp] theorem State.modSvc_devices (s : State) (n : Nat) (f : Svc → Svc) : (s.modSvc n f).devices = s.devices := rfl
@[simp] theorem State.modSvc_jobs (s : State) (n : Nat) (f : Svc → Svc) : (s.modSvc n f).jobs = s.jobs := rfl
@[simp] theorem State.modSvc_vcmds (s : State) (n : Nat) (f : Svc → Svc) : (s.modSvc n f).vcmds = s.vcmds := rfl
@[simp] theorem State.modSvc_faults (s : State) (n : Nat) (f : Svc → Svc) : (s.modSvc n f).faults = s.faults := rfl
@[simp] theorem State.modSvc_bmsgs (s : State) (n : Nat) (f : Svc → Svc) : (s.modSvc n f).bmsgs = s.bmsgs := rfl
@[simp] theorem State.modSvc_logAreas (s : State) (n : Nat) (f : Svc → Svc) : (s.modSvc n f).logAreas = s.logAreas := rfl
@[simp] theorem State.modSvc_waits (s : State) (n : Nat) (f : Svc → Svc) : (s.modSvc n f).waits = s.waits := rfl
@[simp] theorem State.modSvc_watches (s : State) (n : Nat) (f : Svc → Svc) : (s.modSvc n f).watches = s.watches := rfl
@[simp] theorem State.modSvc_invals (s : State) (n : Nat) (f : Svc → Svc) : (s.modSvc n f).invals = s.invals := rfl
@[simp] theorem State.modSvc_slices (s : State) (n : Nat) (f : Svc → Svc) : (s.modSvc n f).slices = s.slices := rfl
@[simp] theorem State.modSvc_tlbs (s : State) (n : Nat) (f : Svc → Svc) : (s.modSvc n f).tlbs = s.tlbs := rfl
@[simp] theorem State.modSvc_icaches (s : State) (n : Nat) (f : Svc → Svc) : (s.modSvc n f).icaches = s.icaches := rfl
@[simp] theorem State.modSvc_records (s : State) (n : Nat) (f : Svc → Svc) : (s.modSvc n f).records = s.records := rfl
@[simp] theorem State.modSvc_pageMigs (s : State) (n : Nat) (f : Svc → Svc) : (s.modSvc n f).pageMigs = s.pageMigs := rfl
@[simp] theorem State.modSvc_nextRun (s : State) (n : Nat) (f : Svc → Svc) : (s.modSvc n f).nextRun = s.nextRun := rfl
@[simp] theorem State.modSvc_nextKey (s : State) (n : Nat) (f : Svc → Svc) : (s.modSvc n f).nextKey = s.nextKey := rfl
@[simp] theorem State.modSvc_badLines (s : State) (n : Nat) (f : Svc → Svc) : (s.modSvc n f).badLines = s.badLines := rfl
@[simp] theorem State.modSvc_hostOut (s : State) (n : Nat) (f : Svc → Svc) : (s.modSvc n f).hostOut = s.hostOut := rfl
@[simp] theorem State.modSvc_mgmtLog (s : State) (n : Nat) (f : Svc → Svc) : (s.modSvc n f).mgmtLog = s.mgmtLog := rfl
@[simp] theorem State.modSvc_agenda (s : State) (n : Nat) (f : Svc → Svc) : (s.modSvc n f).agenda = s.agenda := rfl
@[simp] theorem State.modSvc_turn (s : State) (n : Nat) (f : Svc → Svc) : (s.modSvc n f).turn = s.turn := rfl
@[simp] theorem State.modSvc_cur (s : State) (n : Nat) (f : Svc → Svc) : (s.modSvc n f).cur = s.cur := rfl
@[simp] theorem State.modSvc_clock (s : State) (n : Nat) (f : Svc → Svc) : (s.modSvc n f).clock = s.clock := rfl
@[simp] theorem State.modSvc_defer (s : State) (n : Nat) (f : Svc → Svc) : (s.modSvc n f).defer = s.defer := rfl
@[simp] theorem State.modSvc_free (s : State) (n : Nat) (f : Svc → Svc) : (s.modSvc n f).free = s.free := rfl
@[simp] theorem State.modSvc_reads (s : State) (n : Nat) (f : Svc → Svc) : (s.modSvc n f).reads = s.reads := rfl

/-! ### modPart -/

@[simp] theorem State.modPart_mem (s : State) (p : Nat) (f : Partition → Partition) : (s.modPart p f).mem = s.mem := rfl
@[simp] theorem State.modPart_threads (s : State) (p : Nat) (f : Partition → Partition) : (s.modPart p f).threads = s.threads := rfl
@[simp] theorem State.modPart_runs (s : State) (p : Nat) (f : Partition → Partition) : (s.modPart p f).runs = s.runs := rfl
@[simp] theorem State.modPart_lsheds (s : State) (p : Nat) (f : Partition → Partition) : (s.modPart p f).lsheds = s.lsheds := rfl
@[simp] theorem State.modPart_groups (s : State) (p : Nat) (f : Partition → Partition) : (s.modPart p f).groups = s.groups := rfl
@[simp] theorem State.modPart_cores (s : State) (p : Nat) (f : Partition → Partition) : (s.modPart p f).cores = s.cores := rfl
@[simp] theorem State.modPart_sheds (s : State) (p : Nat) (f : Partition → Partition) : (s.modPart p f).sheds = s.sheds := rfl
@[simp] theorem State.modPart_svcs (s : State) (p : Nat) (f : Partition → Partition) : (s.modPart p f).svcs = s.svcs := rfl
@[simp] theorem State.modPart_parts (s : State) (p : Nat) (f : Partition → Partition) : (s.modPart p f).parts = s.parts.set p (f (s.part p)) := rfl
@[simp] theorem State.modPart_devices (s : State) (p : Nat) (f : Partition → Partition) : (s.modPart p f).devices = s.devices := rfl
@[simp] theorem State.modPart_jobs (s : State) (p : Nat) (f : Partition → Partition) : (s.modPart p f).jobs = s.jobs := rfl
@[simp] theorem State.modPart_vcmds (s : State) (p : Nat) (f : Partition → Partition) : (s.modPart p f).vcmds = s.vcmds := rfl
@[simp] theorem State.modPart_faults (s : State) (p : Nat) (f : Partition → Partition) : (s.modPart p f).faults = s.faults := rfl
@[simp] theorem State.modPart_bmsgs (s : State) (p : Nat) (f : Partition → Partition) : (s.modPart p f).bmsgs = s.bmsgs := rfl
@[simp] theorem State.modPart_logAreas (s : State) (p : Nat) (f : Partition → Partition) : (s.modPart p f).logAreas = s.logAreas := rfl
@[simp] theorem State.modPart_waits (s : State) (p : Nat) (f : Partition → Partition) : (s.modPart p f).waits = s.waits := rfl
@[simp] theorem State.modPart_watches (s : State) (p : Nat) (f : Partition → Partition) : (s.modPart p f).watches = s.watches := rfl
@[simp] theorem State.modPart_invals (s : State) (p : Nat) (f : Partition → Partition) : (s.modPart p f).invals = s.invals := rfl
@[simp] theorem State.modPart_slices (s : State) (p : Nat) (f : Partition → Partition) : (s.modPart p f).slices = s.slices := rfl
@[simp] theorem State.modPart_tlbs (s : State) (p : Nat) (f : Partition → Partition) : (s.modPart p f).tlbs = s.tlbs := rfl
@[simp] theorem State.modPart_icaches (s : State) (p : Nat) (f : Partition → Partition) : (s.modPart p f).icaches = s.icaches := rfl
@[simp] theorem State.modPart_records (s : State) (p : Nat) (f : Partition → Partition) : (s.modPart p f).records = s.records := rfl
@[simp] theorem State.modPart_pageMigs (s : State) (p : Nat) (f : Partition → Partition) : (s.modPart p f).pageMigs = s.pageMigs := rfl
@[simp] theorem State.modPart_nextRun (s : State) (p : Nat) (f : Partition → Partition) : (s.modPart p f).nextRun = s.nextRun := rfl
@[simp] theorem State.modPart_nextKey (s : State) (p : Nat) (f : Partition → Partition) : (s.modPart p f).nextKey = s.nextKey := rfl
@[simp] theorem State.modPart_badLines (s : State) (p : Nat) (f : Partition → Partition) : (s.modPart p f).badLines = s.badLines := rfl
@[simp] theorem State.modPart_hostOut (s : State) (p : Nat) (f : Partition → Partition) : (s.modPart p f).hostOut = s.hostOut := rfl
@[simp] theorem State.modPart_mgmtLog (s : State) (p : Nat) (f : Partition → Partition) : (s.modPart p f).mgmtLog = s.mgmtLog := rfl
@[simp] theorem State.modPart_agenda (s : State) (p : Nat) (f : Partition → Partition) : (s.modPart p f).agenda = s.agenda := rfl
@[simp] theorem State.modPart_turn (s : State) (p : Nat) (f : Partition → Partition) : (s.modPart p f).turn = s.turn := rfl
@[simp] theorem State.modPart_cur (s : State) (p : Nat) (f : Partition → Partition) : (s.modPart p f).cur = s.cur := rfl
@[simp] theorem State.modPart_clock (s : State) (p : Nat) (f : Partition → Partition) : (s.modPart p f).clock = s.clock := rfl
@[simp] theorem State.modPart_defer (s : State) (p : Nat) (f : Partition → Partition) : (s.modPart p f).defer = s.defer := rfl
@[simp] theorem State.modPart_free (s : State) (p : Nat) (f : Partition → Partition) : (s.modPart p f).free = s.free := rfl
@[simp] theorem State.modPart_reads (s : State) (p : Nat) (f : Partition → Partition) : (s.modPart p f).reads = s.reads := rfl

/-! ### modDevice -/

@[simp] theorem State.modDevice_mem (s : State) (d : Nat) (f : Device → Device) : (s.modDevice d f).mem = s.mem := rfl
@[simp] theorem State.modDevice_threads (s : State) (d : Nat) (f : Device → Device) : (s.modDevice d f).threads = s.threads := rfl
@[simp] theorem State.modDevice_runs (s : State) (d : Nat) (f : Device → Device) : (s.modDevice d f).runs = s.runs := rfl
@[simp] theorem State.modDevice_lsheds (s : State) (d : Nat) (f : Device → Device) : (s.modDevice d f).lsheds = s.lsheds := rfl
@[simp] theorem State.modDevice_groups (s : State) (d : Nat) (f : Device → Device) : (s.modDevice d f).groups = s.groups := rfl
@[simp] theorem State.modDevice_cores (s : State) (d : Nat) (f : Device → Device) : (s.modDevice d f).cores = s.cores := rfl
@[simp] theorem State.modDevice_sheds (s : State) (d : Nat) (f : Device → Device) : (s.modDevice d f).sheds = s.sheds := rfl
@[simp] theorem State.modDevice_svcs (s : State) (d : Nat) (f : Device → Device) : (s.modDevice d f).svcs = s.svcs := rfl
@[simp] theorem State.modDevice_parts (s : State) (d : Nat) (f : Device → Device) : (s.modDevice d f).parts = s.parts := rfl
@[simp] theorem State.modDevice_devices (s : State) (d : Nat) (f : Device → Device) : (s.modDevice d f).devices = s.devices.set d (f (s.device d)) := rfl
@[simp] theorem State.modDevice_jobs (s : State) (d : Nat) (f : Device → Device) : (s.modDevice d f).jobs = s.jobs := rfl
@[simp] theorem State.modDevice_vcmds (s : State) (d : Nat) (f : Device → Device) : (s.modDevice d f).vcmds = s.vcmds := rfl
@[simp] theorem State.modDevice_faults (s : State) (d : Nat) (f : Device → Device) : (s.modDevice d f).faults = s.faults := rfl
@[simp] theorem State.modDevice_bmsgs (s : State) (d : Nat) (f : Device → Device) : (s.modDevice d f).bmsgs = s.bmsgs := rfl
@[simp] theorem State.modDevice_logAreas (s : State) (d : Nat) (f : Device → Device) : (s.modDevice d f).logAreas = s.logAreas := rfl
@[simp] theorem State.modDevice_waits (s : State) (d : Nat) (f : Device → Device) : (s.modDevice d f).waits = s.waits := rfl
@[simp] theorem State.modDevice_watches (s : State) (d : Nat) (f : Device → Device) : (s.modDevice d f).watches = s.watches := rfl
@[simp] theorem State.modDevice_invals (s : State) (d : Nat) (f : Device → Device) : (s.modDevice d f).invals = s.invals := rfl
@[simp] theorem State.modDevice_slices (s : State) (d : Nat) (f : Device → Device) : (s.modDevice d f).slices = s.slices := rfl
@[simp] theorem State.modDevice_tlbs (s : State) (d : Nat) (f : Device → Device) : (s.modDevice d f).tlbs = s.tlbs := rfl
@[simp] theorem State.modDevice_icaches (s : State) (d : Nat) (f : Device → Device) : (s.modDevice d f).icaches = s.icaches := rfl
@[simp] theorem State.modDevice_records (s : State) (d : Nat) (f : Device → Device) : (s.modDevice d f).records = s.records := rfl
@[simp] theorem State.modDevice_pageMigs (s : State) (d : Nat) (f : Device → Device) : (s.modDevice d f).pageMigs = s.pageMigs := rfl
@[simp] theorem State.modDevice_nextRun (s : State) (d : Nat) (f : Device → Device) : (s.modDevice d f).nextRun = s.nextRun := rfl
@[simp] theorem State.modDevice_nextKey (s : State) (d : Nat) (f : Device → Device) : (s.modDevice d f).nextKey = s.nextKey := rfl
@[simp] theorem State.modDevice_badLines (s : State) (d : Nat) (f : Device → Device) : (s.modDevice d f).badLines = s.badLines := rfl
@[simp] theorem State.modDevice_hostOut (s : State) (d : Nat) (f : Device → Device) : (s.modDevice d f).hostOut = s.hostOut := rfl
@[simp] theorem State.modDevice_mgmtLog (s : State) (d : Nat) (f : Device → Device) : (s.modDevice d f).mgmtLog = s.mgmtLog := rfl
@[simp] theorem State.modDevice_agenda (s : State) (d : Nat) (f : Device → Device) : (s.modDevice d f).agenda = s.agenda := rfl
@[simp] theorem State.modDevice_turn (s : State) (d : Nat) (f : Device → Device) : (s.modDevice d f).turn = s.turn := rfl
@[simp] theorem State.modDevice_cur (s : State) (d : Nat) (f : Device → Device) : (s.modDevice d f).cur = s.cur := rfl
@[simp] theorem State.modDevice_clock (s : State) (d : Nat) (f : Device → Device) : (s.modDevice d f).clock = s.clock := rfl
@[simp] theorem State.modDevice_defer (s : State) (d : Nat) (f : Device → Device) : (s.modDevice d f).defer = s.defer := rfl
@[simp] theorem State.modDevice_free (s : State) (d : Nat) (f : Device → Device) : (s.modDevice d f).free = s.free := rfl
@[simp] theorem State.modDevice_reads (s : State) (d : Nat) (f : Device → Device) : (s.modDevice d f).reads = s.reads := rfl

/-! ### post -/

@[simp] theorem State.post_mem (s : State) (e : Event) : (s.post e).mem = s.mem := rfl
@[simp] theorem State.post_threads (s : State) (e : Event) : (s.post e).threads = s.threads := rfl
@[simp] theorem State.post_runs (s : State) (e : Event) : (s.post e).runs = s.runs := rfl
@[simp] theorem State.post_lsheds (s : State) (e : Event) : (s.post e).lsheds = s.lsheds := rfl
@[simp] theorem State.post_groups (s : State) (e : Event) : (s.post e).groups = s.groups := rfl
@[simp] theorem State.post_cores (s : State) (e : Event) : (s.post e).cores = s.cores := rfl
@[simp] theorem State.post_sheds (s : State) (e : Event) : (s.post e).sheds = s.sheds := rfl
@[simp] theorem State.post_svcs (s : State) (e : Event) : (s.post e).svcs = s.svcs := rfl
@[simp] theorem State.post_parts (s : State) (e : Event) : (s.post e).parts = s.parts := rfl
@[simp] theorem State.post_devices (s : State) (e : Event) : (s.post e).devices = s.devices := rfl
@[simp] theorem State.post_jobs (s : State) (e : Event) : (s.post e).jobs = s.jobs := rfl
@[simp] theorem State.post_vcmds (s : State) (e : Event) : (s.post e).vcmds = s.vcmds := rfl
@[simp] theorem State.post_faults (s : State) (e : Event) : (s.post e).faults = s.faults := rfl
@[simp] theorem State.post_bmsgs (s : State) (e : Event) : (s.post e).bmsgs = s.bmsgs := rfl
@[simp] theorem State.post_logAreas (s : State) (e : Event) : (s.post e).logAreas = s.logAreas := rfl
@[simp] theorem State.post_waits (s : State) (e : Event) : (s.post e).waits = s.waits := rfl
@[simp] theorem State.post_watches (s : State) (e : Event) : (s.post e).watches = s.watches := rfl
@[simp] theorem State.post_invals (s : State) (e : Event) : (s.post e).invals = s.invals := rfl
@[simp] theorem State.post_slices (s : State) (e : Event) : (s.post e).slices = s.slices := rfl
@[simp] theorem State.post_tlbs (s : State) (e : Event) : (s.post e).tlbs = s.tlbs := rfl
@[simp] theorem State.post_icaches (s : State) (e : Event) : (s.post e).icaches = s.icaches := rfl
@[simp] theorem State.post_records (s : State) (e : Event) : (s.post e).records = s.records := rfl
@[simp] theorem State.post_pageMigs (s : State) (e : Event) : (s.post e).pageMigs = s.pageMigs := rfl
@[simp] theorem State.post_nextRun (s : State) (e : Event) : (s.post e).nextRun = s.nextRun := rfl
@[simp] theorem State.post_nextKey (s : State) (e : Event) : (s.post e).nextKey = s.nextKey := rfl
@[simp] theorem State.post_badLines (s : State) (e : Event) : (s.post e).badLines = s.badLines := rfl
@[simp] theorem State.post_hostOut (s : State) (e : Event) : (s.post e).hostOut = s.hostOut := rfl
@[simp] theorem State.post_mgmtLog (s : State) (e : Event) : (s.post e).mgmtLog = s.mgmtLog := rfl
@[simp] theorem State.post_agenda (s : State) (e : Event) : (s.post e).agenda = s.agenda ++ [e] := rfl
@[simp] theorem State.post_turn (s : State) (e : Event) : (s.post e).turn = s.turn := rfl
@[simp] theorem State.post_cur (s : State) (e : Event) : (s.post e).cur = s.cur := rfl
@[simp] theorem State.post_clock (s : State) (e : Event) : (s.post e).clock = s.clock := rfl
@[simp] theorem State.post_defer (s : State) (e : Event) : (s.post e).defer = s.defer := rfl
@[simp] theorem State.post_free (s : State) (e : Event) : (s.post e).free = s.free := rfl
@[simp] theorem State.post_reads (s : State) (e : Event) : (s.post e).reads = s.reads := rfl

/-! ### setHart -/

@[simp] theorem State.setHart_mem (s : State) (h : Hart) : (s.setHart h).mem = s.mem := by
  unfold State.setHart; split <;> rfl
@[simp] theorem State.setHart_runs (s : State) (h : Hart) : (s.setHart h).runs = s.runs := by
  unfold State.setHart; split <;> rfl
@[simp] theorem State.setHart_lsheds (s : State) (h : Hart) : (s.setHart h).lsheds = s.lsheds := by
  unfold State.setHart; split <;> rfl
@[simp] theorem State.setHart_groups (s : State) (h : Hart) : (s.setHart h).groups = s.groups := by
  unfold State.setHart; split <;> rfl
@[simp] theorem State.setHart_cores (s : State) (h : Hart) : (s.setHart h).cores = s.cores := by
  unfold State.setHart; split <;> rfl
@[simp] theorem State.setHart_sheds (s : State) (h : Hart) : (s.setHart h).sheds = s.sheds := by
  unfold State.setHart; split <;> rfl
@[simp] theorem State.setHart_parts (s : State) (h : Hart) : (s.setHart h).parts = s.parts := by
  unfold State.setHart; split <;> rfl
@[simp] theorem State.setHart_devices (s : State) (h : Hart) : (s.setHart h).devices = s.devices := by
  unfold State.setHart; split <;> rfl
@[simp] theorem State.setHart_jobs (s : State) (h : Hart) : (s.setHart h).jobs = s.jobs := by
  unfold State.setHart; split <;> rfl
@[simp] theorem State.setHart_vcmds (s : State) (h : Hart) : (s.setHart h).vcmds = s.vcmds := by
  unfold State.setHart; split <;> rfl
@[simp] theorem State.setHart_faults (s : State) (h : Hart) : (s.setHart h).faults = s.faults := by
  unfold State.setHart; split <;> rfl
@[simp] theorem State.setHart_bmsgs (s : State) (h : Hart) : (s.setHart h).bmsgs = s.bmsgs := by
  unfold State.setHart; split <;> rfl
@[simp] theorem State.setHart_logAreas (s : State) (h : Hart) : (s.setHart h).logAreas = s.logAreas := by
  unfold State.setHart; split <;> rfl
@[simp] theorem State.setHart_waits (s : State) (h : Hart) : (s.setHart h).waits = s.waits := by
  unfold State.setHart; split <;> rfl
@[simp] theorem State.setHart_watches (s : State) (h : Hart) : (s.setHart h).watches = s.watches := by
  unfold State.setHart; split <;> rfl
@[simp] theorem State.setHart_invals (s : State) (h : Hart) : (s.setHart h).invals = s.invals := by
  unfold State.setHart; split <;> rfl
@[simp] theorem State.setHart_slices (s : State) (h : Hart) : (s.setHart h).slices = s.slices := by
  unfold State.setHart; split <;> rfl
@[simp] theorem State.setHart_tlbs (s : State) (h : Hart) : (s.setHart h).tlbs = s.tlbs := by
  unfold State.setHart; split <;> rfl
@[simp] theorem State.setHart_icaches (s : State) (h : Hart) : (s.setHart h).icaches = s.icaches := by
  unfold State.setHart; split <;> rfl
@[simp] theorem State.setHart_records (s : State) (h : Hart) : (s.setHart h).records = s.records := by
  unfold State.setHart; split <;> rfl
@[simp] theorem State.setHart_pageMigs (s : State) (h : Hart) : (s.setHart h).pageMigs = s.pageMigs := by
  unfold State.setHart; split <;> rfl
@[simp] theorem State.setHart_nextRun (s : State) (h : Hart) : (s.setHart h).nextRun = s.nextRun := by
  unfold State.setHart; split <;> rfl
@[simp] theorem State.setHart_nextKey (s : State) (h : Hart) : (s.setHart h).nextKey = s.nextKey := by
  unfold State.setHart; split <;> rfl
@[simp] theorem State.setHart_badLines (s : State) (h : Hart) : (s.setHart h).badLines = s.badLines := by
  unfold State.setHart; split <;> rfl
@[simp] theorem State.setHart_hostOut (s : State) (h : Hart) : (s.setHart h).hostOut = s.hostOut := by
  unfold State.setHart; split <;> rfl
@[simp] theorem State.setHart_mgmtLog (s : State) (h : Hart) : (s.setHart h).mgmtLog = s.mgmtLog := by
  unfold State.setHart; split <;> rfl
@[simp] theorem State.setHart_agenda (s : State) (h : Hart) : (s.setHart h).agenda = s.agenda := by
  unfold State.setHart; split <;> rfl
@[simp] theorem State.setHart_turn (s : State) (h : Hart) : (s.setHart h).turn = s.turn := by
  unfold State.setHart; split <;> rfl
@[simp] theorem State.setHart_cur (s : State) (h : Hart) : (s.setHart h).cur = s.cur := by
  unfold State.setHart; split <;> rfl
@[simp] theorem State.setHart_clock (s : State) (h : Hart) : (s.setHart h).clock = s.clock := by
  unfold State.setHart; split <;> rfl
@[simp] theorem State.setHart_defer (s : State) (h : Hart) : (s.setHart h).defer = s.defer := by
  unfold State.setHart; split <;> rfl
@[simp] theorem State.setHart_free (s : State) (h : Hart) : (s.setHart h).free = s.free := by
  unfold State.setHart; split <;> rfl
@[simp] theorem State.setHart_reads (s : State) (h : Hart) : (s.setHart h).reads = s.reads := by
  unfold State.setHart; split <;> rfl

/-! ### modCur -/

@[simp] theorem State.modCur_mem (s : State) (f : Thread → Thread) : (s.modCur f).mem = s.mem := by
  unfold State.modCur; split <;> rfl
@[simp] theorem State.modCur_runs (s : State) (f : Thread → Thread) : (s.modCur f).runs = s.runs := by
  unfold State.modCur; split <;> rfl
@[simp] theorem State.modCur_lsheds (s : State) (f : Thread → Thread) : (s.modCur f).lsheds = s.lsheds := by
  unfold State.modCur; split <;> rfl
@[simp] theorem State.modCur_groups (s : State) (f : Thread → Thread) : (s.modCur f).groups = s.groups := by
  unfold State.modCur; split <;> rfl
@[simp] theorem State.modCur_cores (s : State) (f : Thread → Thread) : (s.modCur f).cores = s.cores := by
  unfold State.modCur; split <;> rfl
@[simp] theorem State.modCur_sheds (s : State) (f : Thread → Thread) : (s.modCur f).sheds = s.sheds := by
  unfold State.modCur; split <;> rfl
@[simp] theorem State.modCur_parts (s : State) (f : Thread → Thread) : (s.modCur f).parts = s.parts := by
  unfold State.modCur; split <;> rfl
@[simp] theorem State.modCur_devices (s : State) (f : Thread → Thread) : (s.modCur f).devices = s.devices := by
  unfold State.modCur; split <;> rfl
@[simp] theorem State.modCur_jobs (s : State) (f : Thread → Thread) : (s.modCur f).jobs = s.jobs := by
  unfold State.modCur; split <;> rfl
@[simp] theorem State.modCur_vcmds (s : State) (f : Thread → Thread) : (s.modCur f).vcmds = s.vcmds := by
  unfold State.modCur; split <;> rfl
@[simp] theorem State.modCur_faults (s : State) (f : Thread → Thread) : (s.modCur f).faults = s.faults := by
  unfold State.modCur; split <;> rfl
@[simp] theorem State.modCur_bmsgs (s : State) (f : Thread → Thread) : (s.modCur f).bmsgs = s.bmsgs := by
  unfold State.modCur; split <;> rfl
@[simp] theorem State.modCur_logAreas (s : State) (f : Thread → Thread) : (s.modCur f).logAreas = s.logAreas := by
  unfold State.modCur; split <;> rfl
@[simp] theorem State.modCur_waits (s : State) (f : Thread → Thread) : (s.modCur f).waits = s.waits := by
  unfold State.modCur; split <;> rfl
@[simp] theorem State.modCur_watches (s : State) (f : Thread → Thread) : (s.modCur f).watches = s.watches := by
  unfold State.modCur; split <;> rfl
@[simp] theorem State.modCur_invals (s : State) (f : Thread → Thread) : (s.modCur f).invals = s.invals := by
  unfold State.modCur; split <;> rfl
@[simp] theorem State.modCur_slices (s : State) (f : Thread → Thread) : (s.modCur f).slices = s.slices := by
  unfold State.modCur; split <;> rfl
@[simp] theorem State.modCur_tlbs (s : State) (f : Thread → Thread) : (s.modCur f).tlbs = s.tlbs := by
  unfold State.modCur; split <;> rfl
@[simp] theorem State.modCur_icaches (s : State) (f : Thread → Thread) : (s.modCur f).icaches = s.icaches := by
  unfold State.modCur; split <;> rfl
@[simp] theorem State.modCur_records (s : State) (f : Thread → Thread) : (s.modCur f).records = s.records := by
  unfold State.modCur; split <;> rfl
@[simp] theorem State.modCur_pageMigs (s : State) (f : Thread → Thread) : (s.modCur f).pageMigs = s.pageMigs := by
  unfold State.modCur; split <;> rfl
@[simp] theorem State.modCur_nextRun (s : State) (f : Thread → Thread) : (s.modCur f).nextRun = s.nextRun := by
  unfold State.modCur; split <;> rfl
@[simp] theorem State.modCur_nextKey (s : State) (f : Thread → Thread) : (s.modCur f).nextKey = s.nextKey := by
  unfold State.modCur; split <;> rfl
@[simp] theorem State.modCur_badLines (s : State) (f : Thread → Thread) : (s.modCur f).badLines = s.badLines := by
  unfold State.modCur; split <;> rfl
@[simp] theorem State.modCur_hostOut (s : State) (f : Thread → Thread) : (s.modCur f).hostOut = s.hostOut := by
  unfold State.modCur; split <;> rfl
@[simp] theorem State.modCur_mgmtLog (s : State) (f : Thread → Thread) : (s.modCur f).mgmtLog = s.mgmtLog := by
  unfold State.modCur; split <;> rfl
@[simp] theorem State.modCur_agenda (s : State) (f : Thread → Thread) : (s.modCur f).agenda = s.agenda := by
  unfold State.modCur; split <;> rfl
@[simp] theorem State.modCur_turn (s : State) (f : Thread → Thread) : (s.modCur f).turn = s.turn := by
  unfold State.modCur; split <;> rfl
@[simp] theorem State.modCur_cur (s : State) (f : Thread → Thread) : (s.modCur f).cur = s.cur := by
  unfold State.modCur; split <;> rfl
@[simp] theorem State.modCur_clock (s : State) (f : Thread → Thread) : (s.modCur f).clock = s.clock := by
  unfold State.modCur; split <;> rfl
@[simp] theorem State.modCur_defer (s : State) (f : Thread → Thread) : (s.modCur f).defer = s.defer := by
  unfold State.modCur; split <;> rfl
@[simp] theorem State.modCur_free (s : State) (f : Thread → Thread) : (s.modCur f).free = s.free := by
  unfold State.modCur; split <;> rfl
@[simp] theorem State.modCur_reads (s : State) (f : Thread → Thread) : (s.modCur f).reads = s.reads := by
  unfold State.modCur; split <;> rfl

@[simp] theorem State.modCur_svcs (s : State) (f : Thread → Thread) : (s.modCur f).svcs = s.svcs := by
  unfold State.modCur; split <;> rfl

/-! ### Records after updates -/

@[simp] theorem State.core_setCore_self (s : State) (c : Nat) (x : Core) : (s.setCore c x).core c = x := by
  simp [State.core]
theorem State.core_setCore_of_ne (s : State) {c j : Nat} (h' : j ≠ c) (x : Core) : (s.setCore c x).core j = s.core j := by
  simp [State.core, Map.getD_set_of_ne _ h']
@[simp] theorem State.core_modCore_self (s : State) (c : Nat) (f : Core → Core) : (s.modCore c f).core c = f (s.core c) := by
  simp [State.modCore]
theorem State.core_modCore_of_ne (s : State) {c j : Nat} (h' : j ≠ c) (f : Core → Core) : (s.modCore c f).core j = s.core j :=
  State.core_setCore_of_ne s h' _
@[simp] theorem State.shed_setShed_self (s : State) (h : Nat) (x : Shed) : (s.setShed h x).shed h = x := by
  simp [State.shed]
theorem State.shed_setShed_of_ne (s : State) {h j : Nat} (h' : j ≠ h) (x : Shed) : (s.setShed h x).shed j = s.shed j := by
  simp [State.shed, Map.getD_set_of_ne _ h']
@[simp] theorem State.shed_modShed_self (s : State) (h : Nat) (f : Shed → Shed) : (s.modShed h f).shed h = f (s.shed h) := by
  simp [State.modShed]
theorem State.shed_modShed_of_ne (s : State) {h j : Nat} (h' : j ≠ h) (f : Shed → Shed) : (s.modShed h f).shed j = s.shed j :=
  State.shed_setShed_of_ne s h' _
@[simp] theorem State.svc_setSvc_self (s : State) (n : Nat) (x : Svc) : (s.setSvc n x).svc n = x := by
  simp [State.svc]
theorem State.svc_setSvc_of_ne (s : State) {n j : Nat} (h' : j ≠ n) (x : Svc) : (s.setSvc n x).svc j = s.svc j := by
  simp [State.svc, Map.getD_set_of_ne _ h']
@[simp] theorem State.svc_modSvc_self (s : State) (n : Nat) (f : Svc → Svc) : (s.modSvc n f).svc n = f (s.svc n) := by
  simp [State.modSvc]
theorem State.svc_modSvc_of_ne (s : State) {n j : Nat} (h' : j ≠ n) (f : Svc → Svc) : (s.modSvc n f).svc j = s.svc j :=
  State.svc_setSvc_of_ne s h' _
@[simp] theorem State.part_setPart_self (s : State) (p : Nat) (x : Partition) : (s.setPart p x).part p = x := by
  simp [State.part]
theorem State.part_setPart_of_ne (s : State) {p j : Nat} (h' : j ≠ p) (x : Partition) : (s.setPart p x).part j = s.part j := by
  simp [State.part, Map.getD_set_of_ne _ h']
@[simp] theorem State.part_modPart_self (s : State) (p : Nat) (f : Partition → Partition) : (s.modPart p f).part p = f (s.part p) := by
  simp [State.modPart]
theorem State.part_modPart_of_ne (s : State) {p j : Nat} (h' : j ≠ p) (f : Partition → Partition) : (s.modPart p f).part j = s.part j :=
  State.part_setPart_of_ne s h' _
@[simp] theorem State.device_setDevice_self (s : State) (d : Nat) (x : Device) : (s.setDevice d x).device d = x := by
  simp [State.device]
theorem State.device_setDevice_of_ne (s : State) {d j : Nat} (h' : j ≠ d) (x : Device) : (s.setDevice d x).device j = s.device j := by
  simp [State.device, Map.getD_set_of_ne _ h']
@[simp] theorem State.device_modDevice_self (s : State) (d : Nat) (f : Device → Device) : (s.modDevice d f).device d = f (s.device d) := by
  simp [State.modDevice]
theorem State.device_modDevice_of_ne (s : State) {d j : Nat} (h' : j ≠ d) (f : Device → Device) : (s.modDevice d f).device j = s.device j :=
  State.device_setDevice_of_ne s h' _

/-! ### The current hart -/

theorem State.hart_of_thread {s : State} {tid : Nat} {t : Thread} (hc : s.cur = .thread tid) (ht : s.threads.get tid = some t) :
    s.hart = t.hart := by
  simp [State.hart, hc, ht]

theorem State.hart_of_svc {s : State} {n : Nat} (hc : s.cur = .svc n) : s.hart = (s.svc n).hart := by
  simp [State.hart, hc]

/-- A hart that is there reads as it was set. -/
theorem State.hart_setHart {s : State} (h : Hart) (there : ∀ tid, s.cur = .thread tid → (s.threads.get tid).isSome = true) :
    (s.setHart h).hart = h := by
  unfold State.setHart State.hart
  cases hc : s.cur with
  | thread tid =>
    have := there tid hc
    cases ht : s.threads.get tid with
    | none => simp [ht] at this
    | some t => simp [hc, ht]
  | svc n => simp [hc, State.svc, State.modSvc, State.setSvc]

theorem State.setHart_thread {s : State} {tid : Nat} (hc : s.cur = .thread tid) (h : Hart) :
    s.setHart h = s.modThread tid (fun x => { x with hart := h }) := by
  simp [State.setHart, hc]

theorem State.setHart_svc {s : State} {n : Nat} (hc : s.cur = .svc n) (h : Hart) :
    s.setHart h = s.modSvc n (fun x => { x with hart := h }) := by
  simp [State.setHart, hc]

end Sys2Proof.Machine
end

