-- ==== Sys2Proof/Laws/Ops.lean ====
section
/-! SUPPORT. One lemma for each shared operation of the machine that says what it can do. -/

namespace Sys2Proof.Machine

/-! ### Two updates of one record -/

theorem State.setHart_setHart (s : State) (g h : Hart) : (s.setHart g).setHart h = s.setHart h := by
  unfold State.setHart
  cases hc : s.cur with
  | thread tid => simp [hc, State.modThread, Map.modify_modify, Function.comp_def]
  | svc n => simp [hc, State.modSvc, State.setSvc, State.svc, Map.set_set]

/-! ### Outcomes -/

/-- A body whose rest goes on was placed first. -/
theorem placed_then {x : M (State × Place)} {rest : State × Place → M (State × Place)} {r : State × Place}
    (h : x.bind rest = .ok r) : ∃ v, x = .ok v ∧ rest v = .ok r := by
  match x with
  | .ok v => exact ⟨v, rfl, h⟩

@[simp] theorem complete_ok (s t : State) : complete s (.ok t) = .next t := rfl

@[simp] theorem complete_error (s : State) (e : Exc) :
    complete s (.error e) = .next { takeExc s e with free := (takeExc s e).free + 1 } := rfl

/-- What an instruction's body gives is a next state, whether it ends or is stopped. -/
theorem complete_next (s : State) (r : M State) : ∃ t, complete s r = .next t := by
  cases r <;> exact ⟨_, rfl⟩

/-! ### Reading sources -/

/-- Registers that are all live are read with no effect. -/
theorem readRegs_of_live (s : State) (rs : List Reg) (h : ∀ r ∈ rs, s.hart.isDead r = false) : readRegs s rs = .ok s := by
  unfold readRegs
  rw [List.find?_eq_none.2 (fun r hr => by simp [h r hr])]

/-- A dead register sets DEAD in a run that does not trap. -/
theorem readRegs_of_dead (s : State) (rs : List Reg) (h : rs.any s.hart.isDead = true) (hd : s.drt = false) :
    readRegs s rs = .ok (s.setHart { s.hart with dead := true }) := by
  unfold readRegs
  cases e : rs.find? s.hart.isDead with
  | none =>
    rw [List.find?_eq_none] at e
    obtain ⟨r, hr, hr'⟩ := List.any_eq_true.1 h
    exact absurd hr' (e r hr)
  | some r => simp [hd]

/-- The first dead register traps in a run that traps. -/
theorem readRegs_traps (s : State) (rs : List Reg) (r : Reg) (h : rs.find? s.hart.isDead = some r) (hd : s.drt = true) :
    readRegs s rs = .error (.trap 1 0 (BitVec.ofNat 64 r.val)) := by
  unfold readRegs
  simp [h, hd]

theorem seqCheck_ok (s : State) (h : s.hart.pc ≠ 0xFFFFFFFFFFFFC#52) : seqCheck s = .ok () := by
  unfold seqCheck
  rw [if_neg h]

theorem seqCheck_traps (s : State) (h : s.hart.pc = 0xFFFFFFFFFFFFC#52) :
    seqCheck s = .error (.trap 4 0 (s.hart.pc.setWidth 64)) := by
  unfold seqCheck
  rw [if_pos h]

/-! ### Addresses -/

/-- R28: exactly the accesses that have an effective address. -/
theorem effAddr_ok_iff (a : Word) (off : Int) (n ea : Nat) :
    effAddr a off n = .ok ea ↔
      bits a 53 52 = 0 ∧ (ea : Int) = (bits a 51 0 : Int) + off ∧ ea < 2 ^ 52 ∧ ea % n = 0 := by
  unfold effAddr
  by_cases must : bits a 53 52 = 0
  · rw [if_neg (Decidable.not_not.2 must)]
    generalize (bits a 51 0 : Int) + off = place
    by_cases inside : 0 ≤ place ∧ place < 2 ^ 52
    · rw [if_neg (by simp only [Bool.or_eq_true, decide_eq_true_eq]; omega)]
      have size : (ea : Int) = place ↔ place.toNat = ea := by omega
      rw [size]
      by_cases aligned : place.toNat % n = 0
      · rw [if_neg (Decidable.not_not.2 aligned)]
        exact ⟨fun e => by cases e; exact ⟨must, rfl, by omega, aligned⟩, fun e => by rw [e.2.1]⟩
      · rw [if_pos aligned]
        exact ⟨nofun, fun e => absurd (e.2.1 ▸ e.2.2.2) aligned⟩
    · rw [if_pos (by simp only [Bool.or_eq_true, decide_eq_true_eq]; omega)]
      exact ⟨nofun, fun e => by omega⟩
  · rw [if_pos must]
    exact ⟨nofun, fun e => absurd e.1 must⟩

/-! ### Places -/

/-- A translation changes nothing but what the TLBs hold. -/
def OnlyTlb (s u : State) : Prop := u = { s with tlbs := u.tlbs }

theorem OnlyTlb.refl (s : State) : OnlyTlb s s := rfl

theorem noteFound_onlyTlb (s : State) (e : TlbEntry) : OnlyTlb s (noteFound s e) := by
  unfold noteFound
  dsimp only
  split <;> rfl

theorem ask_onlyTlb (s : State) (p dev va : Nat) (l : List TlbBank) : OnlyTlb s (ask s p dev va l).1 := by
  induction l with
  | nil =>
    unfold ask
    split
    · exact noteFound_onlyTlb s _
    · rfl
  | cons b later ih =>
    unfold ask
    split
    · rfl
    · split
      · next heq => rw [heq] at ih; simp only [OnlyTlb] at ih ⊢; rw [ih]
      · exact ih

theorem globalPlace_onlyTlb {s u : State} {c : Ctx} {acc : Acc} {va : Nat} {q : Place}
    (h : globalPlace s c acc va = .ok (u, q)) : OnlyTlb s u := by
  have hl : OnlyTlb s (lookup s c acc va).1 := ask_onlyTlb s _ _ _ _
  revert h hl
  unfold globalPlace
  rcases lookup s c acc va with ⟨s', _ | _ | _ | _⟩ <;> intro h hl
  · dsimp only at h
    repeat' split at h
    all_goals simp_all
  all_goals simp at h

theorem placeRaw_onlyTlb {s u : State} {c : Ctx} {acc : Acc} {ea : Nat} {q : Place} (h : placeRaw s c acc ea = .ok (u, q)) :
    OnlyTlb s u := by
  have near {r : Nat} {co : Coord} (h : (nearPlace s r co acc ea).map (fun p => (s, p)) = .ok (u, q)) : OnlyTlb s u := by
    revert h
    rcases nearPlace s r co acc ea <;> simp only [Except.map, Except.ok.injEq, Prod.mk.injEq, reduceCtorEq, false_implies]
    rintro ⟨rfl, -⟩; rfl
  unfold placeRaw at h
  cases c <;> simp only at h <;> repeat' split at h
  all_goals first | exact globalPlace_onlyTlb h | exact near h | (simp at h; obtain ⟨rfl, -⟩ := h; rfl) | (simp at h)

theorem redirect_onlyTlb (s : State) (c : Ctx) (p : Place) : OnlyTlb s (redirect s c p).1 := by
  unfold redirect
  split <;> rfl

/-- The place of an access, whatever stands in its line: memory, the harts and every other part of the state are as before. -/
theorem placeAny_onlyTlb {s u : State} {c : Ctx} {acc : Acc} {ea : Nat} {q : Place} (h : placeAny s c acc ea = .ok (u, q)) :
    OnlyTlb s u := by
  unfold placeAny at h
  rcases e : placeRaw s c acc ea with _ | ⟨v, p⟩
  · simp [e, Except.map] at h
  · simp only [e, Except.map, Except.ok.injEq] at h
    have g : OnlyTlb v u := by
      have g := redirect_onlyTlb v c p
      rwa [h] at g
    have k := placeRaw_onlyTlb e
    unfold OnlyTlb at *
    rw [g, k]

/-- R379, R385: an access that meets no error: its line can be read or is replaced whole, and no link that it crosses has one. -/
theorem errorCheck_ok_iff (s : State) (c : Ctx) (k : Nat) (mends : Bool) :
    errorCheck s c k mends = .ok () ↔
      (mends = true ∨ s.badLines.contains (k / 64) = false) ∧ (keyDev k = c.dev ∨ (s.device c.dev).linkErrors = []) := by
  unfold errorCheck
  cases mends <;> by_cases hb : s.badLines.contains (k / 64) = true <;> by_cases hk : keyDev k = c.dev <;>
    by_cases hl : (s.device c.dev).linkErrors = [] <;> simp_all

/-- The place of an access: memory, the harts and every other part of the state are as before. -/
theorem place_onlyTlb {s u : State} {c : Ctx} {acc : Acc} {ea : Nat} {q : Place} (h : place s c acc ea = .ok (u, q)) :
    OnlyTlb s u := by
  unfold place placeIn at h
  obtain ⟨⟨v, p⟩, e, h⟩ := placed_then h
  have same : v = u := by
    dsimp only at h
    rcases e' : errorCheck v c p.key false with _ | _ <;> simp_all [bind, Except.bind]
  exact same ▸ placeAny_onlyTlb e

theorem place_mem {s u : State} {c : Ctx} {acc : Acc} {ea : Nat} {q : Place} (h : place s c acc ea = .ok (u, q)) : u.mem = s.mem := by
  rw [place_onlyTlb h]

theorem place_threads {s u : State} {c : Ctx} {acc : Acc} {ea : Nat} {q : Place} (h : place s c acc ea = .ok (u, q)) :
    u.threads = s.threads := by
  rw [place_onlyTlb h]

theorem withFetchWord_keeps_wf (s : State) (nbits w : Nat) (h : Memory.wf s.mem = true) :
    Memory.wf (s.withFetchWord nbits w).mem = true :=
  withFetchWord_wf s nbits w h (fun _ _ _ _ _ e => place_mem e)

/-! ### Accesses that are not yet performed -/

/-- A thread with no pending access has nothing to perform. -/
theorem drain_of_none (s : State) (tid : Nat) (h : ∀ t, s.threads.get tid = some t → t.pending = [] ∧ t.loads = []) :
    drain s tid = s := by
  unfold drain performLoads
  rcases e : s.threads.get tid with _ | t
  · simp [e]
  · simp [e, h t e, performStores]

theorem settleInvals_of_none (s : State) (h : s.invals = []) : settleInvals s = s := by
  unfold settleInvals
  rw [h]
  rfl

/-- A release with nothing in flight changes nothing. -/
theorem release_of_settled (s : State) (h : ∀ p ∈ s.threads, p.2.pending = [] ∧ p.2.loads = []) (hi : s.invals = []) :
    release s = s := by
  unfold release
  rcases s.cur with tid | n
  · dsimp only
    rw [drain_of_none s tid (fun t e => h _ (Map.mem_of_get e)), settleInvals_of_none s hi]
  · exact settleInvals_of_none s hi

theorem unwatch_mem (s : State) (h : Nat) (lines : List Nat) : (unwatch s h lines).mem = s.mem := by
  unfold unwatch
  refine foldl_keeps (fun s => s.mem) ?_ _ s
  intro s l
  dsimp only
  split
  · rfl
  · split <;> rfl

theorem invalidate_mem (s : State) (h line : Nat) : (invalidate s h line).mem = s.mem := by
  unfold invalidate
  dsimp only
  rw [unwatch_mem]
  rfl

theorem settleInvals_mem (s : State) : (settleInvals s).mem = s.mem := by
  unfold settleInvals
  refine foldl_keeps (fun s => s.mem) ?_ _ s
  intro s p
  exact invalidate_mem s p.1 p.2

theorem dropRemote_mem (s : State) (d line : Nat) : (dropRemote s d line).mem = s.mem := by
  unfold dropRemote; split <;> rfl

theorem dropCopies_mem (s : State) (c k : Nat) : (dropCopies s c k).mem = s.mem := dropRemote_mem _ _ _

theorem Atomic.perform_wf (a : Atomic) (s : State) (k n : Nat) (h : Memory.wf s.mem = true) :
    Memory.wf (a.perform s k n).1.mem = true := by
  unfold Atomic.perform
  dsimp only
  split
  · exact writeHome_wf _ _ _ h
  · exact h

theorem performStore_wf (tid d : Nat) (s : State) (p : PStore) (h : Memory.wf s.mem = true) :
    Memory.wf (performStore tid d s p).mem = true := by
  unfold performStore
  have settled : Memory.wf (if p.rel then settleInvals s else s).mem = true := by
    split
    · rw [settleInvals_mem]; exact h
    · exact h
  generalize (if p.rel then settleInvals s else s) = s at settled ⊢
  have dropped : Memory.wf (if p.key < 2 ^ 49 then dropRemote s d (p.key / 64) else s).mem = true := by
    split
    · rw [dropRemote_mem]; exact settled
    · exact settled
  dsimp only
  split
  · exact Atomic.perform_wf _ _ _ _ dropped
  · exact writeHome_wf _ _ _ dropped

/-- What every round of a fold keeps in its canonical form stays in it. -/
theorem foldl_wf {α : Type} {f : State → α → State} (step : ∀ s a, Memory.wf s.mem = true → Memory.wf (f s a).mem = true)
    (l : List α) : ∀ s : State, Memory.wf s.mem = true → Memory.wf (l.foldl f s).mem = true := by
  induction l with
  | nil => exact fun _ h => h
  | cons a later ih => exact fun s h => ih _ (step s a h)

theorem performStores_wf (s : State) (tid : Nat) (t : Thread) (r : List PStore × List PStore) (h : Memory.wf s.mem = true) :
    Memory.wf (performStores s tid t r).mem = true := by
  unfold performStores
  split
  · exact h
  · exact foldl_wf (performStore_wf _ _) _ _ h

theorem drainThose_wf (s : State) (tid : Nat) (f : PStore → Bool) (h : Memory.wf s.mem = true) :
    Memory.wf (drainThose s tid f).mem = true := by
  unfold drainThose
  split
  · exact performStores_wf _ _ _ _ h
  · exact h

theorem drainOver_wf (s : State) (tid k n : Nat) (w : Bool) (h : Memory.wf s.mem = true) :
    Memory.wf (drainOver s tid k n w).mem = true := drainThose_wf _ _ _ h

theorem drainLine_wf (s : State) (c line : Nat) (h : Memory.wf s.mem = true) : Memory.wf (drainLine s c line).mem = true := by
  refine foldl_wf (fun s p h => ?_) _ _ h
  split
  · exact drainOver_wf _ _ _ _ _ h
  · exact h

theorem sliceLine_mem (s : State) (d line : Nat) : (sliceLine s d line).1.mem = s.mem := by
  unfold sliceLine
  split
  · rfl
  · split
    · rfl
    · exact dropRemote_mem _ _ _

theorem threadLoad_wf (s : State) (tid : Nat) (t : Thread) (k n : Nat) (cached : Bool) (h : Memory.wf s.mem = true) :
    Memory.wf (threadLoad s tid t k n cached).1.mem = true := by
  unfold threadLoad
  split
  · unfold l1Line
    dsimp only
    split
    · exact h
    · show Memory.wf (sliceLine _ _ _).1.mem = true
      rw [sliceLine_mem]; exact drainLine_wf _ _ _ h
  · dsimp only
    split
    · rw [dropCopies_mem]; exact h
    · exact h

theorem performLoad_wf (tid : Nat) (s : State) (l : PLoad) (h : Memory.wf s.mem = true) :
    Memory.wf (performLoad tid s l).mem = true := by
  unfold performLoad
  split
  · exact threadLoad_wf _ _ _ _ _ _ h
  · exact h

theorem performLoads_wf (s : State) (tid : Nat) (h : Memory.wf s.mem = true) : Memory.wf (performLoads s tid).mem = true := by
  unfold performLoads
  split
  · split
    · exact h
    · exact foldl_wf (performLoad_wf tid) _ _ h
  · exact h

theorem performReturns_wf (s : State) (tid : Nat) (h : Memory.wf s.mem = true) : Memory.wf (performReturns s tid).mem = true :=
  drainThose_wf _ _ _ (performLoads_wf _ _ h)

theorem drain_wf (s : State) (t : Nat) (h : Memory.wf s.mem = true) : Memory.wf (drain s t).mem = true := by
  unfold drain
  dsimp only
  split
  · exact performStores_wf _ _ _ _ (performLoads_wf _ _ h)
  · exact performLoads_wf _ _ h

/-- Before a load of a thread that has nothing pending, nothing is performed. -/
theorem beforeLoad_of_none (s : State) (k n : Nat) (h : ∀ t, s.curThread = some t → t.pending = [] ∧ t.loads = []) :
    beforeLoad s k n = s := by
  unfold beforeLoad
  rcases s.cur with tid | m
  · rcases e : s.curThread with _ | t
    · rfl
    · simp [h t e]
  · rfl

theorem beforeLoad_wf (s : State) (k n : Nat) (h : Memory.wf s.mem = true) : Memory.wf (beforeLoad s k n).mem = true := by
  unfold beforeLoad
  rcases s.cur with tid | m
  · rcases e : s.curThread with _ | t
    · exact h
    · dsimp only
      have g : Memory.wf (if t.loads.any (fun l => decide (l.key < k + n) && decide (k < l.key + l.size)) then performLoads s tid
          else s).mem = true := by
        split
        · exact performLoads_wf s tid h
        · exact h
      split
      · exact drainOver_wf _ tid k n false g
      · exact g
  · exact h

theorem release_wf (s : State) (h : Memory.wf s.mem = true) : Memory.wf (release s).mem = true := by
  unfold release
  rw [settleInvals_mem]
  split
  · exact drain_wf _ _ h
  · exact h

theorem loadBytes_wf (s : State) (p : Place) (plain : Bool) (n : Nat) (h : Memory.wf s.mem = true) :
    Memory.wf (loadBytes s p plain n).1.mem = true := by
  unfold loadBytes
  repeat' split
  all_goals first
    | exact h
    | exact threadLoad_wf _ _ _ _ _ _ h
    | (rw [dropRemote_mem]; exact h)

/-- A fresh load of the current hart keeps the form of memory. -/
theorem loadFresh_wf {s u : State} {ea n v : Nat} (h : Memory.wf s.mem = true) (e : loadFresh s ea n = .ok (u, v)) :
    Memory.wf u.mem = true := by
  unfold loadFresh at e
  rcases a : place s s.ctx .read ea with _ | ⟨w, p⟩
  · simp [a, bind, Except.bind] at e
  · have hw : Memory.wf w.mem = true := by rw [place_mem a]; exact h
    rcases b : openFrame w p.key with _ | _
    · simp [a, b, bind, Except.bind] at e
    · simp only [a, b, bind, Except.bind, Except.ok.injEq, Prod.mk.injEq] at e
      exact e.1 ▸ loadBytes_wf _ p false n (beforeLoad_wf w p.key n hw)

/-- R236: an invalidation leaves memory in its form; where nothing is pending it performs nothing. -/
theorem drainRanges_wf (s : State) (fs : List (Nat × Nat)) (h : Memory.wf s.mem = true) : Memory.wf (drainRanges s fs).mem = true := by
  refine foldl_wf (fun s p h => ?_) _ _ h
  split
  · exact drain_wf _ _ h
  · exact h

theorem drainRanges_of_settled (s : State) (fs : List (Nat × Nat)) (h : ∀ p ∈ s.threads, p.2.pending = [] ∧ p.2.loads = []) :
    drainRanges s fs = s := by
  unfold drainRanges
  dsimp only
  generalize s.threads = l at h
  induction l generalizing s with
  | nil => rfl
  | cons a later ih =>
    have e := h a (.head _)
    simp only [List.foldl_cons, e.1, e.2, List.any_nil, Bool.or_self]
    exact ih s (fun p hp => h p (.tail _ hp))

theorem drainPart_wf (s : State) (p : Nat) (h : Memory.wf s.mem = true) : Memory.wf (drainPart s p).mem = true := by
  refine foldl_wf (fun s t h => ?_) _ _ h
  split
  · exact drain_wf _ _ h
  · exact h

theorem ringSet_mem (s : State) (l q : Nat) (r : Ring) : (ringSet s l q r).mem = s.mem := rfl

/-- A store of a ring changes no hart. -/
theorem ringSet_hart (s : State) (l q tid : Nat) (r : Ring) :
    ((ringSet s l q r).threads.get tid).map (fun t => t.hart) = (s.threads.get tid).map (fun t => t.hart) := by
  unfold ringSet
  simp only [State.modLShed_threads, Map.get_mapVals, Option.map_map]
  congr 1
  funext t
  simp only [Function.comp]
  exact (apply_ite Thread.hart _ _ _).trans (ite_self _)

/-! ### Traps, faults and exceptions -/

theorem postFault_mem (s : State) (f : FaultMsg) : (postFault s f).mem = s.mem := rfl

theorem faultThread_wf (s : State) (tid kind cause : Nat) (a v : Word) (args : List Word) (h : Memory.wf s.mem = true) :
    Memory.wf (faultThread s tid kind cause a v args).mem = true := by
  have h' : Memory.wf (settleInvals (drain s tid)).mem = true := by rw [settleInvals_mem]; exact drain_wf _ _ h
  unfold faultThread
  dsimp only
  split <;> exact h'

theorem meetLink_mem (s : State) (d : Nat) (e : Exc) : (meetLink s d e).mem = s.mem := by
  unfold meetLink; split <;> rfl

theorem joinQueue_mem (s : State) (w : Waiter) (f : Nat) : (joinQueue s w f).mem = s.mem := rfl

theorem unstage_mem (s : State) (tid : Nat) : (unstage s tid).mem = s.mem := rfl

theorem userTrap_wf (s : State) (tid code detail : Nat) (v : Word) (h : Memory.wf s.mem = true) :
    Memory.wf (userTrap s tid code detail v).mem = true := by
  unfold userTrap
  split
  · exact faultThread_wf _ _ _ _ _ _ _ (by rw [meetLink_mem]; exact h)
  · dsimp only
    split
    · exact faultThread_wf _ _ _ _ _ _ _ h
    · split <;> exact h
  · exact h

theorem svcException_mem (s : State) (n kind cause : Nat) (v : Word) (b : BitVec 52) :
    (svcException s n kind cause v b).mem = s.mem := by
  unfold svcException
  dsimp only
  split <;> rfl

/-- Taking what stops an instruction keeps the canonical form of memory. -/
theorem takeExc_wf (s : State) (e : Exc) (h : Memory.wf s.mem = true) : Memory.wf (takeExc s e).mem = true := by
  rw [← meetLink_mem s s.ctx.dev e] at h
  unfold takeExc
  generalize meetLink s s.ctx.dev e = s at h ⊢
  dsimp only
  split
  · cases e with
    | wait w => cases w <;> first | exact h | (dsimp only; rw [joinQueue_mem]; exact h)
    | move => exact h
    | _ => dsimp only; rw [svcException_mem]; exact h
  · next tid _ =>
    have g := performReturns_wf s tid h
    cases e with
    | trap => exact userTrap_wf _ _ _ _ _ g
    | fault => exact faultThread_wf _ _ _ _ _ _ _ g
    | call => exact faultThread_wf _ _ _ _ _ _ _ g
    | wait w => cases w <;> first | exact g | (dsimp only; rw [joinQueue_mem]; exact g)
    | move => exact g

/-- An instruction keeps the canonical form of memory if its body does. -/
theorem complete_wf (s t : State) (r : M State) (h : Memory.wf s.mem = true)
    (hr : ∀ u : State, r = .ok u → Memory.wf u.mem = true) (e : complete s r = .next t) : Memory.wf t.mem = true := by
  cases r with
  | ok u => cases e; exact hr _ rfl
  | error x => cases e; exact takeExc_wf s x h

/-! ### Acquires, the ends of threads, and phaser waits -/

/-- Dropping a core's L1, a device's copies, both or neither changes the L1s and the slices alone. -/
theorem drops_only (s : State) (b c : Bool) (k d : Nat) :
    ∃ cs sl, (let u := if b then dropL1 s k else s; if c then dropSlices u d else u) = { s with cores := cs, slices := sl } := by
  cases b <;> cases c <;> exact ⟨_, _, rfl⟩

/-- An acquire drops copies, and does nothing else (R193). -/
theorem acquireT_only (s : State) (t : Nat) (sc : Scope) :
    ∃ cs sl, acquireT s t sc = { s with cores := cs, slices := sl } := by
  unfold acquireT
  split
  · exact drops_only ..
  · exact ⟨_, _, rfl⟩

/-- So does what the end of a thread leaves at its home (R192). -/
theorem refreshHome_only (s : State) (t : Thread) : ∃ cs sl, refreshHome s t = { s with cores := cs, slices := sl } := by
  unfold refreshHome
  split
  · exact drops_only ..
  · exact ⟨_, _, rfl⟩

/-- R225: before a scratchpad's release memory keeps its form, and where nothing is pending nothing happens. -/
theorem releasePad_wf (s : State) (run : Nat) (c : Coord) (h : Memory.wf s.mem = true) : Memory.wf (releasePad s run c).mem = true := by
  unfold releasePad
  split
  · exact drainRanges_wf _ _ h
  · exact h

theorem releasePad_of_settled (s : State) (run : Nat) (c : Coord) (h : ∀ p ∈ s.threads, p.2.pending = [] ∧ p.2.loads = []) :
    releasePad s run c = s := by
  unfold releasePad
  split
  · exact drainRanges_of_settled _ _ h
  · rfl

/-- R240: at M0 only pending accesses are aimed anew. -/
theorem recallFrame_only (s : State) (old new : Nat) : ∃ ts, recallFrame s old new = { s with threads := ts } := ⟨_, rfl⟩

/-- The answer to a phaser wait changes no memory. -/
theorem phWake_mem (s : State) (run ph t : Nat) (rd : Reg) (w : Word) : (phWake s run ph t rd w).mem = s.mem := by
  unfold phWake
  split
  · obtain ⟨cs, sl, e⟩ := acquireT_only (s.setThread t _) t (phScope s run ph)
    rw [e]
    rfl
  · rfl

theorem phSet_mem (s : State) (run l ph : Nat) (p : Phaser) : (phSet s run l ph p).mem = s.mem := by
  unfold phSet
  split <;> rfl

theorem phDeliver_mem (s : State) (t : Nat) : (phDeliver s t).mem = s.mem := by
  unfold phDeliver
  split
  · split
    · split
      · split
        · exact phWake_mem ..
        · split
          · rw [phWake_mem, phSet_mem]
          · rfl
      · rfl
    · rfl
  · rfl

end Sys2Proof.Machine
end

