-- ==== Sys2Proof/Laws/PerInstr.lean ====
section
/-! SUPPORT. Statements about every instruction, one lemma for each constructor: the words that the encoder writes fit in 32 bits. -/

namespace Sys2Proof.Laws

/-! ### Bounds of the formats -/

theorem num_le (b : Bool) : Bool.num b ≤ 1 := by cases b <;> decide
theorem fmt_lt (f : Fmt) : f.code < 4 := by cases f <;> decide
theorem rnd_lt (r : Rnd) : r.code < 8 := by cases r <;> decide
theorem cvtTy_lt (t : CvtTy) : t.code < 8 := by cases t <;> decide
theorem fpred_lt (p : FPred) : p.code < 4 := by cases p <;> decide
theorem sfnFn_lt (g : SfnFn) : g.code < 12 := by cases g <;> decide
theorem scope_lt (s : Scope) : s.code < 4 := by cases s <;> decide
theorem qual_lt (q : Qual) : q.code < 4 := by cases q <;> decide
theorem wcmp_lt (c : WCmp) : c.code < 4 := by cases c <;> decide
theorem aord_lt (o : AOrd) : o.code < 4 := by cases o <;> decide
theorem fenceKind_lt (k : FenceKind) : k.code < 3 := by cases k <;> decide
theorem phMode_lt (m : PhMode) : m.code < 3 := by cases m <;> decide
theorem phRed_lt (k : PhRed) : k.code < 3 := by cases k <;> decide
theorem port_lt (p : Port) : p.code < 6 := by cases p <;> decide
theorem czW_lt (w : CzW) : w.code < 3 := by cases w <;> decide
theorem msize_lt (z : MSize) : z.code < 4 := by cases z <;> decide

theorem encR_lt {op fn : Nat} (rd : Reg) (ra rb : Src) (ho : op < 128) (hf : fn < 2048) : encR op fn rd ra rb < 2 ^ 32 := by
  have := rd.isLt; have := ra.r.isLt; have := rb.r.isLt; have := num_le ra.last; have := num_le rb.last
  unfold encR; omega

theorem encI_lt {op imm : Nat} (rd : Reg) (ra : Src) (ho : op < 128) (hi : imm < 65536) : encI op rd ra imm < 2 ^ 32 := by
  have := rd.isLt; have := ra.r.isLt; have := num_le ra.last
  unfold encI; omega

theorem encM_lt {op q off : Nat} (rd ra : Src) (ho : op < 128) (hq : q < 8) (hf : off < 4096) : encM op rd ra q off < 2 ^ 32 := by
  have := rd.r.isLt; have := ra.r.isLt; have := num_le ra.last; have := num_le rd.last
  unfold encM; omega

theorem encB_lt {op c off : Nat} (ra rb : Src) (ho : op < 128) (hc : c < 8) (hf : off < 4096) : encB op c ra rb off < 2 ^ 32 := by
  have := ra.r.isLt; have := rb.r.isLt; have := num_le ra.last; have := num_le rb.last
  unfold encB; omega

theorem encZ_lt {op c off : Nat} (ra : Src) (ho : op < 128) (hc : c < 8) (hf : off < 131072) : encZ op c ra off < 2 ^ 32 := by
  have := ra.r.isLt; have := num_le ra.last
  unfold encZ; omega

theorem encJ_lt {op off : Nat} (rd : Reg) (ho : op < 128) (hf : off < 2097152) : encJ op rd off < 2 ^ 32 := by
  have := rd.isLt
  unfold encJ; omega

theorem encK_lt {op idx imm : Nat} (rd : Reg) (ho : op < 128) (hx : idx < 4) (hi : imm < 65536) : encK op rd idx imm < 2 ^ 32 := by
  have := rd.isLt
  unfold encK; omega

theorem encC_lt {op fn sub : Nat} (rd : Reg) (ra rb : Src) (ho : op < 128) (hf : fn < 256) (hs : sub < 8) :
    encC op fn sub rd ra rb < 2 ^ 32 := by
  have := rd.isLt; have := ra.r.isLt; have := rb.r.isLt; have := num_le ra.last; have := num_le rb.last
  unfold encC; omega

theorem encS_lt {op sub imm : Nat} (rd : Reg) (ho : op < 128) (hs : sub < 32) (hi : imm < 65536) : encS op sub imm rd < 2 ^ 32 := by
  have := rd.isLt
  unfold encS; omega

/-- The number that the encoder writes for an instruction fits in a word (R46). -/
def WordFits.Statement (i : Instr) : Prop := ∀ n, i.encodeNat = some n → n < 2 ^ 32

/-! ### One lemma for each constructor -/

theorem WordFits.add (w : Bool) (rd : Reg) (ra : Src) (rb : Src) : WordFits.Statement (.add w rd ra rb) := by
  intro n h; cases h; have := num_le w
  exact encR_lt _ _ _ (by omega) (by omega)
theorem WordFits.sub (w : Bool) (rd : Reg) (ra : Src) (rb : Src) : WordFits.Statement (.sub w rd ra rb) := by
  intro n h; cases h; have := num_le w
  exact encR_lt _ _ _ (by omega) (by omega)
theorem WordFits.mul (w : Bool) (rd : Reg) (ra : Src) (rb : Src) : WordFits.Statement (.mul w rd ra rb) := by
  intro n h; cases h; have := num_le w
  exact encR_lt _ _ _ (by omega) (by omega)
theorem WordFits.mulh (rd : Reg) (ra : Src) (rb : Src) : WordFits.Statement (.mulh rd ra rb) := by
  intro n h; cases h
  exact encR_lt _ _ _ (by omega) (by omega)
theorem WordFits.mulhu (rd : Reg) (ra : Src) (rb : Src) : WordFits.Statement (.mulhu rd ra rb) := by
  intro n h; cases h
  exact encR_lt _ _ _ (by omega) (by omega)
theorem WordFits.div (w : Bool) (rd : Reg) (ra : Src) (rb : Src) : WordFits.Statement (.div w rd ra rb) := by
  intro n h; cases h; have := num_le w
  exact encR_lt _ _ _ (by omega) (by omega)
theorem WordFits.divu (w : Bool) (rd : Reg) (ra : Src) (rb : Src) : WordFits.Statement (.divu w rd ra rb) := by
  intro n h; cases h; have := num_le w
  exact encR_lt _ _ _ (by omega) (by omega)
theorem WordFits.rem (w : Bool) (rd : Reg) (ra : Src) (rb : Src) : WordFits.Statement (.rem w rd ra rb) := by
  intro n h; cases h; have := num_le w
  exact encR_lt _ _ _ (by omega) (by omega)
theorem WordFits.remu (w : Bool) (rd : Reg) (ra : Src) (rb : Src) : WordFits.Statement (.remu w rd ra rb) := by
  intro n h; cases h; have := num_le w
  exact encR_lt _ _ _ (by omega) (by omega)
theorem WordFits.and (rd : Reg) (ra : Src) (rb : Src) : WordFits.Statement (.and rd ra rb) := by
  intro n h; cases h
  exact encR_lt _ _ _ (by omega) (by omega)
theorem WordFits.or (rd : Reg) (ra : Src) (rb : Src) : WordFits.Statement (.or rd ra rb) := by
  intro n h; cases h
  exact encR_lt _ _ _ (by omega) (by omega)
theorem WordFits.xor (rd : Reg) (ra : Src) (rb : Src) : WordFits.Statement (.xor rd ra rb) := by
  intro n h; cases h
  exact encR_lt _ _ _ (by omega) (by omega)
theorem WordFits.andn (rd : Reg) (ra : Src) (rb : Src) : WordFits.Statement (.andn rd ra rb) := by
  intro n h; cases h
  exact encR_lt _ _ _ (by omega) (by omega)
theorem WordFits.orn (rd : Reg) (ra : Src) (rb : Src) : WordFits.Statement (.orn rd ra rb) := by
  intro n h; cases h
  exact encR_lt _ _ _ (by omega) (by omega)
theorem WordFits.shl (w : Bool) (rd : Reg) (ra : Src) (rb : Src) : WordFits.Statement (.shl w rd ra rb) := by
  intro n h; cases h; have := num_le w
  exact encR_lt _ _ _ (by omega) (by omega)
theorem WordFits.shr (w : Bool) (rd : Reg) (ra : Src) (rb : Src) : WordFits.Statement (.shr w rd ra rb) := by
  intro n h; cases h; have := num_le w
  exact encR_lt _ _ _ (by omega) (by omega)
theorem WordFits.sra (w : Bool) (rd : Reg) (ra : Src) (rb : Src) : WordFits.Statement (.sra w rd ra rb) := by
  intro n h; cases h; have := num_le w
  exact encR_lt _ _ _ (by omega) (by omega)
theorem WordFits.rotl (w : Bool) (rd : Reg) (ra : Src) (rb : Src) : WordFits.Statement (.rotl w rd ra rb) := by
  intro n h; cases h; have := num_le w
  exact encR_lt _ _ _ (by omega) (by omega)
theorem WordFits.rotr (w : Bool) (rd : Reg) (ra : Src) (rb : Src) : WordFits.Statement (.rotr w rd ra rb) := by
  intro n h; cases h; have := num_le w
  exact encR_lt _ _ _ (by omega) (by omega)
theorem WordFits.min (rd : Reg) (ra : Src) (rb : Src) : WordFits.Statement (.min rd ra rb) := by
  intro n h; cases h
  exact encR_lt _ _ _ (by omega) (by omega)
theorem WordFits.max (rd : Reg) (ra : Src) (rb : Src) : WordFits.Statement (.max rd ra rb) := by
  intro n h; cases h
  exact encR_lt _ _ _ (by omega) (by omega)
theorem WordFits.minu (rd : Reg) (ra : Src) (rb : Src) : WordFits.Statement (.minu rd ra rb) := by
  intro n h; cases h
  exact encR_lt _ _ _ (by omega) (by omega)
theorem WordFits.maxu (rd : Reg) (ra : Src) (rb : Src) : WordFits.Statement (.maxu rd ra rb) := by
  intro n h; cases h
  exact encR_lt _ _ _ (by omega) (by omega)
theorem WordFits.slt (rd : Reg) (ra : Src) (rb : Src) : WordFits.Statement (.slt rd ra rb) := by
  intro n h; cases h
  exact encR_lt _ _ _ (by omega) (by omega)
theorem WordFits.sltu (rd : Reg) (ra : Src) (rb : Src) : WordFits.Statement (.sltu rd ra rb) := by
  intro n h; cases h
  exact encR_lt _ _ _ (by omega) (by omega)
theorem WordFits.seq (rd : Reg) (ra : Src) (rb : Src) : WordFits.Statement (.seq rd ra rb) := by
  intro n h; cases h
  exact encR_lt _ _ _ (by omega) (by omega)
theorem WordFits.sel (rd : Reg) (ra : Src) (rb : Src) : WordFits.Statement (.sel rd ra rb) := by
  intro n h; cases h
  exact encR_lt _ _ _ (by omega) (by omega)
theorem WordFits.clz (w : Bool) (rd : Reg) (ra : Src) : WordFits.Statement (.clz w rd ra) := by
  intro n h; cases h; have := num_le w
  exact encR_lt _ _ _ (by omega) (by omega)
theorem WordFits.ctz (w : Bool) (rd : Reg) (ra : Src) : WordFits.Statement (.ctz w rd ra) := by
  intro n h; cases h; have := num_le w
  exact encR_lt _ _ _ (by omega) (by omega)
theorem WordFits.popc (w : Bool) (rd : Reg) (ra : Src) : WordFits.Statement (.popc w rd ra) := by
  intro n h; cases h; have := num_le w
  exact encR_lt _ _ _ (by omega) (by omega)
theorem WordFits.sextB (rd : Reg) (ra : Src) : WordFits.Statement (.sextB rd ra) := by
  intro n h; cases h
  exact encR_lt _ _ _ (by omega) (by omega)
theorem WordFits.sextH (rd : Reg) (ra : Src) : WordFits.Statement (.sextH rd ra) := by
  intro n h; cases h
  exact encR_lt _ _ _ (by omega) (by omega)
theorem WordFits.sextW (rd : Reg) (ra : Src) : WordFits.Statement (.sextW rd ra) := by
  intro n h; cases h
  exact encR_lt _ _ _ (by omega) (by omega)
theorem WordFits.zextB (rd : Reg) (ra : Src) : WordFits.Statement (.zextB rd ra) := by
  intro n h; cases h
  exact encR_lt _ _ _ (by omega) (by omega)
theorem WordFits.zextH (rd : Reg) (ra : Src) : WordFits.Statement (.zextH rd ra) := by
  intro n h; cases h
  exact encR_lt _ _ _ (by omega) (by omega)
theorem WordFits.zextW (rd : Reg) (ra : Src) : WordFits.Statement (.zextW rd ra) := by
  intro n h; cases h
  exact encR_lt _ _ _ (by omega) (by omega)
theorem WordFits.addi (rd : Reg) (ra : Src) (imm : BitVec 16) : WordFits.Statement (.addi rd ra imm) := by
  intro n h; cases h; have := imm.isLt
  exact encI_lt _ _ (by omega) (by omega)
theorem WordFits.andi (rd : Reg) (ra : Src) (imm : BitVec 16) : WordFits.Statement (.andi rd ra imm) := by
  intro n h; cases h; have := imm.isLt
  exact encI_lt _ _ (by omega) (by omega)
theorem WordFits.ori (rd : Reg) (ra : Src) (imm : BitVec 16) : WordFits.Statement (.ori rd ra imm) := by
  intro n h; cases h; have := imm.isLt
  exact encI_lt _ _ (by omega) (by omega)
theorem WordFits.xori (rd : Reg) (ra : Src) (imm : BitVec 16) : WordFits.Statement (.xori rd ra imm) := by
  intro n h; cases h; have := imm.isLt
  exact encI_lt _ _ (by omega) (by omega)
theorem WordFits.shli (w : Bool) (rd : Reg) (ra : Src) (amt : BitVec 6) : WordFits.Statement (.shli w rd ra amt) := by
  intro n h; cases h; have := num_le w; have := amt.isLt
  exact encI_lt _ _ (by omega) (by omega)
theorem WordFits.shri (w : Bool) (rd : Reg) (ra : Src) (amt : BitVec 6) : WordFits.Statement (.shri w rd ra amt) := by
  intro n h; cases h; have := num_le w; have := amt.isLt
  exact encI_lt _ _ (by omega) (by omega)
theorem WordFits.srai (w : Bool) (rd : Reg) (ra : Src) (amt : BitVec 6) : WordFits.Statement (.srai w rd ra amt) := by
  intro n h; cases h; have := num_le w; have := amt.isLt
  exact encI_lt _ _ (by omega) (by omega)
theorem WordFits.slti (rd : Reg) (ra : Src) (imm : BitVec 16) : WordFits.Statement (.slti rd ra imm) := by
  intro n h; cases h; have := imm.isLt
  exact encI_lt _ _ (by omega) (by omega)
theorem WordFits.sltiu (rd : Reg) (ra : Src) (imm : BitVec 16) : WordFits.Statement (.sltiu rd ra imm) := by
  intro n h; cases h; have := imm.isLt
  exact encI_lt _ _ (by omega) (by omega)
theorem WordFits.bfx (rd : Reg) (ra : Src) (pos : BitVec 6) (lenM1 : BitVec 6) : WordFits.Statement (.bfx rd ra pos lenM1) := by
  intro n h; cases h; have := pos.isLt; have := lenM1.isLt
  exact encI_lt _ _ (by omega) (by omega)
theorem WordFits.bfi (rd : Reg) (ra : Src) (pos : BitVec 6) (lenM1 : BitVec 6) : WordFits.Statement (.bfi rd ra pos lenM1) := by
  intro n h; cases h; have := pos.isLt; have := lenM1.isLt
  exact encI_lt _ _ (by omega) (by omega)
theorem WordFits.fadd (rnd : Rnd) (f : Fmt) (rd : Reg) (ra : Src) (rb : Src) : WordFits.Statement (.fadd rnd f rd ra rb) := by
  intro n h; cases h; have := rnd_lt rnd; have := fmt_lt f
  exact encR_lt _ _ _ (by omega) (by omega)
theorem WordFits.fsub (rnd : Rnd) (f : Fmt) (rd : Reg) (ra : Src) (rb : Src) : WordFits.Statement (.fsub rnd f rd ra rb) := by
  intro n h; cases h; have := rnd_lt rnd; have := fmt_lt f
  exact encR_lt _ _ _ (by omega) (by omega)
theorem WordFits.fmul (rnd : Rnd) (f : Fmt) (rd : Reg) (ra : Src) (rb : Src) : WordFits.Statement (.fmul rnd f rd ra rb) := by
  intro n h; cases h; have := rnd_lt rnd; have := fmt_lt f
  exact encR_lt _ _ _ (by omega) (by omega)
theorem WordFits.fdiv (rnd : Rnd) (f : Fmt) (rd : Reg) (ra : Src) (rb : Src) : WordFits.Statement (.fdiv rnd f rd ra rb) := by
  intro n h; cases h; have := rnd_lt rnd; have := fmt_lt f
  exact encR_lt _ _ _ (by omega) (by omega)
theorem WordFits.fmin (rnd : Rnd) (f : Fmt) (rd : Reg) (ra : Src) (rb : Src) : WordFits.Statement (.fmin rnd f rd ra rb) := by
  intro n h; cases h; have := rnd_lt rnd; have := fmt_lt f
  exact encR_lt _ _ _ (by omega) (by omega)
theorem WordFits.fmax (rnd : Rnd) (f : Fmt) (rd : Reg) (ra : Src) (rb : Src) : WordFits.Statement (.fmax rnd f rd ra rb) := by
  intro n h; cases h; have := rnd_lt rnd; have := fmt_lt f
  exact encR_lt _ _ _ (by omega) (by omega)
theorem WordFits.fma (rnd : Rnd) (f : Fmt) (rd : Reg) (ra : Src) (rb : Src) : WordFits.Statement (.fma rnd f rd ra rb) := by
  intro n h; cases h; have := rnd_lt rnd; have := fmt_lt f
  exact encC_lt _ _ _ (by omega) (by omega) (by omega)
theorem WordFits.fms (rnd : Rnd) (f : Fmt) (rd : Reg) (ra : Src) (rb : Src) : WordFits.Statement (.fms rnd f rd ra rb) := by
  intro n h; cases h; have := rnd_lt rnd; have := fmt_lt f
  exact encC_lt _ _ _ (by omega) (by omega) (by omega)
theorem WordFits.fsqrt (rnd : Rnd) (f : Fmt) (rd : Reg) (ra : Src) : WordFits.Statement (.fsqrt rnd f rd ra) := by
  intro n h; cases h; have := rnd_lt rnd; have := fmt_lt f
  exact encR_lt _ _ _ (by omega) (by omega)
theorem WordFits.fneg (f : Fmt) (rd : Reg) (ra : Src) : WordFits.Statement (.fneg f rd ra) := by
  intro n h; cases h; have := fmt_lt f
  exact encR_lt _ _ _ (by omega) (by omega)
theorem WordFits.fabs (f : Fmt) (rd : Reg) (ra : Src) : WordFits.Statement (.fabs f rd ra) := by
  intro n h; cases h; have := fmt_lt f
  exact encR_lt _ _ _ (by omega) (by omega)
theorem WordFits.fclass (f : Fmt) (rd : Reg) (ra : Src) : WordFits.Statement (.fclass f rd ra) := by
  intro n h; cases h; have := fmt_lt f
  exact encR_lt _ _ _ (by omega) (by omega)
theorem WordFits.fround (rnd : Rnd) (f : Fmt) (rd : Reg) (ra : Src) : WordFits.Statement (.fround rnd f rd ra) := by
  intro n h; cases h; have := rnd_lt rnd; have := fmt_lt f
  exact encR_lt _ _ _ (by omega) (by omega)
theorem WordFits.fcvt (rnd : Rnd) (dst : CvtTy) (src : CvtTy) (rd : Reg) (ra : Src) : WordFits.Statement (.fcvt rnd dst src rd ra) := by
  intro n h; cases h; have := rnd_lt rnd; have := cvtTy_lt dst; have := cvtTy_lt src
  exact encR_lt _ _ _ (by omega) (by omega)
theorem WordFits.fcmp (f : Fmt) (p : FPred) (rd : Reg) (ra : Src) (rb : Src) : WordFits.Statement (.fcmp f p rd ra rb) := by
  intro n h; cases h; have := fmt_lt f; have := fpred_lt p
  exact encR_lt _ _ _ (by omega) (by omega)
theorem WordFits.sfn (fn : SfnFn) (rd : Reg) (ra : Src) : WordFits.Statement (.sfn fn rd ra) := by
  intro n h; cases h; have := sfnFn_lt fn
  exact encR_lt _ _ _ (by omega) (by omega)
theorem WordFits.adda (rd : Reg) (ra : Src) (rb : Src) : WordFits.Statement (.adda rd ra rb) := by
  intro n h; cases h
  exact encR_lt _ _ _ (by omega) (by omega)
theorem WordFits.addai (rd : Reg) (ra : Src) (imm : BitVec 16) : WordFits.Statement (.addai rd ra imm) := by
  intro n h; cases h; have := imm.isLt
  exact encI_lt _ _ (by omega) (by omega)
theorem WordFits.tagset (rd : Reg) (ra : Src) (blog : BitVec 4) (fmt : BitVec 6) : WordFits.Statement (.tagset rd ra blog fmt) := by
  intro n h; cases h; have := blog.isLt; have := fmt.isLt
  exact encI_lt _ _ (by omega) (by omega)
theorem WordFits.tagget (rd : Reg) (ra : Src) : WordFits.Statement (.tagget rd ra) := by
  intro n h; cases h
  exact encR_lt _ _ _ (by omega) (by omega)
theorem WordFits.tagclr (rd : Reg) (ra : Src) : WordFits.Statement (.tagclr rd ra) := by
  intro n h; cases h
  exact encR_lt _ _ _ (by omega) (by omega)
theorem WordFits.ldk (rd : Reg) (imm : BitVec 16) (idx : BitVec 2) : WordFits.Statement (.ldk rd imm idx) := by
  intro n h; cases h; have := imm.isLt; have := idx.isLt
  exact encK_lt _ (by omega) (by omega) (by omega)
theorem WordFits.ink (rd : Reg) (imm : BitVec 16) (idx : BitVec 2) : WordFits.Statement (.ink rd imm idx) := by
  intro n h; cases h; have := imm.isLt; have := idx.isLt
  exact encK_lt _ (by omega) (by omega) (by omega)
theorem WordFits.ldB (q : Qual) (rd : Reg) (ra : Src) (off : BitVec 12) : WordFits.Statement (.ldB q rd ra off) := by
  intro n h; cases h; have := qual_lt q; have := off.isLt
  exact encM_lt _ _ (by omega) (by omega) (by omega)
theorem WordFits.ldH (q : Qual) (rd : Reg) (ra : Src) (off : BitVec 12) : WordFits.Statement (.ldH q rd ra off) := by
  intro n h; cases h; have := qual_lt q; have := off.isLt
  exact encM_lt _ _ (by omega) (by omega) (by omega)
theorem WordFits.ldW (q : Qual) (rd : Reg) (ra : Src) (off : BitVec 12) : WordFits.Statement (.ldW q rd ra off) := by
  intro n h; cases h; have := qual_lt q; have := off.isLt
  exact encM_lt _ _ (by omega) (by omega) (by omega)
theorem WordFits.ldD (q : Qual) (rd : Reg) (ra : Src) (off : BitVec 12) : WordFits.Statement (.ldD q rd ra off) := by
  intro n h; cases h; have := qual_lt q; have := off.isLt
  exact encM_lt _ _ (by omega) (by omega) (by omega)
theorem WordFits.ldBS (q : Qual) (rd : Reg) (ra : Src) (off : BitVec 12) : WordFits.Statement (.ldBS q rd ra off) := by
  intro n h; cases h; have := qual_lt q; have := off.isLt
  exact encM_lt _ _ (by omega) (by omega) (by omega)
theorem WordFits.ldHS (q : Qual) (rd : Reg) (ra : Src) (off : BitVec 12) : WordFits.Statement (.ldHS q rd ra off) := by
  intro n h; cases h; have := qual_lt q; have := off.isLt
  exact encM_lt _ _ (by omega) (by omega) (by omega)
theorem WordFits.ldWS (q : Qual) (rd : Reg) (ra : Src) (off : BitVec 12) : WordFits.Statement (.ldWS q rd ra off) := by
  intro n h; cases h; have := qual_lt q; have := off.isLt
  exact encM_lt _ _ (by omega) (by omega) (by omega)
theorem WordFits.stB (q : Qual) (rd : Src) (ra : Src) (off : BitVec 12) : WordFits.Statement (.stB q rd ra off) := by
  intro n h; cases h; have := qual_lt q; have := off.isLt
  exact encM_lt _ _ (by omega) (by omega) (by omega)
theorem WordFits.stH (q : Qual) (rd : Src) (ra : Src) (off : BitVec 12) : WordFits.Statement (.stH q rd ra off) := by
  intro n h; cases h; have := qual_lt q; have := off.isLt
  exact encM_lt _ _ (by omega) (by omega) (by omega)
theorem WordFits.stW (q : Qual) (rd : Src) (ra : Src) (off : BitVec 12) : WordFits.Statement (.stW q rd ra off) := by
  intro n h; cases h; have := qual_lt q; have := off.isLt
  exact encM_lt _ _ (by omega) (by omega) (by omega)
theorem WordFits.stD (q : Qual) (rd : Src) (ra : Src) (off : BitVec 12) : WordFits.Statement (.stD q rd ra off) := by
  intro n h; cases h; have := qual_lt q; have := off.isLt
  exact encM_lt _ _ (by omega) (by omega) (by omega)
theorem WordFits.pf (q : Qual) (ra : Src) (off : BitVec 12) : WordFits.Statement (.pf q ra off) := by
  intro n h; cases h; have := qual_lt q; have := off.isLt
  exact encM_lt _ _ (by omega) (by omega) (by omega)
theorem WordFits.waita (w : Bool) (all : Bool) (c : WCmp) (rd : Reg) (ra : Src) (rb : Src) : WordFits.Statement (.waita w all c rd ra rb) := by
  intro n h; cases h; have := num_le w; have := num_le all; have := wcmp_lt c
  exact encC_lt _ _ _ (by omega) (by omega) (by omega)
theorem WordFits.wakea (ra : Src) : WordFits.Statement (.wakea ra) := by
  intro n h; cases h
  exact encR_lt _ _ _ (by omega) (by omega)
theorem WordFits.wakeaAll (ra : Src) : WordFits.Statement (.wakeaAll ra) := by
  intro n h; cases h
  exact encR_lt _ _ _ (by omega) (by omega)
theorem WordFits.home (rd : Reg) (ra : Src) : WordFits.Statement (.home rd ra) := by
  intro n h; cases h
  exact encR_lt _ _ _ (by omega) (by omega)
theorem WordFits.l1inv (ra : Src) : WordFits.Statement (.l1inv ra) := by
  intro n h; cases h
  exact encR_lt _ _ _ (by omega) (by omega)
theorem WordFits.aadd (ret : Bool) (d : Bool) (sc : Scope) (o : AOrd) (rd : Reg) (ra : Src) (rb : Src) : WordFits.Statement (.aadd ret d sc o rd ra rb) := by
  intro n h; cases h; have := num_le ret; have := num_le d; have := scope_lt sc; have := aord_lt o
  exact encC_lt _ _ _ (by omega) (by omega) (by omega)
theorem WordFits.aand (ret : Bool) (d : Bool) (sc : Scope) (o : AOrd) (rd : Reg) (ra : Src) (rb : Src) : WordFits.Statement (.aand ret d sc o rd ra rb) := by
  intro n h; cases h; have := num_le ret; have := num_le d; have := scope_lt sc; have := aord_lt o
  exact encC_lt _ _ _ (by omega) (by omega) (by omega)
theorem WordFits.aor (ret : Bool) (d : Bool) (sc : Scope) (o : AOrd) (rd : Reg) (ra : Src) (rb : Src) : WordFits.Statement (.aor ret d sc o rd ra rb) := by
  intro n h; cases h; have := num_le ret; have := num_le d; have := scope_lt sc; have := aord_lt o
  exact encC_lt _ _ _ (by omega) (by omega) (by omega)
theorem WordFits.axor (ret : Bool) (d : Bool) (sc : Scope) (o : AOrd) (rd : Reg) (ra : Src) (rb : Src) : WordFits.Statement (.axor ret d sc o rd ra rb) := by
  intro n h; cases h; have := num_le ret; have := num_le d; have := scope_lt sc; have := aord_lt o
  exact encC_lt _ _ _ (by omega) (by omega) (by omega)
theorem WordFits.amin (ret : Bool) (d : Bool) (sc : Scope) (o : AOrd) (rd : Reg) (ra : Src) (rb : Src) : WordFits.Statement (.amin ret d sc o rd ra rb) := by
  intro n h; cases h; have := num_le ret; have := num_le d; have := scope_lt sc; have := aord_lt o
  exact encC_lt _ _ _ (by omega) (by omega) (by omega)
theorem WordFits.amax (ret : Bool) (d : Bool) (sc : Scope) (o : AOrd) (rd : Reg) (ra : Src) (rb : Src) : WordFits.Statement (.amax ret d sc o rd ra rb) := by
  intro n h; cases h; have := num_le ret; have := num_le d; have := scope_lt sc; have := aord_lt o
  exact encC_lt _ _ _ (by omega) (by omega) (by omega)
theorem WordFits.aminu (ret : Bool) (d : Bool) (sc : Scope) (o : AOrd) (rd : Reg) (ra : Src) (rb : Src) : WordFits.Statement (.aminu ret d sc o rd ra rb) := by
  intro n h; cases h; have := num_le ret; have := num_le d; have := scope_lt sc; have := aord_lt o
  exact encC_lt _ _ _ (by omega) (by omega) (by omega)
theorem WordFits.amaxu (ret : Bool) (d : Bool) (sc : Scope) (o : AOrd) (rd : Reg) (ra : Src) (rb : Src) : WordFits.Statement (.amaxu ret d sc o rd ra rb) := by
  intro n h; cases h; have := num_le ret; have := num_le d; have := scope_lt sc; have := aord_lt o
  exact encC_lt _ _ _ (by omega) (by omega) (by omega)
theorem WordFits.aswp (ret : Bool) (d : Bool) (sc : Scope) (o : AOrd) (rd : Reg) (ra : Src) (rb : Src) : WordFits.Statement (.aswp ret d sc o rd ra rb) := by
  intro n h; cases h; have := num_le ret; have := num_le d; have := scope_lt sc; have := aord_lt o
  exact encC_lt _ _ _ (by omega) (by omega) (by omega)
theorem WordFits.adecp (ret : Bool) (d : Bool) (sc : Scope) (o : AOrd) (rd : Reg) (ra : Src) : WordFits.Statement (.adecp ret d sc o rd ra) := by
  intro n h; cases h; have := num_le ret; have := num_le d; have := scope_lt sc; have := aord_lt o
  exact encC_lt _ _ _ (by omega) (by omega) (by omega)
theorem WordFits.afadd (ret : Bool) (d : Bool) (sc : Scope) (o : AOrd) (rd : Reg) (ra : Src) (rb : Src) : WordFits.Statement (.afadd ret d sc o rd ra rb) := by
  intro n h; cases h; have := num_le ret; have := num_le d; have := scope_lt sc; have := aord_lt o
  exact encC_lt _ _ _ (by omega) (by omega) (by omega)
theorem WordFits.acas (d : Bool) (sc : Scope) (o : AOrd) (rd : Reg) (ra : Src) (rb : Src) : WordFits.Statement (.acas d sc o rd ra rb) := by
  intro n h; cases h; have := num_le d; have := scope_lt sc; have := aord_lt o
  exact encC_lt _ _ _ (by omega) (by omega) (by omega)
theorem WordFits.beq (ra : Src) (rb : Src) (off : BitVec 12) : WordFits.Statement (.beq ra rb off) := by
  intro n h; cases h; have := off.isLt
  exact encB_lt _ _ (by omega) (by omega) (by omega)
theorem WordFits.bne (ra : Src) (rb : Src) (off : BitVec 12) : WordFits.Statement (.bne ra rb off) := by
  intro n h; cases h; have := off.isLt
  exact encB_lt _ _ (by omega) (by omega) (by omega)
theorem WordFits.blt (ra : Src) (rb : Src) (off : BitVec 12) : WordFits.Statement (.blt ra rb off) := by
  intro n h; cases h; have := off.isLt
  exact encB_lt _ _ (by omega) (by omega) (by omega)
theorem WordFits.bge (ra : Src) (rb : Src) (off : BitVec 12) : WordFits.Statement (.bge ra rb off) := by
  intro n h; cases h; have := off.isLt
  exact encB_lt _ _ (by omega) (by omega) (by omega)
theorem WordFits.bltu (ra : Src) (rb : Src) (off : BitVec 12) : WordFits.Statement (.bltu ra rb off) := by
  intro n h; cases h; have := off.isLt
  exact encB_lt _ _ (by omega) (by omega) (by omega)
theorem WordFits.bgeu (ra : Src) (rb : Src) (off : BitVec 12) : WordFits.Statement (.bgeu ra rb off) := by
  intro n h; cases h; have := off.isLt
  exact encB_lt _ _ (by omega) (by omega) (by omega)
theorem WordFits.bz (ra : Src) (off : BitVec 17) : WordFits.Statement (.bz ra off) := by
  intro n h; cases h; have := off.isLt
  exact encZ_lt _ (by omega) (by omega) (by omega)
theorem WordFits.bnz (ra : Src) (off : BitVec 17) : WordFits.Statement (.bnz ra off) := by
  intro n h; cases h; have := off.isLt
  exact encZ_lt _ (by omega) (by omega) (by omega)
theorem WordFits.bltz (ra : Src) (off : BitVec 17) : WordFits.Statement (.bltz ra off) := by
  intro n h; cases h; have := off.isLt
  exact encZ_lt _ (by omega) (by omega) (by omega)
theorem WordFits.bgez (ra : Src) (off : BitVec 17) : WordFits.Statement (.bgez ra off) := by
  intro n h; cases h; have := off.isLt
  exact encZ_lt _ (by omega) (by omega) (by omega)
theorem WordFits.jal (rd : Reg) (off : BitVec 21) : WordFits.Statement (.jal rd off) := by
  intro n h; cases h; have := off.isLt
  exact encJ_lt _ (by omega) (by omega)
theorem WordFits.jalr (rd : Reg) (ra : Src) (imm : BitVec 16) : WordFits.Statement (.jalr rd ra imm) := by
  intro n h; cases h; have := imm.isLt
  exact encI_lt _ _ (by omega) (by omega)
theorem WordFits.spawn (rd : Reg) (ra : Src) (n : BitVec 3) : WordFits.Statement (.spawn rd ra n) := by
  intro n h; cases h; have := n.isLt
  exact encI_lt _ _ (by omega) (by omega)
theorem WordFits.post (rd : Reg) (ra : Src) : WordFits.Statement (.post rd ra) := by
  intro n h; cases h
  exact encR_lt _ _ _ (by omega) (by omega)
theorem WordFits.launch (rd : Reg) (ra : Src) : WordFits.Statement (.launch rd ra) := by
  intro n h; cases h
  exact encR_lt _ _ _ (by omega) (by omega)
theorem WordFits.migr (ra : Src) : WordFits.Statement (.migr ra) := by
  intro n h; cases h
  exact encR_lt _ _ _ (by omega) (by omega)
theorem WordFits.coord (rd : Reg) : WordFits.Statement (.coord rd) := by
  intro n h; cases h
  exact encR_lt _ _ _ (by omega) (by omega)
theorem WordFits.exit : WordFits.Statement .exit := by
  intro n h; cases h
  exact encR_lt _ _ _ (by omega) (by omega)
theorem WordFits.yield : WordFits.Statement .yield := by
  intro n h; cases h
  exact encR_lt _ _ _ (by omega) (by omega)
theorem WordFits.oflush : WordFits.Statement .oflush := by
  intro n h; cases h
  exact encR_lt _ _ _ (by omega) (by omega)
theorem WordFits.beat : WordFits.Statement .beat := by
  intro n h; cases h
  exact encR_lt _ _ _ (by omega) (by omega)
theorem WordFits.safept (n : BitVec 16) : WordFits.Statement (.safept n) := by
  intro n h; cases h; have := n.isLt
  exact encS_lt _ (by omega) (by omega) (by omega)
theorem WordFits.fence (k : FenceKind) (sc : Scope) : WordFits.Statement (.fence k sc) := by
  intro n h; cases h; have := fenceKind_lt k; have := scope_lt sc
  exact encS_lt _ (by omega) (by omega) (by omega)
theorem WordFits.ldacq (w : Bool) (sc : Scope) (rd : Reg) (ra : Src) (off : BitVec 12) : WordFits.Statement (.ldacq w sc rd ra off) := by
  intro n h; cases h; have := num_le w; have := scope_lt sc; have := off.isLt
  exact encM_lt _ _ (by omega) (by omega) (by omega)
theorem WordFits.strel (w : Bool) (sc : Scope) (rd : Src) (ra : Src) (off : BitVec 12) : WordFits.Statement (.strel w sc rd ra off) := by
  intro n h; cases h; have := num_le w; have := scope_lt sc; have := off.isLt
  exact encM_lt _ _ (by omega) (by omega) (by omega)
theorem WordFits.phreg (m : PhMode) (ph : BitVec 6) (rd : Reg) : WordFits.Statement (.phreg m ph rd) := by
  intro n h; cases h; have := phMode_lt m; have := ph.isLt
  exact encC_lt _ _ _ (by omega) (by omega) (by omega)
theorem WordFits.phdrop (ph : BitVec 6) : WordFits.Statement (.phdrop ph) := by
  intro n h; cases h; have := ph.isLt
  exact encC_lt _ _ _ (by omega) (by omega) (by omega)
theorem WordFits.phsig (ph : BitVec 6) : WordFits.Statement (.phsig ph) := by
  intro n h; cases h; have := ph.isLt
  exact encC_lt _ _ _ (by omega) (by omega) (by omega)
theorem WordFits.phsigv (k : PhRed) (ph : BitVec 6) (ra : Src) : WordFits.Statement (.phsigv k ph ra) := by
  intro n h; cases h; have := phRed_lt k; have := ph.isLt
  exact encC_lt _ _ _ (by omega) (by omega) (by omega)
theorem WordFits.phwait (ph : BitVec 6) (rd : Reg) : WordFits.Statement (.phwait ph rd) := by
  intro n h; cases h; have := ph.isLt
  exact encC_lt _ _ _ (by omega) (by omega) (by omega)
theorem WordFits.phnext (ph : BitVec 6) (rd : Reg) : WordFits.Statement (.phnext ph rd) := by
  intro n h; cases h; have := ph.isLt
  exact encC_lt _ _ _ (by omega) (by omega) (by omega)
theorem WordFits.phexpect (ph : BitVec 6) (ra : Src) : WordFits.Statement (.phexpect ph ra) := by
  intro n h; cases h; have := ph.isLt
  exact encC_lt _ _ _ (by omega) (by omega) (by omega)
theorem WordFits.phread (ph : BitVec 6) (rd : Reg) : WordFits.Statement (.phread ph rd) := by
  intro n h; cases h; have := ph.isLt
  exact encC_lt _ _ _ (by omega) (by omega) (by omega)
theorem WordFits.fget (rd : Reg) (ra : Src) : WordFits.Statement (.fget rd ra) := by
  intro n h; cases h
  exact encR_lt _ _ _ (by omega) (by omega)
theorem WordFits.ffill (ra : Src) (rb : Src) : WordFits.Statement (.ffill ra rb) := by
  intro n h; cases h
  exact encR_lt _ _ _ (by omega) (by omega)
theorem WordFits.fclr (ra : Src) : WordFits.Statement (.fclr ra) := by
  intro n h; cases h
  exact encR_lt _ _ _ (by omega) (by omega)
theorem WordFits.pause : WordFits.Statement .pause := by
  intro n h; cases h
  exact encR_lt _ _ _ (by omega) (by omega)
theorem WordFits.tcwl (ra : Src) (rb : Src) : WordFits.Statement (.tcwl ra rb) := by
  intro n h; cases h
  exact encR_lt _ _ _ (by omega) (by omega)
theorem WordFits.tcwh (p : Port) (rd : Reg) (ra : Src) (rb : Src) : WordFits.Statement (.tcwh p rd ra rb) := by
  intro n h; cases h; have := port_lt p
  exact encC_lt _ _ _ (by omega) (by omega) (by omega)
theorem WordFits.jpoll (rd : Reg) (ra : Src) : WordFits.Statement (.jpoll rd ra) := by
  intro n h; cases h
  exact encR_lt _ _ _ (by omega) (by omega)
theorem WordFits.jwait (ra : Src) : WordFits.Statement (.jwait ra) := by
  intro n h; cases h
  exact encR_lt _ _ _ (by omega) (by omega)
theorem WordFits.vbusy (rd : Reg) : WordFits.Statement (.vbusy rd) := by
  intro n h; cases h
  exact encR_lt _ _ _ (by omega) (by omega)
theorem WordFits.vfence : WordFits.Statement .vfence := by
  intro n h; cases h
  exact encR_lt _ _ _ (by omega) (by omega)
theorem WordFits.ftile (rd : Reg) (ra : Src) : WordFits.Statement (.ftile rd ra) := by
  intro n h; cases h
  exact encR_lt _ _ _ (by omega) (by omega)
theorem WordFits.vop (ra : Src) (rb : Src) : WordFits.Statement (.vop ra rb) := by
  intro n h; cases h
  exact encR_lt _ _ _ (by omega) (by omega)
theorem WordFits.rdef (q : BitVec 5) (rd : Reg) (ra : Src) : WordFits.Statement (.rdef q rd ra) := by
  intro n h; cases h; have := q.isLt
  exact encC_lt _ _ _ (by omega) (by omega) (by omega)
theorem WordFits.rwaitf (q : BitVec 5) (rd : Reg) (ra : Src) : WordFits.Statement (.rwaitf q rd ra) := by
  intro n h; cases h; have := q.isLt
  exact encC_lt _ _ _ (by omega) (by omega) (by omega)
theorem WordFits.rwaite (q : BitVec 5) (rd : Reg) (ra : Src) : WordFits.Statement (.rwaite q rd ra) := by
  intro n h; cases h; have := q.isLt
  exact encC_lt _ _ _ (by omega) (by omega) (by omega)
theorem WordFits.radvh (q : BitVec 5) (ra : Src) : WordFits.Statement (.radvh q ra) := by
  intro n h; cases h; have := q.isLt
  exact encC_lt _ _ _ (by omega) (by omega) (by omega)
theorem WordFits.radvt (q : BitVec 5) (ra : Src) : WordFits.Statement (.radvt q ra) := by
  intro n h; cases h; have := q.isLt
  exact encC_lt _ _ _ (by omega) (by omega) (by omega)
theorem WordFits.rstat (q : BitVec 5) (rd : Reg) : WordFits.Statement (.rstat q rd) := by
  intro n h; cases h; have := q.isLt
  exact encC_lt _ _ _ (by omega) (by omega) (by omega)
theorem WordFits.ktree (k : BitVec 4) (ra : Src) : WordFits.Statement (.ktree k ra) := by
  intro n h; cases h; have := k.isLt
  exact encC_lt _ _ _ (by omega) (by omega) (by omega)
theorem WordFits.kset (k : BitVec 4) (ra : Src) (rb : Src) : WordFits.Statement (.kset k ra rb) := by
  intro n h; cases h; have := k.isLt
  exact encC_lt _ _ _ (by omega) (by omega) (by omega)
theorem WordFits.kseti (k : BitVec 4) (ra : Src) (rb : Src) : WordFits.Statement (.kseti k ra rb) := by
  intro n h; cases h; have := k.isLt
  exact encC_lt _ _ _ (by omega) (by omega) (by omega)
theorem WordFits.kget (k : BitVec 4) (rd : Reg) (ra : Src) : WordFits.Statement (.kget k rd ra) := by
  intro n h; cases h; have := k.isLt
  exact encC_lt _ _ _ (by omega) (by omega) (by omega)
theorem WordFits.ktot (k : BitVec 4) (rd : Reg) : WordFits.Statement (.ktot k rd) := by
  intro n h; cases h; have := k.isLt
  exact encC_lt _ _ _ (by omega) (by omega) (by omega)
theorem WordFits.evnext (k : BitVec 4) (rd : Reg) : WordFits.Statement (.evnext k rd) := by
  intro n h; cases h; have := k.isLt
  exact encC_lt _ _ _ (by omega) (by omega) (by omega)
theorem WordFits.evdisp (k : BitVec 4) : WordFits.Statement (.evdisp k) := by
  intro n h; cases h; have := k.isLt
  exact encC_lt _ _ _ (by omega) (by omega) (by omega)
theorem WordFits.clkget (k : BitVec 4) (rd : Reg) : WordFits.Statement (.clkget k rd) := by
  intro n h; cases h; have := k.isLt
  exact encC_lt _ _ _ (by omega) (by omega) (by omega)
theorem WordFits.bsend (k : BitVec 4) (rd : Reg) (ra : Src) (rb : Src) : WordFits.Statement (.bsend k rd ra rb) := by
  intro n h; cases h; have := k.isLt
  exact encC_lt _ _ _ (by omega) (by omega) (by omega)
theorem WordFits.bmsg (k : BitVec 4) (rd : Reg) (ra : Src) : WordFits.Statement (.bmsg k rd ra) := by
  intro n h; cases h; have := k.isLt
  exact encC_lt _ _ _ (by omega) (by omega) (by omega)
theorem WordFits.ckpt (k : BitVec 4) (rd : Reg) : WordFits.Statement (.ckpt k rd) := by
  intro n h; cases h; have := k.isLt
  exact encC_lt _ _ _ (by omega) (by omega) (by omega)
theorem WordFits.rollb (k : BitVec 4) (rd : Reg) : WordFits.Statement (.rollb k rd) := by
  intro n h; cases h; have := k.isLt
  exact encC_lt _ _ _ (by omega) (by omega) (by omega)
theorem WordFits.mark (k : BitVec 4) (ra : Src) (rb : Src) : WordFits.Statement (.mark k ra rb) := by
  intro n h; cases h; have := k.isLt
  exact encC_lt _ _ _ (by omega) (by omega) (by omega)
theorem WordFits.unmark (k : BitVec 4) (ra : Src) (rb : Src) : WordFits.Statement (.unmark k ra rb) := by
  intro n h; cases h; have := k.isLt
  exact encC_lt _ _ _ (by omega) (by omega) (by omega)
theorem WordFits.fossil (k : BitVec 4) (ra : Src) : WordFits.Statement (.fossil k ra) := by
  intro n h; cases h; have := k.isLt
  exact encC_lt _ _ _ (by omega) (by omega) (by omega)
theorem WordFits.dgst (k : BitVec 4) (rd : Reg) : WordFits.Statement (.dgst k rd) := by
  intro n h; cases h; have := k.isLt
  exact encC_lt _ _ _ (by omega) (by omega) (by omega)
theorem WordFits.rgnsave (k : BitVec 4) (ra : Src) : WordFits.Statement (.rgnsave k ra) := by
  intro n h; cases h; have := k.isLt
  exact encC_lt _ _ _ (by omega) (by omega) (by omega)
theorem WordFits.rgnload (k : BitVec 4) (ra : Src) : WordFits.Statement (.rgnload k ra) := by
  intro n h; cases h; have := k.isLt
  exact encC_lt _ _ _ (by omega) (by omega) (by omega)
theorem WordFits.rngb (rd : Reg) (ra : Src) (rb : Src) : WordFits.Statement (.rngb rd ra rb) := by
  intro n h; cases h
  exact encR_lt _ _ _ (by omega) (by omega)
theorem WordFits.rbern (rd : Reg) (ra : Src) (rb : Src) : WordFits.Statement (.rbern rd ra rb) := by
  intro n h; cases h
  exact encR_lt _ _ _ (by omega) (by omega)
theorem WordFits.thash (rd : Reg) (ra : Src) (rb : Src) : WordFits.Statement (.thash rd ra rb) := by
  intro n h; cases h
  exact encR_lt _ _ _ (by omega) (by omega)
theorem WordFits.pqpush (k : BitVec 4) (rd : Reg) (ra : Src) (rb : Src) : WordFits.Statement (.pqpush k rd ra rb) := by
  intro n h; cases h; have := k.isLt
  exact encC_lt _ _ _ (by omega) (by omega) (by omega)
theorem WordFits.pqpop (k : BitVec 4) (rd : Reg) (ra : Src) : WordFits.Statement (.pqpop k rd ra) := by
  intro n h; cases h; have := k.isLt
  exact encC_lt _ _ _ (by omega) (by omega) (by omega)
theorem WordFits.pqmin (k : BitVec 4) (rd : Reg) : WordFits.Statement (.pqmin k rd) := by
  intro n h; cases h; have := k.isLt
  exact encC_lt _ _ _ (by omega) (by omega) (by omega)
theorem WordFits.pqlen (k : BitVec 4) (rd : Reg) : WordFits.Statement (.pqlen k rd) := by
  intro n h; cases h; have := k.isLt
  exact encC_lt _ _ _ (by omega) (by omega) (by omega)
theorem WordFits.rsadd (z : BitVec 3) (rd : Reg) (ra : Src) (rb : Src) : WordFits.Statement (.rsadd z rd ra rb) := by
  intro n h; cases h; have := z.isLt
  exact encC_lt _ _ _ (by omega) (by omega) (by omega)
theorem WordFits.rssub (z : BitVec 3) (rd : Reg) (ra : Src) (rb : Src) : WordFits.Statement (.rssub z rd ra rb) := by
  intro n h; cases h; have := z.isLt
  exact encC_lt _ _ _ (by omega) (by omega) (by omega)
theorem WordFits.rsmul (z : BitVec 3) (rd : Reg) (ra : Src) (rb : Src) : WordFits.Statement (.rsmul z rd ra rb) := by
  intro n h; cases h; have := z.isLt
  exact encC_lt _ _ _ (by omega) (by omega) (by omega)
theorem WordFits.rsdiv (z : BitVec 3) (rd : Reg) (ra : Src) (rb : Src) : WordFits.Statement (.rsdiv z rd ra rb) := by
  intro n h; cases h; have := z.isLt
  exact encC_lt _ _ _ (by omega) (by omega) (by omega)
theorem WordFits.rsor (z : BitVec 3) (rd : Reg) (ra : Src) (rb : Src) : WordFits.Statement (.rsor z rd ra rb) := by
  intro n h; cases h; have := z.isLt
  exact encC_lt _ _ _ (by omega) (by omega) (by omega)
theorem WordFits.rsand (z : BitVec 3) (rd : Reg) (ra : Src) (rb : Src) : WordFits.Statement (.rsand z rd ra rb) := by
  intro n h; cases h; have := z.isLt
  exact encC_lt _ _ _ (by omega) (by omega) (by omega)
theorem WordFits.rslt (z : BitVec 3) (rd : Reg) (ra : Src) (rb : Src) : WordFits.Statement (.rslt z rd ra rb) := by
  intro n h; cases h; have := z.isLt
  exact encC_lt _ _ _ (by omega) (by omega) (by omega)
theorem WordFits.rsfi (z : BitVec 3) (rd : Reg) (ra : Src) (rb : Src) : WordFits.Statement (.rsfi z rd ra rb) := by
  intro n h; cases h; have := z.isLt
  exact encC_lt _ _ _ (by omega) (by omega) (by omega)
theorem WordFits.rsneg (z : BitVec 3) (rd : Reg) (ra : Src) : WordFits.Statement (.rsneg z rd ra) := by
  intro n h; cases h; have := z.isLt
  exact encC_lt _ _ _ (by omega) (by omega) (by omega)
theorem WordFits.rsinv (z : BitVec 3) (rd : Reg) (ra : Src) : WordFits.Statement (.rsinv z rd ra) := by
  intro n h; cases h; have := z.isLt
  exact encC_lt _ _ _ (by omega) (by omega) (by omega)
theorem WordFits.rssq (z : BitVec 3) (rd : Reg) (ra : Src) : WordFits.Statement (.rssq z rd ra) := by
  intro n h; cases h; have := z.isLt
  exact encC_lt _ _ _ (by omega) (by omega) (by omega)
theorem WordFits.rslo (z : BitVec 3) (rd : Reg) (ra : Src) : WordFits.Statement (.rslo z rd ra) := by
  intro n h; cases h; have := z.isLt
  exact encC_lt _ _ _ (by omega) (by omega) (by omega)
theorem WordFits.rshi (z : BitVec 3) (rd : Reg) (ra : Src) : WordFits.Statement (.rshi z rd ra) := by
  intro n h; cases h; have := z.isLt
  exact encC_lt _ _ _ (by omega) (by omega) (by omega)
theorem WordFits.rsconn (z : BitVec 3) (rd : Reg) (ra : Src) : WordFits.Statement (.rsconn z rd ra) := by
  intro n h; cases h; have := z.isLt
  exact encC_lt _ _ _ (by omega) (by omega) (by omega)
theorem WordFits.rsf (z : BitVec 3) (rd : Reg) (ra : Src) : WordFits.Statement (.rsf z rd ra) := by
  intro n h; cases h; have := z.isLt
  exact encC_lt _ _ _ (by omega) (by omega) (by omega)
theorem WordFits.rsring (z : BitVec 3) (rd : Reg) (ra : Src) : WordFits.Statement (.rsring z rd ra) := by
  intro n h; cases h; have := z.isLt
  exact encC_lt _ _ _ (by omega) (by omega) (by omega)
theorem WordFits.rscz (w : CzW) (z : BitVec 3) (rd : Reg) (ra : Src) : WordFits.Statement (.rscz w z rd ra) := by
  intro n h; cases h; have := czW_lt w; have := z.isLt
  exact encC_lt _ _ _ (by omega) (by omega) (by omega)
theorem WordFits.rsxz (w : CzW) (z : BitVec 3) (rd : Reg) (ra : Src) : WordFits.Statement (.rsxz w z rd ra) := by
  intro n h; cases h; have := czW_lt w; have := z.isLt
  exact encC_lt _ _ _ (by omega) (by omega) (by omega)
theorem WordFits.ploft (rd : Reg) (ra : Src) : WordFits.Statement (.ploft rd ra) := by
  intro n h; cases h
  exact encR_lt _ _ _ (by omega) (by omega)
theorem WordFits.pevict (rd : Reg) (ra : Src) : WordFits.Statement (.pevict rd ra) := by
  intro n h; cases h
  exact encR_lt _ _ _ (by omega) (by omega)
theorem WordFits.mld (sz : MSize) (rd : Reg) (ra : Src) (rb : Src) (off : BitVec 8) : WordFits.Statement (.mld sz rd ra rb off) := by
  intro n h; cases h; have := msize_lt sz; have := off.isLt
  exact encC_lt _ _ _ (by omega) (by omega) (by omega)
theorem WordFits.mst (sz : MSize) (rd : Reg) (ra : Src) (rb : Src) (off : BitVec 8) : WordFits.Statement (.mst sz rd ra rb off) := by
  intro n h; cases h; have := msize_lt sz; have := off.isLt
  exact encC_lt _ _ _ (by omega) (by omega) (by omega)
theorem WordFits.sys (n : BitVec 16) : WordFits.Statement (.sys n) := by
  intro n h; cases h; have := n.isLt
  exact encS_lt _ (by omega) (by omega) (by omega)
theorem WordFits.brk (n : BitVec 16) : WordFits.Statement (.brk n) := by
  intro n h; cases h; have := n.isLt
  exact encS_lt _ (by omega) (by omega) (by omega)
theorem WordFits.crr (cr : BitVec 12) (rd : Reg) : WordFits.Statement (.crr cr rd) := by
  intro n h; cases h; have := cr.isLt
  exact encI_lt _ _ (by omega) (by omega)
theorem WordFits.crw (cr : BitVec 12) (ra : Src) : WordFits.Statement (.crw cr ra) := by
  intro n h; cases h; have := cr.isLt
  exact encI_lt _ _ (by omega) (by omega)
theorem WordFits.crs (cr : BitVec 12) (rd : Reg) (ra : Src) : WordFits.Statement (.crs cr rd ra) := by
  intro n h; cases h; have := cr.isLt
  exact encI_lt _ _ (by omega) (by omega)
theorem WordFits.crc (cr : BitVec 12) (rd : Reg) (ra : Src) : WordFits.Statement (.crc cr rd ra) := by
  intro n h; cases h; have := cr.isLt
  exact encI_lt _ _ (by omega) (by omega)
theorem WordFits.eret : WordFits.Statement .eret := by
  intro n h; cases h
  exact encR_lt _ _ _ (by omega) (by omega)
theorem WordFits.tlbinv (ra : Src) (rb : Src) : WordFits.Statement (.tlbinv ra rb) := by
  intro n h; cases h
  exact encR_lt _ _ _ (by omega) (by omega)
theorem WordFits.frep (ra : Src) (rb : Src) : WordFits.Statement (.frep ra rb) := by
  intro n h; cases h
  exact encR_lt _ _ _ (by omega) (by omega)
theorem WordFits.hvc (ra : Src) : WordFits.Statement (.hvc ra) := by
  intro n h; cases h
  exact encR_lt _ _ _ (by omega) (by omega)
theorem WordFits.idle : WordFits.Statement .idle := by
  intro n h; cases h
  exact encR_lt _ _ _ (by omega) (by omega)
theorem WordFits.kill (ra : Src) : WordFits.Statement (.kill ra) := by
  intro n h; cases h
  exact encR_lt _ _ _ (by omega) (by omega)
theorem WordFits.mmul (j : Nat) : WordFits.Statement (.mmul j) := by intro n h; cases h
theorem WordFits.mmulg (j : Nat) : WordFits.Statement (.mmulg j) := by intro n h; cases h
theorem WordFits.accz (j : Nat) : WordFits.Statement (.accz j) := by intro n h; cases h
theorem WordFits.accld (j : Nat) : WordFits.Statement (.accld j) := by intro n h; cases h
theorem WordFits.accst (j : Nat) : WordFits.Statement (.accst j) := by intro n h; cases h
theorem WordFits.spmm (j : Nat) : WordFits.Statement (.spmm j) := by intro n h; cases h
theorem WordFits.spcol (j : Nat) : WordFits.Statement (.spcol j) := by intro n h; cases h
theorem WordFits.copy (j : Nat) : WordFits.Statement (.copy j) := by intro n h; cases h
theorem WordFits.gath (j : Nat) : WordFits.Statement (.gath j) := by intro n h; cases h
theorem WordFits.scat (j : Nat) : WordFits.Statement (.scat j) := by intro n h; cases h
theorem WordFits.cvtb (j : Nat) : WordFits.Statement (.cvtb j) := by intro n h; cases h
theorem WordFits.subscription (j : Nat) : WordFits.Statement (.subscription j) := by intro n h; cases h
theorem WordFits.subTile (j : Nat) : WordFits.Statement (.subTile j) := by intro n h; cases h
theorem WordFits.drain (j : Nat) : WordFits.Statement (.drain j) := by intro n h; cases h
theorem WordFits.drainTile (j : Nat) : WordFits.Statement (.drainTile j) := by intro n h; cases h
theorem WordFits.pfill (j : Nat) : WordFits.Statement (.pfill j) := by intro n h; cases h
theorem WordFits.wqdef (j : Nat) : WordFits.Statement (.wqdef j) := by intro n h; cases h
theorem WordFits.jobCompletion (j : Nat) : WordFits.Statement (.jobCompletion j) := by intro n h; cases h
theorem WordFits.vadd (v : Nat) : WordFits.Statement (.vadd v) := by intro n h; cases h
theorem WordFits.vsub (v : Nat) : WordFits.Statement (.vsub v) := by intro n h; cases h
theorem WordFits.vmul (v : Nat) : WordFits.Statement (.vmul v) := by intro n h; cases h
theorem WordFits.vfma (v : Nat) : WordFits.Statement (.vfma v) := by intro n h; cases h
theorem WordFits.vmin (v : Nat) : WordFits.Statement (.vmin v) := by intro n h; cases h
theorem WordFits.vmax (v : Nat) : WordFits.Statement (.vmax v) := by intro n h; cases h
theorem WordFits.vabs (v : Nat) : WordFits.Statement (.vabs v) := by intro n h; cases h
theorem WordFits.vcvt (v : Nat) : WordFits.Statement (.vcvt v) := by intro n h; cases h
theorem WordFits.vsfn (v : Nat) : WordFits.Statement (.vsfn v) := by intro n h; cases h
theorem WordFits.vcmp (v : Nat) : WordFits.Statement (.vcmp v) := by intro n h; cases h
theorem WordFits.vsel (v : Nat) : WordFits.Statement (.vsel v) := by intro n h; cases h
theorem WordFits.vcopy (v : Nat) : WordFits.Statement (.vcopy v) := by intro n h; cases h
theorem WordFits.vsum (v : Nat) : WordFits.Statement (.vsum v) := by intro n h; cases h
theorem WordFits.vscan (v : Nat) : WordFits.Statement (.vscan v) := by intro n h; cases h
theorem WordFits.vmaxi (v : Nat) : WordFits.Statement (.vmaxi v) := by intro n h; cases h
theorem WordFits.vgath (v : Nat) : WordFits.Statement (.vgath v) := by intro n h; cases h
theorem WordFits.vscat (v : Nat) : WordFits.Statement (.vscat v) := by intro n h; cases h
theorem WordFits.vscad (v : Nat) : WordFits.Statement (.vscad v) := by intro n h; cases h
theorem WordFits.vbern (v : Nat) : WordFits.Statement (.vbern v) := by intro n h; cases h
theorem WordFits.vrs (v : Nat) : WordFits.Statement (.vrs v) := by intro n h; cases h
theorem WordFits.registerFill (t : Nat) : WordFits.Statement (.registerFill t) := by intro n h; cases h
theorem WordFits.faultBufferEntry (f : Nat) : WordFits.Statement (.faultBufferEntry f) := by intro n h; cases h
theorem WordFits.faultRetry (f : Nat) : WordFits.Statement (.faultRetry f) := by intro n h; cases h
theorem WordFits.faultReply (f : Nat) (a : Reply) : WordFits.Statement (.faultReply f a) := by intro n h; cases h
theorem WordFits.fbstatWrite (sv : Nat) (v : Word) : WordFits.Statement (.fbstatWrite sv v) := by intro n h; cases h
theorem WordFits.utvecWrite (t : Nat) (v : Word) : WordFits.Statement (.utvecWrite t v) := by intro n h; cases h
theorem WordFits.preemptRequest (r : Nat) : WordFits.Statement (.preemptRequest r) := by intro n h; cases h
theorem WordFits.preemptCancel (r : Nat) : WordFits.Statement (.preemptCancel r) := by intro n h; cases h
theorem WordFits.restore (r : Nat) : WordFits.Statement (.restore r) := by intro n h; cases h
theorem WordFits.deschedule (l : Nat) : WordFits.Statement (.deschedule l) := by intro n h; cases h
theorem WordFits.timeSlice (l : Nat) : WordFits.Statement (.timeSlice l) := by intro n h; cases h
theorem WordFits.watchdog (r : Nat) (h : Nat) : WordFits.Statement (.watchdog r h) := by intro n h; cases h
theorem WordFits.threadAged (t : Nat) : WordFits.Statement (.threadAged t) := by intro n h; cases h
theorem WordFits.pauseEnd (t : Nat) : WordFits.Statement (.pauseEnd t) := by intro n h; cases h
theorem WordFits.activeMessageArrival (c : Nat) (i : Nat) : WordFits.Statement (.activeMessageArrival c i) := by intro n h; cases h
theorem WordFits.contextFreeNotice (c : Nat) (e : Nat) : WordFits.Statement (.contextFreeNotice c e) := by intro n h; cases h
theorem WordFits.slotHoldExpiry (c : Nat) (sl : Nat) : WordFits.Statement (.slotHoldExpiry c sl) := by intro n h; cases h
theorem WordFits.messageRetry (c : Nat) (i : Nat) : WordFits.Statement (.messageRetry c i) := by intro n h; cases h
theorem WordFits.migrationArrival (t : Nat) : WordFits.Statement (.migrationArrival t) := by intro n h; cases h
theorem WordFits.dispatch (p : Nat) : WordFits.Statement (.dispatch p) := by intro n h; cases h
theorem WordFits.conditionWake (r : Nat) : WordFits.Statement (.conditionWake r) := by intro n h; cases h
theorem WordFits.conditionRecheck (r : Nat) : WordFits.Statement (.conditionRecheck r) := by intro n h; cases h
theorem WordFits.launchDoorbell (p : Nat) (hdr : Nat) : WordFits.Statement (.launchDoorbell p hdr) := by intro n h; cases h
theorem WordFits.runDone (r : Nat) : WordFits.Statement (.runDone r) := by intro n h; cases h
theorem WordFits.waitaWake (t : Nat) : WordFits.Statement (.waitaWake t) := by intro n h; cases h
theorem WordFits.loftInvalidation (h : Nat) (line : Nat) : WordFits.Statement (.loftInvalidation h line) := by intro n h; cases h
theorem WordFits.patternCompile (h : Nat) : WordFits.Statement (.patternCompile h) := by intro n h; cases h
theorem WordFits.sfnResult (t : Nat) : WordFits.Statement (.sfnResult t) := by intro n h; cases h
theorem WordFits.realSetResult (t : Nat) : WordFits.Statement (.realSetResult t) := by intro n h; cases h
theorem WordFits.tableBuild (t : Nat) : WordFits.Statement (.tableBuild t) := by intro n h; cases h
theorem WordFits.boundaryMessageArrival (m : Nat) : WordFits.Statement (.boundaryMessageArrival m) := by intro n h; cases h
theorem WordFits.antiMessageArrival (m : Nat) : WordFits.Statement (.antiMessageArrival m) := by intro n h; cases h
theorem WordFits.arrivalAcknowledgement (m : Nat) : WordFits.Statement (.arrivalAcknowledgement m) := by intro n h; cases h
theorem WordFits.pageMigration (m : Nat) : WordFits.Statement (.pageMigration m) := by intro n h; cases h
theorem WordFits.redirectNotice (h : Nat) (m : Nat) : WordFits.Statement (.redirectNotice h m) := by intro n h; cases h
theorem WordFits.hostAccess (op : HostOp) : WordFits.Statement (.hostAccess op) := by intro n h; cases h
theorem WordFits.featureAccept (dev : Nat) (w : BitVec 128) : WordFits.Statement (.featureAccept dev w) := by intro n h; cases h
theorem WordFits.flitRetry (dev : Nat) (port : Nat) : WordFits.Statement (.flitRetry dev port) := by intro n h; cases h
theorem WordFits.reroute (dev : Nat) (port : Nat) : WordFits.Statement (.reroute dev port) := by intro n h; cases h
theorem WordFits.deviceReset (dev : Nat) : WordFits.Statement (.deviceReset dev) := by intro n h; cases h
theorem WordFits.shedReset (h : Nat) : WordFits.Statement (.shedReset h) := by intro n h; cases h
theorem WordFits.maintenanceState (shed : Bool) (n : Nat) (enter : Bool) : WordFits.Statement (.maintenanceState shed n enter) := by intro n h; cases h
theorem WordFits.thermalLimit (h : Nat) (withhold : Bool) : WordFits.Statement (.thermalLimit h withhold) := by intro n h; cases h
theorem WordFits.criticalLimit (dev : Nat) : WordFits.Statement (.criticalLimit dev) := by intro n h; cases h
theorem WordFits.mirrorStream (op : StreamOp) : WordFits.Statement (.mirrorStream op) := by intro n h; cases h
theorem WordFits.safeTierCheckpoint (p : Nat) : WordFits.Statement (.safeTierCheckpoint p) := by intro n h; cases h
theorem WordFits.rewind (r : Nat) (g : Nat) : WordFits.Statement (.rewind r g) := by intro n h; cases h
theorem WordFits.deviceFailureDetection (dev : Nat) : WordFits.Statement (.deviceFailureDetection dev) := by intro n h; cases h
theorem WordFits.illegal (w : BitVec 32) : WordFits.Statement (.illegal w) := by intro n h; cases h
theorem WordFits.vectorCommandCompletion (v : Nat) : WordFits.Statement (.vectorCommandCompletion v) := by intro n h; cases h
theorem WordFits.accessPerformed (t : Nat) (i : Nat) : WordFits.Statement (.accessPerformed t i) := by intro n h; cases h

end Sys2Proof.Laws
end

