-- ==== Sys2Proof/Tests/Slice0.lean ====
section
/-! SUPPORT. Tests: ill-formed terms, words written out from the encoding tables, single steps on small states, and states that meet the hypotheses of the statements. -/

set_option maxRecDepth 10000
set_option Elab.async false

namespace Sys2Proof.Tests
open Sys2Proof.Machine Sys2Proof.Claims

/-! ### Ill-formed terms, one for each check of WellFormed -/

/-- R85: a word-form shift immediate above 31. -/
theorem test_wellFormed_shift : (Instr.shli true 1 ⟨2, false⟩ 32#6).wellFormed = false ∧ (Instr.shli true 1 ⟨2, false⟩ 31#6).wellFormed = true := by
  decide

/-- R53: pos + len above 64. -/
theorem test_wellFormed_field : (Instr.bfx 1 ⟨2, false⟩ 1#6 63#6).wellFormed = false ∧ (Instr.bfx 1 ⟨2, false⟩ 1#6 62#6).wellFormed = true := by
  decide

/-- R57: a destination equal to its source. -/
theorem test_wellFormed_convert : (Instr.fcvt .rne .s .s 1 ⟨2, false⟩).wellFormed = false ∧ (Instr.fcvt .rne .s .d 1 ⟨2, false⟩).wellFormed = true := by
  decide

/-- R50: .fresh on a store, .near on a prefetch. -/
theorem test_wellFormed_qualifier : (Instr.stW .fresh ⟨1, false⟩ ⟨2, false⟩ 0#12).wellFormed = false ∧ (Instr.pf .near ⟨2, false⟩ 0#12).wellFormed = false ∧
    (Instr.stW .near ⟨1, false⟩ ⟨2, false⟩ 0#12).wellFormed = true := by
  decide

/-- R60: an .n form with rd other than x0. -/
theorem test_wellFormed_atomic : (Instr.aadd false true .dev .relaxed 1 ⟨2, false⟩ ⟨3, false⟩).wellFormed = false ∧
    (Instr.adecp false true .dev .relaxed 1 ⟨2, false⟩).wellFormed = false ∧
    (Instr.aadd false true .dev .relaxed 0 ⟨2, false⟩ ⟨3, false⟩).wellFormed = true := by
  decide

/-- R53: spawn with seven arguments. -/
theorem test_wellFormed_spawn : (Instr.spawn 1 ⟨2, false⟩ 7#3).wellFormed = false ∧ (Instr.spawn 1 ⟨2, false⟩ 6#3).wellFormed = true := by
  decide

/-- R67: a control-register number in neither list. -/
theorem test_wellFormed_control : (Instr.crr 0x006#12 1).wellFormed = false ∧ (Instr.crr 0x005#12 1).wellFormed = true ∧ (Instr.crr 0x8FF#12 1).wellFormed = true := by
  decide

/-! ### Words, field by field as R47 places them -/

/-- The decoder reads the instruction i from the word w. -/
abbrev Reads (w : BitVec 32) (i : Instr) : Prop := (decode w).toOption = some i

/-- The decoder rejects the word w for the reason r. -/
abbrev Rejects (w : BitVec 32) (r : Reject) : Prop := (match decode w with | .ok _ => none | .error e => some e) = some r

def wordR (fn : BitVec 11) (lb : BitVec 1) (rb : BitVec 4) (la : BitVec 1) (ra rd : BitVec 4) (op : BitVec 7) : BitVec 32 :=
  fn ++ lb ++ rb ++ la ++ ra ++ rd ++ op
def wordI (imm : BitVec 16) (la : BitVec 1) (ra rd : BitVec 4) (op : BitVec 7) : BitVec 32 := imm ++ la ++ ra ++ rd ++ op
def wordM (off : BitVec 12) (ld : BitVec 1) (q : BitVec 3) (la : BitVec 1) (ra rd : BitVec 4) (op : BitVec 7) : BitVec 32 :=
  off ++ ld ++ q ++ la ++ ra ++ rd ++ op
def wordB (off : BitVec 12) (cond : BitVec 3) (lb : BitVec 1) (rb : BitVec 4) (la : BitVec 1) (ra : BitVec 4) (op : BitVec 7) : BitVec 32 :=
  off ++ cond ++ lb ++ rb ++ la ++ ra ++ op
def wordZ (off : BitVec 17) (cond : BitVec 3) (la : BitVec 1) (ra : BitVec 4) (op : BitVec 7) : BitVec 32 := off ++ cond ++ la ++ ra ++ op
def wordJ (off : BitVec 21) (rd : BitVec 4) (op : BitVec 7) : BitVec 32 := off ++ rd ++ op
def wordK (imm : BitVec 16) (idx : BitVec 2) (rd : BitVec 4) (op : BitVec 7) : BitVec 32 := imm ++ 0#3 ++ idx ++ rd ++ op
def wordC (fn : BitVec 8) (sub : BitVec 3) (lb : BitVec 1) (rb : BitVec 4) (la : BitVec 1) (ra rd : BitVec 4) (op : BitVec 7) : BitVec 32 :=
  fn ++ sub ++ lb ++ rb ++ la ++ ra ++ rd ++ op
def wordS (imm : BitVec 16) (sub : BitVec 5) (rd : BitVec 4) (op : BitVec 7) : BitVec 32 := imm ++ sub ++ rd ++ op

/-- The worked encodings at the end of the chapter on formats. -/
theorem test_decode_worked : Reads 0x00141981#32 (.add false 3 ⟨3, false⟩ ⟨4, true⟩) ∧
    Reads 0x00000A23#32 (.ldD .plain 4 ⟨1, false⟩ 0#12) ∧ Reads 0x000F1A1C#32 (.ldk 4 0x000F#16 3#2) ∧
    Reads 0x000A924A#32 (.strel false .dev ⟨4, true⟩ ⟨2, true⟩ 0#12) ∧ Reads 0x000000D9#32 (.evnext 0#4 1) ∧
    Reads 0xFFFE1139#32 (.bnz ⟨2, false⟩ 0x1FFFC#17) ∧ Rejects 0x00080A23#32 .reservedField ∧
    Rejects 0x00000A27#32 .unassignedOpcode := by
  decide

/-- R49, R53, R74: words that are no instruction: all zeros and ones, opcode 0x6E, an ALU function above 26, W on and, a res0 field
of ldk, a port above 5, an ordering above 3, an rd that migr does not use, kind 3 of fence. -/
theorem test_decode_rejects : Rejects 0#32 .allZeros ∧ Rejects 0xFFFFFFFF#32 .allOnes ∧
    Rejects (wordI 0 0 0 0 0x6E) .unassignedOpcode ∧ Rejects (wordR 27 0 3 0 2 1 0x01) .unassignedFunction ∧
    Rejects (wordR (1024 + 9) 0 3 0 2 1 0x01) .limit ∧ Rejects (wordS 1 4 1 0x1C) .reservedField ∧
    Rejects (wordC 6 0 0 3 0 2 1 0x51) .limit ∧ Rejects (wordC 128 4 0 3 0 2 1 0x30) .limit ∧
    Rejects (wordR 2 0 0 0 2 1 0x41) .reservedField ∧ Rejects (wordS 0 24 0 0x48) .limit := by
  decide

/-- R54: fn11[4:0] in the order of the table. -/
theorem test_decode_alu :
    Reads (wordR 0 1 3 0 2 1 0x01) (.add false 1 ⟨2, false⟩ ⟨3, true⟩) ∧
    Reads (wordR 1 1 3 0 2 1 0x01) (.sub false 1 ⟨2, false⟩ ⟨3, true⟩) ∧
    Reads (wordR 2 1 3 0 2 1 0x01) (.mul false 1 ⟨2, false⟩ ⟨3, true⟩) ∧
    Reads (wordR 3 1 3 0 2 1 0x01) (.mulh 1 ⟨2, false⟩ ⟨3, true⟩) ∧
    Reads (wordR 4 1 3 0 2 1 0x01) (.mulhu 1 ⟨2, false⟩ ⟨3, true⟩) ∧
    Reads (wordR 5 1 3 0 2 1 0x01) (.div false 1 ⟨2, false⟩ ⟨3, true⟩) ∧
    Reads (wordR 6 1 3 0 2 1 0x01) (.divu false 1 ⟨2, false⟩ ⟨3, true⟩) ∧
    Reads (wordR 7 1 3 0 2 1 0x01) (.rem false 1 ⟨2, false⟩ ⟨3, true⟩) ∧
    Reads (wordR 8 1 3 0 2 1 0x01) (.remu false 1 ⟨2, false⟩ ⟨3, true⟩) ∧
    Reads (wordR 9 1 3 0 2 1 0x01) (.and 1 ⟨2, false⟩ ⟨3, true⟩) ∧
    Reads (wordR 10 1 3 0 2 1 0x01) (.or 1 ⟨2, false⟩ ⟨3, true⟩) ∧
    Reads (wordR 11 1 3 0 2 1 0x01) (.xor 1 ⟨2, false⟩ ⟨3, true⟩) ∧
    Reads (wordR 12 1 3 0 2 1 0x01) (.andn 1 ⟨2, false⟩ ⟨3, true⟩) ∧
    Reads (wordR 13 1 3 0 2 1 0x01) (.orn 1 ⟨2, false⟩ ⟨3, true⟩) ∧
    Reads (wordR 14 1 3 0 2 1 0x01) (.shl false 1 ⟨2, false⟩ ⟨3, true⟩) ∧
    Reads (wordR 15 1 3 0 2 1 0x01) (.shr false 1 ⟨2, false⟩ ⟨3, true⟩) ∧
    Reads (wordR 16 1 3 0 2 1 0x01) (.sra false 1 ⟨2, false⟩ ⟨3, true⟩) ∧
    Reads (wordR 17 1 3 0 2 1 0x01) (.rotl false 1 ⟨2, false⟩ ⟨3, true⟩) ∧
    Reads (wordR 18 1 3 0 2 1 0x01) (.rotr false 1 ⟨2, false⟩ ⟨3, true⟩) ∧
    Reads (wordR 19 1 3 0 2 1 0x01) (.min 1 ⟨2, false⟩ ⟨3, true⟩) ∧
    Reads (wordR 20 1 3 0 2 1 0x01) (.max 1 ⟨2, false⟩ ⟨3, true⟩) ∧
    Reads (wordR 21 1 3 0 2 1 0x01) (.minu 1 ⟨2, false⟩ ⟨3, true⟩) ∧
    Reads (wordR 22 1 3 0 2 1 0x01) (.maxu 1 ⟨2, false⟩ ⟨3, true⟩) ∧
    Reads (wordR 23 1 3 0 2 1 0x01) (.slt 1 ⟨2, false⟩ ⟨3, true⟩) ∧
    Reads (wordR 24 1 3 0 2 1 0x01) (.sltu 1 ⟨2, false⟩ ⟨3, true⟩) ∧
    Reads (wordR 25 1 3 0 2 1 0x01) (.seq 1 ⟨2, false⟩ ⟨3, true⟩) ∧
    Reads (wordR 26 1 3 0 2 1 0x01) (.sel 1 ⟨2, false⟩ ⟨3, true⟩) := by
  decide

/-- R54: fn11[10] is W. -/
theorem test_decode_alu_word_forms :
    Reads (wordR 1024 1 3 0 2 1 0x01) (.add true 1 ⟨2, false⟩ ⟨3, true⟩) ∧
    Reads (wordR 1025 1 3 0 2 1 0x01) (.sub true 1 ⟨2, false⟩ ⟨3, true⟩) ∧
    Reads (wordR 1026 1 3 0 2 1 0x01) (.mul true 1 ⟨2, false⟩ ⟨3, true⟩) ∧
    Reads (wordR 1029 1 3 0 2 1 0x01) (.div true 1 ⟨2, false⟩ ⟨3, true⟩) ∧
    Reads (wordR 1030 1 3 0 2 1 0x01) (.divu true 1 ⟨2, false⟩ ⟨3, true⟩) ∧
    Reads (wordR 1031 1 3 0 2 1 0x01) (.rem true 1 ⟨2, false⟩ ⟨3, true⟩) ∧
    Reads (wordR 1032 1 3 0 2 1 0x01) (.remu true 1 ⟨2, false⟩ ⟨3, true⟩) ∧
    Reads (wordR 1038 1 3 0 2 1 0x01) (.shl true 1 ⟨2, false⟩ ⟨3, true⟩) ∧
    Reads (wordR 1039 1 3 0 2 1 0x01) (.shr true 1 ⟨2, false⟩ ⟨3, true⟩) ∧
    Reads (wordR 1040 1 3 0 2 1 0x01) (.sra true 1 ⟨2, false⟩ ⟨3, true⟩) ∧
    Reads (wordR 1041 1 3 0 2 1 0x01) (.rotl true 1 ⟨2, false⟩ ⟨3, true⟩) ∧
    Reads (wordR 1042 1 3 0 2 1 0x01) (.rotr true 1 ⟨2, false⟩ ⟨3, true⟩) := by
  decide

/-- R55. -/
theorem test_decode_unary :
    Reads (wordR 0 0 0 0 2 1 0x02) (.clz false 1 ⟨2, false⟩) ∧
    Reads (wordR 1 0 0 0 2 1 0x02) (.ctz false 1 ⟨2, false⟩) ∧
    Reads (wordR 2 0 0 0 2 1 0x02) (.popc false 1 ⟨2, false⟩) ∧
    Reads (wordR 1026 0 0 0 2 1 0x02) (.popc true 1 ⟨2, false⟩) ∧
    Reads (wordR 4 0 0 0 2 1 0x02) (.sextB 1 ⟨2, false⟩) ∧
    Reads (wordR 5 0 0 0 2 1 0x02) (.sextH 1 ⟨2, false⟩) ∧
    Reads (wordR 6 0 0 0 2 1 0x02) (.sextW 1 ⟨2, false⟩) ∧
    Reads (wordR 8 0 0 0 2 1 0x02) (.zextB 1 ⟨2, false⟩) ∧
    Reads (wordR 9 0 0 0 2 1 0x02) (.zextH 1 ⟨2, false⟩) ∧
    Reads (wordR 10 0 0 0 2 1 0x02) (.zextW 1 ⟨2, false⟩) := by
  decide

/-- R53: 0x03 to 0x0D. -/
theorem test_decode_immediates :
    Reads (wordI 0x8001 1 2 1 0x03) (.addi 1 ⟨2, true⟩ 0x8001#16) ∧
    Reads (wordI 0x8001 1 2 1 0x04) (.andi 1 ⟨2, true⟩ 0x8001#16) ∧
    Reads (wordI 0x8001 1 2 1 0x05) (.ori 1 ⟨2, true⟩ 0x8001#16) ∧
    Reads (wordI 0x8001 1 2 1 0x06) (.xori 1 ⟨2, true⟩ 0x8001#16) ∧
    Reads (wordI 63 1 2 1 0x07) (.shli false 1 ⟨2, true⟩ 63#6) ∧
    Reads (wordI 95 1 2 1 0x07) (.shli true 1 ⟨2, true⟩ 31#6) ∧
    Reads (wordI 5 1 2 1 0x08) (.shri false 1 ⟨2, true⟩ 5#6) ∧
    Reads (wordI 69 1 2 1 0x09) (.srai true 1 ⟨2, true⟩ 5#6) ∧
    Reads (wordI 0xFFFF 1 2 1 0x0A) (.slti 1 ⟨2, true⟩ 0xFFFF#16) ∧
    Reads (wordI 0xFFFF 1 2 1 0x0B) (.sltiu 1 ⟨2, true⟩ 0xFFFF#16) ∧
    Reads (wordI 452 1 2 1 0x0C) (.bfx 1 ⟨2, true⟩ 4#6 7#6) ∧
    Reads (wordI 4032 1 2 1 0x0D) (.bfi 1 ⟨2, true⟩ 0#6 63#6) := by
  decide

/-- R56: fn11[10:8] rounding, fn11[7:6] format. -/
theorem test_decode_float :
    Reads (wordR 0 1 3 0 2 1 0x10) (.fadd .rne .fp64 1 ⟨2, false⟩ ⟨3, true⟩) ∧
    Reads (wordR 321 1 3 0 2 1 0x10) (.fsub .rz .fp32 1 ⟨2, false⟩ ⟨3, true⟩) ∧
    Reads (wordR 642 1 3 0 2 1 0x10) (.fmul .rdn .fp16 1 ⟨2, false⟩ ⟨3, true⟩) ∧
    Reads (wordR 963 1 3 0 2 1 0x10) (.fdiv .rup .bf16 1 ⟨2, false⟩ ⟨3, true⟩) ∧
    Reads (wordR 1028 1 3 0 2 1 0x10) (.fmin .sr .fp64 1 ⟨2, false⟩ ⟨3, true⟩) ∧
    Reads (wordR 1861 1 3 0 2 1 0x10) (.fmax .dyn .fp32 1 ⟨2, false⟩ ⟨3, true⟩) ∧
    Reads (wordC 128 7 1 3 0 2 1 0x11) (.fma .dyn .fp16 1 ⟨2, false⟩ ⟨3, true⟩) ∧
    Reads (wordC 193 4 1 3 0 2 1 0x11) (.fms .sr .bf16 1 ⟨2, false⟩ ⟨3, true⟩) ∧
    Reads (wordR 1792 0 0 0 2 1 0x12) (.fsqrt .dyn .fp64 1 ⟨2, false⟩) ∧
    Reads (wordR 1857 0 0 0 2 1 0x12) (.fneg .fp32 1 ⟨2, false⟩) ∧
    Reads (wordR 1922 0 0 0 2 1 0x12) (.fabs .fp16 1 ⟨2, false⟩) ∧
    Reads (wordR 1987 0 0 0 2 1 0x12) (.fclass .bf16 1 ⟨2, false⟩) ∧
    Reads (wordR 260 0 0 0 2 1 0x12) (.fround .rz .fp64 1 ⟨2, false⟩) ∧
    Reads (wordR 1808 0 0 0 2 1 0x13) (.fcvt .dyn .s .d 1 ⟨2, false⟩) ∧
    Reads (wordR 115 0 0 0 2 1 0x13) (.fcvt .rne .wu .bf 1 ⟨2, false⟩) ∧
    Reads (wordR 66 1 3 0 2 1 0x14) (.fcmp .fp32 .le 1 ⟨2, false⟩ ⟨3, true⟩) ∧
    Reads (wordR 7 0 0 0 2 1 0x15) (.sfn .cos 1 ⟨2, false⟩) ∧
    Reads (wordR 11 0 0 0 2 1 0x15) (.sfn .atan 1 ⟨2, false⟩) := by
  decide

/-- R53: 0x18 to 0x1D. -/
theorem test_decode_address :
    Reads (wordR 0 1 3 0 2 1 0x18) (.adda 1 ⟨2, false⟩ ⟨3, true⟩) ∧
    Reads (wordI 0xFFF0 1 2 1 0x19) (.addai 1 ⟨2, true⟩ 0xFFF0#16) ∧
    Reads (wordI 209 1 2 1 0x1A) (.tagset 1 ⟨2, true⟩ 3#4 17#6) ∧
    Reads (wordR 0 0 0 0 2 1 0x1B) (.tagget 1 ⟨2, false⟩) ∧
    Reads (wordR 1 0 0 0 2 1 0x1B) (.tagclr 1 ⟨2, false⟩) ∧
    Reads (wordK 0x000F 3 4 0x1C) (.ldk 4 0x000F#16 3#2) ∧
    Reads (wordK 0x8000 1 4 0x1D) (.ink 4 0x8000#16 1#2) := by
  decide

/-- R50, R53: 0x20 to 0x2C; the last-use bit of a load's rd is zero. -/
theorem test_decode_loads_stores :
    Reads (wordM 0x801 0 0 1 2 4 0x20) (.ldB .plain 4 ⟨2, true⟩ 0x801#12) ∧
    Reads (wordM 0x801 0 1 1 2 4 0x21) (.ldH .fresh 4 ⟨2, true⟩ 0x801#12) ∧
    Reads (wordM 0x801 0 2 1 2 4 0x22) (.ldW .stream 4 ⟨2, true⟩ 0x801#12) ∧
    Reads (wordM 0x801 0 3 1 2 4 0x23) (.ldD .near 4 ⟨2, true⟩ 0x801#12) ∧
    Reads (wordM 0x801 0 0 1 2 4 0x24) (.ldBS .plain 4 ⟨2, true⟩ 0x801#12) ∧
    Reads (wordM 0x801 0 1 1 2 4 0x25) (.ldHS .fresh 4 ⟨2, true⟩ 0x801#12) ∧
    Reads (wordM 0x801 0 2 1 2 4 0x26) (.ldWS .stream 4 ⟨2, true⟩ 0x801#12) ∧
    Reads (wordM 1 1 0 1 2 4 0x28) (.stB .plain ⟨4, true⟩ ⟨2, true⟩ 1#12) ∧
    Reads (wordM 1 0 2 1 2 4 0x29) (.stH .stream ⟨4, false⟩ ⟨2, true⟩ 1#12) ∧
    Reads (wordM 1 1 3 1 2 4 0x2A) (.stW .near ⟨4, true⟩ ⟨2, true⟩ 1#12) ∧
    Reads (wordM 1 0 0 1 2 4 0x2B) (.stD .plain ⟨4, false⟩ ⟨2, true⟩ 1#12) ∧
    Reads (wordM 1 0 2 1 2 0 0x2C) (.pf .stream ⟨2, true⟩ 1#12) := by
  decide

/-- R59. -/
theorem test_decode_memory_level :
    Reads (wordC 14 0 1 3 0 2 1 0x2D) (.waita true true .lt 1 ⟨2, false⟩ ⟨3, true⟩) ∧
    Reads (wordC 1 0 1 3 0 2 1 0x2D) (.waita false false .ne 1 ⟨2, false⟩ ⟨3, true⟩) ∧
    Reads (wordR 0 0 0 0 2 0 0x2E) (.wakea ⟨2, false⟩) ∧
    Reads (wordR 1 0 0 0 2 0 0x2E) (.wakeaAll ⟨2, false⟩) ∧
    Reads (wordR 2 0 0 0 2 1 0x2E) (.home 1 ⟨2, false⟩) ∧
    Reads (wordR 3 0 0 0 2 0 0x2E) (.l1inv ⟨2, false⟩) := by
  decide

/-- R60: fn8[7] returning, fn8[6] width, fn8[5:4] scope, sub3 ordering; acas has fn8[7] = 1. -/
theorem test_decode_atomics :
    Reads (wordC 128 0 1 3 0 2 1 0x30) (.aadd true false .core .relaxed 1 ⟨2, false⟩ ⟨3, true⟩) ∧
    Reads (wordC 209 0 1 3 0 2 1 0x30) (.aand true true .shed .relaxed 1 ⟨2, false⟩ ⟨3, true⟩) ∧
    Reads (wordC 162 1 1 3 0 2 1 0x30) (.aor true false .dev .acq 1 ⟨2, false⟩ ⟨3, true⟩) ∧
    Reads (wordC 243 1 1 3 0 2 1 0x30) (.axor true true .sys .acq 1 ⟨2, false⟩ ⟨3, true⟩) ∧
    Reads (wordC 132 2 1 3 0 2 1 0x30) (.amin true false .core .rel 1 ⟨2, false⟩ ⟨3, true⟩) ∧
    Reads (wordC 213 2 1 3 0 2 1 0x30) (.amax true true .shed .rel 1 ⟨2, false⟩ ⟨3, true⟩) ∧
    Reads (wordC 166 3 1 3 0 2 1 0x30) (.aminu true false .dev .ar 1 ⟨2, false⟩ ⟨3, true⟩) ∧
    Reads (wordC 247 3 1 3 0 2 1 0x30) (.amaxu true true .sys .ar 1 ⟨2, false⟩ ⟨3, true⟩) ∧
    Reads (wordC 136 0 1 3 0 2 1 0x30) (.aswp true false .core .relaxed 1 ⟨2, false⟩ ⟨3, true⟩) ∧
    Reads (wordC 217 0 0 0 0 2 1 0x30) (.adecp true true .shed .relaxed 1 ⟨2, false⟩) ∧
    Reads (wordC 170 1 1 3 0 2 1 0x30) (.afadd true false .dev .acq 1 ⟨2, false⟩ ⟨3, true⟩) ∧
    Reads (wordC 96 2 1 3 0 2 0 0x30) (.aadd false true .dev .rel 0 ⟨2, false⟩ ⟨3, true⟩) ∧
    Reads (wordC 240 3 1 3 0 2 1 0x31) (.acas true .sys .ar 1 ⟨2, false⟩ ⟨3, true⟩) := by
  decide

/-- R61, R47: formats B, Z, J and I. -/
theorem test_decode_branches :
    Reads (wordB 0xFFE 0 1 3 0 2 0x38) (.beq ⟨2, false⟩ ⟨3, true⟩ 0xFFE#12) ∧
    Reads (wordB 0xFFE 1 1 3 0 2 0x38) (.bne ⟨2, false⟩ ⟨3, true⟩ 0xFFE#12) ∧
    Reads (wordB 0xFFE 2 1 3 0 2 0x38) (.blt ⟨2, false⟩ ⟨3, true⟩ 0xFFE#12) ∧
    Reads (wordB 0xFFE 3 1 3 0 2 0x38) (.bge ⟨2, false⟩ ⟨3, true⟩ 0xFFE#12) ∧
    Reads (wordB 0xFFE 4 1 3 0 2 0x38) (.bltu ⟨2, false⟩ ⟨3, true⟩ 0xFFE#12) ∧
    Reads (wordB 0xFFE 5 1 3 0 2 0x38) (.bgeu ⟨2, false⟩ ⟨3, true⟩ 0xFFE#12) ∧
    Reads (wordZ 0x1FFFC 0 0 2 0x39) (.bz ⟨2, false⟩ 0x1FFFC#17) ∧
    Reads (wordZ 0x1FFFC 1 0 2 0x39) (.bnz ⟨2, false⟩ 0x1FFFC#17) ∧
    Reads (wordZ 0x1FFFC 2 0 2 0x39) (.bltz ⟨2, false⟩ 0x1FFFC#17) ∧
    Reads (wordZ 0x1FFFC 3 0 2 0x39) (.bgez ⟨2, false⟩ 0x1FFFC#17) ∧
    Reads (wordJ 0x100001 1 0x3A) (.jal 1 0x100001#21) ∧
    Reads (wordI 0xFFFF 1 2 1 0x3B) (.jalr 1 ⟨2, true⟩ 0xFFFF#16) := by
  decide

/-- R53, R62. -/
theorem test_decode_threads :
    Reads (wordI 6 1 2 1 0x40) (.spawn 1 ⟨2, true⟩ 6#3) ∧
    Reads (wordR 0 0 0 0 2 1 0x41) (.post 1 ⟨2, false⟩) ∧
    Reads (wordR 1 0 0 0 2 1 0x41) (.launch 1 ⟨2, false⟩) ∧
    Reads (wordR 2 0 0 0 2 0 0x41) (.migr ⟨2, false⟩) ∧
    Reads (wordR 3 0 0 0 0 1 0x41) (.coord 1) ∧
    Reads (wordR 4 0 0 0 0 0 0x41) (.exit) ∧
    Reads (wordR 5 0 0 0 0 0 0x41) (.yield) ∧
    Reads (wordR 6 0 0 0 0 0 0x41) (.oflush) ∧
    Reads (wordR 7 0 0 0 0 0 0x41) (.beat) ∧
    Reads (wordS 0xABCD 0 0 0x42) (.safept 0xABCD#16) := by
  decide

/-- R53: fence has its kind in sub5[4:3] and its scope in sub5[1:0]; ldacq and strel have the width in bit 18 and the scope in bits 17:16. -/
theorem test_decode_synchronisation :
    Reads (wordS 0 0 0 0x48) (.fence .full .core) ∧
    Reads (wordS 0 10 0 0x48) (.fence .acq .dev) ∧
    Reads (wordS 0 19 0 0x48) (.fence .rel .sys) ∧
    Reads (wordM 1 0 5 1 2 4 0x49) (.ldacq true .shed 4 ⟨2, true⟩ 1#12) ∧
    Reads (wordM 1 1 3 1 2 4 0x4A) (.strel false .sys ⟨4, true⟩ ⟨2, true⟩ 1#12) := by
  decide

/-- R63: fn8[5:0] the phaser, fn8[7:6] the mode or the reduction. -/
theorem test_decode_phasers :
    Reads (wordC 191 0 0 0 0 0 1 0x4B) (.phreg .both 63#6 1) ∧
    Reads (wordC 5 1 0 0 0 0 0 0x4B) (.phdrop 5#6) ∧
    Reads (wordC 5 2 0 0 0 0 0 0x4B) (.phsig 5#6) ∧
    Reads (wordC 69 3 0 0 0 2 0 0x4B) (.phsigv .max 5#6 ⟨2, false⟩) ∧
    Reads (wordC 5 4 0 0 0 0 1 0x4B) (.phwait 5#6 1) ∧
    Reads (wordC 5 5 0 0 0 0 1 0x4B) (.phnext 5#6 1) ∧
    Reads (wordC 5 6 0 0 0 2 0 0x4B) (.phexpect 5#6 ⟨2, false⟩) ∧
    Reads (wordC 5 7 0 0 0 0 1 0x4B) (.phread 5#6 1) := by
  decide

/-- R63. -/
theorem test_decode_futures :
    Reads (wordR 0 0 0 0 2 1 0x4C) (.fget 1 ⟨2, false⟩) ∧
    Reads (wordR 1 1 3 0 2 0 0x4C) (.ffill ⟨2, false⟩ ⟨3, true⟩) ∧
    Reads (wordR 2 0 0 0 2 0 0x4C) (.fclr ⟨2, false⟩) ∧
    Reads (wordR 3 0 0 0 0 0 0x4C) (.pause) := by
  decide

/-- R53, R64. -/
theorem test_decode_engines :
    Reads (wordR 0 1 3 0 2 0 0x50) (.tcwl ⟨2, false⟩ ⟨3, true⟩) ∧
    Reads (wordC 0 0 1 3 0 2 1 0x51) (.tcwh .mat 1 ⟨2, false⟩ ⟨3, true⟩) ∧
    Reads (wordC 1 0 1 3 0 2 1 0x51) (.tcwh .copy 1 ⟨2, false⟩ ⟨3, true⟩) ∧
    Reads (wordC 2 0 1 3 0 2 1 0x51) (.tcwh .load 1 ⟨2, false⟩ ⟨3, true⟩) ∧
    Reads (wordC 3 0 1 3 0 2 1 0x51) (.tcwh .store 1 ⟨2, false⟩ ⟨3, true⟩) ∧
    Reads (wordC 4 0 1 3 0 2 1 0x51) (.tcwh .patt 1 ⟨2, false⟩ ⟨3, true⟩) ∧
    Reads (wordC 5 0 1 3 0 2 1 0x51) (.tcwh .wq 1 ⟨2, false⟩ ⟨3, true⟩) ∧
    Reads (wordR 0 0 0 0 2 1 0x52) (.jpoll 1 ⟨2, false⟩) ∧
    Reads (wordR 1 0 0 0 2 0 0x52) (.jwait ⟨2, false⟩) ∧
    Reads (wordR 2 0 0 0 0 1 0x52) (.vbusy 1) ∧
    Reads (wordR 3 0 0 0 0 0 0x52) (.vfence) ∧
    Reads (wordR 4 0 0 0 2 1 0x52) (.ftile 1 ⟨2, false⟩) ∧
    Reads (wordR 0 1 3 0 2 0 0x53) (.vop ⟨2, false⟩ ⟨3, true⟩) := by
  decide

/-- R64: fn8[4:0] the ring. -/
theorem test_decode_rings :
    Reads (wordC 31 0 0 0 0 2 1 0x54) (.rdef 31#5 1 ⟨2, false⟩) ∧
    Reads (wordC 7 1 0 0 0 2 1 0x54) (.rwaitf 7#5 1 ⟨2, false⟩) ∧
    Reads (wordC 7 2 0 0 0 2 1 0x54) (.rwaite 7#5 1 ⟨2, false⟩) ∧
    Reads (wordC 7 3 0 0 0 2 0 0x54) (.radvh 7#5 ⟨2, false⟩) ∧
    Reads (wordC 7 4 0 0 0 2 0 0x54) (.radvt 7#5 ⟨2, false⟩) ∧
    Reads (wordC 7 5 0 0 0 0 1 0x54) (.rstat 7#5 1) := by
  decide

/-- R65: the tree and event maps. -/
theorem test_decode_events :
    Reads (wordC 15 0 0 0 0 2 0 0x58) (.ktree 15#4 ⟨2, false⟩) ∧
    Reads (wordC 3 1 1 3 0 2 0 0x58) (.kset 3#4 ⟨2, false⟩ ⟨3, true⟩) ∧
    Reads (wordC 3 2 1 3 0 2 0 0x58) (.kseti 3#4 ⟨2, false⟩ ⟨3, true⟩) ∧
    Reads (wordC 3 3 0 0 0 2 1 0x58) (.kget 3#4 1 ⟨2, false⟩) ∧
    Reads (wordC 3 4 0 0 0 0 1 0x58) (.ktot 3#4 1) ∧
    Reads (wordC 3 0 0 0 0 0 1 0x59) (.evnext 3#4 1) ∧
    Reads (wordC 3 1 0 0 0 0 0 0x59) (.evdisp 3#4) ∧
    Reads (wordC 3 2 0 0 0 0 1 0x59) (.clkget 3#4 1) ∧
    Reads (wordC 3 3 1 3 0 2 1 0x59) (.bsend 3#4 1 ⟨2, false⟩ ⟨3, true⟩) ∧
    Reads (wordC 3 4 0 0 0 2 1 0x59) (.bmsg 3#4 1 ⟨2, false⟩) := by
  decide

/-- R65: the region map. -/
theorem test_decode_regions :
    Reads (wordC 3 0 0 0 0 0 1 0x5A) (.ckpt 3#4 1) ∧
    Reads (wordC 3 1 0 0 0 0 1 0x5A) (.rollb 3#4 1) ∧
    Reads (wordC 3 2 1 3 0 2 0 0x5A) (.mark 3#4 ⟨2, false⟩ ⟨3, true⟩) ∧
    Reads (wordC 3 3 1 3 0 2 0 0x5A) (.unmark 3#4 ⟨2, false⟩ ⟨3, true⟩) ∧
    Reads (wordC 3 4 0 0 0 2 0 0x5A) (.fossil 3#4 ⟨2, false⟩) ∧
    Reads (wordC 3 5 0 0 0 0 1 0x5A) (.dgst 3#4 1) ∧
    Reads (wordC 3 6 0 0 0 2 0 0x5A) (.rgnsave 3#4 ⟨2, false⟩) ∧
    Reads (wordC 3 7 0 0 0 2 0 0x5A) (.rgnload 3#4 ⟨2, false⟩) := by
  decide

/-- R65: the random-bit and priority-queue maps. -/
theorem test_decode_random_and_queues :
    Reads (wordR 0 1 3 0 2 1 0x5B) (.rngb 1 ⟨2, false⟩ ⟨3, true⟩) ∧
    Reads (wordR 1 1 3 0 2 1 0x5B) (.rbern 1 ⟨2, false⟩ ⟨3, true⟩) ∧
    Reads (wordR 2 1 3 0 2 1 0x5B) (.thash 1 ⟨2, false⟩ ⟨3, true⟩) ∧
    Reads (wordC 9 0 1 3 0 2 1 0x5C) (.pqpush 9#4 1 ⟨2, false⟩ ⟨3, true⟩) ∧
    Reads (wordC 9 1 0 0 0 2 1 0x5C) (.pqpop 9#4 1 ⟨2, false⟩) ∧
    Reads (wordC 9 2 0 0 0 0 1 0x5C) (.pqmin 9#4 1) ∧
    Reads (wordC 9 3 0 0 0 0 1 0x5C) (.pqlen 9#4 1) := by
  decide

/-- R66: sub3 the slot. -/
theorem test_decode_real_sets :
    Reads (wordC 0 5 1 3 0 2 1 0x60) (.rsadd 5#3 1 ⟨2, false⟩ ⟨3, true⟩) ∧
    Reads (wordC 1 5 1 3 0 2 1 0x60) (.rssub 5#3 1 ⟨2, false⟩ ⟨3, true⟩) ∧
    Reads (wordC 2 5 1 3 0 2 1 0x60) (.rsmul 5#3 1 ⟨2, false⟩ ⟨3, true⟩) ∧
    Reads (wordC 3 5 1 3 0 2 1 0x60) (.rsdiv 5#3 1 ⟨2, false⟩ ⟨3, true⟩) ∧
    Reads (wordC 4 5 1 3 0 2 1 0x60) (.rsor 5#3 1 ⟨2, false⟩ ⟨3, true⟩) ∧
    Reads (wordC 5 5 1 3 0 2 1 0x60) (.rsand 5#3 1 ⟨2, false⟩ ⟨3, true⟩) ∧
    Reads (wordC 6 5 1 3 0 2 1 0x60) (.rslt 5#3 1 ⟨2, false⟩ ⟨3, true⟩) ∧
    Reads (wordC 7 5 1 3 0 2 1 0x60) (.rsfi 5#3 1 ⟨2, false⟩ ⟨3, true⟩) ∧
    Reads (wordC 0 7 0 0 0 2 1 0x61) (.rsneg 7#3 1 ⟨2, false⟩) ∧
    Reads (wordC 1 7 0 0 0 2 1 0x61) (.rsinv 7#3 1 ⟨2, false⟩) ∧
    Reads (wordC 2 7 0 0 0 2 1 0x61) (.rssq 7#3 1 ⟨2, false⟩) ∧
    Reads (wordC 3 7 0 0 0 2 1 0x61) (.rslo 7#3 1 ⟨2, false⟩) ∧
    Reads (wordC 4 7 0 0 0 2 1 0x61) (.rshi 7#3 1 ⟨2, false⟩) ∧
    Reads (wordC 5 7 0 0 0 2 1 0x61) (.rsconn 7#3 1 ⟨2, false⟩) ∧
    Reads (wordC 6 7 0 0 0 2 1 0x61) (.rsf 7#3 1 ⟨2, false⟩) ∧
    Reads (wordC 0 1 0 0 0 2 1 0x62) (.rsring 1#3 1 ⟨2, false⟩) ∧
    Reads (wordC 2 1 0 0 0 2 1 0x63) (.rscz .w10 1#3 1 ⟨2, false⟩) ∧
    Reads (wordC 5 1 0 0 0 2 1 0x63) (.rsxz .w12 1#3 1 ⟨2, false⟩) := by
  decide

/-- R53, R396: 0x68, 0x6C and 0x6D. -/
theorem test_decode_loft_and_maintenance :
    Reads (wordR 0 0 0 0 2 1 0x68) (.ploft 1 ⟨2, false⟩) ∧
    Reads (wordR 1 0 0 0 2 1 0x68) (.pevict 1 ⟨2, false⟩) ∧
    Reads (wordC 0x80 3 1 3 0 2 1 0x6C) (.mld .d 1 ⟨2, false⟩ ⟨3, true⟩ 0x80#8) ∧
    Reads (wordC 1 0 1 3 0 2 1 0x6D) (.mst .b 1 ⟨2, false⟩ ⟨3, true⟩ 1#8) := by
  decide

/-- R67, R68. -/
theorem test_decode_system :
    Reads (wordS 7 0 0 0x70) (.sys 7#16) ∧
    Reads (wordS 7 0 0 0x71) (.brk 7#16) ∧
    Reads (wordI 0x011 0 0 1 0x72) (.crr 0x011#12 1) ∧
    Reads (wordI 0x4001 1 2 0 0x72) (.crw 0x001#12 ⟨2, true⟩) ∧
    Reads (wordI 0x8000 1 2 1 0x72) (.crs 0x000#12 1 ⟨2, true⟩) ∧
    Reads (wordI 0xC822 1 2 1 0x72) (.crc 0x822#12 1 ⟨2, true⟩) ∧
    Reads (wordR 0 0 0 0 0 0 0x73) (.eret) ∧
    Reads (wordR 1 1 3 0 2 0 0x73) (.tlbinv ⟨2, false⟩ ⟨3, true⟩) ∧
    Reads (wordR 2 1 3 0 2 0 0x73) (.frep ⟨2, false⟩ ⟨3, true⟩) ∧
    Reads (wordR 3 0 0 0 2 0 0x73) (.hvc ⟨2, false⟩) ∧
    Reads (wordR 4 0 0 0 0 0 0x73) (.idle) ∧
    Reads (wordR 5 0 0 0 2 0 0x73) (.kill ⟨2, false⟩) := by
  decide
/-! ### Small states -/

/-- The sources that the tests use: x2 and x3. -/
abbrev x2 : Src := ⟨2, false⟩
abbrev x3 : Src := ⟨3, false⟩

/-- A state with these values in the current hart's registers, every other one dead. -/
def withRegs (s : State) (l : Map Word) : State := s.setHart { s.hart with regs := l }

/-- Service core 0 right after reset, in H mode, with these registers. -/
def svcH (l : Map Word) : State := withRegs State.reset l

def run1 : Run where
  hdr := 0x40000
  part := 0
  prio := 0
  state := 3
  drop := 0
  cause := 0
  nly := 0
  nls := 0
  nlc := 1
  nstage := 0
  det := false
  drt := false
  pers := false
  beat := 0
  spad := 64
  trees := 0xFFFF
  zclaim := 0xFF
  htab := 0x50000
  hcount := 4
  sptab := 0x51000
  spcount := 1
  utvec := 0
  fpctl := 0
  seed := ⟨1, 2⟩
  jobbase := 0
  rings := 0xFFFFFFFF
  conds := []
  zslots := []
  phasers := []
  preempt := false
  frozen := false
  descheduled := false
  requester := []
  ready := false
  oldest := none
  stale := false
  block := 0

def thread1 : Thread where
  hart := { Hart.blank with pc := 0x60000 }
  run := 1
  coord := ⟨0, 0, 0, 0⟩
  core := 0
  slot := 0
  cls := .normal
  urgent := false
  ready := 0
  stamp := 0
  park := .none
  utcause := 0
  utval := 0
  utepc := 0
  save7 := none
  save8 := none
  jobbase := 0
  staged := none
  pending := []
  loads := []
  unseen := []
  vErr := 0
  vFlags := 0
  moved := false
  held := false
  restoring := false

/-- The key of logical shed (0, 0) of run 1. -/
abbrev l1 : Nat := 2 ^ 18

def lshed1 : LShed where
  run := 1
  ly := 0
  ls := 0
  shed := 0
  mode := 0
  resident := true
  bases := []
  released := []
  evctl := 0
  drawtab := 0
  phasers := []
  rings := []
  acc := []
  tilings := []
  regions := []
  pqs := []
  dog := 0
  since := 0
  slicing := false
  jobTabs := []

/-- A table whose one entry maps the first GiB of the address space onto itself, writable and executable (R233, R234), and a
grant map that grants the first sixteen frames (R366). -/
def mem1 : List Host.Cell := [(0x10002, 2), (0x10007, 0x80), (0x20007, 0xF0), (0x100000, 0xFF), (0x100001, 0xFF)]

/-- Thread 1 of run 1, on core 0, about to issue. -/
def base : State :=
  { State.reset with
    mem := mem1
    threads := [(1, thread1)]
    runs := [(1, run1)]
    lsheds := [(l1, lshed1)]
    groups := [(2 ^ 24, ⟨0x70001, true⟩)]
    parts := [(0, { Partition.blank with ptroot := 0x10001, grant := 0x100000, sheds := [(0, 256)], svcs := List.range 16 })]
    devices := [(0, { Device.blank with maint := false })]
    nextRun := 2
    nextKey := 2
    cur := .thread 1 }

/-- Thread 1 with these registers. -/
def thr (l : Map Word) : State := withRegs base l

/-- The state with a change of the thread's record, of its run, or of its logical shed. -/
def withThread (s : State) (f : Thread → Thread) : State := s.modThread 1 f
def withRun (s : State) (f : Run → Run) : State := s.modRun 1 f
def withL (s : State) (f : LShed → LShed) : State := s.modLShed l1 f

/-- The state after an instruction, or the state itself. -/
def after (i : Instr) (s : State) : State := match exec i s with
  | .next t => t
  | _ => s

/-- Whether a result is there, and has a property. -/
def placedWith {ε α : Type} (r : Except ε α) (p : α → Bool) : Bool := r.toOption.any p

theorem placed_meets {ε α : Type} {r : Except ε α} {P : α → Prop} [DecidablePred P] (h : placedWith r (fun a => P a) = true) :
    ∃ a, r = .ok a ∧ P a :=
  match r, h with
  | .ok a, h => ⟨a, rfl, of_decide_eq_true h⟩

/-! ### States that meet the hypotheses of the statements: one theorem for each statement, with its clauses at the ends of their
ranges. A clause `∃ a, r = .ok a ∧ …` says that an access is placed. -/

theorem witness_IntegerResults :
    intResult (thr [(2, 5), (3, 7)]).reg (.add false 1 x2 x3) = some ([x2, x3], [], 1, 12) ∧
    (Instr.add false 1 x2 x3).wellFormed = true ∧ CanRead (thr [(2, 5), (3, 7)]) [2, 3] ∧ CanGoOn (thr [(2, 5), (3, 7)]) ∧
    intResult (thr [(1, 9), (2, 5)]).reg (.bfi 1 x2 60#6 3#6) = some ([x2], [1], 1, 0x5000000000000009) ∧
    (Instr.bfi 1 x2 60#6 3#6).wellFormed = true ∧ CanRead (thr [(1, 9), (2, 5)]) [2, 1] := by
  decide +kernel

theorem witness_DivisionCorners :
    CanRead (thr [(2, 5), (3, 0x100000000)]) [2, 3] ∧ CanGoOn (thr [(2, 5), (3, 0x100000000)]) ∧
    unsignedOf true ((thr [(2, 5), (3, 0x100000000)]).reg 3) = 0 ∧
    signedOf false ((thr [(2, 0x8000000000000000), (3, BitVec.allOnes 64)]).reg 2) = -(2 ^ (widthOf false - 1)) ∧
    signedOf false ((thr [(2, 0x8000000000000000), (3, BitVec.allOnes 64)]).reg 3) = -1 ∧
    unsignedOf true ((thr [(2, 0x80000000), (3, 2)]).reg 3) ≠ 0 ∧ signedOf true ((thr [(2, 0x80000000), (3, 2)]).reg 3) ≠ -1 := by
  decide +kernel

theorem witness_FloatResults :
    fpResult (thr [(2, 0x3F800000), (3, 0x3F800000)]) (.fadd .rne .fp32 1 x2 x3) = some ([x2, x3], [], 1, 0x40000000, 0) ∧
    CanRead (thr [(2, 0x3F800000), (3, 0x3F800000)]) [2, 3] ∧ CanGoOn (thr [(2, 0x3F800000), (3, 0x3F800000)]) := by
  decide +kernel

/-- The sums 2^52 − 1, 2^52, 0 and −1. -/
theorem witness_PointerAdds :
    (let s := thr [(2, 0xFFFFFFFFFFFFF), (3, 0)]
     CanRead s [2, 3] ∧ CanGoOn s ∧ ((s.reg 2).toNat % 2 ^ 52 : Nat) + (s.reg 3).toInt = 2 ^ 52 - 1) ∧
    (let s := thr [(2, 0xFFFFFFFFFFFFF), (3, 1)]
     CanRead s [2, 3] ∧ CanGoOn s ∧ ((s.reg 2).toNat % 2 ^ 52 : Nat) + (s.reg 3).toInt = 2 ^ 52) ∧
    (let s := thr [(2, 1)]
     CanRead s [2] ∧ CanGoOn s ∧ ((s.reg 2).toNat % 2 ^ 52 : Nat) + (0xFFFF#16).toInt = 0 ∧
      ((s.reg 2).toNat % 2 ^ 52 : Nat) + (0xFFFE#16).toInt = -1) := by
  decide +kernel

/-- A taken branch to address 0 and to −4, one not taken, and one at the last word. -/
theorem witness_Branches :
    (let s := (thr [(2, 1), (3, 1)]).setHart { (thr [(2, 1), (3, 1)]).hart with pc := 8 }
     branchOf s.reg (.beq x2 x3 0xFFE#12) = some ([x2, x3], true, -2) ∧ CanRead s [2, 3] ∧ (s.hart.pc.toNat : Int) + 4 * -2 = 0 ∧
     branchOf s.reg (.beq x2 x3 0xFFD#12) = some ([x2, x3], true, -3) ∧ (s.hart.pc.toNat : Int) + 4 * -3 = -4 ∧
     branchOf s.reg (.bne x2 x3 1#12) = some ([x2, x3], false, 1) ∧ CanGoOn s) ∧
    (let s := (thr [(2, 1), (3, 1)]).setHart { (thr [(2, 1), (3, 1)]).hart with pc := 0xFFFFFFFFFFFFC }
     branchOf s.reg (.bne x2 x3 1#12) = some ([x2, x3], false, 1) ∧ ¬ CanGoOn s) := by
  decide +kernel

theorem witness_Jumps :
    (let s := thr [(2, 0x1004)]
     CanGoOn s ∧ s.hart.pc.toNat % 4 = 0 ∧ (s.hart.pc.toNat : Int) + 4 * (0x1FFFFF#21).toInt = 0x5FFFC ∧ CanRead s [2] ∧
      ((s.reg 2).toNat % 2 ^ 52 : Nat) + 4 * (1#16).toInt = 0x1008) ∧
    (let s := thr [(2, 0x1006)]
     CanRead s [2] ∧ s.hart.pc.toNat % 4 = 0 ∧ ((s.reg 2).toNat % 2 ^ 52 : Nat) + 4 * (1#16).toInt = 0x100A) ∧
    (let s := withThread (thr [(2, 0)]) (fun t => { t with hart := { t.hart with pc := 0xFFFFFFFFFFFFC } })
     ¬ CanGoOn s ∧ s.hart.pc.toNat % 4 = 0 ∧ CanRead s [2] ∧ (2 ^ 52 : Int) ≤ (s.hart.pc.toNat : Int) + 4 * (1#21).toInt ∧
      ((s.reg 2).toNat % 2 ^ 52 : Nat) + 4 * (0xFFFF#16).toInt < 0) := by
  decide +kernel

/-! #### Memory -/

/-- Thread 1 with an address of near space in x2, at an offset in it. -/
def nearAt (n : Nat) : State := thr [(2, BitVec.ofNat 64 (0xF000000000000 + n)), (4, 7)]

/-- Thread 1 with an address of the second GiB in x2, whose leaf entry is w. -/
def paged (w : Nat) : State := { thr [(2, 0x40000040), (4, 7)] with mem := Memory.puts mem1 0x20008 (leBytes 8 w) }

/-- Bits 53:52 set, an address below 0, and a misaligned one. Near space: a coordinate with a bit that must be zero, a logical core, and
a logical yard, that the run has not; a released core; the first byte past the window of 0x40000 bytes, and the first past the
scratchpad. Pages: an absent one, a malformed entry, one that is not writable, and a frame that is not granted. A dead register, first
and second in its order, in a run that traps dead reads. The last word. -/
theorem witness_SourceAndAddressTraps :
    (let s := thr [(2, 0x10000000040000), (4, 7)]
     loadOf (.ldD .plain 1 x2 1#12) = some (.plain, 8, false, 1, x2, 8) ∧ CanRead s [2] ∧ CanGoOn s ∧ (s.reg 2).toNat / 2 ^ 52 % 4 ≠ 0) ∧
    (let s := thr [(2, 4), (4, 7)]
     storeOf (.stW .plain ⟨4, false⟩ x2 0xFFE#12) = some (.plain, 4, ⟨4, false⟩, x2, -8) ∧ CanRead s [2, 4] ∧
      (s.reg 2).toNat / 2 ^ 52 % 4 = 0 ∧ (((s.reg 2).toNat % 2 ^ 52 : Nat) : Int) + (-8) = -4 ∧
      loadOf (.ldD .plain 1 x2 1#12) = some (.plain, 8, false, 1, x2, 8) ∧ ((((s.reg 2).toNat % 2 ^ 52 : Nat) : Int) + 8) % (8 : Nat) ≠ 0) ∧
    (loadOf (.ldD .plain 1 x2 0#12) = some (.plain, 8, false, 1, x2, 0) ∧ storeOf (.stD .near ⟨4, false⟩ x2 0#12) = some (.near, 8, ⟨4, false⟩, x2, 0) ∧
      (nearAt 0).cur = .thread 1 ∧ (nearAt 0).runs.get 1 = some run1 ∧ (nearAt 0).drt = false ∧ CanGoOn (nearAt 0) ∧
      ((nearAt 0).threads.get 1).map (fun t => (t.run, t.coord, t.core)) = some (1, ⟨0, 0, 0, 0⟩, 0) ∧
      Names ((nearAt 0).reg 2) 0 8 0xF000000000000 ∧ isNear 0xF000000000000 = true ∧ isNear 0x40000040 = false ∧
      nearTarget ⟨0, 0, 0, 0⟩ 0xF000000080000 = none ∧ nearTarget ⟨0, 0, 0, 0⟩ 0xF400000100000 = some (0, 0, 2, 0) ∧ run1.nlc < 2 ∧
      nearTarget ⟨0, 0, 0, 0⟩ 0xFC00010000000 = some (1, 0, 0, 0) ∧ (nearAt 0).lsheds.get (lkey 1 1 0) = none) ∧
    (nearTarget ⟨0, 0, 0, 0⟩ 0xF000000040000 = some (0, 0, 0, 0x40000) ∧ run1.spad * 4096 ≤ 0x40000 ∧ 0x40000 < 0x7E000 ∧
      nearTarget ⟨0, 0, 0, 0⟩ 0xF00000007E000 = some (0, 0, 0, 0x7E000) ∧ (nearAt 0).lsheds.get (lkey 1 0 0) = some lshed1 ∧
      lshed1.released.contains 0 = false ∧ ({ lshed1 with released := [0] } : LShed).released.contains 0 = true) ∧
    (let c : Ctx := .run 1 ⟨0, 0, 0, 0⟩ 0
     let r (w : Nat) (as : List Src) : State := readState (paged w) as []
     Names ((paged 0).reg 2) 0 8 0x40000040 ∧ (lookup (r 0 [x2]) c .read 0x40000040).2 = .absent ∧
      (lookup (r (2 ^ 63 + 2 ^ 49) [x2]) c .read 0x40000040).2 = .bad ∧
      (lookup (r (3 * 2 ^ 62) [x2, ⟨4, false⟩]) c .write 0x40000040).2 = .leaf (BitVec.ofNat 64 (3 * 2 ^ 62)) 2 ∧
      bitAt (BitVec.ofNat 64 (3 * 2 ^ 62)) 61 = false ∧
      (lookup (r (3 * 2 ^ 62 + 2 ^ 30) [x2]) c .read 0x40000040).2 = .leaf (BitVec.ofNat 64 (3 * 2 ^ 62 + 2 ^ 30)) 2 ∧
      granted (r (3 * 2 ^ 62 + 2 ^ 30) [x2]) run1.part 0 (leafAddr (BitVec.ofNat 64 (3 * 2 ^ 62 + 2 ^ 30)) 2 0x40000040) = false ∧
      (r (3 * 2 ^ 62 + 2 ^ 30) [x2]).badLines = []) ∧
    (let s (l : Map Word) := withRun (thr l) (fun r => { r with drt := true })
     (s []).drt = true ∧ readsOf (s []) (.add false 1 x2 x3) = some ([2, 3], true) ∧ (Instr.add false 1 x2 x3).wellFormed = true ∧
      [2, 3].find? (s []).hart.isDead = some 2 ∧ [2, 3].find? (s [(2, 1)]).hart.isDead = some 3 ∧
      readsOf (s []) (.beq x2 x3 0#12) = some ([2, 3], false) ∧ readsOf (s []) (.stD .near ⟨4, false⟩ x2 0#12) = some ([2, 4], true)) ∧
    (let s := (thr [(2, 1), (3, 1)]).setHart { (thr [(2, 1), (3, 1)]).hart with pc := 0xFFFFFFFFFFFFC }
     readsOf s (.aadd true true .dev .relaxed 1 x2 x3) = some ([2, 3], true) ∧ CanRead s [2, 3] ∧ ¬ CanGoOn s) := by
  refine ⟨⟨rfl, .inl rfl, ?_, ?_⟩, ⟨rfl, .inl rfl, ?_, ?_, rfl, ?_⟩,
    ⟨rfl, rfl, ?_⟩, ?_, ⟨?_, rfl, rfl, rfl, rfl, rfl, ?_, rfl⟩, ?_, ?_⟩ <;> decide +kernel

/-- A plain load of memory, and a near load of the thread's own scratchpad. -/
theorem witness_Loads :
    (let s := thr [(2, 0x40000)]
     loadOf (.ldD .plain 1 x2 1#12) = some (.plain, 8, false, 1, x2, 8) ∧ CanRead s [2] ∧ CanGoOn s ∧ Names (s.reg 2) 8 8 0x40008 ∧ Settled s ∧
     AtOnce s ∧ ¬ AtOnce { s with defer := [true] } ∧
     ∃ a, placeMem (readState s [x2] []) .read 0x40008 = .ok a ∧ a.2.key = 0x40008) ∧
    (let s := thr [(2, 0xF000000000000)]
     loadOf (.ldBS .near 1 x2 0x7FF#12) = some (.near, 1, true, 1, x2, 0x7FF) ∧ CanRead s [2] ∧ Names (s.reg 2) 0x7FF 1 0xF0000000007FF ∧
     isNear 0xF0000000007FF = true ∧ ∃ a, placeMem (readState s [x2] []) .read 0xF0000000007FF = .ok a ∧ a.2.near = true) := by
  refine ⟨⟨rfl, .inl rfl, ?_, ?_, ?_, ?_, ?_, placed_meets ?_⟩,
    rfl, .inl rfl, ?_, ?_, placed_meets ?_⟩ <;> decide +kernel

theorem witness_Stores :
    let s := thr [(2, 0x40000), (4, 7)]
    storeOf (.stH .plain ⟨4, false⟩ x2 1#12) = some (.plain, 2, ⟨4, false⟩, x2, 2) ∧ (Instr.stH .plain ⟨4, false⟩ x2 1#12).wellFormed = true ∧
    CanRead s [2, 4] ∧ CanGoOn s ∧ Names (s.reg 2) 2 2 0x40002 ∧ Settled s ∧ AtOnce s ∧ ¬ AtOnce { s with defer := [true] } ∧
    ∃ a, placeMem (readState s [x2, ⟨4, false⟩] []) .write 0x40002 = .ok a ∧ LogRoom a.1 a.2.key 2 := by
  refine ⟨rfl, rfl, .inl rfl, ?_, ?_, ?_, ?_, ?_, placed_meets ?_⟩ <;> decide +kernel

theorem witness_AcquireRelease :
    let s := thr [(2, 0x40000), (4, 7)]
    Names (s.reg 2) ((4 : Nat) * (0xFFF#12).toInt) 4 0x3FFFC ∧ CanGoOn s ∧ Settled s ∧ CanRead s [2] ∧ CanRead s [2, 4] ∧
    (∃ a, placeMem (readState s [x2] []) .read 0x3FFFC = .ok a ∧ a.2.key = 0x3FFFC) ∧
    (∃ a, placeMem (readState s [x2, ⟨4, false⟩] []) .write 0x3FFFC = .ok a ∧ LogRoom a.1 a.2.key 4) := by
  refine ⟨?_, ?_, ?_, .inl rfl, .inl rfl, placed_meets ?_, placed_meets ?_⟩ <;> decide +kernel

/-- An atomic of a run that is not deterministic, and one of a deterministic run that faults. -/
theorem witness_AtomicAccesses :
    (let s := thr [(2, 0x40000), (3, 7)]
     (∃ x, atomOf s (.aadd true true .dev .relaxed 1 x2 x3) = some x ∧ x.as.head? = some x2 ∧ x.n = 8 ∧ x.ret = true ∧
       CanRead s (x.as.map (fun a => a.r) ++ x.extra) ∧
       ∃ a, place (readState s x.as x.extra) (readState s x.as x.extra).ctx .write 0x40000 = .ok a ∧ frameBusy a.1 (curWaiter s) a.2.key = false ∧
         DetAllows a.1 x.det 0x40000 ∧ LogRoom a.1 a.2.key x.n) ∧
     (Instr.aadd true true .dev .relaxed 1 x2 x3).wellFormed = true ∧ CanGoOn s ∧ Names (s.reg 2) 0 8 0x40000 ∧ Settled s ∧
     s.curThread.isSome = true) ∧
    (let s := withRun (thr [(2, 0x40000), (3, 7)]) (fun r => { r with det := true })
     (∃ x, atomOf s (.aswp true true .dev .relaxed 1 x2 x3) = some x ∧ x.as.head? = some x2 ∧ x.n = 8 ∧ x.det = true ∧
       ∃ a, place (readState s x.as x.extra) (readState s x.as x.extra).ctx .write 0x40000 = .ok a ∧ frameBusy a.1 (curWaiter s) a.2.key = false) ∧
     (s.curThread.map (fun th => ownPad th 0x40000)) = some false ∧ (s.curRun.map (fun r => r.det)) = some true) := by
  refine ⟨⟨⟨_, rfl, rfl, rfl, rfl, .inl rfl, placed_meets ?_⟩, rfl, ?_, ?_, ?_⟩,
    ⟨_, rfl, rfl, rfl, rfl, placed_meets ?_⟩, ?_, ?_⟩ <;> decide +kernel

theorem witness_FencesAndCaches : let s := thr [(2, 0x40000)]
    CanGoOn s ∧ Settled s ∧ CanRead s [2] ∧ s.curThread.map (fun th => th.loads) = some [] := by
  decide +kernel

/-- An entry that holds, one that does not while the table has room, and a wake of a location. The full table is 64 entries. -/
theorem witness_WaitsAndWakes :
    let s := thr [(1, BitVec.allOnes 64), (2, 0x40000), (3, 0)]
    let e : Wait := ⟨0x40000, 8, 2 ^ 64 - 1, .eq, 0, false, curWaiter s, false⟩
    CanRead s [2, 3, 1] ∧ CanGoOn s ∧ Names (s.reg 2) 0 8 0x40000 ∧ isNear 0x40000 = false ∧ Settled s ∧
    e = ⟨0x40000, 8, (s.reg 1).toNat % 2 ^ (8 * 8), .eq, (s.reg 3).toNat % 2 ^ (8 * 8), false, curWaiter s, false⟩ ∧
    cmpHolds .eq (s.value 0x40000 8 &&& e.mask) (e.expect &&& e.mask) = true ∧
    cmpHolds .ne (s.value 0x40000 8 &&& e.mask) (e.expect &&& e.mask) = false ∧
    (s.reg 2).toNat % 2 ^ 52 / 8 * 8 = 0x40000 ∧ isNear 0xF000000000000 = true ∧ (nearAt 0).isPhys = false ∧
    (nearAt 0).reg 2 = 0xF000000000000#64 ∧
    (∃ a, place (readState s [x2, x3] [1]) (readState s [x2, x3] [1]).ctx .read 0x40000 = .ok a ∧
      frameBusy a.1 (curWaiter s) a.2.key = false ∧ a.2.key = 0x40000 ∧ waitFull s a.2 = false ∧
      waitFull { s with waits := (List.range 2048).map (fun k => (k, e)) } a.2 = true) ∧
    (∃ a, place (readState s [x2] []) (readState s [x2] []).ctx .read 0x40000 = .ok a ∧ frameBusy a.1 (curWaiter s) a.2.key = false) := by
  refine ⟨.inl rfl, ?_, ?_, ?_, ?_, ?_, ?_,
    ?_, ?_, ?_, ?_, rfl, placed_meets ?_,
    placed_meets ?_⟩ <;> decide +kernel

/-- A full cell, and an empty one. -/
theorem witness_Futures :
    (let s := { thr [(2, 0x40000), (3, 7)] with mem := Memory.put mem1 0x40008 1 }
     s.isSvc = false ∧ CanRead s [2, 3] ∧ CanRead s [2] ∧ CanGoOn s ∧ Names (s.reg 2) 0 16 0x40000 ∧ Settled s ∧
     s.value 0x40008 8 % 2 = 1 ∧ s.value 0x40008 8 / 2 % 2 ^ 31 = 0 ∧
     (∃ a, place16 (readState s [x2] []) .read 0x40000 = .ok a ∧ a.2.1.key = 0x40000 ∧ a.2.2.key = 0x40008) ∧
     (∃ a, place16 (readState s [x2, x3] []) .write 0x40000 = .ok a ∧ a.2.2.key = 0x40008)) ∧
    (let s := thr [(2, 0x40000), (3, 7)]
     s.value 0x40008 8 % 2 = 0 ∧ s.value 0x40008 8 / 2 % 2 ^ 31 = 0 ∧ Settled s ∧
     (∃ a, place16 (readState s [x2] []) .read 0x40000 = .ok a ∧ a.2.1.key = 0x40000 ∧ a.2.2.key = 0x40008) ∧
     (∃ a, place16 (readState s [x2, x3] []) .write 0x40000 = .ok a ∧ CellRoom a.1 a.2.1.key a.2.2.key) ∧
     (∃ a, place16 (readState s [x2] []) .write 0x40000 = .ok a ∧ CellRoom a.1 a.2.1.key a.2.2.key)) := by
  refine ⟨⟨rfl, .inl rfl, .inl rfl, ?_, ?_, ?_, ?_, ?_,
      placed_meets ?_, placed_meets ?_⟩,
    ?_, ?_, ?_, placed_meets ?_, placed_meets ?_,
      placed_meets ?_⟩ <;> decide +kernel

/-- The device of thread 1 has stopped (R395). -/
def stoppedBase : State := base.modDevice 0 (fun d => { d with stopped := true })

theorem witness_Wakeups :
    (withThread base (fun t => { t with pending := [⟨0x40000, [1, 2], false, none⟩] })).threads.get 1 =
      some { thread1 with pending := [⟨0x40000, [1, 2], false, none⟩] } ∧
    (withThread base (fun t => { t with park := .woken 1 0 false [2] })).threads.get 1 =
      some { thread1 with park := .woken 1 0 false [2] } ∧ 1 < svcKey 0 ∧
    (withThread base (fun t => { t with park := .pause 0 })).threads.get 1 = some { thread1 with park := .pause 0 } ∧ 0 ≤ base.clock ∧
    Issues base 1 thread1 ∧ CanGoOn base ∧ base.defer.headD false = false ∧ ({ base with defer := [true] } : State).defer.headD false = true ∧
    (let s := withThread base (fun t => { t with loads := [⟨1, 0x40000, 8, false, false⟩] })
     s.threads.get 1 = some { thread1 with loads := [⟨1, 0x40000, 8, false, false⟩] } ∧ ∀ p ∈ s.threads, p.2.pending = []) ∧
    (withThread base (fun t => { t with ready := 184 })).threads.get 1 = some { thread1 with ready := 184 } ∧
    (withThread base (fun t => { t with ready := 183 })).threads.get 1 = some { thread1 with ready := 183 } ∧
    (withThread base (fun t => { t with park := .utvec 5 })).threads.get 1 = some { thread1 with park := .utvec 5 } ∧
    coreWorks base thread1.core = true ∧ coreWorks stoppedBase thread1.core = false ∧
    base.groups.get (gkey thread1.run thread1.coord) = some ⟨0x70001, true⟩ := by
  decide +kernel

/-! #### Phasers and rings -/

def member1 : Member := ⟨l1, .both, 2, 2, 0, none, -1⟩

/-- A phaser in phase 3 with one member. -/
def phaser1 (m : Member) : Phaser where
  phase := 3
  members := [(1, m)]
  started := true
  counters := [(l1, ⟨0, false, false⟩)]
  kind := none
  value := 0
  had := false
  broken := 0
  vals := [77]

def withPhaser (p : Phaser) : State := withL (thr [(2, 5)]) (fun x => { x with phasers := [(5, p)] })

/-- The registers of the thread in `withPhaser`. -/
def thread2 : Thread := { thread1 with hart := { thread1.hart with regs := [(2, 5)] } }

theorem witness_PhaserMembership :
    (let s := withPhaser (phaser1 member1)
     Issues s 1 thread2 ∧ CanGoOn s ∧ phGet s 1 l1 5 = some (phaser1 member1) ∧ (phaser1 member1).broken = 0 ∧
     ((phaser1 member1).members.get 1).isSome = true) ∧
    (let p := { phaser1 member1 with members := [] }
     phGet (withPhaser p) 1 l1 5 = some p ∧ p.members.get 1 = none ∧
     (decide (512 ≤ (p.members.filter (fun q => q.2.lk == l1)).length) || ((p.counters.get l1).isNone &&
       decide (64 ≤ phRecords (withPhaser p) 0))) = false) ∧
    (let p := { phaser1 member1 with members := (List.range 512).map (fun k => (k + 2, member1)) }
     p.members.get 1 = none ∧ (decide (512 ≤ (p.members.filter (fun q => q.2.lk == l1)).length) || ((p.counters.get l1).isNone &&
       decide (64 ≤ phRecords (withPhaser p) 0))) = true) := by
  decide +kernel

theorem witness_PhaserSignals :
    (let s := withPhaser (phaser1 member1)
     Issues s 1 thread2 ∧ CanGoOn s ∧ phMember s thread2 5 1 = some (phaser1 member1, member1) ∧ member1.mode ≠ .wait ∧
     (phaser1 member1).broken = 0 ∧ member1.past ≤ member1.sig ∧ member1.sig < (phaser1 member1).phase ∧ CanRead s [2] ∧ (phaser1 member1).kind = none) ∧
    (let p := { phaser1 member1 with kind := some .sum }
     phMember (withPhaser p) thread2 5 1 = some (p, member1) ∧ p.kind = some .sum ∧ PhRed.sum ≠ PhRed.max) ∧
    (let m := { member1 with sig := 3 }
     phMember (withPhaser (phaser1 m)) thread2 5 1 = some (phaser1 m, m) ∧ ((phaser1 m).phase : Int) ≤ m.sig ∧ m.past ≤ m.sig) ∧
    (let m := { member1 with sig := 0, past := 2 }
     phMember (withPhaser (phaser1 m)) thread2 5 1 = some (phaser1 m, m) ∧ m.sig < m.past) ∧
    phMember (withPhaser { phaser1 member1 with members := [] }) thread2 5 1 = none ∧
    (let m := { member1 with mode := .wait }
     phMember (withPhaser (phaser1 m)) thread2 5 1 = some (phaser1 m, m)) ∧
    (let p := { phaser1 member1 with broken := 1 }
     phMember (withPhaser p) thread2 5 1 = some (p, member1) ∧ p.broken ≠ 0) := by
  decide +kernel

theorem witness_PhaserWaits :
    Issues base 1 thread1 ∧ phGet base thread1.run thread1.lkey 5 = none ∧
    (let m := { member1 with mode := .wait, obs := 1 }
     let s := withPhaser (phaser1 m)
     Issues s 1 thread2 ∧ CanGoOn s ∧ phMember s thread2 5 1 = some (phaser1 m, m) ∧ (phaser1 m).broken = 0 ∧ m.mode = .wait ∧
     m.obs < ((phaser1 m).phase : Int) - 1) ∧
    (let m := { member1 with mode := .wait, obs := 2 }
     phMember (withPhaser (phaser1 m)) thread2 5 1 = some (phaser1 m, m) ∧ ((phaser1 m).phase : Int) - 1 ≤ m.obs) ∧
    (let m := { member1 with sig := 2, obs := 1 }
     phMember (withPhaser (phaser1 m)) thread2 5 1 = some (phaser1 m, m) ∧ m.mode = .both ∧ m.obs < m.sig ∧ m.sig < (phaser1 m).phase) ∧
    (phMember (withPhaser (phaser1 member1)) thread2 5 1 = some (phaser1 member1, member1) ∧ member1.obs < (phaser1 member1).phase ∧
     member1.sig < (phaser1 member1).phase ∧
     (signalled (phaser1 member1) 1 member1 (phaser1 member1).kind (phaser1 member1).value).complete = true) ∧
    (let p := { phaser1 member1 with members := [(1, member1), (9, member1)] }
     phMember (withPhaser p) thread2 5 1 = some (p, member1) ∧ (signalled p 1 member1 p.kind p.value).complete = false) ∧
    (let p := { phaser1 member1 with members := [] }
     phGet (withPhaser p) thread2.run thread2.lkey 5 = some p ∧ p.broken = 0 ∧ p.members.get 1 = none) ∧
    (let p := { phaser1 member1 with broken := 2 }
     phGet (withPhaser p) thread2.run thread2.lkey 5 = some p ∧ p.broken ≠ 0) ∧
    (let m := { member1 with mode := .sig }
     phMember (withPhaser (phaser1 m)) thread2 5 1 = some (phaser1 m, m) ∧ m.mode ≠ .both) ∧
    member1.mode = .both ∧ member1.sig ≤ member1.obs ∧
    (let m := { member1 with sig := 3 }
     phMember (withPhaser (phaser1 m)) thread2 5 1 = some (phaser1 m, m) ∧ m.obs < m.sig ∧ ((phaser1 m).phase : Int) ≤ m.sig ∧
     m.past ≤ m.sig) := by
  decide +kernel

/-- A member that a recovery has put back, at the phase before the last, and at the one that it had signalled before. -/
theorem witness_PhaserWaits_recovered :
    (let m (k : Int) := { member1 with sig := k, obs := k, past := 3 }
     phMember (withPhaser (phaser1 (m 0))) thread2 5 1 = some (phaser1 (m 0), m 0) ∧ (m 0).mode = .both ∧ (m 0).sig < (m 0).past ∧
     (m 0).obs ≤ (m 0).sig ∧ (m 0).sig + 1 < (phaser1 (m 0)).phase ∧ (m 2).sig + 1 = (phaser1 (m 2)).phase ∧ (m 2).sig < (m 2).past ∧
     ((phaser1 (m 2)).replaySignal l1 1 (m 2)).complete = true ∧
     (let p := { phaser1 (m 2) with members := [(1, m 2), (9, member1)] }
      phMember (withPhaser p) thread2 5 1 = some (p, m 2) ∧ (p.replaySignal l1 1 (m 2)).complete = false)) := by
  decide +kernel

/-- Counts at 2^47 − 1 and 2^47, and a count that goes below zero. -/
theorem witness_PhaserCounts :
    (let s := withPhaser (phaser1 member1)
     Issues s 1 thread2 ∧ CanGoOn s ∧ CanRead s [2] ∧ phMember s thread2 5 1 = some (phaser1 member1, member1) ∧
     (phaser1 member1).broken = 0 ∧ (phaser1 member1).counters.get thread2.lkey = some ⟨0, false, false⟩ ∧ (s.reg 2).toNat < 2 ^ 47 ∧
     (0 : Int) ≤ (0 + (s.reg 2).toNat + 2 ^ 47) % 2 ^ 48 - 2 ^ 47 ∧ (member1.value : Option Word) = none ∧ 0 < (phaser1 member1).phase) ∧
    (2 ^ 47 ≤ ((withRegs (withPhaser (phaser1 member1)) [(2, 0x800000000000)]).reg 2).toNat) ∧
    (let p := { phaser1 member1 with counters := [(l1, ⟨-6, true, true⟩)] }
     p.counters.get thread2.lkey = some ⟨-6, true, true⟩ ∧ ((-6 : Int) + ((withPhaser p).reg 2).toNat + 2 ^ 47) % 2 ^ 48 - 2 ^ 47 = -1) ∧
    ((((2 ^ 47 - 1 : Nat) : Int) + 1 + 2 ^ 47) % 2 ^ 48 - 2 ^ 47 = -2 ^ 47) ∧
    phMember (withPhaser { phaser1 member1 with members := [] }) thread2 5 1 = none ∧
    (let p := { phaser1 member1 with broken := 2 }
     phMember (withPhaser p) thread2 5 1 = some (p, member1) ∧ p.broken ≠ 0) ∧
    (let p := { phaser1 member1 with phase := 0 }
     phGet (withPhaser p) thread2.run thread2.lkey 5 = some p ∧ p.phase = 0) ∧
    (let m := { member1 with value := some 9 }
     phMember (withPhaser (phaser1 m)) thread2 5 1 = some (phaser1 m, m) ∧ m.value = some 9) := by
  decide +kernel

/-- A ring of four slots of 64 bytes, with two of them filled, in each of its states; counts of the slots at hand, of one more, and
of one more than the ring has. -/
theorem witness_Rings :
    (let s := thr [(2, 0x0300000000000000)]
     (∃ th, Issues s 1 th) ∧ CanGoOn s ∧ CanRead s [2] ∧ s.lsheds.get l1 = some lshed1 ∧ ringClaimed s 1 7 = true ∧
     ringClaimed (withRun s (fun r => { r with rings := 0 })) 1 7 = false ∧
     (ringGet s l1 7).st = 0 ∧ badDef s 1 (s.reg 2) = false ∧ badDef s 1 (BitVec.allOnes 64) = true) ∧
    (let r (k : Nat) : Ring := ⟨k, 0x0300000000000000, 5, 7, [], [], [], []⟩
     let s (k n : Nat) := withL (thr [(2, BitVec.ofNat 64 n)]) (fun x => { x with rings := [(7, r k)] })
     ringGet (s 1 2) l1 7 = r 1 ∧ (r 1).slots = 4 ∧ (r 1).filled = 2 ∧ (r 1).att ≠ [.thread 1] ∧ ((s 1 2).reg 2).toNat = 2 ∧
     ((s 1 3).reg 2).toNat = 3 ∧ ((s 1 5).reg 2).toNat = 5 ∧ ringGet (s 2 2) l1 7 = r 2 ∧ (r 2).slots = 4 ∧ (r 2).filled = 2 ∧
     ringGet (s 3 2) l1 7 = r 3 ∧ (r 3).slots = 4 ∧ (r 3).filled = 2) := by
  exact ⟨⟨⟨_, rfl, rfl, rfl, rfl, rfl⟩, by decide +kernel⟩, by decide +kernel⟩

/-! #### Threads and messages -/

/-- A message to logical core 1 of logical shed (0, 0), with handler 3. -/
def hdr1 : Word := 0x0003000000008000

def out1 : OutMsg := ⟨1, hdr1, [7], 1, l1, none, false, 0, 5⟩

def withOutbox (n : Nat) : State := (thr [(1, 7), (2, hdr1)]).modCore 0 (fun c => { c with outbox := (List.range n).map (fun i => (i, out1)) })

theorem witness_MessagesSent :
    (let s := withOutbox 31
     (∃ th, Issues s 1 th) ∧ CanGoOn s ∧ s.curRun = some run1 ∧ CanRead s [2, 1] ∧ msgValid run1 (s.reg 2) = true ∧ outboxCount s 0 < 32 ∧
     32 ≤ outboxCount (withOutbox 32) 0 ∧ msgValid run1 (hdr1 + 1) = false) ∧
    (let s := { thr [(2, 0x40000)] with mem := Memory.puts mem1 0x40000 (leBytes 8 hdr1.toNat) }
     (∃ th, Issues s 1 th) ∧ CanRead s [2] ∧ s.curRun = some run1 ∧ Names (s.reg 2) 0 64 0x40000 ∧
     (∃ a, loadFresh (readState s [x2] []) 0x40000 8 = .ok a ∧ msgValid run1 (BitVec.ofNat 64 a.2) = true ∧
       (match loadFresh a.1 0x40008 8 with
         | .ok b => decide (b.2 = 0) && (loadDwords b.1 0x40010 0).toOption.isSome
         | .error _ => false) = true) ∧ outboxCount s 0 < 32) := by
  refine ⟨⟨⟨_, rfl, rfl, rfl, rfl, rfl⟩, ?_, ?_, ?_, ?_, ?_, ?_,
      ?_⟩, ⟨_, rfl, rfl, rfl, rfl, rfl⟩, .inl rfl, rfl, ?_, placed_meets ?_, ?_⟩ <;> decide +kernel

/-- Levels of 255 and of 256 runs. -/
theorem witness_LaunchQueues :
    let s := thr [(2, 0x40000)]
    let q (n : Nat) := s.modPart 0 (fun p => { p with queues := [(0, List.range n)] })
    (∃ th, Issues s 1 th) ∧ CanGoOn s ∧ CanRead s [2] ∧ Settled s ∧ Names (s.reg 2) 0 8 0x40000 ∧
    (∃ a, loadFresh (readState s [x2] []) 0x40000 8 = .ok a ∧ a.2 = 0 ∧
      (match place a.1 a.1.ctx .write 0x40068 with
        | .ok b => !frameBusy b.1 (curWaiter s) b.2.key && decide (LogRoom b.1 b.2.key 8)
        | .error _ => false) = true) ∧
    (queueOf (q 255) (s.ctxPart s.ctx) 0).length < 256 ∧ 256 ≤ (queueOf (q 256) (s.ctxPart s.ctx) 0).length ∧ freshRun s = 2 := by
  refine ⟨⟨_, rfl, rfl, rfl, rfl, rfl⟩, ?_, .inl rfl, ?_, ?_, placed_meets ?_,
    ?_, ?_, ?_⟩ <;> decide +kernel

theorem witness_ThreadForms :
    Issues base 1 thread1 ∧ base.curRun = some run1 ∧ CanGoOn base ∧
    (∀ p ∈ base.threads, p.1 ≠ 1 → ¬ (p.2.run = thread1.run ∧ p.2.coord = thread1.coord)) ∧
    base.groups.get (gkey thread1.run thread1.coord) = some ⟨0x70001, true⟩ ∧
    (∀ c ∈ base.cores, ∀ m ∈ c.2.outbox, m.2.thread ≠ 1) ∧ (∃ c ∈ (withOutbox 1).cores, ∃ m ∈ c.2.outbox, m.2.thread = 1) ∧
    run1.spcount ≤ (1#16).toNat ∧ (0#16).toNat < run1.spcount ∧ requested base thread1 = false ∧
    requested (withRun base (fun r => { r with preempt := true })) thread1 = true ∧ thread1.hart.intrap = false ∧
    (withRun base (fun r => { r with pers := true, beat := 9 })).curRun = some { run1 with pers := true, beat := 9 } ∧
    ((reloadDog (withRun base (fun r => { r with pers := true, beat := 9 })) thread1).lsheds.get l1).map (fun x => (x.run, x.shed)) =
      some (thread1.run, coreShed thread1.core) := by
  decide +kernel

/-- A thread that stands on shed 0 names an address of shed 0, and one whose home lies beside shed 8. -/
theorem witness_Migration :
    (let s := thr [(2, 0x40000)]
     let th := { thread1 with hart := { thread1.hart with regs := [(2, 0x40000)] } }
     Issues s 1 th ∧ CanGoOn s ∧ CanRead s [2] ∧ migrTargets s th ((s.reg 2).toNat % 2 ^ 52) = [8, 9] ∧
     [8, 9].filter (shedOwned s (s.ctxPart s.ctx)) = [8, 9] ∧ [8, 9].contains (coreShed th.core) = false ∧ th.stays s 1 = false) ∧
    (let s := thr [(2, 0x00000)]
     let th := { thread1 with hart := { thread1.hart with regs := [(2, 0x00000)] } }
     Issues s 1 th ∧ (migrTargets s th ((s.reg 2).toNat % 2 ^ 52)).contains (coreShed th.core) = true) ∧
    (let s := withThread base (fun t => { t with park := .migrating [8, 9] 0 false })
     s.threads.get 1 = some { thread1 with park := .migrating [8, 9] 0 false } ∧
     ([8, 9].map (bestCore s)).find? (fun b => decide (0 < b.2)) = some (64, 60) ∧ (freeSlots s 64 migSlots).head? = some 56) ∧
    (let s := (withThread base (fun t => { t with park := .migrating [8] 0 false })).modCore 64 (fun c => { c with holds := [(56, (.mig 1, 0))] })
     (s.core 64).holds.get 56 = some (.mig 1, 0) ∧ 0 ≤ s.clock ∧ (s.core 64).refused = [] ∧ coreWorks s 64 = true ∧ coreWorks s 0 = true ∧
     (∀ h ∈ [8, 9], deviceIssues s (shedDev h) = true) ∧ coreWorks (s.modDevice 0 (fun d => { d with stopped := true })) 0 = false) := by
  decide +kernel

theorem witness_MessageArrivals :
    (let s := withOutbox 1
     (s.core 0).outbox.get 0 = some out1 ∧ out1.queued = false ∧ out1.first = none ∧
     (∀ k ∈ s.cores, ∀ p ∈ k.2.outbox, k.1 = 0 ∨ p.2.sender = out1.sender → p.2.sent < out1.sent → sameTarget p.2 out1 = false) ∧
     msgTarget s out1 = some (lshed1, 1) ∧ coreWorks s 0 = true ∧ coreWorks s 1 = true ∧
     lshed1.released.contains (coordOf out1.hdr).lc = false ∧ lshed1.resident = true ∧ s.runs.get out1.run = some run1 ∧
     (freeSlots s 1 (clsSlots (msgCls out1.hdr))).head? = some 0) ∧
    (let s := withL (withOutbox 1) (fun x => { x with released := [1] })
     msgTarget s out1 = some ({ lshed1 with released := [1] }, 1) ∧ [1].contains (coordOf out1.hdr).lc = true) ∧
    (let s := { withOutbox 1 with threads := (withOutbox 1).threads ++ (List.range 56).map (fun i => (i + 2, { thread1 with core := 1, slot := i })) }
     freeSlots s 1 (clsSlots (msgCls out1.hdr)) = [] ∧ (s.core 1).refused.length < 64 ∧ (s.core 0).outbox.get 0 = some out1) ∧
    (let m := { out1 with sent := 4 }
     let s := base.modCore 3 (fun c => { c with outbox := [(0, m)] })
     (s.core 3).outbox.get 0 = some m ∧ m.sender = out1.sender ∧ m.sent < out1.sent ∧ sameTarget m out1 = true) ∧
    coreWorks (base.setDevice 0 { base.device 0 with stopped := true }) 0 = false := by
  decide +kernel

/-! #### Jobs -/

def job1 (w0 : Word) (p : Port) : Job where
  id := 0
  port := p
  core := 0
  w0 := w0
  w1 := 0
  w2 := 0
  w3 := 0
  jobbase := 0
  run := 1
  coord := ⟨0, 0, 0, 0⟩
  thread := 1
  started := false
  prog := 0
  ended := false
  status := 0
  detail := 0
  flags := 0
  value := 0
  bytes := 0
  reads := []
  fault := none
  killed := false
  tag := 0
  counts := []
  hold := []
  opA := none
  opB := none
  cursor := (0, 0, 0)
  todo := []
  arrived := false

def withJob (j : Job) : State := { base with jobs := [(2, j)] }

/-- A job table with n busy indices at the matrix port. -/
def withJobs (n : Nat) : State := (withThread (thr [(2, 5), (3, 7)]) (fun t => { t with staged := some ⟨1, 2, 0x5FFFC⟩ })).modCore 0
  (fun c => { c with jobs := (List.range n).map (fun i => (i, ⟨1, i, 0, .core, true⟩)) })

theorem witness_Jobs :
    (let s := withJobs 15
     let th := { thread1 with hart := { thread1.hart with regs := [(2, 5), (3, 7)] }, staged := some ⟨1, 2, 0x5FFFC⟩ }
     Issues s 1 th ∧ CanGoOn s ∧ CanRead s [2, 3] ∧ th.staged = some ⟨1, 2, 0x5FFFC⟩ ∧ outstanding s th.core .mat < 16 ∧
     16 ≤ outstanding (withJobs 16) th.core .mat ∧ thread1.staged = none ∧ Issues base 1 thread1) ∧
    (let s (id : Word) (busy : Bool) := (thr [(2, id)]).modCore 0 (fun c => { c with jobs := [(3, ⟨1, 3, 0, .dev, busy⟩)] })
     (∃ th, Issues (s 3 true) 1 th ∧ th.core = 0) ∧ CanRead (s 3 true) [2] ∧ ((s 3 true).reg 2).toNat % 2 ^ 16 / 2 ^ 10 % 8 = 0 ∧
     ((s 0x400 true).reg 2).toNat % 2 ^ 16 / 2 ^ 10 % 8 ≠ 0 ∧
     jobSlot (s 3 true) 0 3 = some ⟨1, 3, 0, .dev, true⟩ ∧ jobSlot (s 3 false) 0 3 = some ⟨1, 3, 0, .dev, false⟩ ∧
     jobSlot (s 0x13 false) 0 0x13 = some ⟨1, 3, 0, .dev, false⟩ ∧ 3 ≠ 0x13) := by
  refine ⟨?_, ⟨_, ⟨rfl, rfl, rfl, rfl, rfl⟩, rfl⟩, ?_, ?_, ?_, ?_,
    ?_, ?_, by decide⟩ <;> decide +kernel

def vcmd1 (opw opd : Word) : VCmd where
  core := 0
  run := 1
  coord := ⟨0, 0, 0, 0⟩
  thread := 1
  word := 0
  opw := opw
  opd := opd
  ended := false
  status := 0
  flags := 0
  fault := none
  killed := false
  tag := 0
  points := none
  held := none

def withVCmds (n : Nat) : State :=
  { thr [(2, 0x0002000101), (3, 0)] with vcmds := (List.range n).map (fun i => (i + 2, vcmd1 0 0)), nextKey := 20 }

theorem witness_VectorQueue :
    (∃ th, Issues (withVCmds 7) 1 th ∧ th.core = 0) ∧ CanGoOn (withVCmds 7) ∧ CanRead (withVCmds 7) [2, 3] ∧
    vopBad ((withVCmds 7).reg 2) ((withVCmds 7).reg 3) = false ∧ vBusy (withVCmds 7) 0 20 < 8 ∧ 8 ≤ vBusy (withVCmds 8) 0 20 ∧
    vBusy (withVCmds 0) 0 20 = 0 ∧ 0 < vBusy (withVCmds 1) 0 20 ∧ vopBad 0 0 = true ∧
    ({ base with vcmds := [(2, { vcmd1 0x30101 0 with ended := true })] } : State).vcmds.get 2 = some { vcmd1 0x30101 0 with ended := true } ∧
    (vcmd1 0x30101 0).count ≠ 0 ∧ (vcmd1 0x00101 0).count = 0 ∧ (vcmd1 0x30101 0).core = thread1.core ∧
    unitRuns base (vcmd1 0x30101 0).run (vcmd1 0x30101 0).lkey (vcmd1 0x30101 0).core = true ∧
    (let s := base.modDevice 0 (fun d => { d with stopped := true })
     unitRuns s (vcmd1 0x30101 0).run (vcmd1 0x30101 0).lkey (vcmd1 0x30101 0).core = false) := by
  exact ⟨⟨_, ⟨rfl, rfl, rfl, rfl, rfl⟩, rfl⟩, by decide +kernel⟩

theorem witness_WorkQueueAndCompletion :
    (let j := { job1 0x0000000300000038 .wq with w1 := 0x0000000500000007, w2 := 0x8002 }
     Starts (withJob j) 2 j 0x38 ∧ wqBad j = false ∧ ∀ m ∈ (withJob j).pageMigs, m.2.queue.contains (.job 2) = false) ∧
    (let j := job1 0x0000000300000038 .wq
     Starts (withJob j) 2 j 0x38 ∧ wqBad j = true) ∧
    (let g (n : Nat) : Tiling := ⟨false, 5, 7, 2, 2, n⟩
     let s (n : Nat) := withL (thr [(2, 3)]) (fun x => { x with tilings := [(3, g n)] })
     (∃ th, Issues (s 11) 1 th) ∧ CanGoOn (s 11) ∧ CanRead (s 11) [2] ∧ (s 11).lsheds.get l1 = some { lshed1 with tilings := [(3, g 11)] } ∧
     ((s 11).reg 2).toNat % 16 = 3 ∧ cdiv 5 2 = 3 ∧ cdiv 7 2 = 4 ∧ (g 11).cursor < 3 * 4 ∧ (g 11).cursor = 2 * 4 + 3 ∧ 3 < 4 ∧ 3 * 4 ≤ (g 12).cursor ∧
     lshed1.tilings.get 3 = none) ∧
    (let j := { job1 1 .mat with started := true, ended := true, jobbase := 0x40001 }
     (withJob j).jobs.get 2 = some j ∧ unitRuns (withJob j) j.run j.lkey j.core = true ∧ j.w0.toNat / 2 ^ 10 % 2 = 0 ∧ (withJob j).invals = [] ∧
     j.jobbase.toNat % 2 ^ 52 / 2 ^ 12 * 2 ^ 12 + 16 * (j.w0.toNat / 2 ^ 16 % 2 ^ 8) = 0x40000 ∧ j.jobbase.toNat % 2 = 1 ∧
     j.arrived = false ∧
     (∃ a, place (arriveJob (withJob j) 2 j).1 (j.ctx 2) .write 0x40000 = .ok a ∧ a.2.key = 0x40000 ∧ frameBusy a.1 (.job 2) 0x40000 = false ∧
       logFull a.1 j.lkey 0x40000 8 = none ∧ logFull a.1 j.lkey 0x40008 8 = none) ∧
     (∃ a, place (arriveJob (withJob j) 2 j).1 (j.ctx 2) .write 0x40008 = .ok a ∧ a.2.key = 0x40008) ∧
     j.id < 2 ^ 16 ∧ j.status < 2 ^ 8 ∧ j.detail < 2 ^ 8) := by
  refine ⟨?_, ?_,
    ⟨⟨_, rfl, rfl, rfl, rfl, rfl⟩, ?_, ?_, ?_, ?_⟩,
    ?_, ?_, ?_, ?_, ?_, ?_, rfl,
    placed_meets ?_, placed_meets ?_, ?_⟩ <;> decide +kernel

/-! #### Tile commands -/

/-- What decides where the scratchpads of a logical shed stand decides its window. -/
theorem window_of_geometry {x y : LShed} (h : geometry x = geometry y) (lc : Nat) : x.window lc = y.window lc ∧ x.released = y.released := by
  simp only [geometry, Prod.mk.injEq] at h
  obtain ⟨h1, h2, h3, h4, h5, h6, h7⟩ := h
  simp only [LShed.window, h1, h2, h3, h4, h5, h6, h7, and_self]

/-- No page is being moved. -/
def NoMoves (w : Ways) : Prop := w.2 = []

theorem leaveQueue_nil {u : State} (h : u.pageMigs = []) (w : Waiter) : leaveQueue u w = u := by simp [leaveQueue, h]

theorem redirect_nil {u : State} (h : u.pageMigs = []) (c : Ctx) (p : Place) : redirect u c p = (u, p) := by simp [redirect, h]

/-- An access of microcode to near space reaches the same byte in every state with the same runs and the same sheds. -/
theorem near_alike {D : Nat → Prop} {s u : State} {r : Nat} {co : Coord} {acc : Acc} {ea : Nat} {p : Place}
    (hp : nearPlace s r co acc ea = .ok p) (hu : Like D NoMoves s u) : nearPlace u r co acc ea = .ok p := by
  obtain ⟨-, -, -, hruns, -, hl, -⟩ := hu
  unfold nearPlace at hp ⊢
  split at hp
  · cases hp
  · rename_i ly ls lc l _
    have hx := hl (lkey r ly ls)
    simp only [hruns]
    split at hp
    · rename_i run x hr ha
      rw [ha] at hx
      rw [hr]
      cases hb : u.lsheds.get (lkey r ly ls) with
      | none => simp [hb] at hx
      | some y =>
        rw [hb] at hx
        have hg := window_of_geometry (Option.some.inj hx) lc
        simp only [hg.1, hg.2]
        exact hp
    · cases hp

theorem near_place {D : Nat → Prop} {s u : State} {r : Nat} {co : Coord} {core : Nat} {w : Waiter} {acc : Acc} {ea : Nat} {p : Place}
    (hn : isNear ea = true) (hp : (nearPlace s r co acc ea).toOption = some p) (hbad : s.badLines = [])
    (hd : (s.device (shedDev (coreShed core))).linkErrors = []) (hu : Like D NoMoves s u) (m : Bool) :
    jPlace u (.unit r co core w) acc ea m = .ok (u, p) := by
  have hp' : nearPlace s r co acc ea = .ok p := by
    cases h : nearPlace s r co acc ea with
    | error e => simp [h, Except.toOption] at hp
    | ok q => simpa [h, Except.toOption] using hp
  have hq := near_alike hp' hu
  have hm : u.pageMigs = [] := hu.2.2.2.2.1
  have hd' : (u.device (shedDev (coreShed core))).linkErrors = [] := by rw [State.device, hu.2.1]; exact hd
  have hl : u.badLines = [] := hu.2.2.1.trans hbad
  have hb : frameBusy u w p.key = false := by simp [frameBusy, hm]
  simp [jPlace, placeIn, errorCheck, placeAny, placeRaw, hn, hq, Except.map, hl, hb, bind, Except.bind, Ctx.dev, hd', leaveQueue_nil hm, redirect_nil hm]

theorem reaches_near {D : Nat → Prop} {s : State} {r : Nat} {co : Coord} {core : Nat} {w : Waiter} {acc : Acc} {ea : Nat} {p : Place}
    (hn : isNear ea = true) (hp : (nearPlace s r co acc ea).toOption = some p) (hbad : s.badLines = [])
    (hd : (s.device (shedDev (coreShed core))).linkErrors = []) : Reaches D NoMoves s (.unit r co core w) acc ea p.key :=
  fun u m hu => ⟨u, p, near_place hn hp hbad hd hu m, rfl, hu.2.2.2.2.1⟩

theorem loads_near {s : State} {r : Nat} {co : Coord} {core : Nat} {w : Waiter} {ea : Nat} {p : Place}
    (hn : isNear ea = true) (hp : (nearPlace s r co .read ea).toOption = some p) (hnear : p.near = true) (hbad : s.badLines = [])
    (hd : (s.device (shedDev (coreShed core))).linkErrors = []) (ht : min 4 (together ea) = 4) :
    Loads NoMoves s (.unit r co core w) ea 4 (leBytes 4 (s.value p.key 4)) := by
  intro u hu ho
  have hv : u.value p.key 4 = s.value p.key 4 := by
    simp only [State.value, State.bytes, hu.2.2.2.2.2.2 _ (fun h => h)]
  refine ⟨{ u with reads := ⟨[], ⟨ea, 4, s.value p.key 4⟩ :: u.reads.made⟩ }, ?_, hu.2.2.2.2.1⟩
  simp only [jLoadBytes, jLoadPieces, ht, jLoad, jOnce, ho, near_place hn hp hbad hd hu false, bind, Except.bind, dropUnit, hnear, if_true, hv,
    Nat.sub_self, List.append_nil, if_neg (show ¬ (4 = 0) by decide)]

theorem unlogged_of_none {s : State} {l : Nat} {x : LShed} (h : s.lsheds.get l = some x) (hr : x.regions = []) : Unlogged s l := by
  intro k n
  simp [logFull, touchesMark, h, hr]

/-- Two bytes copied within the core's own scratchpad. -/
def copyJob : Job := { job1 0x10 .copy with w1 := 0xF000000000000, w2 := 0xF000000000100, w3 := 2 }

def started (j : Job) : Job := { j with started := true }

/-- A copy that fails a check, one that runs through, one that stops at the line of its destination, and one that meets a fault at
once: its source is global memory that no table maps. -/
theorem witness_CommandLoops :
    (∃ l, loopOf (.copy 2) = some l ∧ l.job = 2 ∧ l.code = 0x10 ∧ l.check = copyCheck) ∧
    Starts (withJob copyJob) 2 copyJob 0x10 ∧ copyCheck (withJob copyJob) copyJob = 0 ∧
    AtStep (withJob copyJob) 2 0x10 copyCheck (running (withJob copyJob) 2 copyJob) (started copyJob) ∧
    AtStep (withJob (started copyJob)) 2 0x10 copyCheck (withJob (started copyJob)) (started copyJob) ∧
    (let u := jobLoop 2 (fun y => decide (2 ≤ y.prog)) (copyStep 2) none 64 (running (withJob copyJob) 2 copyJob) (started copyJob)
     u.2 = none ∧ (u.1.jobs.get 2).map (fun y => y.prog) = some 2) ∧
    (let j := { copyJob with w2 := 0xF00000000013E, w3 := 3 }
     let u := jobLoop 2 (fun y => decide (3 ≤ y.prog)) (copyStep 2) (lineEnd (started j) 8) 2 (running (withJob j) 2 j) (started j)
     lineSteps (started j) 8 = 2 ∧ u.2 = none ∧ (u.1.jobs.get 2).map (fun y => y.prog) = some 2) ∧
    copyCheck (withJob { copyJob with w3 := 2 ^ 40 }) { copyJob with w3 := 2 ^ 40 } = 1 ∧
    (let j := { copyJob with w2 := 0x394F000000000100 }
     Starts (withJob j) 2 j 0x10 ∧ copyCheck (withJob j) j = 2 ∧ ptrFmtOk j.w2 0 18 = true ∧ ∀ m ∈ (withJob j).pageMigs, m.2.queue.contains (.job 2) = false) ∧
    (let j := { copyJob with w1 := 0x8000000000 }
     (jobLoop 2 (fun y => decide (2 ≤ y.prog)) (copyStep 2) none 64 (running (withJob j) 2 j) (started j)).2 = some (.fault 3 1 0x8000000000)) := by
  refine ⟨⟨_, rfl, rfl, rfl, rfl⟩, by decide +kernel, by decide +kernel, .inl ⟨copyJob, by decide +kernel, by decide +kernel, rfl, rfl⟩,
    .inr ⟨by decide +kernel, rfl⟩, ?_⟩
  decide +kernel

theorem witness_CopyMoves :
    let s := withJob copyJob
    let x := started copyJob
    let src : Nat → Nat := fun i => 2 ^ 49 + i
    let dst : Nat → Nat := fun i => 2 ^ 49 + 0x100 + i
    let at_ : Nat → Prop := fun i => 0 ≤ i ∧ i < 0 + 2
    let D : Nat → Prop := fun b => ∃ i, at_ i ∧ b = dst i
    AtStep s 2 0x10 copyCheck (running s 2 copyJob) x ∧ x.todo = [] ∧ x.reads = [] ∧ 2 = x.w3.toNat % 2 ^ 40 ∧ x.prog = 0 ∧
    2 = min (64 - (x.w2.toNat % 2 ^ 52 + x.prog) % 64) (2 - x.prog) ∧
    x.w1.toNat % 2 ^ 52 + x.prog + 2 ≤ 2 ^ 52 ∧ x.w2.toNat % 2 ^ 52 + x.prog + 2 ≤ 2 ^ 52 ∧ s.badLines = [] ∧
    Unlogged s x.lkey ∧ NoMoves (s.tlbs, s.pageMigs) ∧
    ∀ i, at_ i → Reaches D NoMoves s (x.ctx 2) .read (x.w1.toNat % 2 ^ 52 + i) (src i) ∧
      Reaches D NoMoves s (x.ctx 2) .write (x.w2.toNat % 2 ^ 52 + i) (dst i) ∧ ¬ D (src i) ∧ ∀ b, at_ b → dst b = dst i → b = i := by
  refine ⟨.inl ⟨copyJob, by decide +kernel, by decide +kernel, rfl, rfl⟩, rfl, rfl, by decide, rfl, by decide, by decide, by decide, rfl,
    unlogged_of_none (x := lshed1) (by decide +kernel) rfl, rfl, ?_⟩
  intro i hi
  refine ⟨?_, ?_, ?_, fun m _ h => by simpa using h⟩
  · obtain rfl | rfl : i = 0 ∨ i = 1 := by omega
    all_goals exact reaches_near (p := ⟨_, true, false, false, 3⟩) (by decide) (by decide +kernel) rfl rfl
  · obtain rfl | rfl : i = 0 ∨ i = 1 := by omega
    all_goals exact reaches_near (p := ⟨_, true, false, false, 3⟩) (by decide) (by decide +kernel) rfl rfl
  · rintro ⟨m, hm, h⟩
    simp only at h
    omega

/-- An accz of one element, and an accld of one raw word from the scratchpad. -/
def acczJob : Job := job1 3 .mat
def accldJob : Job := { job1 0x4004 .mat with w1 := 0xF000000000000 }

theorem witness_CopiesAndAccumulators :
    (Starts (withJob acczJob) 2 acczJob 0x03 ∧ accLimits acczJob 0 = false ∧ acczJob.w1 = 0 ∧ acczJob.w2 = 0 ∧ acczJob.w3 = 0) ∧
    (let x := started accldJob
     AtStep (withJob accldJob) 2 0x04 accldCheck (running (withJob accldJob) 2 accldJob) x ∧ ptrFmt x.w1 = 0 ∧ x.prog = 0 ∧
     x.todo = [] ∧ x.reads = [] ∧ NoMoves ((withJob accldJob).tlbs, (withJob accldJob).pageMigs) ∧
     ∀ i c, i < x.mg → c < x.nn → x.w1.toNat % 2 ^ 52 + i * (x.w2.toNat % 2 ^ 32) + 4 * c < 2 ^ 52 ∧
       Loads NoMoves (withJob accldJob) (x.ctx 2) (x.w1.toNat % 2 ^ 52 + i * (x.w2.toNat % 2 ^ 32) + 4 * c) 4
         (leBytes 4 ((withJob accldJob).value (2 ^ 49) 4))) := by
  refine ⟨by decide +kernel, .inl ⟨accldJob, by decide +kernel, by decide +kernel, rfl, rfl⟩, by decide, rfl, rfl, rfl, rfl, ?_⟩
  intro i c hi hc
  obtain rfl : i = 0 := by have h : (started accldJob).mg = 1 := rfl; omega
  obtain rfl : c = 0 := by have h : (started accldJob).nn = 1 := rfl; omega
  exact ⟨by decide, loads_near (p := ⟨_, true, false, false, 3⟩) (by decide) (by decide +kernel) rfl rfl rfl (by decide)⟩

/-- An open ring of four slots of 64 bytes, with two slots filled. -/
def ring5 : Ring := ⟨1, 0x0300000000000000, 5, 7, [], [], [], []⟩
def withRings (j : Job) : State := withL (withJob j) (fun x => { x with rings := [(7, ring5), (8, ring5)] })

/-- mmul and mmulg of one row, one column and 32 elements of format 5, from rings 7 and 8; mmul of two k-blocks, and mmulg of two groups. -/
def mmulJob : Job := { job1 1 .mat with w1 := 0x1400E01F00000000, w2 := 0x1401000000000000 }
def mmul2 : Job := { mmulJob with w1 := 0x1400E03F00000000 }
def mmulgJob : Job := { mmulJob with w0 := 2, w3 := 0xF000000000000 }
def mmulg2 : Job := { mmulgJob with w0 := 0x0200000000000002 }
def withCounts (n : Byte) : State := { withRings mmulgJob with mem := mem1 ++ [(2 ^ 49, n)] }
def tile5 : Tile := ⟨List.replicate 64 0x38, []⟩

/-- Products of one k-block and of two, before the last and at it; groups of no row and of one, at each of their steps. A command that
starts with its checks passed, and one that goes on, are at a step. -/
theorem witness_Products :
    (let s := withRings mmulJob
     let x := started mmulJob
     Starts s 2 mmulJob 0x01 ∧ mmulCheck s mmulJob = 0 ∧ x.opA = none ∧
     (match takeOp (running s 2 mmulJob) 2 x x.w1 x.mg x.kk (opSeq x.w1) with
       | .ok y => (takeOp y.1 2 x x.w2 x.nn x.kk (opSeq x.w2)).toOption.isSome
       | .error _ => false) = true) ∧
    (let x (n : Nat) := { started mmul2 with opA := some tile5, opB := some tile5, prog := n }
     GoesOn (withRings (x 0)) 2 (x 0) 0x01 ∧ GoesOn (withRings (x 1)) 2 (x 1) 0x01 ∧ mmulCheck (withRings mmul2) mmul2 = 0 ∧
     (x 0).prog + 1 < (x 0).blocks ∧ (x 1).blocks ≤ (x 1).prog + 1 ∧ (x 0).w0.toNat / 2 ^ 13 % 2 = 0 ∧ opRing (x 0).w1 ≠ opRing (x 0).w2 ∧
     0 < (ringGet (withRings (x 1)) (x 1).lkey (opRing (x 1).w1)).filled ∧
     ({ x 0 with w0 := 0x2001 }).w0.toNat / 2 ^ 13 % 2 = 1) ∧
    (let s := withCounts 1
     let x := started mmulgJob
     Starts s 2 mmulgJob 0x02 ∧ mmulgCheck s mmulgJob = 0 ∧ x.counts = [] ∧
     (∃ a, loadCounts (running s 2 mmulgJob) (x.ctx 2) (ptrAddr x.w3) x.mg = .ok a ∧
       groupOver x a.2 = none ∧ opFits a.1 x x.w1 (groupRow a.2 x.mg) x.kk = true) ∧
     (∃ a, loadCounts (running (withCounts 9) 2 mmulgJob) (x.ctx 2) (ptrAddr x.w3) x.mg = .ok a ∧
       groupOver x a.2 = none ∧ opFits a.1 x x.w1 (groupRow a.2 x.mg) x.kk = false) ∧
     (∃ a, loadCounts (running (withCounts 129) 2 mmulgJob) (x.ctx 2) (ptrAddr x.w3) x.mg = .ok a ∧ groupOver x a.2 = some 0)) ∧
    (let x (n : Nat) (a b : Option Tile) := { started mmulg2 with counts := [0, 1], prog := n, opA := a, opB := b }
     GoesOn (withRings (x 0 none none)) 2 (x 0 none none) 0x02 ∧ (x 0 none none).mg = 2 ∧ (x 0 none none).blocks = 1 ∧
     (takeOp (withRings (x 0 none none)) 2 (x 0 none none) mmulg2.w1 (groupRow [0, 1] 2) mmulg2.kk (opSeq mmulg2.w1)).toOption.isSome = true ∧
     GoesOn (withRings (x 1 (some tile5) none)) 2 (x 1 (some tile5) none) 0x02 ∧ [0, 1].getD 0 0 = 0 ∧ [0, 1].getD 1 0 ≠ 0 ∧
     (takeOp (withRings (x 1 (some tile5) none)) 2 (x 1 (some tile5) none) mmulg2.w2 mmulg2.nn mmulg2.kk (opSeq mmulg2.w2 + 1)).toOption.isSome = true ∧
     GoesOn (withRings (x 1 (some tile5) (some tile5))) 2 (x 1 (some tile5) (some tile5)) 0x02 ∧
     GoesOn (withRings (x 2 (some tile5) none)) 2 (x 2 (some tile5) none) 0x02) ∧
    (let x := { started mmul2 with w0 := 2, w3 := 0xF000000000000, counts := [1], opA := some tile5, opB := some tile5 }
     GoesOn (withRings x) 2 x 0x02 ∧ x.prog % x.blocks + 1 < x.blocks) := by
  refine ⟨?_, ?_, ⟨?_, ?_, rfl, placed_meets ?_,
    placed_meets ?_, placed_meets ?_⟩, ?_, ?_⟩ <;> decide +kernel

/-- Rings 7 and 8 as given: empty and open, BROKEN, or with a scaled operand's slot whose tag is not the one expected. -/
def withTwo (j : Job) (a b : Ring) : State := withL (withJob j) (fun x => { x with rings := [(7, a), (8, b)] })
def ringAwaited : Ring := { ring5 with tail := 5 }
def ringBroken : Ring := { ring5 with st := 3 }

/-- mmul before A, where it waits for A's tile, finds A's ring BROKEN, and finds its tag wrong; where it takes A while B is awaited; and
after A, where B is awaited, BROKEN, of a wrong tag, and there. -/
theorem witness_ProductOperands :
    (let x := started mmulJob
     GoesOn (withTwo x ringAwaited ring5) 2 x 0x01 ∧ x.opA = none ∧ opAwaited (withTwo x ringAwaited ring5) x x.w1 = true ∧
     GoesOn (withTwo x ringBroken ringAwaited) 2 x 0x01 ∧ (ringGet (withTwo x ringBroken ringAwaited) x.lkey (opRing x.w1)).st = 3 ∧
     GoesOn (withTwo x ring5 ringAwaited) 2 x 0x01 ∧
     (takeOp (withTwo x ring5 ringAwaited) 2 x x.w1 x.mg x.kk (opSeq x.w1)).toOption.any (fun u => opAwaited u.1 x x.w2) = true) ∧
    (let x := { started mmulJob with opA := some tile5 }
     GoesOn (withTwo x ring5 ringAwaited) 2 x 0x01 ∧ x.opB = none ∧ opAwaited (withTwo x ring5 ringAwaited) x x.w2 = true ∧
     GoesOn (withTwo x ring5 ringBroken) 2 x 0x01 ∧ (ringGet (withTwo x ring5 ringBroken) x.lkey (opRing x.w2)).st = 3 ∧
     (takeOp (withTwo x ring5 ring5) 2 x x.w2 x.nn x.kk (opSeq x.w2)).toOption.isSome = true) := by
  decide +kernel

theorem witness_ProductTags :
    (let x := { started mmulJob with w1 := 0x2800E01F00000000 }
     GoesOn (withTwo x ring5 ringAwaited) 2 x 0x01 ∧ x.opA = none ∧ badTag (ringGet (withTwo x ring5 ringAwaited) x.lkey (opRing x.w1)) x.w1) ∧
    (let x := { started mmulJob with w2 := 0x2801000000000000, opA := some tile5 }
     GoesOn (withTwo x ring5 ring5) 2 x 0x01 ∧ x.opB = none ∧ badTag (ringGet (withTwo x ring5 ring5) x.lkey (opRing x.w2)) x.w2) := by
  unfold badTag
  refine ⟨⟨?_, rfl, ?_, ?_, ?_, .inl ?_⟩, ?_, rfl, ?_, ?_, ?_, .inl ?_⟩ <;> decide +kernel

/-- A descriptor at 0x40000 (R300), with its row offsets at 0x40100, its column indices at 0x40200 and its values at 0x40300. -/
def descMem (nnz r c : Nat) (rowp : List Nat) : List Host.Cell :=
  Memory.puts (Memory.puts mem1 0x40000 (leBytes 8 nnz ++ leBytes 8 (r * 256 + c) ++ leBytes 8 0x40100 ++ leBytes 8 0x40200 ++
    leBytes 8 0x40300)) 0x40100 (rowp.flatMap (leBytes 2))
def withDesc (j : Job) (nnz r c : Nat) (rowp : List Nat) : State := { withJob j with mem := descMem nnz r c rowp }

def spmmJob : Job := { job1 6 .mat with w1 := 0x40000, w2 := 0xF000000000000, w3 := 0xF000000000000 }
def spcolJob : Job := { job1 7 .mat with w1 := 0x40000, w2 := 0xF000000000000 }
def pfillJob : Job := { job1 0x30 .patt with w1 := 0x40000 }

/-- A command at its tile: the machine in which it runs, and the command with what it keeps of the descriptor. -/
def tileOf (s : State) (j : Job) (c : List Nat) : Job := { started j with hold := s.bytes 0x40000 64, counts := c }

def entry1 (compiling fired : Bool) : LoftEntry := ⟨0x40000, 0, 1, 0, 0x40000, [0x1000], fired, compiling, 7, 5, 0x40300, [0, 1], [2]⟩
def withCompiles (l : List LoftEntry) : State := base.modShed 0 (fun x => { x with compiles := l })

/-- Tiles of one row and five columns, one of them given; of one element, which are dense, with offsets in order and not; of more
than 4,096 entries; and one that fails its check. The paths of an spmm and an spcol, and their first steps. The loft with an entry, and
compiles that are to read their tile, that have read it, and that a watch has stopped. -/
theorem witness_SparseAndPatterns :
    (let s := withDesc spmmJob 1 0 4 [0, 1]
     Starts s 2 spmmJob 0x06 ∧ spmmCheck s spmmJob = 0 ∧ (started spmmJob).hold = [] ∧
     ∃ a, jPlace (running s 2 spmmJob) (spmmJob.ctx 2) .read (ptrAddr spmmJob.w1) false = .ok a ∧ a.2.key = 0x40000 ∧
      Desc.bad (descOf (a.1.bytes a.2.key 64)) = false ∧ Desc.dense (descOf (a.1.bytes a.2.key 64)) = false ∧
      Desc.uops (descOf (a.1.bytes a.2.key 64)) = 7 ∧ (a.1.shed 0).loft.find? (fun e => e.is 0x40000 0 && e.run == 1) = none ∧
      (let y := tileOf a.1 spmmJob [0, 0x40300, 1, 5]
       (jobLoop 2 (fun y => decide (y.tileRows * 1 ≤ y.prog)) (spmmStep 2) none 1
        ((queueCompile (dropRemote a.1 0 0x1000) 0 0x40000 0 1 0 0x40000 7).modJob 2 (fun _ => y)) y).2.isNone) = true) ∧
    (let s := (withDesc spmmJob 1 0 4 [0, 1]).modShed 0 (fun x => { x with loft := [entry1 false false] })
     (s.shed 0).loft.find? (fun e => e.is 0x40000 0 && e.run == 1) = some (entry1 false false) ∧
      (let y := tileOf s spmmJob [1, 0x40300, 1, 5, 0, 1, 2]
       (jobLoop 2 (fun y => decide (y.tileRows * 1 ≤ y.prog)) (spmmStep 2) none 1 ((touchEntry (running s 2 spmmJob) 0 (entry1 false false)).modJob 2
        (fun _ => y)) y).2.isNone) = true) ∧
    (let s (k : Nat) := withDesc spmmJob 1 0 0 [k, 1]
     Desc.bad (descOf ((s 0).bytes 0x40000 64)) = false ∧ Desc.dense (descOf ((s 0).bytes 0x40000 64)) = true ∧
      (∃ a, loadStruct (running (s 0) 2 spmmJob) 2 (started spmmJob) (descOf ((s 0).bytes 0x40000 64)) = .ok a ∧
        structOk (descOf ((s 0).bytes 0x40000 64)) a.2.1 a.2.2 = true) ∧
      (∃ a, loadStruct (running (s 1) 2 spmmJob) 2 (started spmmJob) (descOf ((s 1).bytes 0x40000 64)) = .ok a ∧
        structOk (descOf ((s 1).bytes 0x40000 64)) a.2.1 a.2.2 = false)) ∧
    (let d (nnz : Nat) := descOf ((withDesc spmmJob nnz 63 255 [0, 0]).bytes 0x40000 64)
     Desc.bad (d 4095) = false ∧ 4096 < Desc.uops (d 4095) ∧ Desc.dense (d 4095) = false ∧ Desc.bad (d 32767) = true) ∧
    (let s := withDesc spcolJob 1 0 4 [0, 1]
     Starts s 2 spcolJob 0x07 ∧ spcolCheck s spcolJob = 0 ∧ spcolJob.w0.toNat / 2 ^ 56 < Desc.cols (descOf (s.bytes 0x40000 64)) ∧
      Desc.cols (descOf (s.bytes 0x40000 64)) ≤ ({ spcolJob with w0 := 0x0500000000000007 }).w0.toNat / 2 ^ 56 ∧
      (let y := tileOf s spcolJob [0, 0x40300, 1, 5]
       GoesOn (withJob y) 2 y 0x07 ∧ y.hold ≠ [] ∧
        (jobLoop 2 spcolDone (spcolStep 2) none 256 (s.modJob 2 (fun _ => y)) y).2.isNone = true)) ∧
    (let s := withDesc pfillJob 1 0 4 [0, 1]
     Starts s 2 pfillJob 0x30 ∧ bits pfillJob.w0 63 32 = 0 ∧ bits pfillJob.w0 15 12 = 0 ∧ descPtrOk pfillJob.w1 = true ∧
      ptrFmtOk pfillJob.w1 0 0 = true ∧ (s.shed 0).loft = [] ∧ (s.shed 0).compiles = [] ∧
      ∃ a, jPlace (running s 2 pfillJob) (pfillJob.ctx 2) .read (ptrAddr pfillJob.w1) false = .ok a ∧ a.2.key = 0x40000 ∧
        Desc.uops (descOf (a.1.bytes a.2.key 16)) = 7) ∧
    (∃ a, loadDesc (readState { thr [(2, 0x40000)] with mem := descMem 1 0 4 [0, 1] } [x2] []) 0x40000 = .ok a ∧
      Desc.bad a.2.2 = false ∧ Names 0x40000 0 64 0x40000) ∧
    (isNear 0xF000000000000 = true ∧ Names 0xF000000000000 0 64 0xF000000000000) ∧
    (((withCompiles [entry1 true true]).shed 0).compiles = [entry1 true true] ∧ (entry1 true false).size ≤ 524288 ∧
      (entry1 true true).hasFired base 0 = true ∧ (entry1 true false).hasFired base 0 = false ∧
      (entry1 true false).hasFired { base with invals := [(0, 0x1000)] } 0 = true ∧
      deviceIssues (withCompiles [entry1 true true]) (shedDev 0) = true ∧
      deviceIssues ((withCompiles [entry1 true true]).modDevice 0 (fun d => { d with stopped := true })) (shedDev 0) = false) ∧
    (let e : LoftEntry := ⟨0x40000, 0, 1, 0, 0x40000, [], false, false, 7, 0, 0, [], []⟩
     (readTile { withCompiles [e] with mem := descMem 1 0 4 [0, 1] } 0 e).2.2.isNone = true ∧
      (match (readTile { withCompiles [e] with mem := descMem 1 0 4 [1, 1] } 0 e).2.2 with
        | some .abandoned => true
        | _ => false) = true) ∧
    ({ base with invals := [(0, 0x1000)] } : State).invals.contains (0, 0x1000) = true := by
  refine ⟨⟨?_, ?_, rfl, placed_meets ?_⟩, ?_,
    ⟨?_, ?_, placed_meets ?_, placed_meets ?_⟩, ?_,
    ?_, ⟨?_, ?_, ?_, ?_, ?_, rfl, rfl,
      placed_meets ?_⟩, placed_meets ?_, ?_, ?_, ?_, ?_⟩ <;> decide +kernel

/-- A sub and a drain of one tile over ring 7. -/
def subJob : Job := { job1 0x3800000000000020 .load with w1 := 0x40000, w2 := 0x4000000000 }
def drainJob : Job := { job1 0x3800000000000028 .store with w1 := 0x40000, w2 := 0x4000000000 }

/-- Their starts, a tile of each, a drain of memory that no table maps, and their ends. -/
theorem witness_TileStreams :
    (let s := withRings subJob
     Starts s 2 subJob 0x20 ∧ subCheck s subJob = 0 ∧ subJob.prog = 0 ∧ (ringGet s subJob.lkey subJob.ringOf).st = 1) ∧
    (Starts (withRings drainJob) 2 drainJob 0x28 ∧ drainCheck (withRings drainJob) drainJob = 0) ∧
    (let j := started subJob
     let s := withRings j
     let r := ringGet s j.lkey j.ringOf
     GoesOn s 2 j 0x20 ∧ j.todo = [] ∧ j.prog < j.tiles ∧ r = ring5 ∧ r.filled < r.slots ∧ fmtScaled (ptrFmt j.w1) = false ∧
     r.skips.contains ((j.w2.toNat % 2 ^ 32 + j.prog) % 2 ^ 32) = false ∧ j.tiles ≤ { j with prog := 1 }.prog ∧
     (match jLoadBytes s (j.ctx 2) (j.w1.toNat % 2 ^ 52 + j.prog * (j.w2.toNat / 2 ^ 32)) r.slotBytes with
       | .ok a =>
         (jLoadBytes a.1 (j.ctx 2) (j.w3.toNat % 2 ^ 52 + j.prog * tileScales j r.slotBytes) (tileScales j r.slotBytes)).toOption.isSome &&
           (makePuts (j.ctx 2) (Put.pieces 513 ⟨r.slotAddr r.tail, 0, 512, leVal a.2, r.slotAddr r.tail, 64⟩) a.1 j.bytes).2.2.2.isNone
       | .error _ => false) = true) ∧
    (let j := started drainJob
     let s := withRings j
     let r := ringGet s j.lkey j.ringOf
     GoesOn s 2 j 0x28 ∧ 0 < r.filled ∧ j.prog < j.tiles ∧ r.slotBytes = 64 ∧ 0x40000 + r.slotBytes ≤ 2 ^ 52 ∧ j.tiles ≤ { j with prog := 1 }.prog ∧
     (match jLoadBytes s (j.ctx 2) (r.slotAddr r.head) r.slotBytes with
       | .ok a => (makePuts (j.ctx 2) (Put.pieces 513 ⟨0x40000, 0, 512, leVal a.2, 0x40000, 64⟩) a.1 j.bytes).2.2.2.isNone &&
           (match (makePuts (j.ctx 2) (Put.pieces 513 ⟨0x8000000000, 0, 512, leVal a.2, 0x8000000000, 64⟩) a.1 j.bytes).2.2.2 with
             | some (.fault ..) => true
             | _ => false)
       | .error _ => false) = true) := by
  decide +kernel

/-! #### Vector commands -/

/-- What a read of a set's points gives, and the state that it leaves. -/
def read {ε α : Type} (r : Except ε (State × α)) : Option α := r.toOption.map (fun p => p.2)
def unread {ε α : Type} (r : Except ε (State × α)) : State := (r.toOption.map (fun p => p.1)).getD State.reset

def withVCmd (v : VCmd) : State := { base with vcmds := [(2, v)] }

/-- vadd of one FP32 element: windows 1 and 2 into window 0. -/
def vaddCmd : VCmd := vcmd1 0x10201 0x000200010000
/-- The same from ring 7 into ring 8. -/
def vaddRing : VCmd := vcmd1 0x10201 0x000280078008

/-- A vrs of slot 0, which its run has not loaded. -/
def vrsCmd : VCmd := vcmd1 0x10224 0x000200010000

def window1 : VOps := ⟨windowLoc 1, windowLoc 2, windowLoc 0, [], 0, ⟨1, 2⟩, []⟩

/-- COUNT 0, a field that is not zero, a slot that is not loaded, and a command that runs through, over window operands and over
rings; one that has stopped before its one element goes on there. -/
theorem witness_VectorCommands :
    (∃ x, vopOf (.vadd 2) = some (2, 0x01, x)) ∧ (∃ x, vopOf (.vrs 2) = some (2, 0x24, x)) ∧
    (VStarts (withVCmd (vcmd1 0x201 0)) 2 (vcmd1 0x201 0) 1 ∧ (vcmd1 0x201 0).count = 0) ∧
    (VStarts (withVCmd (vcmd1 0x0300010201 0)) 2 (vcmd1 0x0300010201 0) 1 ∧ (vcmd1 0x0300010201 0).badFields = true ∧
      (vcmd1 0x0300010201 0).count ≠ 0 ∧ (vcmd1 0x0300010201 0).held = none) ∧
    (let v := vcmd1 0x201010208 0
     VStarts (withVCmd v) 2 v 8 ∧ v.count ≠ 0 ∧ v.held = none ∧ v.badFields = false ∧ (∀ x ∈ v.spans, vRingOk (withVCmd v) v x.1 x.2.1 = true) ∧
       v.op = 8 ∧ v.dstFmt = 0) ∧
    (VStarts (withVCmd vrsCmd) 2 vrsCmd 0x24 ∧ vrsCmd.count ≠ 0 ∧ vrsCmd.badFields = false ∧
      (∀ x ∈ vrsCmd.spans, vRingOk (withVCmd vrsCmd) vrsCmd x.1 x.2.1 = true) ∧ vBuilding (withVCmd vrsCmd) vrsCmd = false ∧
      read (vPoints (withVCmd vrsCmd) vrsCmd) = some none) ∧
    (let s := withVCmd vaddCmd
     VStarts s 2 vaddCmd 1 ∧ vaddCmd.count ≠ 0 ∧ vaddCmd.badFields = false ∧ (∀ x ∈ vaddCmd.spans, vRingOk s vaddCmd x.1 x.2.1 = true) ∧
     vBuilding s vaddCmd = false ∧ read (vPoints s vaddCmd) = some (some []) ∧
     (let w := (unread (vPoints s vaddCmd)).modVCmd 2 (fun y => { y with points := some [] })
      (vRanges w 2 vaddCmd).toOption = some () ∧ (vTake (vAttached w 2 vaddCmd) vaddCmd).toOption.isSome = true ∧
      (vLoop (vaddCmd.ctx 2) (arithStep 2 vaddCmd window1) vaddCmd.steps 0 w .begin).2.2.2 = none)) ∧
    (let v := { vaddCmd with held := some (window1, 0, .begin), points := some [] }
     VStarts (withVCmd v) 2 v 1 ∧ (vLoop (v.ctx 2) (arithStep 2 v window1) (v.steps - 0) 0 (withVCmd v) .begin).2.2.2 = none) ∧
    (let s := withL (withVCmd vaddRing) (fun x => { x with rings := [(7, ring5), (8, ring5)] })
     VStarts s 2 vaddRing 1 ∧ vaddRing.badFields = false ∧ (∀ x ∈ vaddRing.spans, vRingOk s vaddRing x.1 x.2.1 = true) ∧
     vBuilding s vaddRing = false ∧ read (vPoints s vaddRing) = some (some []) ∧
     (let w := (unread (vPoints s vaddRing)).modVCmd 2 (fun y => { y with points := some [] })
      (vRanges w 2 vaddRing).toOption = some () ∧
      (match vTake (vAttached w 2 vaddRing) vaddRing with
        | .ok (a, b, d) => a.ring == some 7 && b.ring == none && d.ring == some 8 &&
            (ringScales (vAttached w 2 vaddRing) vaddRing a).toOption == some [] &&
            (vLoop (vaddRing.ctx 2) (arithStep 2 vaddRing ⟨a, b, d, [], 0, ⟨1, 2⟩, []⟩) 1 0 (vAttached w 2 vaddRing) .begin).2.2.2 == none
        | .error _ => false) = true)) := by
  refine ⟨⟨_, rfl⟩, ⟨_, rfl⟩, ?_, ?_, ?_, ?_, ?_,
    ?_⟩ <;> decide +kernel

theorem witness_VectorArithmetic :
    let s := withVCmd vaddCmd
    VStarts s 2 vaddCmd 1 ∧ vaddCmd.count ≠ 0 ∧ vaddCmd.held = none ∧ vaddCmd.badFields = false ∧ 1 ≤ vaddCmd.fmt ∧ vaddCmd.fmt ≤ 4 ∧
    vaddCmd.dBits / 8 = 4 ∧ vaddCmd.hd < 2 ^ 15 ∧ vaddCmd.ha < 2 ^ 15 ∧ vaddCmd.hb < 2 ^ 15 ∧ (vRanges s 2 vaddCmd).toOption = some () ∧
    s.badLines = [] ∧ (vaddCmd.ctx 2).dev = shedDev lshed1.shed ∧
    (∀ h, h = vaddCmd.ha ∨ (h = vaddCmd.hb ∧ vaddCmd.op ≠ 7) →
      vaddCmd.hd * 64 + vaddCmd.count * 4 ≤ h * 64 ∨ h * 64 + vaddCmd.count * 4 ≤ vaddCmd.hd * 64) ∧
    s.lsheds.get vaddCmd.lkey = some lshed1 ∧ s.runs.get vaddCmd.run = some run1 ∧
    (∀ lc, lc < 8 → lshed1.bases.getD lc 0 + run1.spad * 4096 ≤ 2 ^ 19) ∧
    (∀ m ∈ s.pageMigs, m.2.old < 2 ^ 33 ∧ m.2.new < 2 ^ 33) ∧ Unlogged s vaddCmd.lkey := by
  have apart : ∀ h, h = vaddCmd.ha ∨ (h = vaddCmd.hb ∧ vaddCmd.op ≠ 7) →
      vaddCmd.hd * 64 + vaddCmd.count * 4 ≤ h * 64 ∨ h * 64 + vaddCmd.count * 4 ≤ vaddCmd.hd * 64 := by
    rintro h (rfl | ⟨rfl, -⟩) <;> decide +kernel
  refine ⟨?_, ?_, rfl, ?_, ?_, ?_, ?_, ?_, ?_, ?_, ?_, ?_, ?_, apart, ?_, ?_, fun lc _ => show 0 + 64 * 4096 ≤ 2 ^ 19 from ?_, ?_,
    unlogged_of_none (x := lshed1) ?_ rfl⟩ <;> decide +kernel

/-! #### Special functions, real sets, random bits and queues -/

theorem witness_SpecialFunctions :
    (CanRead (thr [(2, 0x3F800000)]) [2] ∧ CanGoOn (thr [(2, 0x3F800000)]) ∧ (thr [(2, 0x3F800000)]).cur = .thread 1) ∧
    (CanRead (svcH [(2, 0x3F800000)]) [2] ∧ CanGoOn (svcH [(2, 0x3F800000)]) ∧ (svcH [(2, 0x3F800000)]).cur = .svc 0) ∧
    ((withThread base (fun t => { t with park := .result false 1 7 0 })).threads.get 1 = some { thread1 with park := .result false 1 7 0 }) ∧
    ((withThread base (fun t => { t with park := .result true 1 7 0 })).threads.get 1 = some { thread1 with park := .result true 1 7 0 }) ∧
    coreWorks (withThread base (fun t => { t with park := .result true 1 7 0 })) thread1.core = true ∧
    coreWorks (withThread stoppedBase (fun t => { t with park := .result true 1 7 0 })) thread1.core = false := by
  decide +kernel

/-- The points −3, −2, −1, 0, 1, 2 and 3. -/
def points7 : List Word := [0xC008000000000000, 0xC000000000000000, 0xBFF0000000000000, 0, 0x3FF0000000000000, 0x4000000000000000,
  0x4008000000000000]

/-- Slot 0 of run 1 loaded, and its tables in shed 0. -/
def withSlot (l : Map Word) : State := (withRun (thr l) (fun r => { r with zslots := [(0, ⟨0x40000, ⟨0, 0, 0, 0⟩, 16, 0, 1⟩)] })).modShed 0
  (fun x => { x with tables := [(zkey 1 0, (1, points7))] })

/-- A definition with these points in memory. -/
def withPoints (h : Word) (ps : List Word) : State :=
  { thr [(2, 0x40000)] with mem := Memory.puts mem1 0x40000 ((h :: ps).flatMap (fun w => leBytes 8 w.toNat)) }

theorem witness_RealSets :
    (let s := withSlot [(2, 1), (3, 1)]
     (∃ th, Issues s 1 th) ∧ CanGoOn s ∧ CanRead s [2, 3] ∧ (∃ r ∈ s.curRun, r.zclaim / 2 ^ 0 % 2 = 1) ∧
     slotBuilding s 1 0 0 = false ∧ read (slotTables (readState s [x2, x3] []) 1 0 0) = some (some points7) ∧ RealSet.codeWidth points7 = czBits .w8 ∧ RealSet.codeWidth points7 ≠ czBits .w10 ∧
     read (slotTables (readState (thr [(2, 1), (3, 1)]) [x2, x3] []) 1 0 0) = some none ∧ slotInUse s 1 0 0 = false ∧
     slotInUse { s with vcmds := [(2, { vrsCmd with points := some points7 })] } 1 0 0 = true) ∧
    ((withRun (thr [(2, 1), (3, 1)]) (fun r => { r with zclaim := 0xFE })).curRun = some { run1 with zclaim := 0xFE }) ∧
    (let s := withPoints 0 points7
     Settled s ∧ Names (s.reg 2) 0 8 0x40000 ∧
     (∃ a, loadFresh (readState s [x2] []) 0x40000 8 = .ok a ∧ a.2 = 0 ∧
       (match loadDwords a.1 0x40008 7 with
         | .ok b => RealSet.pointsOk (b.2.map RealSet.normPoint)
         | .error _ => false) = true)) ∧
    (∃ a, loadFresh (readState (withPoints 3 points7) [x2] []) 0x40000 8 = .ok a ∧ a.2 = 3) ∧
    (∃ a, loadFresh (readState (withPoints 0 []) [x2] []) 0x40000 8 = .ok a ∧ a.2 = 0 ∧
      (match loadDwords a.1 0x40008 7 with
        | .ok b => RealSet.pointsOk (b.2.map RealSet.normPoint)
        | .error _ => true) = false) ∧
    ((withThread base (fun t => { t with park := .table 0 1 points7 0x40000 })).threads.get 1 =
      some { thread1 with park := .table 0 1 points7 0x40000 }) := by
  refine ⟨⟨⟨_, rfl, rfl, rfl, rfl, rfl⟩, ?_⟩, ?_, ⟨?_, ?_, placed_meets ?_⟩,
    placed_meets ?_, placed_meets ?_, ?_⟩ <;> decide +kernel

/-- Streams at the ends of a program's range; queues of no entry, of one and of 2^20. -/
theorem witness_RandomAndQueues :
    (Issues base 1 thread1 ∧ CanRead (thr [(2, 0x400000), (3, 0)]) [2, 3] ∧ programStream 0x400000 = true ∧ programStream 0x3FFFFF = false ∧
     programStream 0xFFFEFFFF = true ∧ programStream 0xFFFF0000 = false ∧ (0x0001000000400000 : Word).toNat / 2 ^ 32 % 2 ^ 16 = 0 ∧
     (0x0000000100400000 : Word).toNat / 2 ^ 32 % 2 ^ 16 ≠ 0) ∧
    (let s := withL (thr [(2, 0xF000000000000), (3, 7)]) (fun x => { x with pqs := [(3, [(1, 2)])] })
     (∃ th, Issues s 1 th ∧ pqDest th 0xF000000000000 = true) ∧ CanGoOn s ∧ CanRead s [2, 3] ∧ Settled s ∧
     s.lsheds.get l1 = some { lshed1 with pqs := [(3, [(1, 2)])] } ∧ Names (s.reg 2) 0 16 0xF000000000000 ∧
     (∃ a, place (readState s [x2] []) (readState s [x2] []).ctx .write 0xF000000000000 = .ok a ∧ a.2.key = 2 ^ 49 ∧
       (match place a.1 a.1.ctx .write 0xF000000000008 with
         | .ok b => b.2.key == 2 ^ 49 + 8 && decide (LogRoom b.1 a.2.key 8 ∧ LogRoom b.1 b.2.key 8) && !touchesMark b.1 l1 a.2.key 8
         | .error _ => false) = true)) ∧
    2 ^ 20 ≤ (List.replicate (2 ^ 20) ((1, 2) : Word × Word)).length := by
  refine ⟨?_, ⟨⟨_, ⟨rfl, rfl, rfl, rfl, rfl⟩, by decide⟩, ?_, ?_, ?_, ?_, ?_,
    placed_meets ?_⟩, by simp only [List.length_replicate, Nat.le_refl]⟩ <;> decide +kernel

/-! #### Regions -/

/-- The dwords of a descriptor of four leaves, a dispatch table at 0x48000 and a log area of 64 KiB at 0x50000 (R336). -/
def regionWords : List Word := [3, 0, 0x48000, 0x50000, 0x10000, 0, 0, 0]
def region1 : Region := Region.define 0x40000 regionWords 0 0
def withRegion (s : State) (g : Region) : State := withL s (fun x => { x with regions := [(2, g)] })
def wordsAt (m : List Host.Cell) (a : Nat) (ws : List Word) : List Host.Cell := Memory.puts m a (ws.flatMap (fun w => leBytes 8 w.toNat))

/-- The image of region 2, with its descriptor. -/
def withImage : State :=
  { thr [(2, 0x44000)] with mem := wordsAt (wordsAt mem1 0x40000 regionWords) 0x44000 ((region1.image (regionId ⟨0, 0, 0, 0⟩ 2)).map (BitVec.ofNat 64)) }

theorem witness_Regions :
    ((∃ th, Issues (thr [(2, 0x40000)]) 1 th) ∧ CanGoOn base ∧ base.curRun = some run1 ∧ run1.trees / 2 ^ 2 % 2 = 1 ∧
     regionOf base l1 2 = none ∧ ({ run1 with trees := 0xFFFB }).trees / 2 ^ 2 % 2 = 0) ∧
    (let s := { thr [(2, 0x40000)] with mem := wordsAt mem1 0x40000 regionWords }
     s.lsheds.get l1 = some lshed1 ∧ Names (s.reg 2) 0 64 0x40000 ∧
     (∃ a, loadDwords (readState s [x2] []) 0x40000 8 = .ok a ∧ a.2 = regionWords ∧ regionDescOk a.2 = true)) ∧
    (let s := withRegion (thr [(2, 0x44000)]) region1
     let im := region1.image (regionId ⟨0, 0, 0, 0⟩ 2)
     regionOf s l1 2 = some region1 ∧ region1.st = 1 ∧ Settled s ∧ im.length = 36 ∧
     (∃ a, placeDwords (readState s [x2] []) 0x44000 36 = .ok a ∧ (storeDwords a.1 0x44000 a.2 im).toOption.isSome = true)) ∧
    (∃ a, loadDwords (readState withImage [x2] []) 0x44000 32 = .ok a ∧ imageOk a.2 = true ∧ (a.2.getD 1 0).toNat % 2 ^ 22 = regionId ⟨0, 0, 0, 0⟩ 2 ∧
      (a.2.getD 0 0).toNat = 0x40000 ∧
      (match loadDwords a.1 0x40000 8 with
        | .ok b => regionDescOk b.2 && b.2.getD 0 0 == 3 && (match loadDwords b.1 0x44100 4 with
          | .ok c => c.2.all (fun y => decide (y.toNat < 2 ^ 48))
          | .error _ => false)
        | .error _ => false) = true) := by
  refine ⟨⟨⟨_, rfl, rfl, rfl, rfl, rfl⟩, ?_⟩, ⟨?_, ?_, placed_meets ?_⟩,
    ⟨?_, ?_, ?_, ?_, placed_meets ?_⟩, placed_meets ?_⟩ <;> decide +kernel

/-- Leaves 3 and 4 of four; a quantised 2.0, and a negative value; items 2^63 and 2^63 + 7; an open and a full log. -/
theorem witness_RegionLeaves :
    (let s := withRegion (thr [(2, 3), (3, 0x4000000000000000)]) region1
     (∃ th, Issues s 1 th ∧ HasRegion s th 2 region1) ∧ CanGoOn s ∧ CanRead s [2, 3] ∧ (s.reg 2).toNat < region1.nl ∧ region1.nl ≤ 4 ∧
     (quantise region1 (s.fpOperand .fp64 (s.reg 3))).isSome = true ∧ quantise region1 (s.fpOperand .fp64 0xC000000000000000) = none ∧
     region1.room 16 = true) ∧
    ({ region1 with logsz := 8 }).room 16 = false ∧ (region1.item 0).isSome = true ∧ (region1.item 7).isSome = true := by
  exact ⟨⟨⟨_, ⟨rfl, rfl, rfl, rfl, rfl⟩, by decide +kernel⟩, by decide +kernel⟩, by decide +kernel⟩

/-- The key of an event at some time. -/
def keyAt (t : Nat) : Key := ⟨false, t, 0, 0, 0, 0⟩
def bmsg1 (t kind : Nat) : BMsg := ⟨1, keyAt t, Key.begin, kind, 0, 16, 5, 6, 0⟩

theorem witness_EventSteps :
    (let s := withRegion base region1
     Issues base 1 thread1 ∧ HasRegion s thread1 2 region1 ∧ CanGoOn s ∧ leastKey region1.stragglers = none ∧ region1.total = 0 ∧
     region1.head = none ∧ region1.curV = false) ∧
    (let g := { region1 with last := keyAt 9, inq := [bmsg1 5 0] }
     HasRegion (withRegion base g) thread1 2 g ∧ leastKey g.stragglers = some (keyAt 5)) ∧
    (let g := { region1 with leaves := [(1, 5), (3, 7)] }
     HasRegion (withRegion base g) thread1 2 g ∧ leastKey g.stragglers = none ∧ 0 < g.total ∧ g.head = none ∧
     (draw (withRegion base g) g 2).toOption.isSome = true) ∧
    (let g := { region1 with inq := [bmsg1 5 0] }
     HasRegion (withRegion base g) thread1 2 g ∧ leastKey g.stragglers = none ∧ g.head = some (bmsg1 5 0) ∧ g.total = 0) ∧
    (let g := { region1 with curV := true, cur := 1 }
     let s := { withRegion base g with mem := wordsAt mem1 0x48008 [0x60100] }
     HasRegion s thread1 2 g ∧ Names (BitVec.ofNat 64 g.disp) (8 * g.cur) 8 0x48008 ∧ ∃ a, loadFresh s 0x48008 8 = .ok a ∧ a.2 = 0x60100) := by
  refine ⟨?_, ?_, ?_, ?_, ?_, ?_,
    placed_meets ?_⟩ <;> decide +kernel

/-- A bsend with every status, a record stored by bmsg, and messages that arrive. -/
theorem witness_BoundaryMessages :
    (let s := { withRegion (thr [(2, 0x12), (3, 0x40000)]) { region1 with last := keyAt 9 } with mem := wordsAt mem1 0x40000 [5, 6] }
     (∃ th, Issues s 1 th ∧ HasRegion s th 2 { region1 with last := keyAt 9 }) ∧ CanGoOn s ∧ s.curRun = some run1 ∧ CanRead s [2, 3] ∧
     region1.last = Key.begin ∧ keyAt 9 ≠ Key.begin ∧ badTarget { run1 with nls := 1 } (s.reg 2) = false ∧ badTarget run1 (s.reg 2) = true ∧
     region1.sub ≠ 65535 ∧ (keyAt 9).lt region1.replay = false ∧ Names (s.reg 3) 0 16 0x40000 ∧ region1.room 64 = true ∧
     (∃ a, loadFresh (readState s [x2, x3] []) 0x40000 8 = .ok a ∧ a.2 = 5 ∧ (loadFresh a.1 0x40008 8).toOption.isSome = true)) ∧
    (let g := { region1 with bnd := true, got := some (bmsg1 5 0), logsz := 79, marks := [⟨0x40000, 64, [(0x40000, [0x40000])]⟩] }
     let s := withRegion (thr [(2, 0x40000)]) g
     Settled s ∧ ∃ a, placeDwords (readState s [x2] []) 0x40000 6 = .ok a ∧ logFullAll a.1 l1 a.2 = some 2) ∧
    (let g := { region1 with bnd := true, got := some (bmsg1 5 0) }
     let s := withRegion (thr [(2, 0x40000)]) g
     region1.bnd = false ∧ (∃ th, Issues s 1 th ∧ HasRegion s th 2 g) ∧ Settled s ∧ Names (s.reg 2) 0 16 0x40000 ∧
     (∃ a, placeDwords (readState s [x2] []) 0x40000 6 = .ok a ∧ logFullAll a.1 l1 a.2 = none ∧
       a.2.Pairwise (fun p q => p.key + 8 ≤ q.key ∨ q.key + 8 ≤ p.key))) ∧
    (let b := { bmsg1 5 0 with key := ⟨false, 5, 0, 16, 0, 1⟩, target := 2 }
     let s := { withRegion base region1 with bmsgs := [(3, b)] }
     s.bmsgs.get 3 = some b ∧ b.st = 0 ∧ l1 = regionShed b.run b.target ∧ shedWorks s l1 = true ∧ behind s 3 b 1 = false ∧
     behind s 3 b 0 = false ∧ regionOf s l1 (b.target % 16) = some region1 ∧ b.key.id / 16 ≠ b.target / 16 ∧ b.kind ≠ 2 ∧
     region1.room 64 = true ∧ ({ region1 with logsz := 63 }).room 64 = false ∧ ({ region1 with logsz := 63 }).st = 1 ∧
     region1.reported = false) ∧
    (let b := { bmsg1 5 2 with key := ⟨false, 5, 0, 16, 0, 1⟩, target := 2 }
     let g := { region1 with inq := [{ b with kind := 0 }] }
     let s := { withRegion base g with bmsgs := [(3, b)] }
     regionOf s l1 2 = some g ∧ behind s 3 b 1 = false ∧ behind s 3 b 0 = false ∧ g.room 64 = true ∧ g.st = 1 ∧ b.kind = 2 ∧ ∃ q ∈ g.inq, q.kind ≠ 2 ∧ q.key = b.key) ∧
    { bmsg1 5 0 with st := 2 }.st = 2 := by
  refine ⟨⟨⟨_, ⟨rfl, rfl, rfl, rfl, rfl⟩, ?_⟩, ?_, ?_, ?_, ?_, ?_, ?_,
      ?_, ?_, ?_, ?_, ?_, placed_meets ?_⟩,
    ⟨?_, placed_meets ?_⟩,
    ⟨rfl, ⟨_, ⟨rfl, rfl, rfl, rfl, rfl⟩, ?_⟩, ?_, ?_, placed_meets ?_⟩, ?_, ?_, rfl⟩ <;> decide +kernel

/-- A command that has ended, whose record is to be written in a marked line for which its region's log has no room (log entry 31). -/
theorem witness_RecordWithoutRoom :
    let j := { job1 1 .mat with started := true, ended := true, jobbase := 0x40001 }
    let s := { withRegion (withJob j) { region1 with logsz := 79, marks := [⟨0x40000, 64, [(0x40000, [0x40000, 0x40008])]⟩] } with defer := [] }
    s.jobs.get 2 = some j ∧ unitRuns s j.run j.lkey j.core = true ∧ j.killed = false ∧
    (∃ a, place (arriveJob s 2 j).1 (j.ctx 2) .write 0x40000 = .ok a ∧ a.2.key = 0x40000 ∧ frameBusy a.1 (.job 2) 0x40000 = false ∧
      recordFull a.1 j.lkey 0x40000 0x40008 = some 2) ∧
    (∃ a, place (arriveJob s 2 j).1 (j.ctx 2) .write 0x40008 = .ok a ∧ a.2.key = 0x40008) := by
  refine ⟨?_, ?_, rfl, placed_meets ?_, placed_meets ?_⟩ <;> decide +kernel

def ckptOf (t e : Nat) : Ckpt := ⟨keyAt t, t, 1, 1, false, false, e⟩

theorem witness_RegionLogs :
    (let g := { region1 with last := keyAt 9, ckpts := [ckptOf 9 1] }
     HasRegion (withRegion base g) thread1 2 g ∧ ∃ c, g.ckpts.head? = some c ∧ c.key = g.last) ∧
    (HasRegion (withRegion base region1) thread1 2 region1 ∧ (∀ c ∈ region1.ckpts.head?, c.key ≠ keyAt 9) ∧ region1.room 64 = true ∧ leastKey region1.stragglers = none) ∧
    (let g := { region1 with last := keyAt 9, inq := [bmsg1 5 0], ckpts := [ckptOf 8 3] }
     leastKey g.stragglers = some (keyAt 5) ∧ g.ckpts.find? (fun c => c.key.lt (keyAt 5)) = none) ∧
    (let g := { region1 with last := keyAt 9, inq := [bmsg1 5 0], ckpts := [ckptOf 8 3, ckptOf 4 2, ckptOf 1 1], epoch := 4 }
     HasRegion (withRegion (thr [(2, 5)]) g) thread1 2 g ∧ leastKey g.stragglers = some (keyAt 5) ∧ CanRead (withRegion (thr [(2, 5)]) g) [2] ∧
     g.ckpts.find? (fun c => c.key.lt (keyAt 5)) = some (ckptOf 4 2) ∧
     g.ckpts.find? (fun c => c.key.start || decide (c.key.time < 5)) = some (ckptOf 4 2) ∧ g.ckpts.getLast? ≠ some (ckptOf 4 2) ∧
     g.ckpts.find? (fun c => c.key.start || decide (c.key.time < 1)) = none) ∧
    (let m : Mark := ⟨0x40000, 64, [(0x40000, [0x40000])]⟩
     let us := [Undo.line 4 0x40000 [0x40000] [1, 2, 3, 4, 5, 6, 7, 8], .leaf 3 1 7, .mark 3 m 9, .leaf 2 1 6]
     let g := { region1 with
       last := keyAt 9, inq := [bmsg1 5 0], ckpts := [ckptOf 8 3, ckptOf 4 2], epoch := 4, leaves := [(1, 5)], marks := [m]
       undo := us ++ [.leaf 1 2 4], recv := [bmsg1 8 0, bmsg1 2 0], sends := [bmsg1 9 0] }
     let s := withRegion base g
     HasRegion s thread1 2 g ∧ Settled s ∧ g.undo.filter (fun e => decide (2 ≤ e.epochOf)) = us ∧ leafBefore g us 1 = 6 ∧ leafBefore g us 2 = 0 ∧
     undoBusy s (.thread 1) lshed1 us = none ∧
     undoBusy { s with pageMigs := [(0, ⟨0, 0x40000, 4, 5, 0, false, []⟩)] } (.thread 1) lshed1 us = some 4 ∧
     undone lshed1 0x40001 (s.byte 0x40001) us = 2 ∧ (∃ k ∈ us, match k with | .mark _ n _ => n = m | _ => False) ∧
     (∀ b ∈ g.sends, b.target ≠ 2) ∧ heldFor s 1 2 = [] ∧
     (∃ b ∈ g.sends, (keyAt 5).lt b.key = true ∧ heldSend s b = none ∧ b.key.id / 16 ≠ b.target / 16)) ∧
    (let s := withRegion (thr [(2, 0x40000), (3, 64)]) region1
     (∃ th, Issues s 1 th ∧ HasRegion s th 2 region1 ∧
       ∃ a, markLines (readState s [x2, x3] []) th 0x40000 0x40000 1 = .ok a ∧
         (∀ y ∈ s.lsheds, ∀ q ∈ y.2.regions, ∀ m' ∈ q.2.marks, Mark.overlaps lshed1 y.2 ⟨0x40000, 64, a.2⟩ m' = false)) ∧
     CanGoOn s ∧ CanRead s [2, 3] ∧ Settled s ∧ region1.room 32 = true ∧ badRange (s.reg 2) (s.reg 3) = false ∧ badRange 0x40000 0 = true ∧
     shedMarks s 0 < 64 ∧ (s.reg 2).toNat / 2 ^ 52 % 4 = 0 ∧
     (readLines (readState s [x2, x3] []) lshed1 [(0x40000, [0x40000])]).toOption = some () ∧ frameBusy s (.thread 1) 0x40000 = false ∧
     lshed1.phys 0x40000 = 0x40000 ∧
     (let u := { s with badLines := [0x1000] }
      u.badLines.contains (0x40000 / 64) = true ∧ (readLines (readState u [x2, x3] []) lshed1 [(0x40000, [0x40000])]).toOption = none)) ∧
    ({ region1 with marks := [⟨0x40000, 64, []⟩] } : Region).marks.find? (fun m => m.addr == 0x40000 && m.len == 64) = some ⟨0x40000, 64, []⟩ := by
  refine ⟨⟨?_, _, rfl, rfl⟩, ?_, ?_, ?_,
    ⟨?_, ?_, ?_, ?_, ?_, ?_, ?_, ?_,
      ⟨_, .tail _ (.tail _ (.head _)), rfl⟩, ?_, ?_, ?_⟩,
    ⟨⟨_, ⟨rfl, rfl, rfl, rfl, rfl⟩, ?_, placed_meets ?_⟩, ?_⟩, ?_⟩ <;> decide +kernel

/-! #### Exceptions and system forms -/

/-- Thread 1 in a trap handler; and a run that is to be pre-empted. -/
def inTrap : Thread := { thread1 with hart := { thread1.hart with intrap := true } }

theorem witness_Exceptions :
    (Issues base 1 thread1 ∧ thread1.staged = none ∧ thread1.hart.intrap = false ∧
     base.groups.get (gkey thread1.run thread1.coord) = some ⟨0x70001, true⟩ ∧ (0x70001 : Word).toNat % 2 = 1) ∧
    (let s := { base with threads := [(1, inTrap)] }
     Issues s 1 inTrap ∧ inTrap.staged = none ∧ inTrap.hart.intrap = true ∧ (inTrap.inSave = false ∨ requested s inTrap = false)) ∧
    (let th := { inTrap with utcause := 7 }
     let s := withRun { base with threads := [(1, th)] } (fun r => { r with preempt := true })
     Issues s 1 th ∧ th.hart.intrap = true ∧ th.inSave = true ∧ requested s th = true ∧ s.jobs = [] ∧ s.vcmds = []) ∧
    (IssuesSvc (svcH []) 0 ∧ ((svcH []).svc 0).hmode = true) ∧
    (let s := (svcH []).modSvc 0 (fun x => { x with hmode := false })
     IssuesSvc s 0 ∧ (s.svc 0).hmode = false ∧ CanGoOn s) := by
  decide +kernel

theorem witness_SystemCalls :
    (let s := thr [(1, 1), (2, 2), (3, 3), (4, 4), (5, 5), (6, 6)]
     (∃ th, Issues s 1 th) ∧ CanGoOn s ∧ CanRead s [1, 2, 3, 4, 5, 6] ∧ s.cur = .thread 1) ∧
    (IssuesSvc (svcH [(2, 5)]) 0 ∧ ((svcH [(2, 5)]).svc 0).hmode = true ∧ CanGoOn (svcH [(2, 5)])) ∧
    (let s := (svcH [(2, 5)]).modSvc 0 (fun x => { x with hmode := false })
     IssuesSvc s 0 ∧ (s.svc 0).hmode = false ∧ CanGoOn s) := by
  exact ⟨⟨⟨_, rfl, rfl, rfl, rfl, rfl⟩, by decide +kernel⟩, by decide +kernel, by decide +kernel⟩

/-- FBSTAT with HEAD at TAIL and at the one entry before it; CR.RUNCTL with its three words. -/
theorem witness_ControlRegisters :
    (let s := thr [(2, 5)]
     (∃ th, Issues s 1 th) ∧ CanGoOn s ∧ CanRead s [2] ∧ crListed.contains 0x031 = true ∧ crListed.contains 0x002 = true ∧
     crListed.contains 0x006 = false ∧ crOf s 1 0x001 = some 0x70001 ∧ crOf s 1 0x0F0 = some 0 ∧ (crOf s 1 0x022).isSome = true ∧
     crOf s 1 0x031 = some 0) ∧
    (let s := (svcH [(2, 1)]).modSvc 0 (fun x => { x with tail := 1, hmode := false })
     IssuesSvc s 0 ∧ CanGoOn s ∧ (s.svc 0).hmode = false ∧ (s.svc 0).refused = [] ∧ (s.svc 0).inCtl = false ∧
     ((s.svc 0).tail + 512 - (s.reg 2).toNat % 2 ^ 9) % 512 ≤ ((s.svc 0).tail + 512 - (s.svc 0).head % 512) % 512 ∧
     (svcCrOf s 0 0x821).isSome = true ∧ (svcCrOf s 0 0x811).isSome = true ∧ (s.reg 2).toNat / 2 ^ 62 ≠ 3 ∧
     s.runs.get ((s.reg 2).toNat % 2 ^ 32) = none) ∧
    (let s := { base with cur := .svc 0 }
     s.runs.get 1 = some run1 ∧ run1.part = (s.svc 0).part ∧ run1.preempt = false ∧ (s.svc 0).hmode = true ∧
     s.agenda.contains (.preemptRequest 1) = false ∧ { run1 with preempt := true }.preempt = true ∧
     ({ s with agenda := [.preemptRequest 1] }).agenda.contains (.preemptRequest 1) = true ∧
     (1 : Nat) / 2 ^ 62 = 0 ∧ (0xC000000000000001 : Nat) / 2 ^ 62 = 3 ∧ { run1 with part := 1 }.part ≠ (s.svc 0).part) := by
  refine ⟨⟨⟨_, rfl, rfl, rfl, rfl, rfl⟩, ?_⟩, ?_, ?_⟩ <;> decide +kernel

/-- Fault 0 of thread 1 as an entry of the fault buffer, and a reply to it. -/
def msg1 (kind st : Nat) : FaultMsg where
  who := .thread 1
  svc := 0
  run := 1
  core := 0
  slot := 0
  eng := false
  tag := 0
  kind := kind
  cause := 0
  coord := ⟨0, 0, 0, 0⟩
  addr := 5
  pcs := 0x60000
  value := 0
  args := []
  st := st
  res1 := 11
  res2 := 12

def withMsg (m : FaultMsg) : State := { withThread base (fun t => { t with park := .mailbox 0 }) with faults := [(0, m)] }
/-- The page of 0x40000 in a move from frame 4 to frame 5; and device 0 with these features. -/
def withMove (moved : Bool) : State := { base with pageMigs := [(0, ⟨0, 0x40000, 4, 5, 0, moved, []⟩)] }
def withFeat (w : BitVec 128) : State := base.modDevice 0 (fun d => { d with feat := w, accepted := true })
/-- Tables of four levels that map the page of 0x40000 to frame 5 (R234). -/
def moveMem : List Host.Cell :=
  wordsAt (wordsAt (wordsAt (wordsAt [] 0x10000 [0x8000000000020000]) 0x20000 [0x8000000000030000]) 0x30000 [0x8000000000038000]) 0x38020
    [0xF000000000050000]
def atSvc (s : State) (l : Map Word) : State := withRegs ({ s with cur := .svc 0 }) l

theorem witness_ServiceForms :
    base.cur = .thread 1 ∧
    (let s := atSvc base [(2, 0x0000000500000000)]
     IssuesSvc s 0 ∧ CanGoOn s ∧ (s.svc 0).inCtl = false ∧ (s.svc 0).busy = false ∧ s.runs.get ((s.reg 2).toNat / 2 ^ 32) = none ∧
     (s.reg 2).toNat / 2 ^ 31 % 2 = 0 ∧ (s.reg 2).toNat % 2 ^ 6 = 0 ∧ (s.reg 2).toNat / 2 ^ 6 % 2 ^ 24 = 0) ∧
    (let s := atSvc base [(2, 0x0000000100000000)]
     s.runs.get ((s.reg 2).toNat / 2 ^ 32) = some run1 ∧ run1.part = (s.svc 0).part ∧ (s.reg 2).toNat / 2 ^ 30 % 2 = 0 ∧ run1.state ≠ 1 ∧
     run1.state ≠ 2) ∧
    (let s := atSvc base [(2, 0x0000000140000000), (3, 0x0000000140000040)]
     (s.reg 2).toNat / 2 ^ 31 % 2 = 0 ∧ (s.reg 2).toNat % 2 ^ 6 = 0 ∧ (s.reg 2).toNat / 2 ^ 30 % 2 = 1 ∧
     s.runs.get ((s.reg 2).toNat / 2 ^ 32) = some run1 ∧ (s.groups.get (gkey 1 ⟨0, 0, 0, 0⟩)).any (fun g => g.alive) = true ∧
     (s.reg 3).toNat / 2 ^ 6 % 2 ^ 24 = 1 ∧ s.groups.get (gkey 1 ⟨0, 0, 0, 1⟩) = none) ∧
    (let s := { atSvc (withMsg (msg1 3 3)) [(2, 0x40000), (3, 0)] with
        mem := Memory.puts mem1 0x40000 ((msg1 3 3).words.flatMap (leBytes 8)) }
     (∃ a, loadDwords (readState s [x2, x3] []) 0x40000 16 = .ok a ∧ findFault s a.2 ((s.reg 3).toNat / 2 ^ 52 % 2 ^ 8) (outsideBuffer s 0x40000) = some 0) ∧
     Names (s.reg 2) 0 8 0x40000 ∧ replyAction (s.reg 3) = some .resume ∧ replyAction 1 = none ∧
     (∃ a, loadDwords (readState (atSvc base [(2, 0x40000), (3, 0)]) [x2, x3] []) 0x40000 16 = .ok a ∧
       findFault (atSvc base [(2, 0x40000), (3, 0)]) a.2 0 (outsideBuffer base 0x40000) = none)) ∧
    (tlbWordOk 0 = true ∧ tlbWordOk 0x4000000000000000 = true ∧ tlbWordOk 0x8000000000030000 = true ∧ tlbWordOk 0xC000000000000000 = false) ∧
    (pageMoving (withMove false) 0 0x40000 = true ∧ pageMoving base 0 0x40000 = false ∧ base.feat 0 / 2 ^ 2 % 2 = 0) ∧
    (let s := { withFeat 4 with mem := moveMem }
     s.feat (svcDev 0) / 2 ^ 2 % 2 = 1 ∧ walk s 0 (svcDev 0) 0x40000 = .leaf 0xF000000000050000 0 ∧ walk s 0 (svcDev 0) 0x8000000000 = .absent) ∧
    (let s := svcH [(2, 0x1F0), (3, 2)]
     IssuesSvc s 0 ∧ CanGoOn s ∧ (s.svc 0).hmode = true ∧ (s.device (svcDev 0)).maint = true ∧
     (s.reg 2 + BitVec.ofNat 64 ((s.reg 3).toNat % 2 ^ 32 * 8) + BitVec.ofInt 64 ((0#8).toInt * 8)).toNat = 0x200 ∧
     padKey s (svcDev 0) 0x200 = none ∧ (s.device (svcDev 0)).linkErrors = [] ∧ keyDev 0x200 = svcDev 0 ∧
     s.badLines.contains (0x200 / 64) = false ∧
     padKey s (svcDev 0) (2 ^ 39 - 2 ^ 30 + 0x7DFF8) = some (2 ^ 49 + 0x7DFF8) ∧
     ({ s with badLines := [(2 ^ 49 + 0x7DFF8) / 64] } : State).badLines.contains ((2 ^ 49 + 0x7DFF8) / 64) = true ∧
     padKey s (svcDev 0) (2 ^ 39 - 2 ^ 30 + 0x7E000) = some (2 ^ 49 + 0x7E000) ∧
     (place (readState s [x2, x3] []) (.svcH 0) .read 0x200).toOption.any (fun a => !frameBusy a.1 (.svc 0) a.2.key) = true ∧
     (place (readState s [x2, x3] [1]) (.svcH 0) .write 0x200).toOption.any (fun a => !frameBusy a.1 (.svc 0) a.2.key) = true) ∧
    ((atSvc base []).device (svcDev 0)).maint = false := by
  refine ⟨rfl, ?_, ?_, ?_, ⟨placed_meets ?_, ?_, ?_,
    ?_, placed_meets ?_⟩, ?_, ?_, ?_, ?_, ?_⟩ <;> decide +kernel

/-- A buffer with room and a full one; a reply to each kind of message; a job's fault. -/
theorem witness_FaultMessages :
    (let s := withMsg (msg1 3 0)
     s.faults.get 0 = some (msg1 3 0) ∧ fbFull s 0 = false ∧ (bufferPlace s 0 (s.svc 0).tail).toOption.isSome = true ∧
     s.threads.get 1 = some { thread1 with park := .mailbox 0 } ∧ isResident s thread1.lkey = true ∧ coreWorks s thread1.core = true ∧
     coreWorks (s.modDevice 0 (fun d => { d with stopped := true })) thread1.core = false) ∧
    (let s := (withMsg (msg1 3 0)).modSvc 0 (fun x => { x with tail := 256 })
     fbFull s 0 = true ∧ (s.svc 0).refused.length < 64) ∧
    (withMsg (msg1 3 2)).faults.get 0 = some (msg1 3 2) ∧ (msg1 10 3).kind = 10 ∧ (msg1 11 3).kind = 11 ∧
    (let j := { job1 0x10 .copy with fault := some 0 }
     let m := { msg1 3 3 with who := .job 2 }
     let s := { withJob j with faults := [(0, m)] }
     s.faults.get 0 = some m ∧ m.who = .job 2 ∧ s.jobs.get 2 = some j ∧ j.fault = some 0 ∧ j.ended = false) ∧
    (let j (st : Nat) := { job1 0x10 .copy with fault := some 0, ended := true, status := st }
     let m := { msg1 5 3 with who := .job 2 }
     let s (st : Nat) := { withJob (j st) with faults := [(0, m)] }
     (s 0).faults.get 0 = some m ∧ (s 0).jobs.get 2 = some (j 0) ∧ (s 6).jobs.get 2 = some (j 6) ∧ (j 6).status ≠ 0 ∧ (j 0).ended = true) ∧
    (let s := base.modSvc 0 (fun x => { x with tail := 1 })
     (s.svc 0).refused = [] ∧ ((s.svc 0).tail + 512 - 1) % 512 ≤ ((s.svc 0).tail + 512 - (s.svc 0).head % 512) % 512) := by
  decide +kernel

/-! #### Happenings -/

/-- A header at 0x40000 (R150): priority 2, one yard of one shed of one core, 64 pages, a handler table of one entry at 0x50000, an empty
safe-point table, and, where `c` says so, the condition that the dword at 0x44000 is not 0 (R155). -/
def headerWords (c : Bool) : List Word :=
  [0x4000, 0, 0x40, 0x50000, 0x51000, 0, 0, 1, 2, 0, 0, 0, 0, 0, 0, 0, if c then 0x00A0000000044000 else 0, 0]

def withQueued (c : Bool) : State :=
  let q := Run.queued 0x40000 0 2 false
  ({ base with runs := [(1, run1), (2, q)], mem := wordsAt mem1 0x40000 (headerWords c) }).modPart 0 (fun p => { p with queues := [(2, [2])] })

/-- Run 2 waits, and its conditions hold. -/
def withWaiting : State :=
  let q := { Run.queued 0x40000 0 2 false with state := 2 }
  { base with runs := [(2, q)], lsheds := [], threads := [], groups := [] }

theorem witness_DispatcherHappenings :
    (let s := { base with mem := wordsAt mem1 0x40000 (headerWords false) }
     (dispatchRead s 0 0x40000).map (fun a => a.2) = some 0x4000 ∧ (0x4000 : Nat) / 2 ^ 13 % 8 = 2 ∧ (queueOf s 0 2).length < 256 ∧
     256 ≤ (queueOf (s.modPart 0 (fun p => { p with queues := [(2, List.range 256)] })) 0 2).length) ∧
    (∀ h ∈ partSheds (withQueued true) 0, waitingHosts (withQueued true) h = []) ∧
    (let s := withQueued true
     let q := s.modPart 0 (fun y => { y with queues := y.queues.mapVals (fun _ l => l.filter (fun y => y != 2)) })
     let x := Run.queued 0x40000 0 2 false
     nextQueued s 0 = some 2 ∧ s.runs.get 2 = some x ∧ x.part = 0 ∧ (∀ y ∈ s.runs, ¬ (y.2.part = 0 ∧ y.2.state = 2 ∧ y.2.ready = true)) ∧
     (validate q x 2).2.2 = 0 ∧ (validate q x 2).2.1.ready = false ∧ (validate q x 2).2.1.part = 0 ∧
     (let v := runStatus ((validate q x 2).1.setRun 2 { (validate q x 2).2.1 with state := 2 }) 2 2
      ((failingConds { v with waits := v.waits.filter (fun e => e.2.who != .run 2) } 0 (validate q x 2).2.1.conds).map (fun a => a.2.length)) = some 1) ∧
     (validate q { x with hdr := 0x40008 } 2).2.2 = 8) ∧
    (let s := withWaiting
     let x := { Run.queued 0x40000 0 2 false with state := 2 }
     s.runs.get 2 = some x ∧ x.state = 2 ∧ x.ready = false ∧ x.conds = [] ∧
     (∀ y ∈ s.runs, y.1 ≠ 2 → ¬ (y.2.part = x.part ∧ y.2.state = 2 ∧ y.2.ready = true)) ∧
     (placeRun (markOldest (({ s with waits := s.waits.filter (fun e => e.2.who != .run 2) } : State).modRun 2
       (fun x => { x with ready := true })) 0) 2).isSome = true) ∧
    (let s := { base with threads := [] }
     s.runs.get 1 = some run1 ∧ run1.state = 3 ∧ runIdle s 1 = true) := by
  decide +kernel

/-- Run 1 descheduled, and the run of the persistent kind whose watchdog has expired. -/
theorem witness_PreemptionHappenings :
    (base.runs.get 1 = some run1 ∧ run1.preempt = false) ∧ { run1 with preempt := true }.descheduled = false ∧
    (let th := { thread1 with held := true }
     let s := withRun { base with threads := [(1, th)] } (fun r => { r with preempt := true })
     Map.sorted s.threads = true ∧ Map.sorted s.lsheds = true ∧ s.lsheds.get l1 = some lshed1 ∧ lshed1.run = 1 ∧ lshed1.resident = true ∧
     th.counts = true ∧ th.lkey = l1) ∧
    (let x := { run1 with descheduled := true, preempt := true }
     let s := withL (base.setRun 1 x) (fun y => { y with resident := false })
     s.runs.get 1 = some x ∧ (dispatchRead s 0 (x.hdr + 0x30)).isSome = true ∧
     ((List.range (x.nly + 1)).foldlM (placeYard (restoreShed 1) x.nls (partDevs s x.part))
        ((loadFlush s 1).modRun 1 (fun y => { y with preempt := false }))).isSome = true) ∧
    (let y := { lshed1 with mode := 2 }
     let s := { base with lsheds := [(l1, y), (2 * l1, { lshed1 with run := 2, resident := false })], runs := [(1, run1), (2, run1)] }
     s.lsheds.get l1 = some y ∧ y.slicing = false ∧ waitingHosts s y.shed ≠ [] ∧ s.clock < y.since + 200000 ∧
     y.since + 200000 ≤ ({ s with clock := 200000 }).clock) ∧
    (let x := { run1 with pers := true }
     let y := { lshed1 with dog := 1 }
     let s := withL (base.setRun 1 x) (fun _ => y)
     s.runs.get 1 = some x ∧ s.lsheds.get l1 = some y ∧ y.run = 1 ∧ dogCounts s y = true ∧ (∃ th, s.threads.get 1 = some th ∧ th.run = 1) ∧
     { x with frozen := true }.frozen = true) ∧
    dispatchRead { base with parts := [] } 0 0x40030 = none := by
  decide +kernel

theorem witness_DeviceHappenings :
    (let g : PageMig := ⟨0, 0x40000, 4, 5, 0, false, []⟩
     let s := withMove false
     s.pageMigs.get 0 = some g ∧ g.moved = false ∧ Settled s ∧ Memory.wf s.mem = true ∧
     (withMove true).pageMigs.get 0 = some { g with moved := true } ∧ { g with queue := [.thread 1] }.queue ≠ []) ∧
    (let s := (withFeat 1).modDevice 0 (fun d => { d with exposed := [0] })
     s.badLines = [] ∧ s.pageMigs = [] ∧ (s.device 0).accepted = true ∧ (s.parts.get 0).isSome = true ∧
     Exposed s 0 0x1000 [(7 : Byte)].length ∧ Owns s 0 0 0x1000 1 ∧ Owns s 1 0 0x1000 [(7 : Byte)].length ∧ ¬ Exposed s 0 (2 ^ 21 - 1) 2 ∧
     ¬ Owns s 2 0 0x1000 1) ∧
    base.feat 0 % 2 = 0 ∧ (base.device 0).accepted = false ∧ (base.device 0).ports.getD 3 0 < 9 ∧
    (let s := base.modDevice 0 (fun d => { d with ports := [(3, 8), (4, 9)] })
     (s.device 0).ports.getD 3 0 < 9 ∧ (s.device 0).ports.getD 4 0 = 9) ∧ (base.device 0).linkErrors.contains 3 = false ∧
    (let s := base.modDevice 0 (fun d => { d with linkErrors := [3, 5] })
     (s.device 0).linkErrors.contains 3 = true ∧ (s.device 0).linkErrors.contains 4 = false) ∧
    (∃ p ∈ base.parts, ∃ c ∈ p.2.svcs, svcDev c = 0) := by
  refine ⟨by decide +kernel, ⟨rfl, rfl, by decide +kernel, by decide +kernel, ⟨by decide +kernel, by decide, by decide, ?_⟩, .inl rfl,
    .inr ⟨0, rfl, by decide +kernel, ?_⟩, ?_, ?_⟩, by decide +kernel⟩
  · intro k h1 h2
    obtain rfl : k = 0x1000 := by simp only [List.length_singleton] at h2; omega
    decide +kernel
  · intro k h1 h2
    obtain rfl : k = 0x1000 := by simp only [List.length_singleton] at h2; omega
    decide +kernel
  · rintro ⟨-, -, -, h⟩
    exact absurd (h (2 ^ 21) (by decide) (by decide)) (by decide +kernel)
  · rintro (h | ⟨p, hp, h, -⟩)
    · cases h
    · obtain rfl : p = 1 := by omega
      exact absurd h (by decide +kernel)

theorem witness_RecoveryHappenings :
    ((State.reset.device (shedDev 0)).maint = true ∧ hostsOf State.reset 0 = [] ∧ ∀ l ∈ base.lsheds, l.2.shed ≠ 1) ∧
    (let m := { msg1 10 3 with addr := 0xFF00, args := [7] }
     let s := { withFeat 0xC0 with faults := [(0, m)] }
     let u := s.modDevice 1 (fun d => { d with incoming := [(0, mirrorOf s 0 7)] })
     s.feat 0 / 2 ^ 6 % 2 = 1 ∧ Reported s 0 7 ∧ (s.device 1).incoming.get 0 = none ∧ Reported u 0 7 ∧
     (u.device 1).incoming.get 0 = some (mirrorOf s 0 7) ∧ (mirrorOf s 0 7).g = 7) ∧
    (base.feat 0 / 2 ^ 6 % 2 = 0 ∧ ¬ Reported base 0 7) ∧
    (let s := withRun (withFeat 0xC0) (fun r => { r with descheduled := true })
     s.feat (partDev s 0) / 2 ^ 7 % 2 = 1 ∧ ∀ r ∈ s.runs, r.2.part = 0 → r.2.state = 3 → r.2.descheduled = true) ∧
    (let g := { region1 with ckpts := [ckptOf 8 3, ckptOf 4 2, ckptOf 1 1], epoch := 4 }
     let s := withRun (withRegion base g) (fun r => { r with descheduled := true })
     s.runs.get 1 = some { run1 with descheduled := true } ∧ s.lsheds.get l1 = some { lshed1 with regions := [(2, g)] } ∧ regionOf s l1 2 = some g ∧
     g.st = 1 ∧ g.ckpts.find? (fun c => c.key.start || decide (c.key.time < 5)) = some (ckptOf 4 2) ∧
     (∀ z ∈ s.lsheds, z.2.run = 1 → rewindBusy s 5 z.2 = false) ∧
     (let q := { g with undo := [.line 4 0x40000 [0x40000] [1, 2, 3, 4, 5, 6, 7, 8]] }
      let u := { withRegion base q with pageMigs := [(0, ⟨0, 0x40000, 4, 5, 0, false, []⟩)] }
      ∃ z ∈ u.lsheds, z.2.run = 1 ∧ rewindBusy u 5 z.2 = true)) ∧
    (base.lsheds.get l1 = some lshed1 ∧ lshed1.resident = true ∧ base.runs.get 1 = some run1 ∧
     ∀ d ∈ base.devices, d.1 ≠ 0 → d.2.failed = true ∨ d.2.mirrors.get 0 = none) ∧
    (let m := mirrorOf base 0 7
     let s := base.modDevice 1 (fun d => { d with mirrors := [(0, m)] })
     buddyOf s 0 = some m ∧ (m.sheds.map (fun p => p.1)).Nodup ∧ m.sheds.length = 1 ∧ ∀ p ∈ m.sheds, (s.lsheds.get p.1).isSome = true) := by
  decide +kernel

/-! #### Steps, encodings and the invariant -/

/-- The word of `addi x1, x2, 5`, placed where thread 1 fetches. -/
def withCode : State := (thr [(2, 5)]).withFetchWord 32 0x0005_2083

theorem witness_StepRunsDecoded :
    (allStopped State.reset = false ∧ State.reset.turn = .core ∧ partyReady State.reset State.reset.cur = true) ∧
    (∃ a, place State.reset State.reset.ctx .fetch State.reset.hart.pc.toNat = .ok a ∧ frameBusy a.1 (curWaiter a.1) a.2.key = false ∧
      (decode (wordAt a.1 a.2)).toOption = none) ∧
    (let s := State.reset.withFetchWord 32 0x0005_2083
     ∃ a, place s s.ctx .fetch s.hart.pc.toNat = .ok a ∧ (decode (wordAt a.1 a.2)).toOption.isSome = true ∧
       pairBroken a.1 (.addi 1 x2 5) = false ∧ frameBusy a.1 (curWaiter a.1) a.2.key = false) ∧
    (let s := { withCode with pageMigs := [(0, ⟨0, 0x60000, 6, 7, 0, false, []⟩)] }
     ∃ a, place s s.ctx .fetch s.hart.pc.toNat = .ok a ∧ frameBusy a.1 (curWaiter a.1) a.2.key = true) ∧
    (place { base with parts := [] } base.ctx .fetch base.hart.pc.toNat).toOption = none ∧
    partyReady (base.setThread 1 { thread1 with park := .utvec 5 }) (.thread 1) = false ∧
    ({ base with turn := .unit, agenda := [.waitaWake 1] } : State).agenda = [.waitaWake 1] ∧ allStopped base = false := by
  refine ⟨?_, placed_meets ?_, placed_meets ?_, placed_meets ?_, ?_,
    ?_, rfl, ?_⟩ <;> decide +kernel

theorem witness_EncodeDecode : (Instr.sys 5#16).wellFormed = true ∧ encode (.sys 5#16) = some (5#16 ++ 0#5 ++ 0#4 ++ 0x70#7) := by
  decide +kernel

theorem witness_DecodeEncode : (decode (5#16 ++ 0#5 ++ 0#4 ++ 0x70#7 : BitVec 32)).toOption = some (.sys 5#16) := by
  decide +kernel

theorem witness_MemoryCanonical :
    State.reset.Inv ∧ base.Inv ∧ (match step State.reset with | .next _ => true | _ => false) = true := by
  refine ⟨?_, ?_, ?_⟩ <;> first | decide +kernel | (show Memory.wf _ = true; decide +kernel)

theorem witness_ThreadsCannotReachService :
    base.cur = .thread 1 ∧ (encode (.fence .full .dev)).isSome = true ∧ (match exec (.fence .full .dev) base with | .next _ => true | _ => false) = true := by
  decide +kernel

/-! #### Further clauses of the statements -/

/-- R190, R206: a relaxed atomic that the schedule holds back, and one that is pending. -/
theorem witness_AtomicAccesses_pending :
    (let s := { thr [(2, 0x40000), (3, 7)] with defer := [true] }
     ¬ AtOnce s ∧ Settled s ∧ Names (s.reg 2) 0 8 0x40000 ∧ s.curThread.isSome = true ∧ ∃ x, atomOf s (.aadd true true .dev .relaxed 1 x2 x3) = some x ∧
       x.rel = false ∧ x.acq = false ∧ CanRead s (x.as.map (fun a => a.r) ++ x.extra) ∧
       ∃ a, place (readState s x.as x.extra) (readState s x.as x.extra).ctx .write 0x40000 = .ok a ∧
         frameBusy a.1 (curWaiter s) a.2.key = false ∧ DetAllows a.1 x.det 0x40000 ∧ LogRoom a.1 a.2.key x.n ∧
         touchesMark a.1 l1 a.2.key x.n = false) ∧
    (let p : PStore := ⟨0x40000, List.replicate 8 0, false, some ⟨.add, 7, some 1⟩⟩
     (withThread base (fun t => { t with pending := [p] })).threads.get 1 = some { thread1 with pending := [p] } ∧
     p.bytes.length = 8 ∧ base.defer.headD false = false) := by
  refine ⟨⟨?_, ?_, ?_, ?_, _, rfl, rfl, rfl, .inl rfl, placed_meets ?_⟩,
    ?_⟩ <;> decide +kernel

/-- R387: an address whose sheds are all those of another partition. -/
theorem witness_Migration_discarded :
    let s := (thr [(2, 0x40000)]).modPart 0 (fun p => { p with sheds := [(0, 8)] })
    let th := { thread1 with hart := { thread1.hart with regs := [(2, 0x40000)] } }
    Issues s 1 th ∧ migrTargets s th ((s.reg 2).toNat % 2 ^ 52) = [8, 9] ∧ [8, 9].filter (shedOwned s (s.ctxPart s.ctx)) = [] ∧
    [8, 9].contains (coreShed th.core) = false ∧ th.stays s 1 = false := by
  decide +kernel

/-- R139, R379: a slot whose copy another thread is building; one whose copy is older than its record, whose points stand in a bad line; and a
build that ends with a copy that is newer, and one that is as old, in the shed. -/
theorem witness_RealSets_building :
    (let s := { withSlot [(2, 1), (3, 1)] with
        threads := [(1, thread1), (9, { thread1 with slot := 1, park := .table 0 1 points7 2 })] }
     slotBuilding s 1 0 0 = true ∧ slotInUse s 1 0 0 = false ∧ vBuilding { s with vcmds := [(2, vrsCmd)] } vrsCmd = true) ∧
    (let s := (withSlot []).modShed 0 (fun x => { x with tables := [(zkey 1 0, (0, points7))] })
     (match vPoints { s with badLines := [0x40000 / 64], vcmds := [(2, vrsCmd)] } vrsCmd with
       | .error (.fault 8 _ _) => true
       | _ => false) = true) ∧
    (let s (n : Nat) := withThread (withSlot []) (fun t => { t with park := .table 0 1 points7 n })
     ((s 0).threads.get 1).map (fun t => t.park) = some (.table 0 1 points7 0) ∧
     ((s 0).shed 0).tables.get (zkey 1 0) = some (1, points7) ∧ (0 : Nat) < 1 ∧ (1 : Nat) ≤ 1) := by
  decide +kernel

/-- R345, R346: an image of a region whose log area is empty, and one whose logs were saved. -/
theorem witness_Regions_logs :
    (let s := withImage
     (∃ th, Issues s 1 th ∧ s.logAreas.get (logKey s th 0x50000) = none ∧
       ({ s with logAreas := [(logKey s th 0x50000, region1)] } : State).logAreas.get (logKey s th 0x50000) = some region1) ∧
     regionOf s l1 2 = none ∧ region1.nl = 4 ∧ heldFor s 1 (regionId ⟨0, 0, 0, 0⟩ 2) = []) := by
  exact ⟨⟨_, ⟨rfl, rfl, rfl, rfl, rfl⟩, by decide +kernel, by decide +kernel⟩, by decide +kernel⟩

/-- The send of a replayed event: the logged message is the same, or has another payload. -/
def sendOf (p1 : Word) : BMsg := ⟨1, ⟨false, 9, 0, 2, 0, 1⟩, keyAt 9, 0, 0, 0x12, 5, p1, 0⟩

/-- R327, R340: a bsend that is replayed, with a logged message of its key, which is the same or not, and has been delivered or is on its way. -/
theorem witness_BoundaryMessages_replayed :
    (let g := { region1 with last := keyAt 9, replay := keyAt 20, sends := [sendOf 6] }
     let s := { withRegion (thr [(2, 0x12), (3, 0x40000)]) g with mem := wordsAt mem1 0x40000 [5, 6] }
     (∃ th, Issues s 1 th ∧ HasRegion s th 2 g) ∧ g.last.lt g.replay = true ∧ badTarget { run1 with nls := 1 } (s.reg 2) = false ∧
     g.sub ≠ 65535 ∧ g.room 64 = true ∧ g.sends.find? (fun x => x.key == (sendOf 6).key) = some (sendOf 6) ∧
     sameSend (sendOf 6) (sendOf 6) = true ∧ sameSend (sendOf 7) (sendOf 6) = false ∧ heldSend s (sendOf 7) = none ∧
     (sendOf 6).key.id / 16 ≠ (sendOf 6).target / 16 ∧
     (∃ a, loadFresh (readState s [x2, x3] []) 0x40000 8 = .ok a ∧ a.2 = 5 ∧
       (loadFresh a.1 0x40008 8).toOption.any (fun b => b.2 == 6) = true)) ∧
    (let b := { bmsg1 5 2 with key := ⟨false, 5, 0, 16, 0, 1⟩, target := 2 }
     let g := { region1 with last := keyAt 9 }
     let s := { withRegion base g with bmsgs := [(3, b)] }
     s.bmsgs.get 3 = some b ∧ shedWorks s l1 = true ∧ behind s 3 b 1 = false ∧ behind s 3 b 0 = false ∧ regionOf s l1 2 = some g ∧ g.st = 1 ∧
     g.room 64 = true ∧ b.kind = 2 ∧ (∀ q ∈ g.inq, ¬ (q.kind ≠ 2 ∧ q.key = b.key)) ∧ g.last.lt b.key = false) := by
  refine ⟨⟨⟨_, ⟨rfl, rfl, rfl, rfl, rfl⟩, ?_⟩, ?_, ?_, ?_, ?_,
      ?_, ?_, ?_, ?_, ?_, placed_meets ?_⟩,
    ?_⟩ <;> decide +kernel

/-- R366, R368, R372: a run that service core 1 has asked to stop, whose request core 0 cancels; one that is descheduled, which it restores;
a HEAD past TAIL; a register of compute threads, and a number that names none. -/
theorem witness_ControlRegisters_service :
    (let s := { withRun base (fun r => { r with preempt := true, requester := [(1, 0)] }) with cur := .svc 0 }
     s.runs.get 1 = some { run1 with preempt := true, requester := [(1, 0)] } ∧ 0x4000000000000001 / 2 ^ 62 = 1 ∧
     0x4000000000000001 % 2 ^ 32 = 1 ∧ run1.part = (s.svc 0).part) ∧
    (let s := { withRun base (fun r => { r with descheduled := true }) with cur := .svc 0 }
     s.runs.get 1 = some { run1 with descheduled := true } ∧ 0x8000000000000001 / 2 ^ 62 = 2 ∧ (s.svc 0).inCtl = false) ∧
    (let x := { (base.svc 0) with tail := 1, head := 0 }
     (fbWritten x 2).head = 0 ∧ (fbWritten x 1).head = 1 ∧ (fbWritten x 0).head = 0) ∧
    (svcCrOf (svcH []) 0 0x010).isSome = true ∧ svcCrOf (svcH []) 0 0x020 = some 0 ∧ svcCrOf (svcH []) 0 0x8FF = none ∧
    crListed.contains 0x8FF = false := by
  decide +kernel

/-- R154: a run whose header is misplaced is rejected, and its STATUS dword has a place; so has that of a run of which nothing remains, at
which no remap entry of it stands. -/
theorem witness_DispatcherHappenings_status :
    (let s := (withQueued true).modRun 2 (fun x => { x with hdr := 0x40008 })
     let q := s.modPart 0 (fun y => { y with queues := y.queues.mapVals (fun _ l => l.filter (fun y => y != 2)) })
     let x := { Run.queued 0x40000 0 2 false with hdr := 0x40008 }
     s.runs.get 2 = some x ∧ nextQueued s 0 = some 2 ∧ dispatcherStopped s 0 = false ∧ (validate q x 2).2.2 = 8 ∧
     ((placeData ((validate q x 2).1.modRun 2 (fun y => { y with cause := 8 })) (.disp 0 0) .write (x.hdr + 0x68)).toOption.map
       (fun a => a.2.key)) = some 0x40070) ∧
    (let s := { base with threads := [] }
     s.runs.get 1 = some run1 ∧ runIdle s 1 = true ∧ dispatcherStopped s run1.part = false ∧
     (∀ p ∈ s.lsheds, p.2.resident = true) ∧
     ((placeData (settleInvals s) (.disp 0 0) .write (run1.hdr + 0x68)).toOption.map (fun a => a.2.key)) = some 0x40068 ∧
     run1.entries = 1 ∧ (remapKey s 0 0 + 8 ≤ 0x40068 ∨ 0x40068 + 8 ≤ remapKey s 0 0)) := by
  decide +kernel

theorem witness_PreemptionHappenings_units : deviceIssues base (shedDev lshed1.shed) = true ∧ dispatcherStopped base run1.part = false := by
  decide +kernel

/-- R239, R240: a read and a write of the host for bytes of a frame that is being moved, and that has been moved. -/
theorem witness_DeviceHappenings_queued :
    let s (moved : Bool) := (({ withMove moved with devices := (withFeat 1).devices } : State)).modDevice 0 (fun d => { d with exposed := [0] })
    (s false).badLines = [] ∧ movedTo (s false) 0x40010 = 0x40010 ∧ movedTo (s true) 0x40010 = 0x50010 ∧ 0x40010 % 2 ^ 16 + 1 ≤ 2 ^ 16 ∧
    Exposed (s false) 0 0x40010 1 ∧ Exposed (s true) 0 0x40010 1 ∧ Owns (s true) 0 0 0x40010 1 ∧
    frameBusy (s false) (.host (.write 0 0 0x40010 [7])) 0x40000 = true ∧ frameBusy (s true) (.host (.write 0 0 0x40010 [7])) 0x50000 = false ∧
    (∃ p ∈ (s true).parts, ∃ c ∈ p.2.svcs, svcDev c = 0) := by
  have one (t : State) (h : t.feat 0 % 2 = 1) (g : 0 ∈ (t.device 0).exposed) : Exposed t 0 0x40010 1 := by
    refine ⟨h, by decide, by decide, fun k h1 h2 => ?_⟩
    obtain rfl : k = 0x40010 := by omega
    exact g
  exact ⟨by decide +kernel, by decide +kernel, by decide +kernel, by decide, one _ (by decide +kernel) (by decide +kernel),
    one _ (by decide +kernel) (by decide +kernel), .inl rfl, by decide +kernel, by decide +kernel, (0, _), List.mem_singleton.2 rfl, 0,
    by decide +kernel, by decide⟩

/-- R394: a device whose threads stand in their logical sheds' own physical sheds. -/
theorem witness_RecoveryHappenings_home :
    let m := mirrorOf base 0 7
    let s := base.modDevice 1 (fun d => { d with mirrors := [(0, m)] })
    buddyOf s 0 = some m ∧ NoneStranded s m 0 ∧ ∃ y ∈ s.threads, shedDev (coreShed y.2.core) = 0 := by
  intro m s
  exact ⟨by decide +kernel, by decide +kernel, by decide +kernel⟩

/-- R391 to R394, R396: a boundary that is no longer reported while its mirror is on its way; the records that the safe tier keeps; a message of an
undone event in a saved region; and a logical shed that is lost with its device, one that stands elsewhere, and one that is not placed. -/
theorem witness_RecoveryHappenings_more :
    (let u := (withFeat 0xC0).modDevice 1 (fun d => { d with incoming := [(0, mirrorOf (withFeat 0xC0) 0 7)] })
     ¬ Reported u 0 7 ∧ (u.device 1).incoming.get 0 = some (mirrorOf (withFeat 0xC0) 0 7)) ∧
    (let s := withRun (withL (withFeat 0xC0) (fun y => { y with resident := false })) (fun r => { r with descheduled := true })
     let x := { lshed1 with resident := false }
     s.lsheds.get l1 = some x ∧ x.placed s = false ∧ s.runs.get 1 = some { run1 with descheduled := true } ∧ run1.part = 0) ∧
    (let s := { base with lsheds := [(l1, { lshed1 with regions := [(2, { region1 with last := keyAt 4 })] })] }
     let m := { bmsg1 5 0 with src := keyAt 5, key := ⟨false, 5, 0, 2, 0, 1⟩ }
     sentAbove s 1 m = true ∧ sentAbove s 1 { m with src := keyAt 4 } = false) ∧
    (shedDev lshed1.shed = 0 ∧ Map.sorted base.lsheds = true ∧ (base.runs.get lshed1.run).isSome = true ∧
     shedDev ({ lshed1 with shed := 256 } : LShed).shed ≠ 0) := by
  decide +kernel

/-! ### Single steps: the expected values are worked by hand from the rule that each test names -/

/-- x1 after an instruction, and the flags. -/
def got (i : Instr) (s : State) : Option Word := (after i s).hart.regs.get 1
def flagsOf (i : Instr) (s : State) : BitVec 5 := (after i s).hart.flags

/-- Service core 0 with x2 and x3. -/
abbrev two (a b : Word) : State := svcH [(2, a), (3, b)]

/-- R30, R79: sums wrap; a word form sign-extends its low 32 bits. -/
theorem test_add : got (.add false 1 x2 x3) (two 0xFFFFFFFFFFFFFFFF 2) = some 1 ∧
    got (.add true 1 x2 x3) (two 0x7FFFFFFF 1) = some 0xFFFFFFFF80000000 := by decide +kernel

/-- R31: a divisor of 0, and the one quotient that does not fit. -/
theorem test_div : got (.div false 1 x2 x3) (two 7 0) = some 0xFFFFFFFFFFFFFFFF ∧
    got (.div false 1 x2 x3) (two 0x8000000000000000 0xFFFFFFFFFFFFFFFF) = some 0x8000000000000000 ∧
    got (.rem false 1 x2 x3) (two 7 0) = some 7 ∧ got (.div false 1 x2 x3) (two 0xFFFFFFFFFFFFFFF9 2) = some 0xFFFFFFFFFFFFFFFD := by
  decide +kernel

theorem test_mulh : got (.mulh 1 x2 x3) (two 0xFFFFFFFFFFFFFFFF 2) = some 0xFFFFFFFFFFFFFFFF ∧
    got (.mulhu 1 x2 x3) (two 0xFFFFFFFFFFFFFFFF 2) = some 1 := by decide +kernel

/-- R79: a shift takes its amount modulo the width. -/
theorem test_shift : got (.sra false 1 x2 x3) (two 0x8000000000000000 65) = some 0xC000000000000000 ∧
    got (.rotl true 1 x2 x3) (two 0x80000001 1) = some 3 ∧ got (.shr true 1 x2 x3) (two 0xFFFFFFFF80000000 31) = some 1 := by
  decide +kernel

theorem test_unary : got (.clz true 1 x2) (two 0xFFFFFFFF00010000 0) = some 15 ∧ got (.ctz false 1 x2) (two 0 0) = some 64 ∧
    got (.popc false 1 x2) (two 0xF0F0 0) = some 8 ∧ got (.sextB 1 x2) (two 0x180 0) = some 0xFFFFFFFFFFFFFF80 := by decide +kernel

theorem test_fields : got (.bfx 1 x2 4#6 7#6) (two 0xABCD 0) = some 0xBC := by decide +kernel

/-- R103: 1.5 + 0.25; 1 / 3 rounded to even sets NX; 1 / 0 is infinite. -/
theorem test_float : got (.fadd .rne .fp32 1 x2 x3) (two 0x3FC00000 0x3E800000) = some 0x3FE00000 ∧
    got (.fdiv .rne .fp32 1 x2 x3) (two 0x3F800000 0x40400000) = some 0x3EAAAAAB ∧
    flagsOf (.fdiv .rne .fp32 1 x2 x3) (two 0x3F800000 0x40400000) = 1 ∧
    got (.fdiv .rne .fp64 1 x2 x3) (two 0x3FF0000000000000 0) = some 0x7FF0000000000000 := by decide +kernel

/-- R111: 2.5 to an integer, to even and up; −1 to FP64. -/
theorem test_float_integer : got (.fcvt .rne .w .d 1 x2) (two 0x4004000000000000 0) = some 2 ∧
    got (.fcvt .rup .w .d 1 x2) (two 0x4004000000000000 0) = some 3 ∧
    got (.fcvt .rne .d .l 1 x2) (two 0xFFFFFFFFFFFFFFFF 0) = some 0xBFF0000000000000 := by decide +kernel

/-- R87, R26: adda keeps the tag, and moves the address. -/
theorem test_adda : got (.adda 1 x2 x3) (two 0x1400000000000010 8) = some 0x1400000000000018 := by decide +kernel

/-- R86: ldk places its 16 bits; ink replaces a chunk. -/
theorem test_ldk : got (.ldk 1 0x1234#16 2#2) (two 0 0) = some 0x123400000000 ∧
    (after (.ink 1 0xFFFF#16 0#2) (svcH [(1, 0x12340000)])).hart.regs.get 1 = some 0x1234FFFF := by decide +kernel

/-- R16: x0 discards the result, and the pc moves on. -/
theorem test_x0 : (after (.add false 0 x2 x3) (two 1 2)).hart.regs.get 0 = none ∧ (after (.add false 0 x2 x3) (two 1 2)).hart.pc = 4 := by
  decide +kernel

/-- R20: a .end source is dead afterwards. -/
theorem test_end : (after (.add false 1 ⟨2, true⟩ x3) (two 1 2)).hart.isDead 2 = true := by decide +kernel

/-- R98: a branch is relative to its own address, in units of 4 bytes. -/
theorem test_branch : (after (.beq x2 x3 0xFFE#12) ((two 5 5).setHart { (two 5 5).hart with pc := 0x100 })).hart.pc = 0xF8 ∧
    (after (.bltu x2 x3 2#12) (two 5 5)).hart.pc = 4 := by decide +kernel

theorem test_jal : (after (.jal 1 4#21) (two 0 0)).hart.pc = 16 ∧ got (.jal 1 4#21) (two 0 0) = some 4 := by decide +kernel

/-- R91, R92: a byte is loaded with its sign; a store reaches memory as bytes, lowest first. -/
theorem test_load : got (.ldBS .plain 1 x2 1#12) { two 0x40000 0 with mem := [(0x40001, 0x80)] } = some 0xFFFFFFFFFFFFFF80 ∧
    (after (.fence .full .dev) (after (.stH .plain x3 x2 1#12) (two 0x40000 0xABCD))).mem = [(0x40002, 0xCD), (0x40003, 0xAB)] := by
  decide +kernel

/-- R28: a misaligned access of a thread is a user trap of code 5, with its size in DETAIL. -/
theorem test_misaligned : ((after (.ldW .plain 1 x2 0#12) (thr [(2, 0x40002)])).threads.get 1).map (fun t => (t.utcause, t.utval, t.hart.pc)) =
    some (0x205, 0x40002, 0x70000) := by decide +kernel

/-- R203: an add returns the old value; a compare-and-swap that fails stores nothing. -/
theorem test_atomic : got (.aadd true true .dev .relaxed 1 x2 x3) { two 0x40000 5 with mem := [(0x40000, 3)] } = some 3 ∧
    (after (.aadd true true .dev .relaxed 1 x2 x3) { two 0x40000 5 with mem := [(0x40000, 3)] }).mem = [(0x40000, 8)] ∧
    (after (.acas true .dev .relaxed 1 x2 x3) { svcH [(1, 4), (2, 0x40000), (3, 9)] with mem := [(0x40000, 3)] }).mem = [(0x40000, 3)] := by
  decide +kernel

/-- R39, R40: eret brings back x7 and x8, clears INTRAP and goes to UTEPC. -/
theorem test_eret : ((after .eret { base with threads := [(1, { inTrap with utepc := 0x60008, save7 := some 1, save8 := none })] }).threads.get 1).map
    (fun t => (t.hart.intrap, t.hart.pc, t.hart.regs.get 7, t.hart.regs.get 8)) = some (false, 0x60008, some 1, none) := by decide +kernel

/-- R45: sys parks its thread, with its pc where it was, and posts kind 10 with x1 to x6. -/
theorem test_sys : (((after (.sys 7#16) (thr [(1, 1), (2, 2), (3, 3), (4, 4), (5, 5), (6, 6)])).faults.get 0).map
    (fun m => (m.kind, m.addr, m.args))) = some (10, 7, [1, 2, 3, 4, 5, 6]) := by decide +kernel

/-- R365: a service register read on a compute core is a privilege fault, kind 2 cause 1, at the word. -/
theorem test_privilege : (((after (.crr 0x800#12 1) base).faults.get 0).map (fun m => (m.kind, m.cause))) = some (2, 1) := by decide +kernel

/-- R35: a write of CR.EVCTL keeps T when its new value is above 48. -/
theorem test_evctl : (((after (.crw 0x030#12 x2) (thr [(2, 0xB1)])).lsheds.get l1).map (fun x => x.evctl)) = some 0x80 := by decide +kernel

/-- R314: kseti clamps at 2^48 − 1; R338: ktot sums. -/
theorem test_leaf : ((regionOf (after (.kseti 2 x2 x3) (withRegion (thr [(2, 3), (3, 0x1000000000000)]) region1)) l1 2).map
    (fun g => (g.leaves, g.sat))) = some ([(3, 0xFFFFFFFFFFFF)], true) ∧
    got (.ktot 2 1) (withRegion base { region1 with leaves := [(0, 1), (2, 2)] }) = some 0x4008000000000000 := by decide +kernel

/-- R348: the entries of a queue come in order of their keys. -/
theorem test_queue : got (.pqmin 3 1) (after (.pqpush 3 4 x2 x3) (withL (thr [(2, 5), (3, 7)]) (fun x => { x with pqs := [(3, [(9, 1)])] }))) = some 5 ∧
    got (.pqmin 3 1) base = some 0xFFFFFFFFFFFFFFFF := by decide +kernel

/-- R145: over the points −3 to 3, bit 12 is the atom of the point 2 (R132, R133), and its lower bound is 2. -/
theorem test_realset : (((after (.rslo 0 1 x2) (withSlot [(2, 0x1000)])).threads.get 1).map (fun t => match t.park with
    | .result _ _ v _ => some v
    | _ => none)) = some (some 0x4000000000000000) := by decide +kernel

/-- R283: accz clears; R281: a job word with bit 11 set is BADCMD. -/
theorem test_job : (((after (.accz 2) (withJob acczJob)).jobs.get 2).map (fun j => (j.ended, j.status))) = some (true, 0) ∧
    (((after (.accz 2) (withJob (job1 0x803 .mat))).jobs.get 2).map (fun j => (j.ended, j.status))) = some (true, 1) := by decide +kernel

/-- R291: copy moves a byte from the scratchpad to the scratchpad. -/
theorem test_copy : (after (.copy 2) { withJob copyJob with mem := mem1 ++ [(2 ^ 49, 7)] }).byte (2 ^ 49 + 0x100) = 7 := by decide +kernel

/-- R297: 1.5 + 0.25 in FP32 elements of the window. -/
theorem test_vadd : (after (.vadd 2) { withVCmd vaddCmd with mem := mem1 ++ [(0x2000000000008 + 2, 0xC0), (0x2000000000008 + 3, 0x3F)] }).byte (2 ^ 49 + 3) = 0x3F := by
  decide +kernel

/-- R379, R186: a load of a scratchpad line with an uncorrectable error is a machine check, kind 8 cause 1. -/
theorem test_scratchpad_error : (((after (.ldD .plain 1 x2 0#12) { thr [(2, 0xF000000000000)] with badLines := [2 ^ 43] }).faults.get 0).map
    (fun m => (m.kind, m.cause))) = some (8, 1) := by decide +kernel

/-- R364, R100: hvc at the last word enters H mode with its operand in HVVAL. -/
theorem test_hvc : (let s := State.reset.modSvc 0 (fun x => { x with hmode := false, hvvec := 0x1000, hart := { x.hart with pc := 0xFFFFFFFFFFFFC#52, regs := [(2, 5)] } })
    let x := (after (.hvc x2) s).svc 0
    (x.hmode, x.hvval, x.hart.pc)) = (true, 5, 0x1000) := by decide +kernel

/-- R377: a safept that raises SAFEPOINT reloads the watchdog. -/
theorem test_safept : (let s := after (.safept 0#16) (withRun base (fun r => { r with pers := true, beat := 9, preempt := true }))
    ((s.lsheds.get l1).map (fun x => x.dog), (s.threads.get 1).map (fun t => t.hart.intrap))) = (some 9, some true) := by decide +kernel

/-- R225: another thread's store that has been made to a scratchpad is performed before its release by the last exit. -/
theorem test_exit_release : (let s := after .exit { base with threads := [(1, thread1), (2, { thread1 with run := 2, pending := [⟨2 ^ 49 + 8, [7], false, none⟩] })] }
    (s.byte (2 ^ 49 + 8), (s.lsheds.get l1).map (fun x => x.released))) = (7, some [0]) := by decide +kernel

/-! ### The first instruction after reset, and words as the opcode table numbers them -/

theorem test_first_step : (match step (State.reset.withFetchWord 32 0x00050083) with
    | .next t => (t.svc 0).hart.regs.get 1
    | _ => none) = some 5 ∧ decodeTableWord 32 0x00050083 = some (.addi 1 ⟨0, false⟩ 5#16) := by decide +kernel

end Sys2Proof.Tests
end

section
/-! SUPPORT. Maps with rising keys, and the operations that leave the runs, the logical sheds and the threads as they stand. -/

namespace Sys2Proof.Preemption
open Sys2Proof.Machine Sys2Proof.Claims

/-! ### Maps -/

theorem sorted_mapVals {α : Type} (m : Map α) (f : Nat → α → α) (h : m.sorted = true) : (m.mapVals f).sorted = true := by
  rw [Map.sorted_iff] at h ⊢
  exact List.pairwise_map.2 h

theorem sorted_modify {α : Type} (m : Map α) (k : Nat) (f : α → α) (h : m.sorted = true) : (m.modify k f).sorted = true := by
  unfold Map.modify
  split
  · exact Map.sorted_set _ _ _ h
  · exact h

/-- In a map with rising keys every pair is the one that its key finds. -/
theorem get_of_mem {α : Type} {m : Map α} (h : m.sorted = true) {p : Nat × α} (hp : p ∈ m) : m.get p.1 = some p.2 := by
  rw [Map.sorted_iff] at h
  induction m with
  | nil => simp at hp
  | cons x l ih =>
    obtain ⟨above, hl⟩ := List.pairwise_cons.1 h
    rcases List.mem_cons.1 hp with rfl | there
    · simp [Map.get]
    · rw [Map.get, if_neg (Nat.ne_of_lt (above p there)), ih hl there]

/-! ### Which operations leave the runs and the logical sheds as they stand, and which the threads too -/

/-- The runs and the logical sheds. -/
def stands (s : State) : Map Run × Map LShed := (s.runs, s.lsheds)

/-- The runs, the logical sheds and the threads. -/
def parties (s : State) : Map Run × Map LShed × Map Thread := (s.runs, s.lsheds, s.threads)

theorem stands_of_parties {s t : State} (h : parties t = parties s) : stands t = stands s := by
  simp only [parties, stands, Prod.mk.injEq] at h ⊢
  exact ⟨h.1, h.2.1⟩

theorem runs_of_stands {s t : State} (h : stands t = stands s) : t.runs = s.runs := (Prod.mk.inj h).1

theorem lsheds_of_stands {s t : State} (h : stands t = stands s) : t.lsheds = s.lsheds := (Prod.mk.inj h).2

theorem threads_of_parties {s t : State} (h : parties t = parties s) : t.threads = s.threads := (Prod.mk.inj (Prod.mk.inj h).2).2

theorem runs_of_parties {s t : State} (h : parties t = parties s) : t.runs = s.runs := runs_of_stands (stands_of_parties h)

theorem parties_of_onlyTlb {s u : State} (h : OnlyTlb s u) : parties u = parties s := by
  rw [show u = _ from h]; rfl

theorem dropRemote_parties (s : State) (d line : Nat) : parties (dropRemote s d line) = parties s := by
  unfold dropRemote; split <;> rfl

theorem dropUnit_parties (s : State) (c : Ctx) (p : Place) : parties (dropUnit s c p) = parties s := by
  unfold dropUnit
  split
  · rfl
  · exact dropRemote_parties ..

theorem acquireT_parties (s : State) (t : Nat) (sc : Scope) : parties (acquireT s t sc) = parties s := by
  obtain ⟨cs, sl, e⟩ := acquireT_only s t sc
  rw [e]; rfl

theorem keepCode_parties (s : State) (k n : Nat) : parties (keepCode s k n) = parties s := by
  unfold keepCode; split <;> rfl

theorem fireWatches_parties (s : State) (k n : Nat) : parties (fireWatches s k n) = parties s := by
  unfold fireWatches
  refine foldl_keeps parties (fun _ _ => ?_) _ s
  rfl

theorem unwatch_parties (s : State) (h : Nat) (lines : List Nat) : parties (unwatch s h lines) = parties s := by
  unfold unwatch
  refine foldl_keeps parties (fun s l => ?_) _ s
  dsimp only
  split
  · rfl
  · split <;> rfl

theorem settleInvals_parties (s : State) : parties (settleInvals s) = parties s := by
  unfold settleInvals
  refine foldl_keeps parties (fun s p => ?_) _ s
  unfold invalidate
  exact unwatch_parties ..

theorem unitCheck_parties (s : State) (p dev run : Nat) (e : Exc) : parties (unitCheck s p dev run e) = parties s := by
  unfold unitCheck; split <;> rfl

theorem meetLink_parties (s : State) (dev : Nat) (e : Exc) : parties (meetLink s dev e) = parties s := by
  unfold meetLink; split <;> rfl

theorem placeData_parties {s u : State} {c : Ctx} {acc : Acc} {ea : Nat} {q : Place} (h : placeData s c acc ea = .ok (u, q)) :
    parties u = parties s := by
  unfold placeData at h
  rcases e : place s c acc ea with _ | ⟨v, p⟩
  · simp [e, Except.map] at h
  · simp only [e, Except.map, Except.ok.injEq, Prod.mk.injEq] at h
    exact h.1 ▸ parties_of_onlyTlb (place_onlyTlb e)

theorem dispatchRead_parties {s u : State} {p va : Nat} {w : Word} (h : dispatchRead s p va = some (u, w)) : parties u = parties s := by
  unfold dispatchRead at h
  split at h
  · cases h
  · split at h
    · next e =>
      cases h
      rw [dropUnit_parties, placeData_parties e]
    · cases h

theorem dispatchCheck_parties (s : State) (p run va : Nat) : parties (dispatchCheck s p run va) = parties s := by
  unfold dispatchCheck
  split
  · rfl
  · rw [unitCheck_parties, meetLink_parties]

theorem postTableCheck_parties (s : State) (c : Ctx) (run ea : Nat) : parties (postTableCheck s c run ea) = parties s := by
  unfold postTableCheck
  cases tableCheck s c ea with
  | none => rfl
  | some e => exact (unitCheck_parties ..).trans (meetLink_parties ..)

theorem placeCores_parties (s : State) (l h nlc : Nat) : parties (placeCores s l h nlc) = parties s := by
  unfold placeCores
  refine foldl_keeps parties (fun _ _ => ?_) _ s
  rfl

theorem moveRange_parties (s : State) (lo dst n : Nat) : parties (moveRange s lo dst n) = parties s := rfl

theorem restoreTables_parties (s : State) (x : LShed) (h : Nat) : parties (restoreTables s x h) = parties s := by
  unfold restoreTables
  refine foldl_keeps parties (fun _ _ => ?_) _ s
  rfl

theorem moveOutbox_parties (s : State) (l c c' : Nat) : parties (moveOutbox s l c c') = parties s := by
  unfold moveOutbox
  split
  · rfl
  · refine (foldl_keeps parties (fun s m => ?_) _ _).trans rfl
    dsimp only
    split
    · split <;> rfl
    · rfl

/-- A body whose rest goes on has gone on itself. -/
theorem ok_of_bind {α β : Type} {x : M α} {f : α → M β} {r : β} (h : x >>= f = .ok r) : ∃ v, x = .ok v ∧ f v = .ok r := by
  match x with
  | .ok v => exact ⟨v, rfl, h⟩

theorem unitDwords_parties {s u : State} {c : Ctx} {ea n : Nat} {ws : List Word} (h : unitDwords s c ea n = .ok (u, ws)) :
    parties u = parties s := by
  induction n generalizing s ea ws with
  | zero => cases h; rfl
  | succ n ih =>
    obtain ⟨⟨v, q⟩, first, h⟩ := ok_of_bind h
    obtain ⟨⟨v', ws'⟩, later, h⟩ := ok_of_bind h
    cases h
    rw [ih later, dropUnit_parties, placeData_parties first]

theorem readDefinition_parties {s u : State} {c : Ctx} {ea : Nat} {r : Nat × List Word} (h : readDefinition s c ea = .ok (u, r)) :
    parties u = parties s := by
  obtain ⟨⟨v, hd⟩, header, h⟩ := ok_of_bind h
  obtain ⟨⟨v', ps⟩, points, h⟩ := ok_of_bind h
  cases h
  rw [unitDwords_parties points, unitDwords_parties header]

theorem offerSlot_parties (s : State) (c sl : Nat) : parties (offerSlot s c sl) = parties s := by
  unfold offerSlot
  split
  · rfl
  · split <;> rfl

theorem releaseRefused_parties (s : State) (l core : Nat) : parties (releaseRefused s l core) = parties s := by
  unfold releaseRefused
  refine (foldl_keeps parties (fun s e => ?_) _ _).trans rfl
  split
  · split <;> rfl
  · rfl

theorem postSlices_parties (s : State) (h : Nat) : parties (postSlices s h) = parties s := by
  unfold postSlices
  refine foldl_keeps parties (fun _ _ => ?_) _ s
  rfl

/-! ### Writes, and accesses that are still to be performed -/

theorem wakeWaiter_stands (s : State) (e : Wait) (st : Nat) : stands (wakeWaiter s e st) = stands s := by
  unfold wakeWaiter
  split
  · split
    · split <;> rfl
    · rfl
  · rfl
  · split <;> rfl
  · rfl

theorem wakeAll_stands (s : State) (st : Nat) (l : List (Nat × Wait)) : stands (wakeAll s st l) = stands s := by
  induction l generalizing s with
  | nil => rfl
  | cons p r ih => rw [wakeAll, ih, wakeWaiter_stands]; rfl

theorem writeHome_stands (s : State) (k : Nat) (bs : List Byte) : stands (writeHome s k bs) = stands s := by
  unfold writeHome evalWakes
  rw [stands_of_parties (fireWatches_parties ..), wakeAll_stands]
  exact stands_of_parties (keepCode_parties ..)

theorem perform_stands (a : Atomic) (s : State) (k n : Nat) : stands (a.perform s k n).1 = stands s := by
  unfold Atomic.perform
  dsimp only
  split
  · exact writeHome_stands ..
  · rfl

theorem performStore_stands (tid d : Nat) (s : State) (p : PStore) : stands (performStore tid d s p) = stands s := by
  have settled (s : State) : stands (if p.rel then settleInvals s else s) = stands s := by
    split
    · exact stands_of_parties (settleInvals_parties s)
    · rfl
  have dropped (s : State) : stands (if p.key < 2 ^ 49 then dropRemote s d (p.key / 64) else s) = stands s := by
    split
    · exact stands_of_parties (dropRemote_parties ..)
    · rfl
  unfold performStore
  dsimp only
  split
  · refine Eq.trans ?_ ((dropped _).trans (settled s))
    exact perform_stands ..
  · rw [writeHome_stands, dropped, settled]

theorem performStores_stands (s : State) (tid : Nat) (t : Thread) (r : List PStore × List PStore) :
    stands (performStores s tid t r) = stands s := by
  unfold performStores
  split
  · rfl
  · exact foldl_keeps stands (performStore_stands tid _) _ _

theorem drainOver_stands (s : State) (tid k n : Nat) (w : Bool) : stands (drainOver s tid k n w) = stands s := by
  unfold drainOver drainThose
  split
  · exact performStores_stands ..
  · rfl

theorem drainLine_stands (s : State) (c line : Nat) : stands (drainLine s c line) = stands s := by
  refine foldl_keeps stands (fun s p => ?_) _ s
  split
  · exact drainOver_stands ..
  · rfl

theorem sliceLine_stands (s : State) (d line : Nat) : stands (sliceLine s d line).1 = stands s := by
  unfold sliceLine
  split
  · rfl
  · split
    · rfl
    · exact stands_of_parties (dropRemote_parties ..)

theorem threadLoad_stands (s : State) (tid : Nat) (t : Thread) (k n : Nat) (cached : Bool) :
    stands (threadLoad s tid t k n cached).1 = stands s := by
  unfold threadLoad
  split
  · unfold l1Line
    dsimp only
    split
    · rfl
    · exact (sliceLine_stands ..).trans (drainLine_stands ..)
  · dsimp only
    split
    · exact stands_of_parties (dropRemote_parties ..)
    · rfl

theorem performLoads_stands (s : State) (tid : Nat) : stands (performLoads s tid) = stands s := by
  unfold performLoads
  split
  · split
    · rfl
    · refine foldl_keeps stands (fun s l => ?_) _ _
      unfold performLoad
      split
      · exact threadLoad_stands ..
      · rfl
  · rfl

theorem drain_stands (s : State) (tid : Nat) : stands (drain s tid) = stands s := by
  unfold drain
  dsimp only
  split
  · rw [performStores_stands, performLoads_stands]
  · exact performLoads_stands ..

theorem drainRun_stands (s : State) (run : Nat) : stands (drainRun s run) = stands s := by
  refine foldl_keeps stands (fun s p => ?_) _ s
  split
  · exact drain_stands ..
  · rfl

end Sys2Proof.Preemption
end

section
/-! SUPPORT. Aside: what is done for other logical sheds leaves a logical shed that is out, and the flags of every run; each operation of the dispatcher on sheds and threads keeps it. -/

namespace Sys2Proof.Preemption
open Sys2Proof.Machine Sys2Proof.Claims

variable {o : Option Nat} {s₀ s t : State}

/-! ### What is done for other logical sheds -/

/-- A run is asked to stop as before; if it is out it stays out, and its flush bits are as they were. -/
def FlagsLike (x y : Run) : Prop := y.preempt = x.preempt ∧ (x.descheduled = true → y.descheduled = true ∧ y.fpctl = x.fpctl)

/-- Every run is there still, with its flags. -/
def FlagsKept (s t : State) : Prop := ∀ r x, s.runs.get r = some x → ∃ y, t.runs.get r = some y ∧ FlagsLike x y

/-- What another's happening leaves of a thread: its logical shed, and no access still to be performed; and of a thread of logical shed
l its hart, and its slot unless it has left it. -/
structure Like (l : Nat) (a b : Thread) : Prop where
  lkey : b.lkey = a.lkey
  pending : b.pending = a.pending
  loads : b.loads = a.loads
  hart : a.lkey = l → b.hart = a.hart
  slot : a.lkey = l → b.slot = a.slot ∨ b.slot = 64

/-- The threads of a map are those of another, each like what it was there. -/
def ThreadsLike (l : Nat) (m n : Map Thread) : Prop := ∀ k, Option.Rel (Like l) (m.get k) (n.get k)

/-- Logical shed l, of a run that is asked to stop, is out, and no access of a thread is still to be performed; its threads are as in s₀. -/
structure Out (l : Nat) (s₀ s : State) : Prop where
  threads : Map.sorted s.threads = true
  lsheds : Map.sorted s.lsheds = true
  shed : ∃ z, s.lsheds.get l = some z ∧ z.resident = false ∧ ∃ x, s₀.runs.get z.run = some x ∧ x.preempt = true
  idle : ∀ k t, s.threads.get k = some t → t.pending = [] ∧ t.loads = []
  like : ThreadsLike l s₀.threads s.threads

/-- From s₀ to s something has been done for other logical sheds than o, where o names one: the runs' flags are kept, and o is out. -/
structure Aside (o : Option Nat) (s₀ s : State) : Prop where
  flags : FlagsKept s₀ s
  out : ∀ l ∈ o, Out l s₀ s

theorem Like.refl (l : Nat) (a : Thread) : Like l a a := ⟨rfl, rfl, rfl, fun _ => rfl, fun _ => .inl rfl⟩

theorem Like.trans {l : Nat} {a b c : Thread} (h : Like l a b) (g : Like l b c) : Like l a c where
  lkey := g.lkey.trans h.lkey
  pending := g.pending.trans h.pending
  loads := g.loads.trans h.loads
  hart e := (g.hart (h.lkey.trans e)).trans (h.hart e)
  slot e := by
    rcases g.slot (h.lkey.trans e) with same | left
    · exact same ▸ h.slot e
    · exact .inr left

theorem ThreadsLike.refl (l : Nat) (m : Map Thread) : ThreadsLike l m m := by
  intro k
  cases m.get k with
  | none => exact .none
  | some a => exact .some (Like.refl l a)

theorem ThreadsLike.trans {l : Nat} {m n q : Map Thread} (h : ThreadsLike l m n) (g : ThreadsLike l n q) : ThreadsLike l m q := by
  intro k
  have hk := h k
  have gk := g k
  revert hk gk
  cases m.get k <;> cases n.get k <;> cases q.get k <;> intro hk gk <;> cases hk <;> cases gk
  · exact .none
  · exact .some (Like.trans ‹_› ‹_›)

theorem ThreadsLike.forth {l : Nat} {m n : Map Thread} (h : ThreadsLike l m n) {k : Nat} {a : Thread} (e : m.get k = some a) :
    ∃ b, n.get k = .some b ∧ Like l a b := by
  have hk := h k
  rw [e] at hk
  cases e' : n.get k with
  | none => rw [e'] at hk; cases hk
  | some b => rw [e'] at hk; cases hk; exact ⟨b, rfl, ‹_›⟩

theorem ThreadsLike.back {l : Nat} {m n : Map Thread} (h : ThreadsLike l m n) {k : Nat} {b : Thread} (e : n.get k = some b) :
    ∃ a, m.get k = .some a ∧ Like l a b := by
  have hk := h k
  rw [e] at hk
  cases e' : m.get k with
  | none => rw [e'] at hk; cases hk
  | some a => rw [e'] at hk; cases hk; exact ⟨a, rfl, ‹_›⟩

theorem ThreadsLike.set {l : Nat} {m : Map Thread} {k : Nat} {a b : Thread} (e : m.get k = .some a) (h : Like l a b) :
    ThreadsLike l m (m.set k b) := by
  intro j
  rw [Map.get_set]
  split
  · next here => subst here; rw [e]; exact .some h
  · exact ThreadsLike.refl l m j

theorem ThreadsLike.mapVals {l : Nat} {m : Map Thread} {f : Nat → Thread → Thread} (h : ∀ k a, Like l a (f k a)) :
    ThreadsLike l m (m.mapVals f) := by
  intro k
  rw [Map.get_mapVals]
  cases m.get k with
  | none => exact .none
  | some a => exact .some (h k a)

theorem ThreadsLike.modify {l : Nat} {m : Map Thread} {k : Nat} {f : Thread → Thread} (h : ∀ a, m.get k = .some a → Like l a (f a)) :
    ThreadsLike l m (m.modify k f) := by
  intro j
  rw [Map.get_modify]
  split
  · next here =>
    subst here
    cases e : m.get j with
    | none => exact .none
    | some a => exact .some (h a e)
  · exact ThreadsLike.refl l m j

/-! ### How a happening for others goes on -/

theorem FlagsKept.refl (s : State) : FlagsKept s s := fun _ x h => ⟨x, h, rfl, fun d => ⟨d, rfl⟩⟩

theorem FlagsKept.trans {s t u : State} (h : FlagsKept s t) (g : FlagsKept t u) : FlagsKept s u := by
  intro r x hx
  obtain ⟨y, hy, p, d⟩ := h r x hx
  obtain ⟨z, hz, p', d'⟩ := g r y hy
  exact ⟨z, hz, p'.trans p, fun e => ⟨(d' (d e).1).1, (d' (d e).1).2.trans (d e).2⟩⟩

theorem FlagsKept.of_stands {s t : State} (h : stands t = stands s) : FlagsKept s t := by
  intro r x hx
  rw [← runs_of_stands h] at hx
  exact FlagsKept.refl t r x hx

/-- One run is changed in what is not kept of it. -/
theorem FlagsKept.modify {s t : State} {r : Nat} {f : Run → Run} (e : t.runs = s.runs.modify r f)
    (h : ∀ x, s.runs.get r = some x → FlagsLike x (f x)) : FlagsKept s t := by
  intro q x hx
  rw [e, Map.get_modify]
  split
  · next here =>
    subst here
    exact ⟨f x, by rw [hx]; rfl, h x hx⟩
  · exact FlagsKept.refl s q x hx

/-- One step more is done for others when it keeps the runs' flags, and where o is out keeps o out and its threads as they are. -/
theorem Aside.next (h : Aside o s₀ s) (flags : FlagsKept s t)
    (out : ∀ l ∈ o, Out l s₀ s → Map.sorted t.threads = true ∧ Map.sorted t.lsheds = true ∧ ThreadsLike l s.threads t.threads ∧
      ∀ z, s.lsheds.get l = some z → ∃ w, t.lsheds.get l = some w ∧ w.run = z.run ∧ w.resident = z.resident) : Aside o s₀ t where
  flags := h.flags.trans flags
  out l hl := by
    obtain ⟨threads, lsheds, like, kept⟩ := out l hl (h.out l hl)
    obtain ⟨z, hz, away, x, hx, asked⟩ := (h.out l hl).shed
    obtain ⟨w, hw, run, resident⟩ := kept z hz
    refine ⟨threads, lsheds, ⟨w, hw, resident.trans away, x, run ▸ hx, asked⟩, fun k b hb => ?_, (h.out l hl).like.trans like⟩
    obtain ⟨a, ha, ab⟩ := like.back hb
    rw [ab.pending, ab.loads]
    exact (h.out l hl).idle k a ha

/-- The runs and logical sheds stand as they did, and the threads are like what they were. -/
theorem Aside.threads (h : Aside o s₀ s) (e : stands t = stands s)
    (out : ∀ l ∈ o, Out l s₀ s → Map.sorted t.threads = true ∧ ThreadsLike l s.threads t.threads) : Aside o s₀ t := by
  refine h.next (FlagsKept.of_stands e) fun l hl g => ?_
  obtain ⟨sorted, like⟩ := out l hl g
  rw [lsheds_of_stands e]
  exact ⟨sorted, g.lsheds, like, fun z hz => ⟨z, hz, rfl, rfl⟩⟩

theorem Aside.same (h : Aside o s₀ s) (e : parties t = parties s) : Aside o s₀ t := by
  refine h.threads (stands_of_parties e) fun l _ g => ?_
  rw [threads_of_parties e]
  exact ⟨g.threads, ThreadsLike.refl l _⟩

theorem Aside.post (h : Aside o s₀ s) (e : Event) : Aside o s₀ (s.post e) := h.same rfl

theorem Aside.setThread (h : Aside o s₀ s) {k : Nat} {a b : Thread} (ha : s.threads.get k = some a) (like : ∀ l ∈ o, Like l a b) :
    Aside o s₀ (s.setThread k b) :=
  h.threads rfl fun l hl g => ⟨Map.sorted_set _ _ _ g.threads, ThreadsLike.set ha (like l hl)⟩

theorem Aside.modThread (h : Aside o s₀ s) {k : Nat} {f : Thread → Thread}
    (like : ∀ l ∈ o, ∀ a, s.threads.get k = some a → Like l a (f a)) : Aside o s₀ (s.modThread k f) :=
  h.threads rfl fun l hl g => ⟨sorted_modify _ _ _ g.threads, ThreadsLike.modify (like l hl)⟩

/-- One run is changed in what is not kept of it. -/
theorem Aside.modRun (h : Aside o s₀ s) (r : Nat) {f : Run → Run} (kept : ∀ x, s.runs.get r = some x → FlagsLike x (f x)) :
    Aside o s₀ (s.modRun r f) :=
  h.next (FlagsKept.modify rfl kept) fun l _ g => ⟨g.threads, g.lsheds, ThreadsLike.refl l _, fun z hz => ⟨z, hz, rfl, rfl⟩⟩

/-- The logical sheds are changed in what is not kept of them. -/
theorem Aside.mapSheds (h : Aside o s₀ s) {f : Nat → LShed → LShed} (kept : ∀ k x, (f k x).run = x.run ∧ (f k x).resident = x.resident) :
    Aside o s₀ { s with lsheds := s.lsheds.mapVals f } :=
  h.next (FlagsKept.refl s) fun l _ g => ⟨g.threads, sorted_mapVals _ _ g.lsheds, ThreadsLike.refl l _, fun z hz =>
    ⟨f l z, by simp [Map.get_mapVals, hz], kept l z⟩⟩

theorem Aside.modShed (h : Aside o s₀ s) (k : Nat) {f : LShed → LShed} (kept : ∀ x, (f x).run = x.run ∧ (f x).resident = x.resident) :
    Aside o s₀ (s.modLShed k f) := by
  refine h.next (FlagsKept.refl s) fun l _ g => ⟨g.threads, sorted_modify _ _ _ g.lsheds, ThreadsLike.refl l _, fun z hz => ?_⟩
  by_cases e : l = k
  · subst e
    exact ⟨f z, by simp [State.modLShed, hz], kept z⟩
  · exact ⟨z, by simp [State.modLShed, Map.get_modify_of_ne _ e, hz], rfl, rfl⟩

/-- Another logical shed may be changed in any way. -/
theorem Aside.setShed (h : Aside o s₀ s) {k : Nat} (other : ∀ l ∈ o, k ≠ l) (y : LShed) :
    Aside o s₀ { s with lsheds := s.lsheds.set k y } :=
  h.next (FlagsKept.refl s) fun l hl g => ⟨g.threads, Map.sorted_set _ _ _ g.lsheds, ThreadsLike.refl l _, fun z hz =>
    ⟨z, by simp [Map.get_set_of_ne _ (Ne.symm (other l hl)), hz], rfl, rfl⟩⟩

theorem Aside.foldl {α : Type} {f : State → α → State} {l : List α} (step : ∀ s a, a ∈ l → Aside o s₀ s → Aside o s₀ (f s a)) :
    ∀ s, Aside o s₀ s → Aside o s₀ (l.foldl f s) := by
  induction l with
  | nil => exact fun _ h => h
  | cons a later ih =>
    exact fun s h => ih (fun s b hb => step s b (List.mem_cons_of_mem a hb)) _ (step s a (List.mem_cons_self ..) h)

/-- A thread keeps its hart and its slot. -/
theorem Like.calm {a b : Thread} (l : Nat) (lkey : b.lkey = a.lkey) (pending : b.pending = a.pending) (loads : b.loads = a.loads)
    (hart : b.hart = a.hart) (slot : b.slot = a.slot) : Like l a b :=
  ⟨lkey, pending, loads, fun _ => hart, fun _ => .inl slot⟩

/-- A thread of another logical shed may be anywhere. -/
theorem Like.other {a b : Thread} {l : Nat} (n : a.lkey ≠ l) (lkey : b.lkey = a.lkey) (pending : b.pending = a.pending)
    (loads : b.loads = a.loads) : Like l a b :=
  ⟨lkey, pending, loads, fun e => absurd e n, fun e => absurd e n⟩

/-- The runs and the logical sheds stand as they did, and the threads have kept their harts and their slots. -/
structure Calm (s t : State) : Prop where
  stands : stands t = stands s
  sorted : Map.sorted s.threads = true → Map.sorted t.threads = true
  like : ∀ l, ThreadsLike l s.threads t.threads

theorem Calm.refl (s : State) : Calm s s := ⟨rfl, fun h => h, fun l => ThreadsLike.refl l _⟩

theorem Aside.calm (h : Aside o s₀ s) (e : Calm s t) : Aside o s₀ t :=
  h.threads e.stands fun l _ g => ⟨e.sorted g.threads, e.like l⟩

/-- Thread tid is none of logical shed o's. -/
def Other (o : Option Nat) (s₀ : State) (tid : Nat) : Prop := ∀ l ∈ o, ∀ a, s₀.threads.get tid = some a → a.lkey ≠ l

theorem Aside.other_iff (h : Aside o s₀ s) (tid : Nat) :
    Other o s₀ tid ↔ ∀ l ∈ o, ∀ a, s.threads.get tid = some a → a.lkey ≠ l := by
  refine forall₂_congr fun l hl => ⟨fun n b hb => ?_, fun n a ha => ?_⟩
  · obtain ⟨a, ha, ab⟩ := (h.out l hl).like.back hb
    rw [ab.lkey]
    exact n a ha
  · obtain ⟨b, hb, ab⟩ := (h.out l hl).like.forth ha
    rw [← ab.lkey]
    exact n b hb

/-- A pair of the threads is the thread that its key finds. -/
theorem Aside.other_of_mem (h : Aside o s₀ s) {p : Nat × Thread} (hp : p ∈ s.threads) (n : ∀ l ∈ o, p.2.lkey ≠ l) : Other o s₀ p.1 := by
  refine (h.other_iff p.1).2 fun l hl a ha => ?_
  rw [get_of_mem (h.out l hl).threads hp] at ha
  cases ha
  exact n l hl

theorem Aside.shedThreads_other (h : Aside o s₀ s) {l : Nat} (n : ∀ k ∈ o, l ≠ k) {tid : Nat} (hm : tid ∈ shedThreads s l) :
    Other o s₀ tid := by
  obtain ⟨p, hp, rfl⟩ := List.mem_map.1 hm
  obtain ⟨mem, e⟩ := List.mem_filter.1 hp
  exact h.other_of_mem mem fun k hk => (beq_iff_eq.1 e) ▸ n k hk

/-! ### Writes, waits and slots -/

theorem Aside.wakeWaiter (h : Aside o s₀ s) (e : Wait) (st : Nat) : Aside o s₀ (wakeWaiter s e st) := by
  unfold Machine.wakeWaiter
  split
  · split
    · next x hx =>
      split
      · refine Aside.post ?_ _
        refine h.setThread hx fun l _ => ?_
        exact Like.calm l rfl rfl rfl rfl rfl
      · exact h
    · exact h
  · exact h.same rfl
  · split
    · exact h.same rfl
    · exact h
  · exact h

theorem Aside.wakeAll (st : Nat) (l : List (Nat × Wait)) : ∀ {s : State}, Aside o s₀ s → Aside o s₀ (wakeAll s st l) := by
  induction l with
  | nil => exact fun h => h
  | cons p r ih =>
    intro s h
    refine ih (Aside.wakeWaiter ?_ p.2 st)
    exact h.same rfl

theorem Aside.writeHome (h : Aside o s₀ s) (k : Nat) (bs : List Byte) : Aside o s₀ (writeHome s k bs) := by
  have kept := h.same (keepCode_parties s k bs.length)
  refine Aside.same ?_ (fireWatches_parties ..)
  refine Aside.wakeAll 1 _ ?_
  exact kept.same rfl

theorem leaveQueue_calm (s : State) (w : Waiter) : Calm s (Machine.leaveQueue s w) := by
  unfold Machine.leaveQueue
  split
  · refine ⟨rfl, fun sorted => ?_, fun l => ?_⟩ <;> dsimp only
    · exact sorted_mapVals _ _ sorted
    refine ThreadsLike.mapVals fun k a => ?_
    split
    · exact Like.calm l rfl rfl rfl rfl rfl
    · exact Like.refl l a
  · exact Calm.refl s

theorem Aside.leaveQueue (h : Aside o s₀ s) (w : Waiter) : Aside o s₀ (leaveQueue s w) := h.calm (leaveQueue_calm s w)

theorem Aside.wakeRetry (h : Aside o s₀ s) (p : Thread → Bool) (w : Why) : Aside o s₀ (wakeRetry s p w) := by
  unfold Machine.wakeRetry
  refine h.threads rfl fun l _ g => ?_
  dsimp only
  refine ⟨sorted_mapVals _ _ g.threads, ThreadsLike.mapVals fun k a => ?_⟩
  split
  · exact Like.calm l rfl rfl rfl rfl rfl
  · exact Like.refl l a

theorem Aside.wakeJobs (h : Aside o s₀ s) (core : Nat) : Aside o s₀ (wakeJobs s core) :=
  ((h.wakeRetry _ _).wakeRetry _ _).wakeRetry _ _

/-- A thread that leaves its slot keeps its hart. -/
theorem Aside.unseat (h : Aside o s₀ s) (tid : Nat) : Aside o s₀ (unseat s tid) := by
  unfold Machine.unseat
  split
  · next t ht =>
    refine Aside.same ?_ (offerSlot_parties ..)
    refine Aside.leaveQueue ?_ _
    have unwaited : Aside o s₀ { s with waits := s.waits.filter (fun e => e.2.who != Waiter.thread tid) } := h.same rfl
    refine unwaited.setThread ht fun l _ => ?_
    exact ⟨rfl, rfl, rfl, fun _ => rfl, fun _ => .inr rfl⟩
  · exact h

theorem Aside.drain (h : Aside o s₀ s) (tid : Nat) : Aside o s₀ (drain s tid) := by
  cases o with
  | none => exact h.threads (drain_stands s tid) fun l hl => nomatch hl
  | some l => rwa [drain_of_none s tid ((h.out l rfl).idle tid)]

theorem Aside.drainRun (h : Aside o s₀ s) (run : Nat) : Aside o s₀ (drainRun s run) := by
  refine Aside.foldl (fun s p _ h => ?_) s h
  split
  · exact h.drain _
  · exact h

/-- A vector command has finished: a thread whose logical shed is out does not go on. -/
theorem Aside.wakeVector (h : Aside o s₀ s) (core : Nat) : Aside o s₀ (wakeVector s core) := by
  refine Aside.wakeRetry (Aside.wakeRetry (Aside.foldl (fun u p hp g => ?_) s h) _ _) _ _
  obtain ⟨mem, cond⟩ := List.mem_filter.1 hp
  have resident : isResident s p.2.lkey = true := by
    simp only [Bool.and_eq_true] at cond
    exact cond.1.2
  have other : Other o s₀ p.1 := h.other_of_mem mem fun l hl e => by
    obtain ⟨z, hz, away, -⟩ := (h.out l hl).shed
    simp [isResident, e, hz, away] at resident
  refine Aside.same ?_ (acquireT_parties ..)
  refine g.modThread fun l hl a ha => ?_
  exact Like.other ((g.other_iff p.1).1 other l hl a ha) rfl rfl rfl

/-! ### The remap table, and a logical shed that is mapped elsewhere -/

theorem Aside.writeRemap (h : Aside o s₀ s) (x : LShed) : Aside o s₀ (writeRemap s x) := by
  unfold Machine.writeRemap putRemap
  split
  · split
    · exact h.same (unitCheck_parties ..)
    · exact h.writeHome ..
  · exact h

theorem Aside.setModes (h : Aside o s₀ s) (hh mode : Nat) : Aside o s₀ (setModes s hh mode) := by
  refine Aside.foldl (fun s p _ g => g.writeRemap _) _ (h.mapSheds fun k x => ?_)
  split <;> exact ⟨rfl, rfl⟩

theorem Aside.moveOutboxes (h : Aside o s₀ s) (l old new : Nat) :
    Aside o s₀ ((List.range 8).foldl (fun s c => moveOutbox s l (old * 8 + c) (new * 8 + c)) s) :=
  Aside.foldl (fun _ _ _ g => g.same (moveOutbox_parties ..)) s h

theorem Aside.dropSlicesUnless (h : Aside o s₀ s) (c : Prop) [Decidable c] (d : Nat) : Aside o s₀ (if c then s else dropSlices s d) := by
  split
  · exact h
  · exact h.same rfl

theorem Aside.relocate (h : Aside o s₀ s) {l : Nat} (other : ∀ k ∈ o, l ≠ k) (x : LShed) (hh mode : Nat) :
    Aside o s₀ (relocate s l x hh mode) := by
  unfold Machine.relocate
  refine Aside.same ?_ (postSlices_parties ..)
  refine Aside.writeRemap ?_ _
  refine Aside.setModes ?_ _ _
  refine Aside.moveOutboxes ?_ _ _ _
  refine Aside.dropSlicesUnless ?_ _ _
  refine (h.setShed other { x with shed := hh, mode := mode, slicing := false }).threads rfl fun k _ g => ?_
  dsimp only at g ⊢
  refine ⟨sorted_mapVals _ _ g.threads, ThreadsLike.mapVals fun _ a => ?_⟩
  split
  · exact Like.calm k rfl rfl rfl rfl rfl
  · exact Like.refl k a

theorem Aside.followRemap (h : Aside o s₀ s) {p : Nat × LShed} (other : ∀ k ∈ o, p.1 ≠ k) : Aside o s₀ (followRemap s p) := by
  unfold Machine.followRemap
  split
  · next r _ _ =>
    cases remapCheck s r.part (r.entry p.2.ly p.2.ls) with
    | none => exact h
    | some e => exact h.same (unitCheck_parties ..)
  · split
    · refine Aside.post ?_ _
      exact h.relocate other ..
    · exact h
  · exact h

/-! ### What a logical shed that comes back brings -/

theorem setRun_eq_modRun {r : Nat} {x : Run} (hx : s.runs.get r = some x) (y : Run) : s.setRun r y = s.modRun r (fun _ => y) := by
  simp [State.setRun, State.modRun, Map.modify, hx]

/-- The flush bits of a run that is not out are read again. -/
theorem Aside.loadFlush (h : Aside o s₀ s) {r : Nat} (stays : ∀ x, s.runs.get r = some x → x.descheduled = false) :
    Aside o s₀ (loadFlush s r) := by
  unfold Machine.loadFlush
  split
  · next x hx =>
    split
    · next u w e =>
      have g := h.same (dispatchRead_parties e)
      have hu : u.runs.get r = some x := by rw [runs_of_parties (dispatchRead_parties e), hx]
      rw [setRun_eq_modRun hu]
      refine g.modRun r fun y hy => ?_
      obtain rfl : x = y := Option.some.inj (hu.symm.trans hy)
      exact ⟨rfl, fun d => by simp [stays x hx] at d⟩
    · exact h.same (dispatchCheck_parties ..)
  · exact h

theorem Aside.slotTables (h : Aside o s₀ s) {run hh z : Nat} {r : Option (List Word)} (e : slotTables s run hh z = .ok (t, r)) :
    Aside o s₀ t := by
  unfold Machine.slotTables at e
  split at e
  · split at e
    · cases e; exact h
    · split at e
      · cases e; exact h
      · dsimp only at e
        split at e
        · next read => cases e; exact (h.same (readDefinition_parties read)).same rfl
        · cases e
        · cases e; exact h.modRun run fun _ _ => ⟨rfl, fun d => ⟨d, rfl⟩⟩
  · cases e; exact h

theorem Aside.rebuildSlots (h : Aside o s₀ s) (run part hh : Nat) : Aside o s₀ (rebuildSlots s run part hh) := by
  refine Aside.foldl (fun s z _ g => ?_) s h
  split
  · next e => exact g.slotTables e
  · exact g.same ((unitCheck_parties ..).trans (meetLink_parties ..))

theorem Aside.phSet (h : Aside o s₀ s) (run l ph : Nat) (p : Phaser) : Aside o s₀ (phSet s run l ph p) := by
  unfold Machine.phSet
  split
  · exact h.modRun run fun _ _ => ⟨rfl, fun d => ⟨d, rfl⟩⟩
  · exact h.modShed l fun _ => ⟨rfl, rfl⟩

theorem Aside.phWake (h : Aside o s₀ s) (run ph : Nat) {tid : Nat} (other : Other o s₀ tid) (rd : Reg) (w : Word) :
    Aside o s₀ (phWake s run ph tid rd w) := by
  unfold Machine.phWake
  split
  · next x hx =>
    refine Aside.same ?_ (acquireT_parties ..)
    refine h.setThread hx fun l hl => ?_
    exact Like.other ((h.other_iff tid).1 other l hl x hx) rfl rfl rfl
  · exact h

theorem Aside.phDeliver (h : Aside o s₀ s) {tid : Nat} (other : Other o s₀ tid) : Aside o s₀ (phDeliver s tid) := by
  unfold Machine.phDeliver
  split
  · split
    · split
      · split
        · exact h.phWake _ _ other _ _
        · split
          · exact (h.phSet ..).phWake _ _ other _ _
          · exact h
      · exact h
    · exact h
  · exact h

theorem Aside.startRestore (h : Aside o s₀ s) {tid : Nat} (other : Other o s₀ tid) : Aside o s₀ (startRestore s tid) := by
  unfold Machine.startRestore
  split
  · next x hx =>
    split
    · next n _ =>
      have checked := postTableCheck_parties s (.run x.run x.coord x.core) x.run (safeEntry s x n true)
      dsimp only
      generalize postTableCheck s (.run x.run x.coord x.core) x.run (safeEntry s x n true) = u at checked ⊢
      have g : Aside o s₀ { u with free := u.free + 1 } := h.same checked
      have hu : u.threads = s.threads := threads_of_parties checked
      refine g.setThread (a := x) (by rw [← hx, ← hu]) fun l hl => ?_
      exact Like.other ((h.other_iff tid).1 other l hl x hx) rfl rfl rfl
    · exact h
  · exact h

theorem Aside.reseat (h : Aside o s₀ s) {old new tid : Nat} (other : Other o s₀ tid) (e : Machine.reseat old new (some s) tid = some t) :
    Aside o s₀ t := by
  unfold Machine.reseat at e
  dsimp only at e
  split at e
  · next x hx =>
    split at e
    · cases e
      refine Aside.phDeliver ?_ other
      refine Aside.same ?_ (acquireT_parties ..)
      refine Aside.startRestore ?_ other
      refine h.setThread hx fun l hl => ?_
      exact Like.other ((h.other_iff tid).1 other l hl x hx) rfl rfl rfl
    · cases e
  · cases e; exact h

theorem reseat_none (old new : Nat) (l : List Nat) : l.foldl (Machine.reseat old new) none = none := by
  induction l with
  | nil => rfl
  | cons _ _ ih => exact ih

theorem Aside.reseats {old new : Nat} {l : List Nat} (other : ∀ tid ∈ l, Other o s₀ tid) :
    ∀ {s : State}, Aside o s₀ s → l.foldl (Machine.reseat old new) (some s) = some t → Aside o s₀ t := by
  induction l with
  | nil => intro s h e; cases e; exact h
  | cons tid later ih =>
    intro s h e
    rw [List.foldl_cons] at e
    cases first : Machine.reseat old new (some s) tid with
    | none => rw [first, reseat_none] at e; cases e
    | some u =>
      rw [first] at e
      exact ih (fun k hk => other k (List.mem_cons_of_mem _ hk)) (h.reseat (other tid (List.mem_cons_self ..)) first) e

theorem Aside.rearm (h : Aside o s₀ s) (l : Nat) : Aside o s₀ (rearm s l) :=
  Aside.foldl (fun _ c _ g => g.wakeVector c) s h

end Sys2Proof.Preemption
end

section
/-! SUPPORT. A logical shed that comes back to a shed, the filling of a shed, and the end of a deschedule leave every other logical shed that is out (R374, R375). -/

namespace Sys2Proof.Preemption
open Sys2Proof.Machine Sys2Proof.Claims

variable {o : Option Nat} {s₀ s t : State}

theorem Aside.loadFlushUnless (h : Aside o s₀ s) {q : Nat} {r : Run} {c : Bool} (hr : s.runs.get q = some r) :
    Aside o s₀ (if (r.descheduled || c) = true then s else Machine.loadFlush s q) := by
  split
  · exact h
  · next away =>
    refine h.loadFlush fun y hy => ?_
    rw [hr] at hy
    cases hy
    simp only [Bool.or_eq_true, not_or, Bool.not_eq_true] at away
    exact away.1

/-- A logical shed comes back: nothing of another changes. -/
theorem Aside.bringIn (h : Aside o s₀ s) {l hh mode : Nat} (other : ∀ k ∈ o, l ≠ k) (e : bringIn s l hh mode = some t) :
    Aside o s₀ t := by
  have seated {u v : State} {old : Nat} (g : Aside o s₀ u) (e : (shedThreads u l).foldl (Machine.reseat old hh) (some u) = some v) :
      Aside o s₀ v :=
    Aside.reseats (fun _ hm => g.shedThreads_other other hm) g e
  unfold Machine.bringIn at e
  split at e
  · next x _ =>
    split at e
    · next r hr =>
      split at e
      · cases e
      · split at e
        · next bases _ =>
          obtain ⟨u, hu, rfl⟩ := Option.map_eq_some_iff.1 e
          have back : Aside o s₀ u := by
            refine seated ?_ hu
            refine Aside.rebuildSlots ?_ _ _ _
            refine Aside.moveOutboxes ?_ _ _ _
            refine Aside.same (s := restoreTables _ x hh) ?_ rfl
            refine Aside.same ?_ (restoreTables_parties ..)
            refine Aside.foldl (fun _ _ _ g => g.same (moveRange_parties ..)) _ ?_
            refine Aside.same ?_ (placeCores_parties ..)
            refine Aside.setModes ?_ _ _
            refine Aside.setShed ?_ other _
            have drained : Aside o s₀ (dropShedL1 (Machine.drainRun s x.run) hh) := (h.drainRun x.run).same rfl
            refine Aside.loadFlushUnless (drained.dropSlicesUnless _ _) (r := r) ?_
            rw [← hr]
            split <;> exact congrArg (fun m => Map.get m x.run) (runs_of_stands (drainRun_stands s x.run))
          split
          · exact (back.rearm l).post _
          · exact back.rearm l
        · cases e
    · cases e
  · cases e

theorem longest_mem {l : List (Nat × LShed)} {p : Nat × LShed} (h : longest l = some p) : p ∈ l := by
  have best (m : List (Nat × LShed)) : ∀ b : Option (Nat × LShed), (∀ q, b = some q → q ∈ l) → (∀ q ∈ m, q ∈ l) →
      m.foldl (fun b p => match b with
        | some q => if p.2.since < q.2.since then some p else b
        | none => some p) b = some p → p ∈ l := by
    induction m with
    | nil => exact fun b hb _ e => hb p e
    | cons q m ih =>
      intro b hb hm
      refine ih _ (fun z hz => ?_) (fun z hz => hm z (List.mem_cons_of_mem q hz))
      have here := hm q (List.mem_cons_self ..)
      dsimp only at hz
      split at hz
      · split at hz
        · cases hz; exact here
        · exact hb z hz
      · cases hz; exact here
  exact best l none (fun _ e => nomatch e) (fun _ h => h) h

/-- What waits for a shed is of a run that is not asked to stop. -/
theorem waitingHosts_asked {hh : Nat} {p : Nat × LShed} (h : p ∈ waitingHosts s hh) :
    p ∈ s.lsheds ∧ ∃ x, s.runs.get p.2.run = some x ∧ x.preempt = false := by
  obtain ⟨host, waits⟩ := List.mem_filter.1 h
  refine ⟨(List.mem_filter.1 host).1, ?_⟩
  cases e : s.runs.get p.2.run with
  | none => simp [e] at waits
  | some x =>
    simp only [e, Bool.and_eq_true, Bool.not_eq_true'] at waits
    obtain ⟨-, ⟨⟨free, -⟩, -⟩, -⟩ := waits
    exact ⟨x, rfl, free⟩

/-- A logical shed that is out, of a run that is asked to stop, does not wait for a shed. -/
theorem Aside.waiting_other (h : Aside o s₀ s) {hh : Nat} {p : Nat × LShed} (hp : p ∈ waitingHosts s hh) : ∀ l ∈ o, p.1 ≠ l := by
  rintro l hl rfl
  obtain ⟨mem, x, hx, free⟩ := waitingHosts_asked hp
  obtain ⟨z, hz, -, y, hy, asked⟩ := (h.out p.1 hl).shed
  obtain ⟨x', hx', same, -⟩ := h.flags _ y hy
  rw [get_of_mem (h.out p.1 hl).lsheds mem] at hz
  cases hz
  rw [hx] at hx'
  cases hx'
  rw [asked, free] at same
  cases same

theorem Aside.fill (hh n : Nat) : ∀ {s : State}, Aside o s₀ s → Aside o s₀ (fillShed.go hh s n) := by
  induction n with
  | zero => exact fun h => h
  | succ n ih =>
    intro s h
    unfold fillShed.go
    split
    · next l x found =>
      have other : ∀ k ∈ o, l ≠ k := h.waiting_other (List.mem_filter.1 (longest_mem found)).1
      split
      · split
        · next e => exact ih (h.bringIn other e)
        · cases s.runs.get x.run with
          | none => exact h
          | some r => exact h.post _
      · exact h
    · exact h

theorem Aside.fillShed (h : Aside o s₀ s) (hh : Nat) : Aside o s₀ (fillShed s hh) := by
  unfold Machine.fillShed
  refine Aside.fill hh _ ?_
  exact Aside.foldl (fun u p hp g => g.followRemap (h.waiting_other hp)) s h

theorem Aside.endCtl (h : Aside o s₀ s) (x : Run) (f : Nat → Bool) : Aside o s₀ (endCtl s x f) := by
  refine Aside.foldl (fun _ _ _ g => ?_) s h
  exact g.same rfl

theorem Aside.answerCtl (h : Aside o s₀ s) (r : Nat) (f : Nat → Bool) : Aside o s₀ (answerCtl s r f) := by
  unfold Machine.answerCtl
  split
  · next x hx =>
    refine Aside.foldl (fun u q _ g => ?_) _ ?_
    · exact g.same rfl
    rw [setRun_eq_modRun hx]
    refine h.modRun r fun y hy => ?_
    obtain rfl : x = y := Option.some.inj (hx.symm.trans hy)
    exact ⟨rfl, fun d => ⟨d, rfl⟩⟩
  · exact h

/-- Once a run is out, its request is answered, and its sheds are free for others. -/
theorem Aside.settleDeschedule (h : Aside o s₀ s) (r : Nat) : Aside o s₀ (settleDeschedule s r) := by
  unfold Machine.settleDeschedule
  split
  · dsimp only
    split
    · refine Aside.post ?_ _
      refine Aside.foldl (fun _ p _ g => g.fillShed p.2.shed) _ ?_
      refine Aside.answerCtl ?_ _ _
      exact h.modRun r fun _ _ => ⟨rfl, fun _ => ⟨rfl, rfl⟩⟩
    · exact h
  · exact h

end Sys2Proof.Preemption
end

section
/-! SUPPORT. A logical shed whose threads all count leaves its shed (R374). -/

namespace Sys2Proof.Preemption
open Sys2Proof.Machine Sys2Proof.Claims

variable {o : Option Nat} {s₀ s t u v : State} {l r : Nat}

/-- What each round of a fold keeps, and the round for one member brings about and every other round keeps, stands at its end. -/
theorem foldl_reaches {α : Type} {f : State → α → State} {P Q : State → Prop} {a : α} (before : ∀ u b, P u → P (f u b))
    (hit : ∀ u, P u → Q (f u a)) (after : ∀ u b, Q u → Q (f u b)) {l : List α} (mem : a ∈ l) : ∀ s, P s → Q (l.foldl f s) := by
  induction l with
  | nil => cases mem
  | cons b later ih =>
    intro s hs
    rcases List.mem_cons.1 mem with rfl | there
    · exact List.foldlRecOn later f (hit s hs) fun u hu b _ => after u b hu
    · exact ih there _ (before s b hs)

/-! ### A logical shed leaves its shed (R374) -/

theorem Aside.restart (h : Aside o s₀ s) : Aside o s s where
  flags := FlagsKept.refl s
  out l hl := by
    obtain ⟨z, hz, away, x, hx, asked⟩ := (h.out l hl).shed
    obtain ⟨y, hy, same, -⟩ := h.flags _ x hx
    exact ⟨(h.out l hl).threads, (h.out l hl).lsheds, ⟨z, hz, away, y, hy, same.trans asked⟩, (h.out l hl).idle, ThreadsLike.refl l _⟩

/-- Between s and u logical shed l, of run r, has got ready to leave: the runs are as before, and the threads keep their harts. -/
structure Leaving (l r : Nat) (s u : State) : Prop where
  runs : u.runs = s.runs
  lsheds : Map.sorted u.lsheds = true
  shed : ∃ z, u.lsheds.get l = some z ∧ z.run = r
  threads : Map.sorted u.threads = true
  like : ThreadsLike l s.threads u.threads

theorem Leaving.calm (h : Leaving l r s u) (e : Calm u v) : Leaving l r s v := by
  have runs := runs_of_stands e.stands
  have lsheds := lsheds_of_stands e.stands
  exact ⟨runs.trans h.runs, lsheds.symm ▸ h.lsheds, lsheds.symm ▸ h.shed, e.sorted h.threads, h.like.trans (e.like l)⟩

theorem Calm.of_parties (e : parties v = parties u) : Calm u v := by
  have threads := threads_of_parties e
  exact ⟨stands_of_parties e, fun h => threads ▸ h, fun l => threads ▸ ThreadsLike.refl l _⟩

theorem Leaving.modShed (h : Leaving l r s u) {f : LShed → LShed} (kept : ∀ x, (f x).run = x.run) :
    Leaving l r s (u.modLShed l f) := by
  obtain ⟨z, hz, run⟩ := h.shed
  exact ⟨h.runs, sorted_modify _ _ _ h.lsheds, ⟨f z, by simp [State.modLShed, hz], (kept z).trans run⟩, h.threads, h.like⟩

theorem Leaving.leaveAll (h : Leaving l r s u) (k : Nat) : Leaving l r s (leaveAll u k) := by
  have left {α : Type} (m : List α) (w : α → Waiter) {v : State} (g : Leaving l r s v) :
      Leaving l r s (m.foldl (fun s j => leaveQueue s (w j)) v) :=
    List.foldlRecOn m _ g fun v g j _ => g.calm (leaveQueue_calm v (w j))
  exact left _ _ (left _ _ h)

theorem Leaving.saveTables (h : Leaving l r s u) (hh : Nat) : Leaving l r s (saveTables u l hh) := by
  refine List.foldlRecOn _ _ h fun v g c _ => ?_
  dsimp only
  refine Leaving.calm (u := v.modLShed l _) (g.modShed fun _ => ?_) (Calm.of_parties rfl)
  rfl

/-- Once it is out, what is done for others leaves it out. -/
theorem Leaving.gone (h : Leaving l r s u) {x : Run} (hx : s.runs.get r = some x) (asked : x.preempt = true)
    (idle : ∀ k t, s.threads.get k = some t → t.pending = [] ∧ t.loads = []) {f : LShed → LShed}
    (away : ∀ z, (f z).run = z.run ∧ (f z).resident = false) : Aside (some l) (u.modLShed l f) (u.modLShed l f) := by
  refine ⟨FlagsKept.refl _, fun k hk => ?_⟩
  cases hk
  obtain ⟨z, hz, run⟩ := h.shed
  refine ⟨h.threads, sorted_modify _ _ _ h.lsheds, ⟨f z, by simp [State.modLShed, hz], (away z).2, x, ?_, asked⟩, fun k b hb => ?_,
    ThreadsLike.refl l _⟩
  · rw [(away z).1, run, ← hx, ← h.runs]
    rfl
  · obtain ⟨a, ha, ab⟩ := h.like.back hb
    rw [ab.pending, ab.loads]
    exact idle k a ha

/-- A thread that is made to leave its slot has left it. -/
theorem unseat_slot (s : State) (tid : Nat) (b : Thread) (h : (unseat s tid).threads.get tid = some b) : b.slot = 64 := by
  unfold unseat at h
  split at h
  · dsimp only at h
    rw [threads_of_parties (offerSlot_parties ..)] at h
    obtain ⟨a, ha, ab⟩ := ((leaveQueue_calm _ _).like b.lkey).back h
    simp only [State.setThread_threads, Map.get_set_self, Option.some.injEq] at ha
    subst ha
    exact (ab.slot ab.lkey.symm).elim id id
  · next none =>
    rw [none] at h
    cases h

/-- Every thread of a logical shed that is out leaves its slot. -/
theorem unseats_slot {ks : List Nat} {k : Nat} (mem : k ∈ ks) {s : State} (h : Aside (some l) s₀ s) {b : Thread}
    (hb : (ks.foldl unseat s).threads.get k = some b) (of : b.lkey = l) : b.slot = 64 := by
  let Q (u : State) : Prop := Aside (some l) u u ∧ ∀ b, u.threads.get k = some b → b.lkey = l → b.slot = 64
  have left : Q (ks.foldl unseat s) := by
    refine foldl_reaches (P := Aside (some l) s₀) (fun u b h => h.unseat b)
      (fun u h => ⟨(h.unseat k).restart, fun b hb _ => unseat_slot u k b hb⟩) (fun u j h => ?_) mem s h
    have g := h.1.unseat j
    refine ⟨g.restart, fun b hb of => ?_⟩
    obtain ⟨a, ha, ab⟩ := (g.out l rfl).like.back hb
    have al := ab.lkey.symm.trans of
    rcases ab.slot al with same | left
    · exact same.trans (h.2 a ha al)
    · exact left
  exact left.2 b hb of

theorem Out.thread (h : Out l s₀ s) {k : Nat} {a : Thread} (ha : s₀.threads.get k = some a) (of : a.lkey = l) :
    ∃ b, s.threads.get k = some b ∧ b.lkey = l ∧ b.hart = a.hart ∧ (b.slot = a.slot ∨ b.slot = 64) := by
  obtain ⟨b, hb, ab⟩ := h.like.forth ha
  exact ⟨b, hb, ab.lkey.trans of, ab.hart of, ab.slot of⟩

theorem mem_shedThreads {k : Nat} {a : Thread} (ha : s.threads.get k = some a) (of : a.lkey = l) : k ∈ shedThreads s l :=
  List.mem_map.2 ⟨(k, a), List.mem_filter.2 ⟨Map.mem_of_get ha, beq_iff_eq.2 of⟩, rfl⟩

/-- Logical shed l is out, and its threads have left their slots with the harts that they had in s. -/
structure Gone (l : Nat) (s t : State) : Prop where
  out : Aside (some l) t t
  thread : ∀ k a, s.threads.get k = some a → a.lkey = l → ∃ b, t.threads.get k = some b ∧ b.lkey = l ∧ b.hart = a.hart ∧ b.slot = 64

theorem Gone.next (h : Gone l s t) {u : State} (g : Aside (some l) t u) : Gone l s u where
  out := g.restart
  thread k a ha of := by
    obtain ⟨b, hb, bl, bh, left⟩ := h.thread k a ha of
    obtain ⟨c, hc, cl, ch, slot⟩ := (g.out l rfl).thread hb bl
    exact ⟨c, hc, cl, ch.trans bh, slot.elim (fun e => e.trans left) id⟩

/-- What waits for the units of its shed goes on. -/
theorem Gone.wakes (h : Gone l s t) (hh : Nat) :
    Gone l s ((List.range 8).foldl (fun s c => wakeVector (wakeJobs s (hh * 8 + c)) (hh * 8 + c)) t) :=
  h.next (Aside.foldl (fun _ _ _ g => (g.wakeJobs _).wakeVector _) t h.out)

/-- The threads of a logical shed that is out leave their slots. -/
theorem unseats_gone {w : State} (like : ThreadsLike l s.threads w.threads) (h : Aside (some l) w t) :
    Gone l s ((shedThreads t l).foldl unseat t) := by
  have g : Aside (some l) w ((shedThreads t l).foldl unseat t) := Aside.foldl (fun _ tid _ g => g.unseat tid) t h
  refine ⟨g.restart, fun k a ha of => ?_⟩
  obtain ⟨b, hb, ab⟩ := like.forth ha
  obtain ⟨c, hc, cl, -⟩ := (h.out l rfl).thread hb (ab.lkey.trans of)
  obtain ⟨d, hd, dl, dh, -⟩ := (g.out l rfl).thread hb (ab.lkey.trans of)
  exact ⟨d, hd, dl, dh.trans (ab.hart of), unseats_slot (mem_shedThreads hc cl) h hd dl⟩

/-- A logical shed of a run that is asked to stop, whose threads have nothing to perform, leaves its shed. -/
theorem descheduleShed_gone {x : LShed} {r : Run} (settled : Settled s) (threads : Map.sorted s.threads = true)
    (lsheds : Map.sorted s.lsheds = true) (hx : s.lsheds.get l = some x) (hr : s.runs.get x.run = some r) (asked : r.preempt = true) :
    Gone l s (descheduleShed s l x r) := by
  have idle (k : Nat) (t : Thread) (ht : s.threads.get k = some t) : t.pending = [] ∧ t.loads = [] := settled.1 _ (Map.mem_of_get ht)
  have dry : drainRun s x.run = s := by
    refine List.foldlRecOn (motive := fun u => u = s) _ _ rfl fun u hu p _ => ?_
    subst hu
    split
    · exact drain_of_none u p.1 (idle p.1)
    · rfl
  have start : Leaving l x.run s s := ⟨rfl, lsheds, ⟨x, hx, rfl⟩, threads, ThreadsLike.refl l _⟩
  unfold descheduleShed
  rw [dry]
  dsimp only
  have ready := (start.leaveAll l).saveTables x.shed
  generalize saveTables (leaveAll s l) l x.shed = u at ready ⊢
  have moved : Leaving l x.run s ((List.range (r.nlc + 1)).foldl (fun s lc => moveRange s (x.window lc)
      (LShed.window { x with resident := false, since := u.clock } lc) (r.spad * 4096)) u) :=
    List.foldlRecOn _ _ ready fun v g lc _ => g.calm (Calm.of_parties (moveRange_parties ..))
  generalize List.foldl _ u (List.range (r.nlc + 1)) = v at moved ⊢
  have out := moved.gone hr asked idle (f := fun z => { z with resident := false, since := v.clock }) fun _ => ⟨rfl, rfl⟩
  have like : ThreadsLike l s.threads (v.modLShed l (fun z => { z with resident := false, since := v.clock })).threads := moved.like
  generalize v.modLShed l _ = w at out like ⊢
  refine Gone.wakes (unseats_gone like ?_) x.shed
  refine Aside.foldl (fun _ c _ g => g.same (releaseRefused_parties ..)) _ ?_
  exact out.same rfl

/-- R374: DESCHEDULE of a logical shed whose threads all count. -/
theorem execDeschedule_gone {x : LShed} {r : Run} (settled : Settled s) (threads : Map.sorted s.threads = true)
    (lsheds : Map.sorted s.lsheds = true) (hx : s.lsheds.get l = some x) (hr : s.runs.get x.run = some r) (resident : x.resident = true)
    (asked : r.preempt = true) (runs : r.frozen = false) (issues : deviceIssues s (shedDev x.shed) = true)
    (counts : ∀ tid th, s.threads.get tid = some th → th.lkey = l → th.counts = true) :
    ∃ t, execDeschedule l s = .next t ∧ Gone l s t := by
  have all (tid : Nat) (hm : tid ∈ shedThreads s l) : ∃ th, s.threads.get tid = some th ∧ th.counts = true := by
    obtain ⟨p, hp, rfl⟩ := List.mem_map.1 hm
    obtain ⟨mem, of⟩ := List.mem_filter.1 hp
    have found := get_of_mem threads mem
    exact ⟨p.2, found, counts p.1 p.2 found (beq_iff_eq.1 of)⟩
  have gone := descheduleShed_gone settled threads lsheds hx hr asked
  refine ⟨_, ?_, gone.next ((gone.out.fillShed x.shed).settleDeschedule x.run)⟩
  simp only [execDeschedule, hx, hr]
  rw [if_neg (by simp [resident]), if_neg (by simp [asked]), if_neg]
  simp only [runs, issues, Bool.not_true, Bool.false_or, Bool.not_eq_true', Bool.not_eq_false, List.all_eq_true]
  intro tid hm
  obtain ⟨th, found, c⟩ := all tid hm
  simp [found, c]

end Sys2Proof.Preemption
end

section
/-! SUPPORT. Requests, cancellations and restores (R372, R375), time slices (R160) and the watchdog (R377). -/

namespace Sys2Proof.Preemption
open Sys2Proof.Machine Sys2Proof.Claims

variable {o : Option Nat} {s₀ s t : State} {r : Nat}

/-! ### Threads that count are held (R373) -/

theorem Aside.refl_none (s : State) : Aside none s s := ⟨FlagsKept.refl s, fun _ h => nomatch h⟩

/-- Holding a thread leaves memory, the runs and the logical sheds. -/
theorem holdThread_keeps (s : State) (tid : Nat) :
    ((holdThread s tid).mem, stands (holdThread s tid)) = (s.mem, stands s) := by
  unfold holdThread
  split
  · split <;> rfl
  · rfl

theorem holdThreads_keep {α : Type} (f : α → Nat) (l : List α) (s : State) :
    (l.foldl (fun s a => holdThread s (f a)) s).mem = s.mem ∧ stands (l.foldl (fun s a => holdThread s (f a)) s) = stands s :=
  Prod.mk.inj (foldl_keeps (fun s => (s.mem, stands s)) (fun s a => holdThread_keeps s (f a)) l s)

/-- Run r is asked to stop, and thread tid is one of its threads and counts. -/
def Stopping (r tid : Nat) (s : State) : Prop :=
  (∃ x, s.runs.get r = some x ∧ x.preempt = true) ∧ ∃ t, s.threads.get tid = some t ∧ t.run = r ∧ t.counts = true

def Held (tid : Nat) (s : State) : Prop := ∃ t, s.threads.get tid = some t ∧ t.held = true

/-- A thread that is held counts. -/
theorem counts_of_held {t : Thread} (h : t.held = true) : t.counts = true := by simp [Thread.counts, h]

theorem requested_of_preempt {t : Thread} {x : Run} (hx : s.runs.get t.run = some x) (asked : x.preempt = true) :
    requested s t = true := by
  simp [requested, hx, asked]

theorem Stopping.hold {tid : Nat} (h : Stopping r tid s) (k : Nat) : Stopping r tid (holdThread s k) := by
  obtain ⟨asked, t, ht, of, counts⟩ := h
  unfold holdThread
  split
  · next a ha =>
    split
    · refine ⟨asked, ?_⟩
      by_cases e : tid = k
      · subst e
        rw [ht] at ha
        cases ha
        exact ⟨{ t with held := true }, by simp, of, counts_of_held rfl⟩
      · exact ⟨t, by simp [Map.get_set_of_ne _ e, ht], of, counts⟩
    · exact ⟨asked, t, ht, of, counts⟩
  · exact ⟨asked, t, ht, of, counts⟩

theorem Held.hold {tid : Nat} (h : Held tid s) (k : Nat) : Held tid (holdThread s k) := by
  obtain ⟨t, ht, held⟩ := h
  unfold holdThread
  split
  · next a ha =>
    split
    · by_cases e : tid = k
      · exact ⟨{ a with held := true }, by simp [e], rfl⟩
      · exact ⟨t, by simp [Map.get_set_of_ne _ e, ht], held⟩
    · exact ⟨t, ht, held⟩
  · exact ⟨t, ht, held⟩

theorem Stopping.held {tid : Nat} (h : Stopping r tid s) : Held tid (holdThread s tid) := by
  obtain ⟨⟨x, hx, asked⟩, t, ht, rfl, counts⟩ := h
  refine ⟨{ t with held := true }, ?_, rfl⟩
  simp [holdThread, ht, requested_of_preempt hx asked, counts]

/-- Where run r is asked to stop, every thread of it that counts is held. -/
theorem holdAll_held {tid : Nat} {th : Thread} (asked : ∃ x, s.runs.get r = some x ∧ x.preempt = true)
    (ht : s.threads.get tid = some th) (of : th.run = r) (counts : th.counts = true) :
    Held tid ((s.threads.filter (fun p => p.2.run == r)).foldl (fun s p => holdThread s p.1) s) := by
  have mem : (tid, th) ∈ s.threads.filter (fun p => p.2.run == r) := List.mem_filter.2 ⟨Map.mem_of_get ht, beq_iff_eq.2 of⟩
  exact foldl_reaches (α := Nat × Thread) (P := Stopping r tid) (Q := Held tid) (fun _ p h => h.hold p.1) (fun _ h => h.held)
    (fun _ p h => h.hold p.1) mem s ⟨asked, th, ht, of, counts⟩

/-! ### A request, and a slice that has run out -/

/-- A write of CR.RUNCTL that is no longer in progress changes its service core alone. -/
theorem endCtl_keeps (s : State) (x : Run) (f : Nat → Bool) :
    (endCtl s x f).mem = s.mem ∧ parties (endCtl s x f) = parties s := by
  unfold endCtl
  refine Prod.mk.inj (foldl_keeps (fun s => (s.mem, parties s)) (fun _ _ => ?_) _ s)
  rfl

/-- What comes after a request has been made: neither memory nor a thread changes, nor what a run is asked. -/
structure Answered (s t : State) : Prop where
  mem : t.mem = s.mem
  threads : t.threads = s.threads
  flags : FlagsKept s t

theorem answerCtl_answered (s : State) (r : Nat) (f : Nat → Bool) : Answered s (answerCtl s r f) := by
  have kept : (answerCtl s r f).mem = s.mem ∧ (answerCtl s r f).threads = s.threads := by
    unfold answerCtl
    split
    · refine Prod.mk.inj ((foldl_keeps (fun s => (s.mem, s.threads)) (fun _ _ => ?_) _ _).trans ?_) <;> rfl
    · exact ⟨rfl, rfl⟩
  exact ⟨kept.1, kept.2, ((Aside.refl_none s).answerCtl r f).flags⟩

/-- Of the run it changes what waits for the answer. -/
theorem answerCtl_get {x : Run} (hx : s.runs.get r = some x) (f : Nat → Bool) :
    ∃ q, (answerCtl s r f).runs.get r = some { x with requester := q } := by
  refine ⟨x.requester.filter (fun q => !f q.2), ?_⟩
  simp only [answerCtl, hx]
  refine (congrArg (fun m => Map.get m r) (foldl_keeps State.runs (fun _ _ => ?_) _ _)).trans (Map.get_set_self ..)
  rfl

theorem posts_answered {α : Type} (f : α → Event) (l : List α) (s : State) : Answered s (l.foldl (fun s a => s.post (f a)) s) := by
  obtain ⟨mem, same⟩ := Prod.mk.inj (foldl_keeps (fun s => (s.mem, parties s)) (f := fun s a => s.post (f a)) (fun _ _ => rfl) l s)
  exact ⟨mem, threads_of_parties same, FlagsKept.of_stands (stands_of_parties same)⟩

/-- R372: PREEMPT_REQUEST. -/
theorem execPreemptRequest_holds {x : Run} (hx : s.runs.get r = some x) (unasked : x.preempt = false) :
    ∃ t y, execPreemptRequest r s = .next t ∧ t.runs.get r = some y ∧ y.preempt = true ∧ MemoryKept s t ∧
      ∀ tid th, s.threads.get tid = some th → th.run = r → th.counts = true → ∃ z, t.threads.get tid = some z ∧ z.held = true := by
  obtain ⟨mem₁, same₁⟩ := endCtl_keeps s x (· == 0)
  have threads₁ := threads_of_parties same₁
  simp only [execPreemptRequest, hx, unasked, Bool.false_eq_true, if_false]
  generalize endCtl s x (· == 0) = u at mem₁ same₁ threads₁ ⊢
  obtain ⟨mem₂, same₂⟩ := holdThreads_keep (fun p : Nat × Thread => p.1)
    ((u.setRun r { x with preempt := true }).threads.filter (fun p => p.2.run == r)) (u.setRun r { x with preempt := true })
  have held (tid : Nat) (th : Thread) (ht : s.threads.get tid = some th) (of : th.run = r) (counts : th.counts = true) :=
    holdAll_held (s := u.setRun r { x with preempt := true }) ⟨_, Map.get_set_self .., rfl⟩ (threads₁ ▸ ht) of counts
  generalize List.foldl (fun s (p : Nat × Thread) => holdThread s p.1) _ _ = v at mem₂ same₂ held ⊢
  have asked : v.runs.get r = some { x with preempt := true } := by
    rw [runs_of_stands same₂]
    exact Map.get_set_self ..
  have last (t : State) (a : Answered v t) : ∃ y, t.runs.get r = some y ∧ y.preempt = true ∧ MemoryKept s t ∧
      ∀ tid th, s.threads.get tid = some th → th.run = r → th.counts = true → ∃ z, t.threads.get tid = some z ∧ z.held = true := by
    obtain ⟨y, hy, same, -⟩ := a.flags r _ asked
    refine ⟨y, hy, same, fun k => ?_, fun tid th ht of counts => a.threads ▸ held tid th ht of counts⟩
    show Memory.byte t.mem k = Memory.byte s.mem k
    rw [a.mem, mem₂, ← mem₁]
    rfl
  split
  · obtain ⟨y, rest⟩ := last _ (answerCtl_answered v r _)
    exact ⟨_, y, rfl, rest⟩
  · obtain ⟨y, rest⟩ := last _ (posts_answered (fun p : Nat × LShed => .deschedule p.1) _ v)
    exact ⟨_, y, rfl, rest⟩

/-- R160: TIME_SLICE of a slice that has run out. -/
theorem execTimeSlice_ends {l : Nat} {y : LShed} (hy : s.lsheds.get l = some y) (resident : y.resident = true) (mode : y.mode = 2)
    (going : y.slicing = false) (waiting : waitingHosts s y.shed ≠ []) :
    (s.clock < y.since + 200000 → execTimeSlice l s = .next (s.post (.timeSlice l))) ∧
    (y.since + 200000 ≤ s.clock → ∃ t z, execTimeSlice l s = .next t ∧ t.lsheds.get l = some z ∧ z.slicing = true ∧
      t.agenda.getLast? = some (.deschedule l) ∧ MemoryKept s t) := by
  have stands : (!y.resident || y.mode != 2 || y.slicing || (waitingHosts s y.shed).isEmpty) = false := by
    simp [resident, mode, going, waiting]
  refine ⟨fun early => ?_, fun late => ?_⟩ <;> simp only [execTimeSlice, hy, stands, Bool.false_eq_true, if_false]
  · rw [if_pos early]
  · rw [if_neg (Nat.not_lt.2 late)]
    obtain ⟨mem, same⟩ := holdThreads_keep id (shedThreads (s.modLShed l (fun x => { x with slicing := true })) l)
      (s.modLShed l (fun x => { x with slicing := true }))
    simp only [id] at mem same
    refine ⟨_, { y with slicing := true }, rfl, ?_, rfl, ?_, fun k => ?_⟩
    · rw [State.post_lsheds, lsheds_of_stands same]
      simp [State.modLShed, hy]
    · rw [State.post_agenda, List.getLast?_concat]
    · show Memory.byte (State.mem _) k = _
      rw [State.post_mem, mem]
      rfl

/-! ### The watchdog (R377) -/

theorem freezeRun_lsheds (s : State) (r h : Nat) : (freezeRun s r h).lsheds = s.lsheds := by
  unfold freezeRun
  split
  · split <;> rfl
  · rfl

/-- Run r is there, and its expiry is on its way once it is frozen. -/
def Watched (r : Nat) (s : State) : Prop := ∃ x, s.runs.get r = some x ∧ (x.frozen = true → ∃ h, .watchdog r h ∈ s.agenda)

def Expired (r : Nat) (s : State) : Prop := ∃ x, s.runs.get r = some x ∧ x.frozen = true ∧ ∃ h, .watchdog r h ∈ s.agenda

theorem Watched.expired {h : Nat} (w : Watched r s) : Expired r (freezeRun s r h) := by
  obtain ⟨x, hx, posted⟩ := w
  cases frozen : x.frozen with
  | true => exact ⟨x, by simp [freezeRun, hx, frozen], frozen, by simpa [freezeRun, hx, frozen] using posted frozen⟩
  | false => exact ⟨{ x with frozen := true }, by simp [freezeRun, hx, frozen], rfl, h, by simp [freezeRun, hx, frozen]⟩

/-- Freezing another run leaves this one, and what is on its way. -/
theorem freezeRun_other {q h : Nat} (ne : r ≠ q) :
    (freezeRun s q h).runs.get r = s.runs.get r ∧ ∀ e ∈ s.agenda, e ∈ (freezeRun s q h).agenda := by
  unfold freezeRun
  split
  · split
    · exact ⟨rfl, fun _ h => h⟩
    · exact ⟨by simp [Map.get_set_of_ne _ ne], fun e h => by simp [h]⟩
  · exact ⟨rfl, fun _ h => h⟩

theorem Expired.watched (h : Expired r s) : Watched r s := by
  obtain ⟨x, hx, -, posted⟩ := h
  exact ⟨x, hx, fun _ => posted⟩

theorem Watched.freeze (w : Watched r s) (q h : Nat) : Watched r (freezeRun s q h) := by
  by_cases e : r = q
  · exact e ▸ w.expired.watched
  · obtain ⟨x, hx, posted⟩ := w
    obtain ⟨same, more⟩ := freezeRun_other (s := s) (h := h) e
    exact ⟨x, same.trans hx, fun f => (posted f).imp fun _ => more _⟩

theorem Expired.freeze (w : Expired r s) (q h : Nat) : Expired r (freezeRun s q h) := by
  by_cases e : r = q
  · exact e ▸ w.watched.expired
  · obtain ⟨x, hx, frozen, posted⟩ := w
    obtain ⟨same, more⟩ := freezeRun_other (s := s) (h := h) e
    exact ⟨x, same.trans hx, frozen, posted.imp fun _ => more _⟩

/-- R377: a counter that reaches zero. -/
theorem tickDogs_expires {l : Nat} {y : LShed} (hy : s.lsheds.get l = some y) (counts : dogCounts s y = true) (last : y.dog = 1) :
    (tickDogs s).lsheds.get l = some { y with dog := 0 } ∧ Expired y.run (tickDogs s) := by
  have alive : ∃ x, s.runs.get y.run = some x ∧ x.frozen = false := by
    cases e : s.runs.get y.run with
    | none => simp [dogCounts, e] at counts
    | some x =>
      simp only [dogCounts, e, Bool.and_eq_true, Bool.not_eq_true'] at counts
      obtain ⟨⟨-, -, running⟩, -⟩ := counts
      exact ⟨x, rfl, running⟩
  obtain ⟨x, hx, running⟩ := alive
  have mem : (l, y) ∈ (s.lsheds.filter (fun p => dogCounts s p.2)).filter (fun p => p.2.dog == 1) :=
    List.mem_filter.2 ⟨List.mem_filter.2 ⟨Map.mem_of_get hy, counts⟩, beq_iff_eq.2 last⟩
  unfold tickDogs
  refine ⟨?_, ?_⟩
  · rw [foldl_keeps State.lsheds (fun s (p : Nat × LShed) => freezeRun_lsheds s p.2.run p.2.shed)]
    simp [Map.get_mapVals, hy, counts, last]
  · exact foldl_reaches (α := Nat × LShed) (P := Watched y.run) (Q := Expired y.run) (fun _ p h => h.freeze p.2.run p.2.shed)
      (fun _ h => h.expired) (fun _ p h => h.freeze p.2.run p.2.shed) mem _ ⟨x, hx, fun f => by simp [running] at f⟩

/-- No thread of a frozen run issues. -/
theorem threadReady_of_frozen {t : Thread} {x : Run} (hx : s.runs.get t.run = some x) (frozen : x.frozen = true) :
    threadReady s t = false := by
  simp [threadReady, hx, frozen]

/-- R377: the expiry of a frozen persistent run is reported. -/
theorem execWatchdog_reports {x : Run} (hx : s.runs.get r = some x) (pers : x.pers = true) (frozen : x.frozen = true) (h : Nat) :
    ∃ t f m, execWatchdog r h s = .next t ∧ t.runs = s.runs ∧ t.faults.get f = some m ∧
      m.who = .run r ∧ m.kind = 7 ∧ m.run = r ∧ t.agenda.getLast? = some (.faultBufferEntry f) ∧ MemoryKept s t := by
  simp only [execWatchdog, hx, pers, frozen, Bool.and_self, if_true]
  refine ⟨_, s.faults.fresh, _, rfl, rfl, Map.get_set_self .., rfl, rfl, rfl, ?_, fun _ => rfl⟩
  simp [postFault]

/-! ### A cancellation, and a restore (R375) -/

theorem Aside.releaseHeld (h : Aside none s₀ s) (tid : Nat) : Aside none s₀ (releaseHeld s tid) := by
  unfold Machine.releaseHeld
  split
  · next t ht =>
    split
    · exact h
    · exact (h.setThread ht fun _ h => nomatch h).startRestore fun _ h => nomatch h
  · exact h

/-- R375: PREEMPT_CANCEL. -/
theorem execPreemptCancel_goes_on {x : Run} (hx : s.runs.get r = some x) (asked : x.preempt = true) (here : x.descheduled = false) :
    ∃ t y, execPreemptCancel r s = .next t ∧ t.runs.get r = some y ∧ y.preempt = false := by
  have answered := ((Aside.refl_none s).endCtl x (· == 1)).answerCtl r (· == 1)
  simp only [execPreemptCancel, hx, asked, here, Bool.not_true, Bool.or_self, Bool.false_eq_true, if_false]
  generalize answerCtl (endCtl s x (· == 1)) r (· == 1) = u at answered ⊢
  obtain ⟨y, hy, -⟩ := answered.flags r x hx
  have off : (u.modRun r (fun x => { x with preempt := false, requester := x.requester.filter (fun q => q.2 != 0) })).runs.get r =
      some { y with preempt := false, requester := y.requester.filter (fun q => q.2 != 0) } := by
    simp [hy]
  generalize u.modRun r _ = v at off ⊢
  have later : Aside none v ((((v.threads.filter (fun p => p.2.run == r)).foldl (fun s p => releaseHeld s p.1) v).lsheds.filter
      (fun p => p.2.run == r)).foldl (fun s p => postSlices (fillShed s p.2.shed) p.2.shed)
      ((v.threads.filter (fun p => p.2.run == r)).foldl (fun s p => releaseHeld s p.1) v)) :=
    Aside.foldl (fun _ p _ g => (g.fillShed p.2.shed).same (postSlices_parties ..)) _
      (Aside.foldl (fun _ p _ g => g.releaseHeld p.1) v (Aside.refl_none v))
  obtain ⟨z, hz, same, -⟩ := later.flags r _ off
  exact ⟨_, z, rfl, hz, same⟩

theorem Aside.restoreShed (h : Aside none s₀ s) {q d ly ls : Nat} (e : restoreShed q d ly s ls = some t) : Aside none s₀ t := by
  have any (l : Nat) : ∀ k ∈ (none : Option Nat), l ≠ k := fun _ h => nomatch h
  unfold Machine.restoreShed at e
  split at e
  · dsimp only at e
    split at e
    · obtain ⟨y, -, rfl⟩ := Option.map_eq_some_iff.1 e
      exact h.relocate (any _) ..
    · exact h.bringIn (any _) e
    · cases e
  · cases e

theorem Aside.foldlM {α : Type} {f : State → α → Option State} (step : ∀ s a t, Aside o s₀ s → f s a = some t → Aside o s₀ t)
    (l : List α) : ∀ {s : State}, Aside o s₀ s → l.foldlM f s = some t → Aside o s₀ t := by
  induction l with
  | nil => intro s h e; cases e; exact h
  | cons a later ih =>
    intro s h e
    rw [List.foldlM_cons] at e
    obtain ⟨u, first, e⟩ := Option.bind_eq_some_iff.1 e
    exact ih (step s a u h first) e

theorem Aside.placeYard (h : Aside none s₀ s) {q nls ly : Nat} {devs : List Nat}
    (e : placeYard (Machine.restoreShed q) nls devs s ly = some t) : Aside none s₀ t := by
  obtain ⟨l₁, d, l₂, -, found, -⟩ := List.findSome?_eq_some_iff.1 e
  exact Aside.foldlM (fun _ _ _ g e => g.restoreShed e) _ h found

/-- The flush bits of a run are what its header says, where it can be read (R120). -/
theorem loadFlush_get {x : Run} (hx : s.runs.get r = some x) :
    ∃ n, (loadFlush s r).runs.get r = some { x with fpctl := n } ∧
      (∀ u w, dispatchRead s x.part (x.hdr + 0x30) = some (u, w) → n = w.toNat % 2 ^ 14) ∧
      (dispatchRead s x.part (x.hdr + 0x30) = none → n = x.fpctl) := by
  simp only [loadFlush, hx]
  cases e : dispatchRead s x.part (x.hdr + 0x30) with
  | none =>
    refine ⟨x.fpctl, ?_, fun _ _ h => (nomatch h), fun _ => rfl⟩
    rw [← hx]
    exact congrArg (fun m => Map.get m r) (runs_of_parties (dispatchCheck_parties ..))
  | some p =>
    refine ⟨bits p.2 13 0, Map.get_set_self .., fun u w h => ?_, fun h => (nomatch h)⟩
    cases h
    simp [bits]

/-- R375, R120: RESTORE of a run for which sheds are found. -/
theorem execRestore_brings_back {x : Run} (hx : s.runs.get r = some x) (out : x.descheduled = true)
    (works : dispatcherStopped s x.part = false)
    (found : (List.range (x.nly + 1)).foldlM (placeYard (restoreShed r) x.nls (partDevs s x.part))
      ((loadFlush s r).modRun r (fun y => { y with preempt := false })) = some t) :
    ∃ u y, execRestore r s = .next u ∧ u.runs.get r = some y ∧ y.descheduled = false ∧ y.preempt = false ∧
      (∀ v w, dispatchRead s x.part (x.hdr + 0x30) = some (v, w) → y.fpctl = w.toNat % 2 ^ 14) ∧
      (dispatchRead s x.part (x.hdr + 0x30) = none → y.fpctl = x.fpctl) := by
  obtain ⟨n, read, bits, unread⟩ := loadFlush_get hx
  simp only [execRestore, hx, out, works, found, Bool.not_true, Bool.false_eq_true, if_false]
  have kept : Aside none _ t := Aside.foldlM (fun _ _ _ g e => g.placeYard e) _ (Aside.refl_none _) found
  obtain ⟨z, hz, unasked, stays⟩ := kept.flags r { x with fpctl := n, preempt := false } (by simp [read])
  have flush : z.fpctl = n := (stays out).2
  have back : (endCtl (t.modRun r (fun x => { x with descheduled := false })) x (· == 2)).runs.get r =
      some { z with descheduled := false } := by
    rw [runs_of_parties (endCtl_keeps ..).2]
    simp [hz]
  obtain ⟨q, hq⟩ := answerCtl_get back (· == 2)
  exact ⟨_, _, rfl, hq, rfl, unasked, fun v w h => flush.trans (bits v w h), fun h => flush.trans (unread h)⟩

end Sys2Proof.Preemption
end

section
/-! PROOFS. Pre-emption, restore, time slices and the watchdog. -/

namespace Sys2Proof.Preemption
open Sys2Proof.Machine Sys2Proof.Claims

/-- Settles O51: each happening's effect, and for a deschedule and a restore that what the dispatcher does for other logical sheds meanwhile
leaves the run's flags, the logical shed and its threads (Aside). -/
theorem preemptionHappenings : Obligations.PreemptionHappenings := by
  unfold Obligations.PreemptionHappenings
  intro s r x hx
  refine ⟨execPreemptRequest_holds hx, execPreemptCancel_goes_on hx, ?deschedule,
    fun v out works found => execRestore_brings_back hx out works found,
    fun l y hy resident mode going waiting => execTimeSlice_ends hy resident mode going waiting, ?expires,
    fun h pers frozen => execWatchdog_reports hx pers frozen h⟩
  case deschedule =>
    rintro l y settled threads lsheds hy rfl resident asked runs issues counts
    obtain ⟨t, e, gone⟩ := execDeschedule_gone settled threads lsheds hy hx resident asked runs issues counts
    obtain ⟨z, hz, away, -⟩ := (gone.out.out l rfl).shed
    refine ⟨t, z, e, hz, away, fun tid th ht of => ?_⟩
    obtain ⟨q, hq, -, hart, slot⟩ := gone.thread tid th ht of
    exact ⟨q, hq, slot, hart⟩
  case expires =>
    rintro l y hy rfl counts last
    obtain ⟨zero, z, hz, frozen, posted⟩ := tickDogs_expires hy counts last
    exact ⟨zero, posted, z, hz, frozen, fun tid th _ of => threadReady_of_frozen (of ▸ hz) frozen⟩

end Sys2Proof.Preemption
end
